-- ==== Sys2Proof/Word.lean ====
section
/-! DEFINITION. The word types of the part: a byte of a link or of a store, the 16-bit and the 32-bit quantities that
wrap (00_scope.md, Conventions). -/

namespace Sys2Proof

/-- One byte, as the links carry it. -/
abbrev Byte := BitVec 8

/-- A 16-bit unsigned quantity that wraps: an angle θ, a sequence number. -/
abbrev Word16 := BitVec 16

/-- A 32-bit unsigned quantity that wraps: B, C, a phase offset. -/
abbrev Word32 := BitVec 32

end Sys2Proof
end

