-- ==== Sys2Proof/Syntax.lean ====
section
/-! DEFINITION. The commands of the part: one constructor of `Instr` for each row of spec/opcode_table.json. -/

namespace Sys2Proof

/-- The three slave serial links (R168): Program Link, Guard Link, Monitor Link. -/
inductive Link where
  | pl
  | gl
  | ml
  deriving DecidableEq, Repr

/-- Which command an ADC result answers. The ADC does not say it (R132): the sender of the command knows it. Log 30. -/
inductive Answered where
  /-- The command of the latest tick. -/
  | latest
  /-- A command that has ended: the next tick has begun (R132), or a reset has abandoned it (R143). -/
  | ended
  deriving DecidableEq, Repr

/-- What the ADC delivers: the 16 bits of ADATA, and the command that they answer (R132). -/
structure AdcResult where
  answered : Answered
  bits : Word16
  deriving DecidableEq, Repr

/-- The commands. A tick, and an event that comes about inside a tick, carries the level that TRIG_IN shows at that tick
(R148). A request carries the link it is sent on and its parameter bytes, in the order its rule gives (R168, R181). -/
inductive Instr where
  /-- Power is applied (R178). -/
  | powerOn
  /-- The tick at which INIT ends (R178). -/
  | initEnd
  /-- RESETN is asserted with power present (R179). -/
  | pinReset
  /-- RESETN is released (R17). -/
  | resetnRelease
  /-- One sample tick, TRIG_IN sampled at `trigIn` (R3, R55, R93, R131, R148). -/
  | sampleTick (trigIn : Bool)
  /-- CYCLE_BOUNDARY: the tick at which it comes about (R3). -/
  | cycleBoundary (trigIn : Bool)
  /-- FREQ_RAMP_END: the tick at which it comes about (R9). -/
  | freqRampEnd (trigIn : Bool)
  /-- LEVEL_RAMP_END: the tick at which it comes about (R51). -/
  | levelRampEnd (trigIn : Bool)
  /-- GUARD_RAMP_END: the tick at which it comes about (R113). -/
  | guardRampEnd (trigIn : Bool)
  /-- PENDING_LIMITS_IN_FORCE: the tick at which it comes about (R116). -/
  | pendingLimitsInForce (trigIn : Bool)
  /-- LEVEL: the tick at which it comes about (R50). -/
  | level (trigIn : Bool)
  /-- FREQ: the tick at which it comes about (R73). -/
  | freq (trigIn : Bool)
  /-- PHASE_JUMP: the tick at which it comes about (R13). -/
  | phaseJump (trigIn : Bool)
  /-- SHAPE: the tick at which it comes about (R29). -/
  | shape (trigIn : Bool)
  /-- SLOTBANK: the tick at which it comes about (R37). -/
  | slotbank (trigIn : Bool)
  /-- NOISE: the tick at which it comes about (R54). -/
  | noise (trigIn : Bool)
  /-- MARK: the tick at which it comes about (R74). -/
  | mark (trigIn : Bool)
  /-- END: the tick at which it comes about (R98). -/
  | endRecord (trigIn : Bool)
  /-- LOOP_BEGIN: the tick at which it comes about (R75). -/
  | loopBegin (trigIn : Bool)
  /-- LOOP_END: the tick at which it comes about (R75). -/
  | loopEnd (trigIn : Bool)
  /-- GOTO: the tick at which it comes about (R76). -/
  | goto (trigIn : Bool)
  /-- FAULT_MARKER: the tick at which it comes about (R99). -/
  | faultMarker (trigIn : Bool)
  /-- TAKE_HOLD: the tick at which it comes about (R108). -/
  | takeHold (trigIn : Bool)
  /-- RELEASE_HOLD: the tick at which it comes about (R109). -/
  | releaseHold (trigIn : Bool)
  /-- APPLY_NOW_APPLIED: the tick at which it comes about (R106). -/
  | applyNowApplied (trigIn : Bool)
  /-- TRIP: the tick at which it comes about (R124). -/
  | trip (trigIn : Bool)
  /-- CAPTURE_DONE: the tick at which it comes about (R149). -/
  | captureDone (trigIn : Bool)
  /-- DEFERRED_TRACE_ENTRY: the tick at which it comes about (R157). -/
  | deferredTraceEntry (trigIn : Bool)
  /-- SNAPSHOT_TAKEN: the tick at which it comes about (R163). -/
  | snapshotTaken (trigIn : Bool)
  /-- AUTO_SNAPSHOT: the tick at which it comes about (R165). -/
  | autoSnapshot (trigIn : Bool)
  /-- The ADC signals ARDY and delivers a 16-bit result for the command that it answers (R132, R143). -/
  | adcResult (value : AdcResult)
  /-- A falling edge of the link's CS (R168). -/
  | csFall (link : Link)
  /-- A rising edge of the link's CS (R170). -/
  | csRise (link : Link)
  /-- The response of a taken request is formed and the link begins to respond (R169). -/
  | responseReady (link : Link)
  /-- A complete request whose code is in no row of the table of request codes (R171, R181). -/
  | unknownRequest (link : Link) (code : Byte) (params : List Byte)
  /-- READ_NOTICES, request code 0x01 (R175). -/
  | readNotices (link : Link) (params : List Byte)
  /-- SET_ALERTS, request code 0x02 (R176). -/
  | setAlerts (link : Link) (params : List Byte)
  /-- READ_TIMELINE, request code 0x03 (R15). -/
  | readTimeline (link : Link) (params : List Byte)
  /-- READ_PHASES, request code 0x04 (R177). -/
  | readPhases (link : Link) (params : List Byte)
  /-- WRITE_SHAPE, request code 0x10 (R23). -/
  | writeShape (link : Link) (params : List Byte)
  /-- READ_SHAPE, request code 0x11 (R25). -/
  | readShape (link : Link) (params : List Byte)
  /-- MAP_SHAPE, request code 0x12 (R26). -/
  | mapShape (link : Link) (params : List Byte)
  /-- READ_MAP, request code 0x13 (R28). -/
  | readMap (link : Link) (params : List Byte)
  /-- WRITE_SLOTS, request code 0x14 (R39). -/
  | writeSlots (link : Link) (params : List Byte)
  /-- READ_SLOTS, request code 0x15 (R41). -/
  | readSlots (link : Link) (params : List Byte)
  /-- SET_SEED, request code 0x16 (R44). -/
  | setSeed (link : Link) (params : List Byte)
  /-- SET_NOMINAL, request code 0x17 (R48). -/
  | setNominal (link : Link) (params : List Byte)
  /-- WRITE_RECORDS, request code 0x18 (R83). -/
  | writeRecords (link : Link) (params : List Byte)
  /-- READ_RECORDS, request code 0x19 (R85). -/
  | readRecords (link : Link) (params : List Byte)
  /-- START, request code 0x1A (R103). -/
  | start (link : Link) (params : List Byte)
  /-- STOP, request code 0x1B (R104). -/
  | stop (link : Link) (params : List Byte)
  /-- APPLY_NOW, request code 0x1C (R105). -/
  | applyNow (link : Link) (params : List Byte)
  /-- READ_RUN, request code 0x1D (R107). -/
  | readRun (link : Link) (params : List Byte)
  /-- ENABLE, request code 0x30 (R114). -/
  | enable (link : Link) (params : List Byte)
  /-- SAFE, request code 0x31 (R115). -/
  | safe (link : Link) (params : List Byte)
  /-- SET_LIMITS, request code 0x32 (R116). -/
  | setLimits (link : Link) (params : List Byte)
  /-- CLEAR_FLAGS, request code 0x33 (R117). -/
  | clearFlags (link : Link) (params : List Byte)
  /-- HOLD, request code 0x34 (R118). -/
  | hold (link : Link) (params : List Byte)
  /-- RELEASE, request code 0x35 (R119). -/
  | release (link : Link) (params : List Byte)
  /-- SET_WATCH, request code 0x36 (R120). -/
  | setWatch (link : Link) (params : List Byte)
  /-- CLEAR_TRIP, request code 0x37 (R127). -/
  | clearTrip (link : Link) (params : List Byte)
  /-- READ_GUARD, request code 0x38 (R128). -/
  | readGuard (link : Link) (params : List Byte)
  /-- SOFT_RESET, request code 0x39 (R129). -/
  | softReset (link : Link) (params : List Byte)
  /-- SET_SCAN, request code 0x50 (R135). -/
  | setScan (link : Link) (params : List Byte)
  /-- READ_MEASURE, request code 0x51 (R141). -/
  | readMeasure (link : Link) (params : List Byte)
  /-- ARM_CAPTURE, request code 0x52 (R146). -/
  | armCapture (link : Link) (params : List Byte)
  /-- TRIGGER, request code 0x53 (R151). -/
  | trigger (link : Link) (params : List Byte)
  /-- DISARM_CAPTURE, request code 0x54 (R152). -/
  | disarmCapture (link : Link) (params : List Byte)
  /-- FLUSH_CAPTURE, request code 0x55 (R153). -/
  | flushCapture (link : Link) (params : List Byte)
  /-- READ_CAPTURE, request code 0x56 (R154). -/
  | readCapture (link : Link) (params : List Byte)
  /-- READ_TRACE, request code 0x57 (R159). -/
  | readTrace (link : Link) (params : List Byte)
  /-- SNAPSHOT, request code 0x58 (R164). -/
  | snapshot (link : Link) (params : List Byte)
  /-- SET_AUTO_SNAPSHOT, request code 0x59 (R165). -/
  | setAutoSnapshot (link : Link) (params : List Byte)
  /-- READ_SNAPSHOT, request code 0x5A (R166). -/
  | readSnapshot (link : Link) (params : List Byte)
  /-- The master clocks one byte, `sdi` on SDI (R168). -/
  | byteClocked (link : Link) (sdi : Byte)
  deriving DecidableEq, Repr

/-- What a request command carries: its link, its request code and its parameter bytes; none for the other commands
(R168, R181, table of request codes). -/
def Instr.request : Instr → Option (Link × Byte × List Byte)
  | .unknownRequest link code params => some (link, code, params)
  | .readNotices link params => some (link, 0x01, params)
  | .setAlerts link params => some (link, 0x02, params)
  | .readTimeline link params => some (link, 0x03, params)
  | .readPhases link params => some (link, 0x04, params)
  | .writeShape link params => some (link, 0x10, params)
  | .readShape link params => some (link, 0x11, params)
  | .mapShape link params => some (link, 0x12, params)
  | .readMap link params => some (link, 0x13, params)
  | .writeSlots link params => some (link, 0x14, params)
  | .readSlots link params => some (link, 0x15, params)
  | .setSeed link params => some (link, 0x16, params)
  | .setNominal link params => some (link, 0x17, params)
  | .writeRecords link params => some (link, 0x18, params)
  | .readRecords link params => some (link, 0x19, params)
  | .start link params => some (link, 0x1A, params)
  | .stop link params => some (link, 0x1B, params)
  | .applyNow link params => some (link, 0x1C, params)
  | .readRun link params => some (link, 0x1D, params)
  | .enable link params => some (link, 0x30, params)
  | .safe link params => some (link, 0x31, params)
  | .setLimits link params => some (link, 0x32, params)
  | .clearFlags link params => some (link, 0x33, params)
  | .hold link params => some (link, 0x34, params)
  | .release link params => some (link, 0x35, params)
  | .setWatch link params => some (link, 0x36, params)
  | .clearTrip link params => some (link, 0x37, params)
  | .readGuard link params => some (link, 0x38, params)
  | .softReset link params => some (link, 0x39, params)
  | .setScan link params => some (link, 0x50, params)
  | .readMeasure link params => some (link, 0x51, params)
  | .armCapture link params => some (link, 0x52, params)
  | .trigger link params => some (link, 0x53, params)
  | .disarmCapture link params => some (link, 0x54, params)
  | .flushCapture link params => some (link, 0x55, params)
  | .readCapture link params => some (link, 0x56, params)
  | .readTrace link params => some (link, 0x57, params)
  | .snapshot link params => some (link, 0x58, params)
  | .setAutoSnapshot link params => some (link, 0x59, params)
  | .readSnapshot link params => some (link, 0x5A, params)
  | .powerOn => none
  | .initEnd => none
  | .pinReset => none
  | .resetnRelease => none
  | .sampleTick _ => none
  | .cycleBoundary _ => none
  | .freqRampEnd _ => none
  | .levelRampEnd _ => none
  | .guardRampEnd _ => none
  | .pendingLimitsInForce _ => none
  | .level _ => none
  | .freq _ => none
  | .phaseJump _ => none
  | .shape _ => none
  | .slotbank _ => none
  | .noise _ => none
  | .mark _ => none
  | .endRecord _ => none
  | .loopBegin _ => none
  | .loopEnd _ => none
  | .goto _ => none
  | .faultMarker _ => none
  | .takeHold _ => none
  | .releaseHold _ => none
  | .applyNowApplied _ => none
  | .trip _ => none
  | .captureDone _ => none
  | .deferredTraceEntry _ => none
  | .snapshotTaken _ => none
  | .autoSnapshot _ => none
  | .adcResult _ => none
  | .csFall _ => none
  | .csRise _ => none
  | .responseReady _ => none
  | .byteClocked _ _ => none

/-- The request code of a request command, and none for the other commands (R181, table of request codes). -/
def Instr.requestCode (i : Instr) : Option Byte := i.request.map (fun r => r.2.1)

/-- The parameter bytes of a request command, and none for the other commands. -/
def Instr.requestParams (i : Instr) : Option (List Byte) := i.request.map (fun r => r.2.2)

end Sys2Proof
end

