-- ==== Sys2Proof/WellFormed.lean ====
section
/-! DEFINITION. Which terms of `Instr` a master can send. A request's length byte holds at most 255 (R168), and a request
code that the table of request codes lists is not unknown (R171, R181). -/

namespace Sys2Proof

/-- The request codes of R181's table. -/
def requestCodes : List Byte :=
  [0x01, 0x02, 0x03, 0x04,
   0x10, 0x11, 0x12, 0x13, 0x14, 0x15, 0x16, 0x17, 0x18, 0x19, 0x1A, 0x1B, 0x1C, 0x1D,
   0x30, 0x31, 0x32, 0x33, 0x34, 0x35, 0x36, 0x37, 0x38, 0x39,
   0x50, 0x51, 0x52, 0x53, 0x54, 0x55, 0x56, 0x57, 0x58, 0x59, 0x5A]

/-- The parameter bytes fit the length byte (R168). -/
def paramsFit (params : List Byte) : Bool := params.length ≤ 255

/-- A command that can be sent: the parameters of a request fit its length byte, and UNKNOWN_REQUEST carries a code that
is in no row of the table of request codes. -/
def wellFormed (i : Instr) : Bool :=
  (match i.requestParams with
    | some params => paramsFit params
    | none => true) &&
  (match i with
    | .unknownRequest _ code _ => !requestCodes.contains code
    | _ => true)

end Sys2Proof
end

