-- ==== Sys2Proof/Decode.lean ====
section
/-! DEFINITION. The command that a word spells by the opcode table's bits, and the command that a complete request on a link
is. The table gives no row any bits (each row's "fields" is empty and none has "fixed"), so no word spells a command; a
request is told by its code (R171, R181). -/

namespace Sys2Proof

/-- No row of spec/opcode_table.json has bits. -/
def decodeTableWord (_nbits _w : Nat) : Option Instr := none

/-- The command that a request with this code is, on this link and with these parameter bytes: R181's table of request
codes; UNKNOWN_REQUEST for a code that is in no row of it (R171). -/
def commandOf (link : Link) (code : Byte) (params : List Byte) : Instr :=
  match code.toNat with
  | 0x01 => .readNotices link params
  | 0x02 => .setAlerts link params
  | 0x03 => .readTimeline link params
  | 0x04 => .readPhases link params
  | 0x10 => .writeShape link params
  | 0x11 => .readShape link params
  | 0x12 => .mapShape link params
  | 0x13 => .readMap link params
  | 0x14 => .writeSlots link params
  | 0x15 => .readSlots link params
  | 0x16 => .setSeed link params
  | 0x17 => .setNominal link params
  | 0x18 => .writeRecords link params
  | 0x19 => .readRecords link params
  | 0x1A => .start link params
  | 0x1B => .stop link params
  | 0x1C => .applyNow link params
  | 0x1D => .readRun link params
  | 0x30 => .enable link params
  | 0x31 => .safe link params
  | 0x32 => .setLimits link params
  | 0x33 => .clearFlags link params
  | 0x34 => .hold link params
  | 0x35 => .release link params
  | 0x36 => .setWatch link params
  | 0x37 => .clearTrip link params
  | 0x38 => .readGuard link params
  | 0x39 => .softReset link params
  | 0x50 => .setScan link params
  | 0x51 => .readMeasure link params
  | 0x52 => .armCapture link params
  | 0x53 => .trigger link params
  | 0x54 => .disarmCapture link params
  | 0x55 => .flushCapture link params
  | 0x56 => .readCapture link params
  | 0x57 => .readTrace link params
  | 0x58 => .snapshot link params
  | 0x59 => .setAutoSnapshot link params
  | 0x5A => .readSnapshot link params
  | _ => .unknownRequest link code params

/-- The bytes that a master clocks out to send a request command: the code, the length byte, the parameters; none for the
other commands (R168). -/
def requestBytes (i : Instr) : List Byte :=
  match i.request with
  | some (_, code, params) => code :: BitVec.ofNat 8 params.length :: params
  | none => []

end Sys2Proof
end

