-- ==== Sys2Proof/Config.lean ====
section
/-! DEFINITION. The fixed sizes of the part, and the free values: the choices the spec leaves open, each an opaque
function of a running number, so that nothing can be proved of the choice it makes. -/

namespace Sys2Proof.Config

/-- Samples in a block of the Waveform Store (R18). -/
def blockSamples : Nat := 1024

/-- Entries in one bank of the Slot Tables (R32). -/
def bankSlots : Nat := 64

/-- Records in the Schedule Memory (R70). -/
def records : Nat := 1024

/-- Entries the Record Queue holds (R88). -/
def queueEntries : Nat := 4

/-- Frames a loop stack holds (R75). -/
def loopFrames : Nat := 4

/-- Entries the Capture Buffer's FIFO holds (R144). -/
def captureEntries : Nat := 1024

/-- Entries the Event Trace holds (R156). -/
def traceEntries : Nat := 64

/-- FREE VALUE. Which link's request is taken next when several links hold an untaken request at a tick: "either may be
taken first" (R172). Log 5. -/
opaque takeChoice : Nat → Nat

/-- FREE VALUE. Whether the runner, at the detecting tick of a trip, already sees the hold flag that the trip asserts:
R93 and R124 give no order between the two blocks within the tick. Log 6. -/
opaque tripSeen : Nat → Bool

/-- FREE VALUE. The place of a trip's trace entry among the entries that the runner makes at the same tick: "in either
order" (R158). Log 7. -/
opaque tripPlace : Nat → Nat

/-- FREE VALUE. The place of a CLEAR_TRIP's trace entry among the entries that the runner makes at the tick that puts it in:
"in either order" (R157, R158). Log 7. -/
opaque clearPlace : Nat → Nat

/-- FREE VALUE. How many of the requests for the tables that wait at a tick are taken after the tick's applications have
begun, and not before its work: "no later than the first tick" (R169), either order (R24, R27, R40), and "between two SHAPE
applications of that tick" (R29, Note). Log 4. -/
opaque takenLate : Nat → Nat

/-- FREE VALUE. How many due entries are applied before the next such request is taken (R24, R27, R29 Note, R40). Log 4. -/
opaque appliedFirst : Nat → Nat

end Sys2Proof.Config
end

