-- ==== Sys2Proof/Machine/Blocks.lean ====
section
/-! DEFINITION. The types of the part's state, block by block, as the chapters' state tables give them. -/

namespace Sys2Proof.Machine

/-! ## Positions and stores -/

/-- A timeline position (C, θ) (R4). -/
structure Position where
  c : Word32
  ang : Word16
  deriving DecidableEq, Repr

/-- An addressed store: (address, byte) pairs, addresses strictly rising, no byte 0 listed. An unlisted address reads as 0,
which is what power-on INIT leaves in every store (R31, R32, R86). Log 15. -/
abbrev Memory := List Host.Cell

/-- One of the three phases. -/
inductive PhaseId where
  | a
  | b
  | c
  deriving DecidableEq, Repr

/-- A phase mask: bit 0 phase A, bit 1 phase B, bit 2 phase C (R48, R117). -/
abbrev Mask := BitVec 3

/-- Eight like things, one for each ADC channel 0..7. -/
structure Eight (α : Type) where
  c0 : α
  c1 : α
  c2 : α
  c3 : α
  c4 : α
  c5 : α
  c6 : α
  c7 : α
  deriving DecidableEq, Repr

/-! ## Timebase (R2) -/

/-- A frequency ramp in progress (R8). -/
structure FreqRamp where
  f0 : Nat
  t : Nat
  r : Nat
  k : Nat
  deriving DecidableEq, Repr

/-- The Timebase (R2). -/
structure Timebase where
  b : Word32
  inc : Nat
  f : Nat
  ramp : Option FreqRamp
  c : Word32
  oa : Word32
  ob : Word32
  oc : Word32
  deriving DecidableEq, Repr

/-! ## Shape Map and Slot Tables -/

/-- The state of a Shape Map entry (R20). -/
inductive MapEntry where
  | fixed
  | mapped (block : Nat)
  | unmapped
  deriving DecidableEq, Repr

/-- A slot action (R33). -/
inductive SlotAction where
  | pass
  | zero
  | hold
  | subst
  | invert
  deriving DecidableEq, Repr

/-- A slot entry (R32). -/
structure SlotEntry where
  action : SlotAction
  noise : Bool
  code : Int
  deriving DecidableEq, Repr

/-! ## Phase Contexts (R46) -/

/-- A level ramp in progress (R50). -/
structure LevelRamp where
  l0 : Nat
  t : Nat
  r : Nat
  k : Nat
  deriving DecidableEq, Repr

/-- One Phase Context (R46): nominal peak, level, level ramp, amplitude, shape, bank, noise amplitude, Held, last code,
sticky clamp flag. -/
structure Phase where
  p : Nat
  l : Nat
  ramp : Option LevelRamp
  a : Nat
  shape : Nat
  bank : Nat
  n : Nat
  held : Int
  last : Int
  clamp : Bool
  deriving DecidableEq, Repr

/-- The three Phase Contexts. -/
structure Phases where
  a : Phase
  b : Phase
  c : Phase
  deriving DecidableEq, Repr

/-- One output frame: the codes of phases A, B and C of one tick (R66). -/
structure Frame where
  a : Int
  b : Int
  c : Int
  deriving DecidableEq, Repr

/-- One bit of a frame on the DAC interface, as DCLK clocks it: whether DFRAME marks it, and the bit on DDATA (R67). The level of
the pin at a mark is left open: log 31. -/
structure DacBit where
  dframe : Bool
  ddata : Bool
  deriving DecidableEq, Repr

/-! ## Schedule records (R71) -/

/-- The kinds of R72 to R76; codes 11..15 are refused at fetch (R77). -/
inductive RecKind where
  | endRecord
  | level
  | freq
  | phaseJump
  | shape
  | slotbank
  | noise
  | mark
  | loopBegin
  | loopEnd
  | goto
  | unassigned (code : Nat)
  deriving DecidableEq, Repr

/-- A decoded schedule record: the seven fields of R71. -/
structure Record where
  kind : RecKind
  mask : Mask
  delay : Nat
  angle : Nat
  p1 : Nat
  p2 : Nat
  suppress : Bool
  deriving DecidableEq, Repr

/-! ## Event Runner (R87) -/

/-- The runner states. -/
inductive RunState where
  | idle
  | running
  | held
  | ended
  | faulted
  deriving DecidableEq, Repr

/-- The fault reasons of R87. -/
inductive FaultReason where
  | none
  | badRecord
  | loopDepth
  | loopUnbalanced
  | endOfMemory
  | spin
  | unmappedShape
  deriving DecidableEq, Repr

/-- Why the fetcher has stopped (R87). -/
inductive FetchHalt where
  | none
  | endRecord
  | fault
  deriving DecidableEq, Repr

/-- A loop frame: body start and remaining count (R75). -/
structure LoopFrame where
  body : Nat
  remaining : Nat
  deriving DecidableEq, Repr

/-- What a queue entry holds besides its source index and due point (R88). -/
inductive QueueItem where
  | record (r : Record)
  | marker (reason : FaultReason)
  deriving DecidableEq, Repr

/-- An entry of the Record Queue (R88). -/
structure QueueEntry where
  src : Nat
  item : QueueItem
  due : Position
  deriving DecidableEq, Repr

/-- The Event Runner (R87). The head of each loop stack's list is its top frame; the head of the queue's list is the
queue's head. -/
structure Runner where
  state : RunState
  execPtr : Nat
  cStack : List LoopFrame
  cBase : Position
  faultReason : FaultReason
  faultIndex : Nat
  fetchPtr : Nat
  fStack : List LoopFrame
  fBase : Position
  spin : Nat
  halt : FetchHalt
  allowance : Nat
  queue : List QueueEntry
  applyNow : Option Record
  deriving DecidableEq, Repr

/-! ## Output Guard (R111) -/

/-- The output states (R112). -/
inductive OutState where
  | off
  | rampUp
  | on
  | rampDown
  | tripped
  deriving DecidableEq, Repr

/-- A guard ramp in progress (R113). -/
structure GuardRamp where
  g0 : Nat
  r : Nat
  k : Nat
  deriving DecidableEq, Repr

/-- The trip causes (R111). -/
inductive TripCause where
  | none
  | peak
  | rms
  | measureLost
  deriving DecidableEq, Repr

/-- The Output Guard (R111). -/
structure Guard where
  out : OutState
  g : Nat
  ramp : Option GuardRamp
  lo : Int
  hi : Int
  pendingLimits : Option (Int × Int)
  hold : Bool
  watch : Byte
  ipk : Nat
  kp : Nat
  irms : Nat
  kr : Nat
  peak : Eight Nat
  rms : Eight Nat
  missingRun : Nat
  tripCause : TripCause
  tripChannel : Nat
  tripStamp : Position
  deriving DecidableEq, Repr

/-! ## Measurement Scanner (R130) -/

/-- The outstanding command: its channel and stamp, and the gain code it carried on ACMD (R131, R132). -/
structure AdcCommand where
  channel : Nat
  gain : Nat
  stamp : Position
  deriving DecidableEq, Repr

/-- The accumulator of one channel (R138). -/
structure Accumulator where
  sum : Nat
  count : Nat
  peak : Nat
  deriving DecidableEq, Repr

/-- The data of a cycle record (R139). -/
structure CycleData where
  rms : Nat
  peak : Nat
  count : Nat
  deriving DecidableEq, Repr

/-- The cycle record of one channel; absent data is NO_DATA (R139). -/
structure CycleRecord where
  data : Option CycleData
  cycle : Word32
  deriving DecidableEq, Repr

/-- The latest conversion of one channel (R130). -/
structure Conversion where
  value : Int
  stamp : Position
  deriving DecidableEq, Repr

/-- The per-channel state of the Scanner (R130). -/
structure Channel where
  gain : Nat
  acc : Accumulator
  cycleRec : CycleRecord
  latest : Option Conversion
  missing : Bool
  deriving DecidableEq, Repr

/-- The Measurement Scanner (R130). `result` is the result read whole for the outstanding command (R132). -/
structure Scanner where
  stop : Nat
  ptr : Nat
  outstanding : Option AdcCommand
  result : Option Int
  channels : Eight Channel
  deriving DecidableEq, Repr

/-! ## Capture Buffer (R144) and Event Trace (R156) -/

/-- The capture states. -/
inductive CapState where
  | disarmed
  | armed
  | capturing
  | complete
  deriving DecidableEq, Repr

/-- The trigger sources (R147). -/
inductive TriggerSource where
  | request
  | mark
  | external
  | trip
  | cycle
  deriving DecidableEq, Repr

/-- The settings of an ARM_CAPTURE (R146). `filterMatch` is filter mode 1. -/
structure ArmSettings where
  source : TriggerSource
  filterMatch : Bool
  filterValue : Nat
  mask : Byte
  cycleFlag : Bool
  window : Nat
  deriving DecidableEq, Repr

/-- The two kinds of capture entry (R145). -/
inductive CapKind where
  | conversion
  | cycle
  deriving DecidableEq, Repr

/-- A capture entry (R145). -/
structure CapEntry where
  kind : CapKind
  channel : Nat
  cycleStamp : Word16
  angleStamp : Word16
  value : Int
  aux : Nat
  deriving DecidableEq, Repr

/-- The Capture Buffer (R144). The FIFO's list is oldest first. -/
structure Capture where
  state : CapState
  arm : Option ArmSettings
  count : Nat
  loss : Bool
  stamp : Option Position
  trigLevel : Bool
  fifo : List CapEntry
  deriving DecidableEq, Repr

/-- The types of trace entry (R156). -/
inductive TraceType where
  | record
  | start
  | stop
  | endEntry
  | fault
  | hold
  | release
  | trip
  | clearTrip
  deriving DecidableEq, Repr

/-- The detail field of a trace entry (R157). A FAULT's holds the reason and the source index, as R99 says; R157 and R181 name
the reason alone there. Log 28. -/
inductive TraceDetail where
  | nothing
  | marker (value : Nat)
  | fault (reason : FaultReason) (index : Nat)
  | tripped (cause : TripCause) (channel : Nat)
  deriving DecidableEq, Repr

/-- A trace entry (R156). Positions in it carry the low 16 bits of C. -/
structure TraceEntry where
  type : TraceType
  index : Nat
  kind : Nat
  mask : Mask
  dueC : Word16
  dueAng : Word16
  stampC : Word16
  stampAng : Word16
  late : Bool
  clamped : Bool
  detail : TraceDetail
  deriving DecidableEq, Repr

/-- An entry formed when START, STOP or CLEAR_TRIP is taken, waiting for its tick (R157). -/
structure DeferredEntry where
  type : TraceType
  index : Nat
  deriving DecidableEq, Repr

/-- The Event Trace (R156). `made` holds the entries made in the tick under way; it is the model's own and is empty
between ticks. -/
structure Trace where
  fifo : List TraceEntry
  deferred : List DeferredEntry
  made : List TraceEntry
  deriving DecidableEq, Repr

/-! ## Counter Bank (R161, R162) -/

/-- One set of the nine counters, in the order of R161's table. -/
structure Nine where
  clampA : Nat
  clampB : Nat
  clampC : Nat
  applied : Nat
  late : Nat
  overcurrent : Nat
  missing : Nat
  captureLost : Nat
  traceLost : Nat
  deriving DecidableEq, Repr

/-- The Counter Bank (R161, R162). -/
structure CounterBank where
  live : Nine
  snap : Nine
  seq : Word16
  stamp : Position
  request : Bool
  interval : Nat
  boundary : Nat
  deriving DecidableEq, Repr

/-! ## Links (R168 to R176) -/

/-- The transaction states of a link (R168). -/
inductive TxState where
  | idle
  | receiving
  | waiting
  | responding
  | drained
  | discard
  deriving DecidableEq, Repr

/-- A complete request: code, length byte n, parameter bytes, and whether its last byte arrived during INIT (R178). -/
structure Request where
  code : Byte
  n : Nat
  params : List Byte
  inInit : Bool
  deriving DecidableEq, Repr

/-- The requests whose data are formed at the first tick after the last byte (R169). -/
inductive AsOf where
  | timeline
  | phases
  | run
  | guard
  | measure
  deriving DecidableEq, Repr

/-- The response of a taken request: its bytes, or the report that the next tick forms. -/
inductive Response where
  | formed (bytes : List Byte)
  | atTick (report : AsOf)
  deriving DecidableEq, Repr

/-- One link: its transaction (R168 to R170), its notice set and its alert enable mask (R173 to R176). -/
structure LinkState where
  csLow : Bool
  tx : TxState
  rx : List Byte
  untaken : List Request
  resp : Option Response
  out : List Byte
  sdo : Byte
  softReset : Bool
  notices : Byte
  enable : Byte
  deriving DecidableEq, Repr

/-- The three links. -/
structure Links where
  pl : LinkState
  gl : LinkState
  ml : LinkState
  deriving DecidableEq, Repr

/-! ## What comes about at a tick -/

/-- The events of a tick that are rows of the opcode table. The model's own record of the latest tick. Log 22. -/
inductive TickEvent where
  | cycleBoundary
  | freqRampEnd
  | levelRampEnd
  | guardRampEnd
  | limitsInForce
  | applied (kind : RecKind)
  | marked (marker : Nat)
  | faultMarker
  | unmappedShape
  | takeHold
  | releaseHold
  | applyNow
  | trip
  | captureDone
  | deferredEntry
  | snapshotTaken
  | autoSnapshot
  deriving DecidableEq, Repr

end Sys2Proof.Machine
end

