-- ==== Sys2Proof/Machine/ResetValues.lean ====
section
/-! DEFINITION. The value of each block after a reset: the "Reset value" columns of the chapters' state tables. -/

namespace Sys2Proof.Machine

/-- The position (0, 0). -/
def zeroPosition : Position := { c := 0, ang := 0 }

/-- Eight copies of one thing. -/
def eightOf {α : Type} (x : α) : Eight α := ⟨x, x, x, x, x, x, x, x⟩

/-- R2. -/
def timebaseReset : Timebase :=
  { b := 0, inc := 8388608, f := 50000, ramp := none, c := 0,
    oa := 0, ob := 1431655765, oc := 2863311531 }

/-- R46. -/
def phaseReset : Phase :=
  { p := 0, l := 32768, ramp := none, a := 0, shape := 0, bank := 0, n := 0, held := 0, last := 0, clamp := false }

/-- R46, all three contexts. -/
def phasesReset : Phases := { a := phaseReset, b := phaseReset, c := phaseReset }

/-- R42. -/
def lfsrReset : BitVec 17 := 1

/-- R68: three codes of 0. -/
def frameZero : Frame := { a := 0, b := 0, c := 0 }

/-- R87. -/
def runnerReset : Runner :=
  { state := .idle, execPtr := 0, cStack := [], cBase := zeroPosition, faultReason := .none, faultIndex := 0,
    fetchPtr := 0, fStack := [], fBase := zeroPosition, spin := 0, halt := .none, allowance := 8, queue := [],
    applyNow := none }

/-- R111. -/
def guardReset : Guard :=
  { out := .off, g := 0, ramp := none, lo := -32768, hi := 32767, pendingLimits := none, hold := false, watch := 0,
    ipk := 32767, kp := 1, irms := 32767, kr := 1, peak := eightOf 0, rms := eightOf 0, missingRun := 0,
    tripCause := .none, tripChannel := 0, tripStamp := zeroPosition }

/-- R138: an empty accumulator. -/
def accumulatorZero : Accumulator := { sum := 0, count := 0, peak := 0 }

/-- R130, the per-channel fields. -/
def channelReset : Channel :=
  { gain := 0, acc := accumulatorZero, cycleRec := { data := none, cycle := 0 }, latest := none, missing := false }

/-- R130. -/
def scannerReset : Scanner :=
  { stop := 7, ptr := 0, outstanding := none, result := none, channels := eightOf channelReset }

/-- R144. -/
def captureReset : Capture :=
  { state := .disarmed, arm := none, count := 0, loss := false, stamp := none, trigLevel := true, fifo := [] }

/-- R160. -/
def traceReset : Trace := { fifo := [], deferred := [], made := [] }

/-- Nine counters at 0. -/
def nineZero : Nine :=
  { clampA := 0, clampB := 0, clampC := 0, applied := 0, late := 0, overcurrent := 0, missing := 0, captureLost := 0,
    traceLost := 0 }

/-- R162. -/
def countersReset : CounterBank :=
  { live := nineZero, snap := nineZero, seq := 0, stamp := zeroPosition, request := false, interval := 0,
    boundary := 0 }

/-- The mask that enables all the notices of a link (R173, R176). -/
def allNotices : Link → Byte
  | .pl => 0x0F
  | .gl => 0x07
  | .ml => 0x3F

/-- An idle link with CS high, no request and no notice (R168, R173, R176). The value of `sdo` is the model's: log 13. -/
def linkReset (l : Link) : LinkState :=
  { csLow := false, tx := .idle, rx := [], untaken := [], resp := none, out := [], sdo := 0xFF, softReset := false,
    notices := 0, enable := allNotices l }

/-- The three links, idle. -/
def linksReset : Links := { pl := linkReset .pl, gl := linkReset .gl, ml := linkReset .ml }

end Sys2Proof.Machine
end

