-- ==== Sys2Proof/Machine/State.lean ====
section
/-! DEFINITION. The whole state of the part, its reasons to stop, and the state after reset. -/

namespace Sys2Proof.Machine

/-- No fault stops the part: the runner's faults are the runner state FAULTED (R87), a trip is an output state (R112), and
a refused request is answered with a status (R169). So there is no constructor. -/
inductive Fault where
  deriving DecidableEq, Repr

/-- Why a command has no meaning. -/
inductive Refusal where
  /-- Raised by exec for a command that has no meaning yet. Safe: the machine stops where the part goes on. -/
  | notModelled (mnemonic : String)
  /-- Raised by a request command that no master can send: more than 255 parameter bytes, or UNKNOWN_REQUEST with a code
  that is known (see `wellFormed`). Safe: the part never meets such a command. Log 26. -/
  | illFormed
  deriving DecidableEq, Repr

/-- The state of the part. INVENTORY.md lists each field with its rule and its reset value. -/
structure State where
  inInit : Bool
  resetLow : Bool
  tb : Timebase
  wave : Memory
  map : Memory
  slots : Memory
  sched : Memory
  lfsr : BitVec 17
  ph : Phases
  frame : Frame
  run : Runner
  guard : Guard
  scan : Scanner
  cap : Capture
  trace : Trace
  cnt : CounterBank
  links : Links
  events : List TickEvent
  free : Nat
  pending : List Instr
  deriving DecidableEq, Repr

/-- The part at the end of power-on INIT: every block at its reset value, the memories cleared (R16, R31, R32, R86, R178),
RESETN and every CS high. Log 1. -/
def State.reset : State :=
  { inInit := false, resetLow := false, tb := timebaseReset, wave := [], map := [], slots := [], sched := [],
    lfsr := lfsrReset, ph := phasesReset, frame := frameZero, run := runnerReset, guard := guardReset,
    scan := scannerReset, cap := captureReset, trace := traceReset, cnt := countersReset, links := linksReset,
    events := [], free := 0, pending := [] }

end Sys2Proof.Machine
end

