-- ==== Sys2Proof/Machine/Ops.lean ====
section
/-! DEFINITION. The operations that every block uses: the rounding of R1, bytes and signed values, the addressed stores,
positions, phase masks, the eight channels. -/

namespace Sys2Proof.Machine

/-! ## Rounding (R1) -/

/-- `n / d` rounded to the nearest integer, halves upward, for a non-negative quotient (R1). In such terms a literal stands
before a variable, so that a check by unfolding stops at the variable and does not count through the literal. -/
def roundNat (n d : Nat) : Nat := (d + 2 * n) / (2 * d)

/-- `n / d` rounded to the nearest integer, halves away from zero (R1). -/
def roundInt (n : Int) (d : Nat) : Int :=
  if n < 0 then -((roundNat n.natAbs d : Nat) : Int) else ((roundNat n.natAbs d : Nat) : Int)

/-- The value a ramp has after step `k` of `r`, from `x0` to `t`: x0 + round((t - x0) × k / r) (R9, R51). -/
def rampValue (x0 t r k : Nat) : Nat :=
  ((x0 : Int) + roundInt (((t : Int) - (x0 : Int)) * (k : Int)) r).toNat

/-- floor(sqrt n), bit by bit from bit `b - 1` down, for n below 2^(2b) (R139). -/
def sqrtFrom : Nat → Nat → Nat → Nat
  | 0, _, r => r
  | b + 1, n, r => if (r + 2 ^ b) * (r + 2 ^ b) ≤ n then sqrtFrom b n (r + 2 ^ b) else sqrtFrom b n r

/-- floor(sqrt n) for n below 2^64 (R139). -/
def floorSqrt (n : Nat) : Nat := sqrtFrom 32 n 0

/-! ## Bytes and signed values (R181) -/

/-- `n` as `k` bytes, little-endian. -/
def leBytes : Nat → Nat → List Byte
  | 0, _ => []
  | k + 1, n => BitVec.ofNat 8 n :: leBytes k (n / 256)

/-- The unsigned value of little-endian bytes. -/
def leNat : List Byte → Nat
  | [] => 0
  | b :: bs => b.toNat + 256 * leNat bs

/-- A 16-bit pattern read as two's complement. -/
def signed16 (n : Nat) : Int := if n % 65536 < 32768 then ((n % 65536 : Nat) : Int) else ((n % 65536 : Nat) : Int) - 65536

/-- The 16-bit two's complement pattern of a value. -/
def pattern16 (x : Int) : Nat := (x % 65536).toNat

/-- A signed value as two bytes. -/
def leInt16 (x : Int) : List Byte := leBytes 2 (pattern16 x)

/-- A flag as one byte: 1 for set, 0 for clear. -/
def flagByte (b : Bool) : Byte := if b then 1 else 0

/-- A position as C (4 bytes) then θ (2 bytes). -/
def positionBytes (p : Position) : List Byte := leBytes 4 p.c.toNat ++ leBytes 2 p.ang.toNat

/-! ## The addressed stores -/

/-- The byte at an address; an unlisted address reads as 0 (R31, R32, R86). -/
def Memory.read : Memory → Nat → Byte
  | [], _ => 0
  | (k, v) :: m, a => if k = a then v else Memory.read m a

/-- The store with one byte written, in canonical form. -/
def Memory.write : Memory → Nat → Byte → Memory
  | [], a, b => if b = 0 then [] else [(a, b)]
  | (k, v) :: m, a, b =>
    if a < k then (if b = 0 then (k, v) :: m else (a, b) :: (k, v) :: m)
    else if a = k then (if b = 0 then m else (a, b) :: m)
    else (k, v) :: Memory.write m a b

/-- `n` bytes from an address on. -/
def Memory.readBytes (m : Memory) : Nat → Nat → List Byte
  | _, 0 => []
  | a, n + 1 => m.read a :: Memory.readBytes m (a + 1) n

/-- The store with bytes written from an address on. -/
def Memory.writeBytes (m : Memory) : Nat → List Byte → Memory
  | _, [] => m
  | a, b :: bs => Memory.writeBytes (m.write a b) (a + 1) bs

/-- Every address of the list is above `lo`, rising, and no byte 0 is listed. -/
def Memory.above : Memory → Nat → Bool
  | [], _ => true
  | (k, v) :: m, lo => decide (lo ≤ k) && !(v == 0) && Memory.above m (k + 1)

/-- The canonical form: addresses strictly rising, no byte 0 listed. -/
def Memory.wf (m : Memory) : Bool := m.above 0

/-- No listed address is at or above `size`. -/
def Memory.within (m : Memory) (size : Nat) : Bool := m.all (fun cell => decide (cell.1 < size))

/-! ## Positions (R4) -/

/-- "At or before": first by C, then by θ, unsigned (R4). -/
def Position.le (p q : Position) : Bool :=
  decide (p.c.toNat < q.c.toNat) || (decide (p.c.toNat = q.c.toNat) && decide (p.ang.toNat ≤ q.ang.toNat))

/-- The low 16 bits of C, as stamps of trace and capture entries carry it (R145, R156). -/
def Position.cLow (p : Position) : Word16 := p.c.setWidth 16

/-! ## Phases -/

/-- Whether a mask names a phase. -/
def Mask.names (m : Mask) : PhaseId → Bool
  | .a => m.getLsbD 0
  | .b => m.getLsbD 1
  | .c => m.getLsbD 2

/-- One of the three contexts. -/
def Phases.get (ph : Phases) : PhaseId → Phase
  | .a => ph.a
  | .b => ph.b
  | .c => ph.c

/-- The contexts with one of them set. -/
def Phases.set (ph : Phases) : PhaseId → Phase → Phases
  | .a, x => { ph with a := x }
  | .b, x => { ph with b := x }
  | .c, x => { ph with c := x }

/-- The contexts with `f` applied to each masked phase. -/
def Phases.onMask (ph : Phases) (m : Mask) (f : Phase → Phase) : Phases :=
  { a := if Mask.names m .a then f ph.a else ph.a
    b := if Mask.names m .b then f ph.b else ph.b
    c := if Mask.names m .c then f ph.c else ph.c }

/-- The contexts with `f` applied to each phase. -/
def Phases.each (ph : Phases) (f : Phase → Phase) : Phases := { a := f ph.a, b := f ph.b, c := f ph.c }

/-! ## The eight channels -/

/-- The thing of channel `i` (of channel 7 for any number above 6). -/
def Eight.get {α : Type} (e : Eight α) : Nat → α
  | 0 => e.c0
  | 1 => e.c1
  | 2 => e.c2
  | 3 => e.c3
  | 4 => e.c4
  | 5 => e.c5
  | 6 => e.c6
  | _ => e.c7

/-- The eight with channel `i` set. -/
def Eight.set {α : Type} (e : Eight α) (i : Nat) (x : α) : Eight α :=
  match i with
  | 0 => { e with c0 := x }
  | 1 => { e with c1 := x }
  | 2 => { e with c2 := x }
  | 3 => { e with c3 := x }
  | 4 => { e with c4 := x }
  | 5 => { e with c5 := x }
  | 6 => { e with c6 := x }
  | _ => { e with c7 := x }

/-- Each channel's thing, mapped with its channel number. -/
def Eight.mapIdx {α β : Type} (e : Eight α) (f : Nat → α → β) : Eight β :=
  ⟨f 0 e.c0, f 1 e.c1, f 2 e.c2, f 3 e.c3, f 4 e.c4, f 5 e.c5, f 6 e.c6, f 7 e.c7⟩

/-- The eight in channel order. -/
def Eight.toList {α : Type} (e : Eight α) : List α := [e.c0, e.c1, e.c2, e.c3, e.c4, e.c5, e.c6, e.c7]

/-- The channel numbers in order. -/
def channelNumbers : List Nat := [0, 1, 2, 3, 4, 5, 6, 7]

/-- Whether a channel mask names a channel: bit i for channel i. R120 and R146 say "one bit for each of channels 0..7" and not
which, so the order is the model's choice: log 29. -/
def channelIn (m : Byte) (i : Nat) : Bool := m.getLsbD i

/-- The highest channel of a mask, and none for the empty mask. -/
def highestChannel (m : Byte) : Option Nat := channelNumbers.reverse.find? (fun i => channelIn m i)

end Sys2Proof.Machine
end

