-- ==== Sys2Proof/Machine/Flags.lean ====
section
/-! DEFINITION. Every flag the part keeps: the notices and alert lines of the links (R173, R174), and the saturating
counters of the Counter Bank (R161). -/

namespace Sys2Proof.Machine

/-! ## Links -/

/-- One of the three links. -/
def Links.get (ls : Links) : Link → LinkState
  | .pl => ls.pl
  | .gl => ls.gl
  | .ml => ls.ml

/-- The links with one of them set. -/
def Links.set (ls : Links) : Link → LinkState → Links
  | .pl, x => { ls with pl := x }
  | .gl, x => { ls with gl := x }
  | .ml, x => { ls with ml := x }

/-! ## Notices (R173) -/

/-- The notices, under the names of R173's table. -/
inductive Notice where
  | runEnded
  | runFaulted
  | runHeld
  | tripped
  | clampedFirst
  | captureHalf
  | captureDone
  | captureLoss
  | traceHalf
  | snapshotReady
  | scanChanged
  deriving DecidableEq, Repr

/-- A notice's bit in the notice byte of a link; 0 where the link does not have the notice (R173's table). -/
def noticeBit : Link → Notice → Byte
  | .pl, .runEnded => 0x01
  | .pl, .runFaulted => 0x02
  | .pl, .runHeld => 0x04
  | .pl, .tripped => 0x08
  | .gl, .tripped => 0x01
  | .gl, .clampedFirst => 0x02
  | .gl, .runFaulted => 0x04
  | .ml, .captureHalf => 0x01
  | .ml, .captureDone => 0x02
  | .ml, .captureLoss => 0x04
  | .ml, .traceHalf => 0x08
  | .ml, .snapshotReady => 0x10
  | .ml, .scanChanged => 0x20
  | _, _ => 0

/-- One link with a notice raised; a notice already in the set leaves it as it is (R173). -/
def LinkState.raise (lk : LinkState) (l : Link) (n : Notice) : LinkState :=
  { lk with notices := lk.notices ||| noticeBit l n }

/-- A notice raised on every link that has it (R173). -/
def Links.raise (ls : Links) (n : Notice) : Links :=
  { pl := ls.pl.raise .pl n, gl := ls.gl.raise .gl n, ml := ls.ml.raise .ml n }

/-- A notice raised if the condition holds. -/
def Links.raiseIf (ls : Links) (cond : Bool) (n : Notice) : Links := if cond then ls.raise n else ls

/-- The ALERT output: asserted while an enabled notice is in the set, and deasserted in INIT and while RESETN is held
(R174). -/
def State.alert (s : State) (l : Link) : Bool :=
  !s.inInit && !s.resetLow && ((s.links.get l).notices &&& (s.links.get l).enable != 0)

/-! ## Counters (R161) -/

/-- A counter incremented `k` times: an increment at 65,535 is lost (R161). -/
def saturate (n k : Nat) : Nat := min (n + k) 65535

/-- Persistence counts saturate at 255 (R121, R122). -/
def saturate255 (n : Nat) : Nat := min (n + 1) 255

/-- The live set with APPLIED incremented. -/
def Nine.addApplied (n : Nine) : Nine := { n with applied := saturate n.applied 1 }

/-- The live set with LATE incremented if the record is late. -/
def Nine.addLate (n : Nine) (late : Bool) : Nine := if late then { n with late := saturate n.late 1 } else n

/-- The Counter Bank with its live set changed. -/
def CounterBank.count (c : CounterBank) (f : Nine → Nine) : CounterBank := { c with live := f c.live }

end Sys2Proof.Machine
end

