-- ==== Sys2Proof/Machine/Operands.lean ====
section
/-! DEFINITION. The operands of requests: the parameter bytes, in the order and with the widths that each request's rule
gives, and the answer a request gets (R169, R181). -/

namespace Sys2Proof.Machine

/-- The parameter byte at offset `i`. -/
def byteAt (ps : List Byte) (i : Nat) : Nat := (ps.getD i 0).toNat

/-- The two-byte parameter at offset `i`, little-endian. -/
def wordAt (ps : List Byte) (i : Nat) : Nat := byteAt ps i + 256 * byteAt ps (i + 1)

/-- The four-byte parameter at offset `i`, little-endian. -/
def dwordAt (ps : List Byte) (i : Nat) : Nat := wordAt ps i + 65536 * wordAt ps (i + 2)

/-- The two-byte signed parameter at offset `i`. -/
def signedAt (ps : List Byte) (i : Nat) : Int := signed16 (wordAt ps i)

/-- The status codes (R169). -/
inductive Status where
  | ok
  | clamped
  | busy
  | inUse
  | badValue
  | unknown
  | wrongLink
  | length
  | notReady
  | tripped
  | held
  deriving DecidableEq, Repr

/-- The code of a status (R169). -/
def statusCode : Status → Byte
  | .ok => 0x00
  | .clamped => 0x01
  | .busy => 0x02
  | .inUse => 0x03
  | .badValue => 0x04
  | .unknown => 0x05
  | .wrongLink => 0x06
  | .length => 0x07
  | .notReady => 0x08
  | .tripped => 0x09
  | .held => 0x0A

/-- What a taken or refused request answers: a status with no data, OK with data, or OK with the report that the first
tick after the last byte forms (R169). -/
inductive Answer where
  | status (st : Status)
  | data (bytes : List Byte)
  | report (r : AsOf)
  deriving DecidableEq, Repr

/-- A response: status byte, data length byte, data (R169). -/
def responseBytes (st : Status) (data : List Byte) : List Byte :=
  statusCode st :: BitVec.ofNat 8 data.length :: data

/-- The response an answer leads to. -/
def responseOf : Answer → Response
  | .status st => .formed (responseBytes st [])
  | .data bytes => .formed (responseBytes .ok bytes)
  | .report r => .atTick r

/-- The state with a request refused: nothing changes (R171). -/
def refuse (s : State) (st : Status) : Answer × State := (.status st, s)

end Sys2Proof.Machine
end

