-- ==== Sys2Proof/Machine/Timebase.lean ====
section
/-! DEFINITION. The Timebase: the accumulator and the cycle count, frequency and frequency ramps, offsets and phase jumps,
and the report of READ_TIMELINE (01_timeline_and_frequency_control.md). -/

namespace Sys2Proof.Machine

/-- The timeline position (C, θ) with θ the top 16 bits of B (R4). -/
def Timebase.position (tb : Timebase) : Position := { c := tb.c, ang := BitVec.ofNat 16 (tb.b.toNat / 65536) }

/-- The increment of a frequency: round(F × 2^32 / 25,600,000) (R5). -/
def incrementOf (f : Nat) : Nat := roundNat (4294967296 * f) 25600000

/-- F written, and I recomputed at the same moment (R5). -/
def Timebase.setFreq (tb : Timebase) (f : Nat) : Timebase := { tb with f := f, inc := incrementOf f }

/-- Whether the next advance wraps past 2^32: that tick is a cycle boundary (R3). -/
def Timebase.wraps (tb : Timebase) : Bool := decide (4294967296 ≤ tb.b.toNat + tb.inc)

/-- One step of a frequency ramp, made at a cycle boundary (R9). -/
def Timebase.rampStep (tb : Timebase) : Timebase :=
  match tb.ramp with
  | none => tb
  | some rp =>
    if rp.k + 1 = rp.r then { tb.setFreq rp.t with ramp := none }
    else { tb.setFreq (rampValue rp.f0 rp.t rp.r (rp.k + 1)) with ramp := some { rp with k := rp.k + 1 } }

/-- Whether the ramp's next step is its last (R9). -/
def Timebase.rampEnds (tb : Timebase) : Bool :=
  match tb.ramp with
  | none => false
  | some rp => decide (rp.k + 1 = rp.r)

/-- The tick's advance of B by the I held when the tick begins, with C and the ramp at a boundary (R3, R9). -/
def Timebase.advance (tb : Timebase) : Timebase :=
  let moved := { tb with b := tb.b + BitVec.ofNat 32 tb.inc }
  if tb.wraps then { moved with c := tb.c + 1 }.rampStep else moved

/-! ## Frequency changes (R6 to R8) -/

/-- The target of a FREQ record: 40,000 plus p1 clamped to 30,000 (R7). -/
def freqTarget (p1 : Nat) : Nat := 40000 + min p1 30000

/-- Whether the p1 of a FREQ is clamped (R7). -/
def freqClamped (p1 : Nat) : Bool := decide (30000 < p1)

/-- A FREQ applied: at once for length 0 (R6), else a ramp begun from the F that holds (R8). -/
def Timebase.applyFreq (tb : Timebase) (p1 p2 : Nat) : Timebase :=
  if p2 = 0 then { tb.setFreq (freqTarget p1) with ramp := none }
  else { tb with ramp := some { f0 := tb.f, t := freqTarget p1, r := p2, k := 0 } }

/-! ## Offsets (R12, R13) -/

/-- The offset of a phase. -/
def Timebase.offset (tb : Timebase) : PhaseId → Word32
  | .a => tb.oa
  | .b => tb.ob
  | .c => tb.oc

/-- The angle φ of a phase: (B + Op) mod 2^32 (R12). -/
def Timebase.phi (tb : Timebase) (p : PhaseId) : Word32 := tb.b + tb.offset p

/-- An offset turned by delta d: (Op + d × 65,536) mod 2^32 (R13). -/
def turned (o : Word32) (d : Nat) : Word32 := o + BitVec.ofNat 32 (65536 * d)

/-- A PHASE_JUMP applied to each masked phase's offset (R13). -/
def Timebase.applyJump (tb : Timebase) (m : Mask) (d : Nat) : Timebase :=
  { tb with
    oa := if Mask.names m .a then turned tb.oa d else tb.oa
    ob := if Mask.names m .b then turned tb.ob d else tb.ob
    oc := if Mask.names m .c then turned tb.oc d else tb.oc }

/-! ## READ_TIMELINE (R15) -/

/-- The 28 data bytes of READ_TIMELINE (R15, R181). -/
def timelineBytes (tb : Timebase) : List Byte :=
  positionBytes tb.position ++ leBytes 4 tb.f ++
  leBytes 4 tb.oa.toNat ++ leBytes 4 tb.ob.toNat ++ leBytes 4 tb.oc.toNat ++
  (match tb.ramp with
    | none => leBytes 4 0 ++ leBytes 2 0
    | some rp => leBytes 4 rp.t ++ leBytes 2 (rp.r - rp.k))

/-- READ_TIMELINE, taken on every link (R15). -/
def takeReadTimeline (ps : List Byte) (s : State) : Answer × State :=
  if ps.length = 0 then (.report .timeline, s) else refuse s .length

end Sys2Proof.Machine
end

