-- ==== Sys2Proof/Machine/Waveform.lean ====
section
/-! DEFINITION. The Waveform Store and the Shape Map: the ROM sine, the RAM blocks, map entries and currency, and their
requests (02_waveform_store_and_shape_map.md). -/

namespace Sys2Proof.Machine

/-! ## The ROM sine (R19) -/

/-- Quarter wave of the ROM sine, samples 0..63 (R19). Log 17. -/
def sineQuarter0 : List Nat := [
   0, 201, 402, 603, 804, 1005, 1206, 1407, 1608, 1809, 2009, 2210, 2410,
   2611, 2811, 3012, 3212, 3412, 3612, 3811, 4011, 4210, 4410, 4609, 4808, 5007,
   5205, 5404, 5602, 5800, 5998, 6195, 6393, 6590, 6786, 6983, 7179, 7375, 7571,
   7767, 7962, 8157, 8351, 8545, 8739, 8933, 9126, 9319, 9512, 9704, 9896, 10087,
   10278, 10469, 10659, 10849, 11039, 11228, 11417, 11605, 11793, 11980, 12167, 12353]

/-- Quarter wave of the ROM sine, samples 64..127 (R19). Log 17. -/
def sineQuarter1 : List Nat := [
   12539, 12725, 12910, 13094, 13279, 13462, 13645, 13828, 14010, 14191, 14372, 14553, 14732,
   14912, 15090, 15269, 15446, 15623, 15800, 15976, 16151, 16325, 16499, 16673, 16846, 17018,
   17189, 17360, 17530, 17700, 17869, 18037, 18204, 18371, 18537, 18703, 18868, 19032, 19195,
   19357, 19519, 19680, 19841, 20000, 20159, 20317, 20475, 20631, 20787, 20942, 21096, 21250,
   21403, 21554, 21705, 21856, 22005, 22154, 22301, 22448, 22594, 22739, 22884, 23027]

/-- Quarter wave of the ROM sine, samples 128..191 (R19). Log 17. -/
def sineQuarter2 : List Nat := [
   23170, 23311, 23452, 23592, 23731, 23870, 24007, 24143, 24279, 24413, 24547, 24680, 24811,
   24942, 25072, 25201, 25329, 25456, 25582, 25708, 25832, 25955, 26077, 26198, 26319, 26438,
   26556, 26674, 26790, 26905, 27019, 27133, 27245, 27356, 27466, 27575, 27683, 27790, 27896,
   28001, 28105, 28208, 28310, 28411, 28510, 28609, 28706, 28803, 28898, 28992, 29085, 29177,
   29268, 29358, 29447, 29534, 29621, 29706, 29791, 29874, 29956, 30037, 30117, 30195]

/-- Quarter wave of the ROM sine, samples 192..256 (R19). Log 17. -/
def sineQuarter3 : List Nat := [
   30273, 30349, 30424, 30498, 30571, 30643, 30714, 30783, 30852, 30919, 30985, 31050, 31113,
   31176, 31237, 31297, 31356, 31414, 31470, 31526, 31580, 31633, 31685, 31736, 31785, 31833,
   31880, 31926, 31971, 32014, 32057, 32098, 32137, 32176, 32213, 32250, 32285, 32318, 32351,
   32382, 32412, 32441, 32469, 32495, 32521, 32545, 32567, 32589, 32609, 32628, 32646, 32663,
   32678, 32692, 32705, 32717, 32728, 32737, 32745, 32752, 32757, 32761, 32765, 32766, 32767]

/-- The first quarter of the ROM sine, samples 0..256. -/
def sineQuarter : List Nat := sineQuarter0 ++ sineQuarter1 ++ sineQuarter2 ++ sineQuarter3

/-- A sample of the first half of the ROM sine: sample 512 - i equals sample i (R19). -/
def sineHalf (i : Nat) : Nat := if i ≤ 256 then sineQuarter.getD i 0 else sineQuarter.getD (512 - i) 0

/-- Sample i of the ROM sine: sample 1,024 - i is the negation of sample i (R19). -/
def romSine (i : Nat) : Int := if i ≤ 512 then (sineHalf i : Int) else -(sineHalf (1024 - i) : Int)

/-! ## Blocks (R18) -/

/-- The byte address of sample i of a RAM block. -/
def sampleAddress (block i : Nat) : Nat := (block * Config.blockSamples + i) * 2

/-- Sample i of a block: a RAM block for 0..15, the ROM sine for 16 (R18). -/
def sampleAt (wave : Memory) (block i : Nat) : Int :=
  if block < 16 then signed16 (leNat (wave.readBytes (sampleAddress block i) 2)) else romSine i

/-! ## The Shape Map (R20) -/

/-- A Shape Map entry. Entry 0 is FIXED at all times; the store holds block + 1 for a MAPPED entry and 0 for an UNMAPPED
one (R20). -/
def mapEntry (map : Memory) (e : Nat) : MapEntry :=
  if e = 0 then .fixed
  else if map.read e = 0 then .unmapped
  else .mapped ((map.read e).toNat - 1)

/-- The block an entry names: 16 for the FIXED entry, 0..15 for a MAPPED one, 255 for an UNMAPPED one (R28). -/
def MapEntry.block : MapEntry → Nat
  | .fixed => 16
  | .mapped b => b
  | .unmapped => 255

/-- The number of an entry's state (R181, encodings). -/
def MapEntry.code : MapEntry → Nat
  | .fixed => 0
  | .mapped _ => 1
  | .unmapped => 2

/-- The record of a pending APPLY_NOW of the kind given names `x` in its p1. -/
def pendingNames (applyNow : Option Record) (kind : RecKind) (x : Nat) : Bool :=
  match applyNow with
  | none => false
  | some r => decide (r.kind = kind) && decide (r.p1 = x)

/-- Whether an entry is current: named by a Phase Context or by a pending APPLY_NOW SHAPE (R21). -/
def entryCurrent (s : State) (e : Nat) : Bool :=
  decide (s.ph.a.shape = e) || decide (s.ph.b.shape = e) || decide (s.ph.c.shape = e) ||
  pendingNames s.run.applyNow .shape e

/-- The entry numbers 0..63. -/
def entryNumbers : List Nat := List.range 64

/-- Whether a RAM block is current: some current entry is MAPPED to it (R21). -/
def blockCurrent (s : State) (block : Nat) : Bool :=
  entryNumbers.any (fun e => entryCurrent s e && decide (mapEntry s.map e = .mapped block))

/-! ## Requests -/

/-- WRITE_SHAPE: block (1), start (2), count (1), count samples (2 each) (R23). -/
def takeWriteShape (ps : List Byte) (s : State) : Answer × State :=
  let block := byteAt ps 0
  let start := wordAt ps 1
  let count := byteAt ps 3
  if ps.length < 4 ∨ ps.length ≠ 4 + 2 * count then refuse s .length
  else if 15 < block ∨ count = 0 ∨ 32 < count ∨ 1023 < start ∨ 1024 < start + count then refuse s .badValue
  else if blockCurrent s block then refuse s .inUse
  else (.status .ok, { s with wave := s.wave.writeBytes (sampleAddress block start) (ps.drop 4) })

/-- `count` samples of a block from `start` on, two bytes each. -/
def sampleBytes (wave : Memory) (block : Nat) : Nat → Nat → List Byte
  | _, 0 => []
  | start, count + 1 => leInt16 (sampleAt wave block start) ++ sampleBytes wave block (start + 1) count

/-- READ_SHAPE: block (1), start (2), count (1) (R25). -/
def takeReadShape (ps : List Byte) (s : State) : Answer × State :=
  let block := byteAt ps 0
  let start := wordAt ps 1
  let count := byteAt ps 3
  if ps.length ≠ 4 then refuse s .length
  else if 16 < block ∨ count = 0 ∨ 64 < count ∨ 1024 < start + count then refuse s .badValue
  else (.data (sampleBytes s.wave block start count), s)

/-- MAP_SHAPE: entry (1), target (1); 255 is UNMAPPED (R26). -/
def takeMapShape (ps : List Byte) (s : State) : Answer × State :=
  let entry := byteAt ps 0
  let target := byteAt ps 1
  if ps.length ≠ 2 then refuse s .length
  else if 63 < entry ∨ (15 < target ∧ target ≠ 255) then refuse s .badValue
  else if entry = 0 then refuse s .inUse
  else if entryCurrent s entry then refuse s .inUse
  else
    let stored : Byte := if target = 255 then 0 else BitVec.ofNat 8 (target + 1)
    (.status .ok, { s with map := s.map.write entry stored })

/-- The two bytes READ_MAP gives an entry: state in bits 0..1 and current flag in bit 7, then the block (R28, R181). R181 does
not say what bits 2..6 of the first byte hold: the model's choice is 0, log 27. -/
def mapEntryBytes (s : State) (e : Nat) : List Byte :=
  let entry := mapEntry s.map e
  [BitVec.ofNat 8 (entry.code + (if entryCurrent s e then 128 else 0)), BitVec.ofNat 8 entry.block]

/-- The RAM blocks that are current, bit b for block b (R28, R181). -/
def currentBlocks (s : State) : Nat :=
  (List.range 16).foldl (fun acc b => acc + (if blockCurrent s b then 2 ^ b else 0)) 0

/-- The 130 data bytes of READ_MAP (R28, R181). -/
def mapBytes (s : State) : List Byte := entryNumbers.flatMap (mapEntryBytes s) ++ leBytes 2 (currentBlocks s)

/-- READ_MAP (R28). -/
def takeReadMap (ps : List Byte) (s : State) : Answer × State :=
  if ps.length = 0 then (.data (mapBytes s), s) else refuse s .length

end Sys2Proof.Machine
end

