-- ==== Sys2Proof/Machine/Slots.lean ====
section
/-! DEFINITION. The Slot Tables and the Noise Generator: slot entries, banks that are current, the shift register and its
draws, and their requests (03_slot_tables_and_noise_injection.md). -/

namespace Sys2Proof.Machine

/-! ## Slot entries (R32, R33) -/

/-- The number of a phase: 0 for A, 1 for B, 2 for C (R39). -/
def PhaseId.number : PhaseId → Nat
  | .a => 0
  | .b => 1
  | .c => 2

/-- The byte address of a slot entry. -/
def slotAddress (phase bank slot : Nat) : Nat := ((phase * 4 + bank) * Config.bankSlots + slot) * 3

/-- The action of an action number (R33). Numbers 5..7 are in no stored entry (R39); they read as PASS: log 20. -/
def actionOf : Nat → SlotAction
  | 1 => .zero
  | 2 => .hold
  | 3 => .subst
  | 4 => .invert
  | _ => .pass

/-- A slot entry from its first byte and its code (R33, R181). -/
def decodeSlot (b0 : Byte) (code : Nat) : SlotEntry :=
  { action := actionOf (b0.toNat % 8), noise := b0.getLsbD 7, code := signed16 code }

/-- The slot entry that stands in a bank (R32). -/
def slotEntryAt (slots : Memory) (phase bank slot : Nat) : SlotEntry :=
  let a := slotAddress phase bank slot
  decodeSlot (slots.read a) (leNat (slots.readBytes (a + 1) 2))

/-- The valid first bytes of a carried entry: 0x00..0x04 and 0x80..0x84 (R181). -/
def slotByteValid (b0 : Byte) : Bool := decide (b0.toNat % 128 ≤ 4)

/-- Whether every carried entry of three bytes is valid (R39). -/
def slotEntriesValid : List Byte → Bool
  | b0 :: _ :: _ :: rest => slotByteValid b0 && slotEntriesValid rest
  | _ => true

/-! ## Active banks (R37) -/

/-- The phase of a number 0..2. -/
def phaseOf : Nat → PhaseId
  | 0 => .a
  | 1 => .b
  | _ => .c

/-- Whether a bank is current for a phase: its bank field, or named by a pending APPLY_NOW SLOTBANK with the phase in its
mask (R37). -/
def bankCurrent (s : State) (p : PhaseId) (bank : Nat) : Bool :=
  decide ((s.ph.get p).bank = bank) ||
  (match s.run.applyNow with
    | none => false
    | some r => decide (r.kind = .slotbank) && Mask.names r.mask p && decide (r.p1 = bank))

/-! ## Requests -/

/-- WRITE_SLOTS: phase, bank, first slot, count (1 each), count entries (3 each) (R39). -/
def takeWriteSlots (ps : List Byte) (s : State) : Answer × State :=
  let phase := byteAt ps 0
  let bank := byteAt ps 1
  let first := byteAt ps 2
  let count := byteAt ps 3
  if ps.length < 4 ∨ ps.length ≠ 4 + 3 * count then refuse s .length
  else if 2 < phase ∨ 3 < bank ∨ 63 < first ∨ count = 0 ∨ 64 < count ∨ 64 < first + count then refuse s .badValue
  else if !slotEntriesValid (ps.drop 4) then refuse s .badValue
  else if bankCurrent s (phaseOf phase) bank then refuse s .inUse
  else (.status .ok, { s with slots := s.slots.writeBytes (slotAddress phase bank first) (ps.drop 4) })

/-- READ_SLOTS: phase, bank, first slot, count (1 each) (R41). -/
def takeReadSlots (ps : List Byte) (s : State) : Answer × State :=
  let phase := byteAt ps 0
  let bank := byteAt ps 1
  let first := byteAt ps 2
  let count := byteAt ps 3
  if ps.length ≠ 4 then refuse s .length
  else if 2 < phase ∨ 3 < bank ∨ 63 < first ∨ count = 0 ∨ 64 < count ∨ 64 < first + count then refuse s .badValue
  else (.data (s.slots.readBytes (slotAddress phase bank first) (3 * count)), s)

/-! ## The Noise Generator (R42) -/

/-- One shift: bit 16 exclusive-or bit 13 into bit 0, every bit one place up (R42). -/
def noiseShift (r : BitVec 17) : BitVec 17 :=
  (r <<< 1) ||| (if r.getLsbD 16 ^^ r.getLsbD 13 then 1 else 0)

/-- `k` shifts in succession. -/
def noiseShifts : Nat → BitVec 17 → BitVec 17
  | 0, r => r
  | k + 1, r => noiseShifts k (noiseShift r)

/-- The register after a draw: eight shifts (R42). -/
def noiseDraw (r : BitVec 17) : BitVec 17 := noiseShifts 8 r

/-- The draw n: the low eight bits of the register after the eighth shift, read as signed (R42). -/
def noiseValue (drawn : BitVec 17) : Int := (drawn.setWidth 8).toInt

/-- SET_SEED: a seed of four bytes; 0 is stored as 1 (R44). -/
def takeSetSeed (ps : List Byte) (s : State) : Answer × State :=
  let seed := dwordAt ps 0
  if ps.length ≠ 4 then refuse s .length
  else if 131071 < seed then refuse s .badValue
  else if seed = 0 then (.status .clamped, { s with lfsr := 1 })
  else (.status .ok, { s with lfsr := BitVec.ofNat 17 seed })

end Sys2Proof.Machine
end

