-- ==== Sys2Proof/Machine/Synthesis.lean ====
section
/-! DEFINITION. The Synthesis Unit: the Phase Contexts with their level ramps and amplitudes, the eight stages of a
sample, the output frame, and the requests SET_NOMINAL and READ_PHASES (04_sample_synthesis.md). -/

namespace Sys2Proof.Machine

/-! ## Level, nominal peak and amplitude (R47 to R54) -/

/-- The amplitude round(L × P / 32,768) (R47). -/
def amplitudeOf (l p : Nat) : Nat := roundNat (l * p) 32768

/-- L written, and A recomputed at the same moment (R47). -/
def Phase.setLevel (ph : Phase) (l : Nat) : Phase := { ph with l := l, a := amplitudeOf l ph.p }

/-- P written, and A recomputed at the same moment (R48). -/
def Phase.setPeak (ph : Phase) (p : Nat) : Phase := { ph with p := p, a := amplitudeOf ph.l p }

/-- One step of a level ramp (R51). -/
def Phase.rampStep (ph : Phase) : Phase :=
  match ph.ramp with
  | none => ph
  | some rp =>
    if rp.k + 1 = rp.r then { ph.setLevel rp.t with ramp := none }
    else { ph.setLevel (rampValue rp.l0 rp.t rp.r (rp.k + 1)) with ramp := some { rp with k := rp.k + 1 } }

/-- Whether the phase's next ramp step is its last (R51). -/
def Phase.rampEnds (ph : Phase) : Bool :=
  match ph.ramp with
  | none => false
  | some rp => decide (rp.k + 1 = rp.r)

/-- A LEVEL applied to one phase: at once for length 0, else a ramp begun from the L that holds, with its first step made
at once (R50). -/
def Phase.applyLevel (ph : Phase) (t r : Nat) : Phase :=
  if r = 0 then { ph.setLevel t with ramp := none }
  else Phase.rampStep { ph with ramp := some { l0 := ph.l, t := t, r := r, k := 0 } }

/-! ## The stages of a sample (R55 to R64) -/

/-- Stage 1: the slot of an angle (R56). -/
def slotOf (φ : Nat) : Nat := φ / 67108864

/-- Stage 1: the sample index of an angle (R56). -/
def indexOf (φ : Nat) : Nat := φ / 4194304

/-- Stage 1: the fraction of an angle, in 256ths (R56). -/
def fractionOf (φ : Nat) : Nat := φ / 16384 % 256

/-- Stage 2: interpolation between two samples (R57). -/
def interpolate (a b : Int) (f : Nat) : Int := a + roundInt ((b - a) * (f : Int)) 256

/-- Stage 2: the interpolated sample of a block at an angle (R57). -/
def shapeSample (wave : Memory) (block φ : Nat) : Int :=
  interpolate (sampleAt wave block (indexOf φ)) (sampleAt wave block ((indexOf φ + 1) % 1024)) (fractionOf φ)

/-- Stage 3: the sample scaled by the amplitude (R58). -/
def amplified (w : Int) (a : Nat) : Int := roundInt (w * (a : Int)) 32768

/-- Stage 4: the slot action (R59). -/
def acted (e : SlotEntry) (s1 held : Int) : Int :=
  match e.action with
  | .pass => s1
  | .zero => 0
  | .hold => held
  | .subst => e.code
  | .invert => -s1

/-- Stage 5: noise where the slot is flagged (R60). -/
def noised (e : SlotEntry) (s2 draw : Int) (n : Nat) : Int := if e.noise then s2 + draw * (n : Int) else s2

/-- Stage 6: the guard scale (R61). -/
def guardScaled (s3 : Int) (g : Nat) : Int := roundInt (s3 * (g : Int)) 32768

/-- Stage 7: the limits in force (R62). -/
def limited (s4 lo hi : Int) : Int := if s4 < lo then lo else if hi < s4 then hi else s4

/-- Stage 8: the code is forced to 0 in OFF and TRIPPED (R64). -/
def forced (out : OutState) (s5 : Int) : Int :=
  match out with
  | .off => 0
  | .tripped => 0
  | .rampUp => s5
  | .on => s5
  | .rampDown => s5

/-- One phase's slot entry at a tick (R34). -/
def entryFor (s : State) (p : PhaseId) : SlotEntry :=
  slotEntryAt s.slots p.number (s.ph.get p).bank (slotOf (s.tb.phi p).toNat)

/-- The noise register after a phase's turn: one draw if its entry is flagged (R43). -/
def drawFor (e : SlotEntry) (r : BitVec 17) : BitVec 17 := if e.noise then noiseDraw r else r

/-- One phase's sample before the limits, s4, with the draw that the register `drawn` holds (R55 to R61). -/
def sampleBeforeLimit (s : State) (p : PhaseId) (drawn : BitVec 17) : Int :=
  let φ := (s.tb.phi p).toNat
  let ph := s.ph.get p
  let e := entryFor s p
  let w := shapeSample s.wave (mapEntry s.map ph.shape).block φ
  guardScaled (noised e (acted e (amplified w ph.a) ph.held) (noiseValue drawn) ph.n) s.guard.g

/-- A phase's context after its sample: last code, Held, clamp flag (R63, R65). -/
def Phase.afterSample (ph : Phase) (e : SlotEntry) (code : Int) (clamped : Bool) : Phase :=
  { ph with last := code
            held := if e.action = .hold then ph.held else code
            clamp := ph.clamp || clamped }

/-- A phase's clamp counter incremented (R62). -/
def Nine.addClamp (n : Nine) : PhaseId → Nine
  | .a => { n with clampA := saturate n.clampA 1 }
  | .b => { n with clampB := saturate n.clampB 1 }
  | .c => { n with clampC := saturate n.clampC 1 }

/-- A phase's code in the frame. -/
def Frame.set (f : Frame) : PhaseId → Int → Frame
  | .a, x => { f with a := x }
  | .b, x => { f with b := x }
  | .c, x => { f with c := x }

/-- One phase's sample computed, from angle to forced zero, with all that follows from it (R55 to R65). -/
def synthPhase (s : State) (p : PhaseId) : State :=
  let ph := s.ph.get p
  let e := entryFor s p
  let drawn := drawFor e s.lfsr
  let s4 := sampleBeforeLimit s p drawn
  let s5 := limited s4 s.guard.lo s.guard.hi
  let clamped := decide (s5 ≠ s4)
  let code := forced s.guard.out s5
  { s with
    lfsr := drawn
    ph := s.ph.set p (ph.afterSample e code clamped)
    cnt := if clamped then s.cnt.count (fun n => n.addClamp p) else s.cnt
    links := s.links.raiseIf (clamped && !ph.clamp) .clampedFirst
    frame := s.frame.set p code }

/-- The tick's samples: A, then B, then C, which is the order of the noise draws (R43, R55), and the frame they make
(R66). -/
def synthesize (s : State) : State := synthPhase (synthPhase (synthPhase s .a) .b) .c

/-! ## The DAC interface (R67) -/

/-- A DAC code as 16 bits of two's complement, most significant bit first (R67). -/
def codeBits (code : Int) : List Bool := (List.range 16).map (fun i => (BitVec.ofInt 16 code).getLsbD (15 - i))

/-- The 48 bits of a frame on DDATA: phase A, then B, then C (R67). -/
def Frame.ddata (f : Frame) : List Bool := codeBits f.a ++ codeBits f.b ++ codeBits f.c

/-- A frame as it is sent, bit by bit: DFRAME marks the first bit (R67). That the mark is one bit long, true at bit 0 and false at
the other 47, is the model's choice, and no polarity of the pin is given: log 31. -/
def Frame.sent (f : Frame) : List DacBit := f.ddata.mapIdx (fun i b => { dframe := decide (i = 0), ddata := b })

/-- What the DAC interface sends at the latest tick, one element for each pulse of DCLK: the whole frame of that tick, once
(R67, R68). -/
def State.dac (s : State) : List DacBit := s.frame.sent

/-! ## Requests -/

/-- SET_NOMINAL: mask (1), nominal peak (2) (R48). -/
def takeSetNominal (ps : List Byte) (s : State) : Answer × State :=
  let mask := byteAt ps 0
  let peak := wordAt ps 1
  if ps.length ≠ 3 then refuse s .length
  else if 7 < mask ∨ 32767 < peak then refuse s .badValue
  else (.status .ok, { s with ph := s.ph.onMask (BitVec.ofNat 3 mask) (fun p => p.setPeak peak) })

/-- The 23 bytes READ_PHASES gives a phase (R177, R181). -/
def phaseBytes (ph : Phase) : List Byte :=
  leBytes 2 ph.p ++ leBytes 2 ph.l ++
  (match ph.ramp with
    | none => [0] ++ leBytes 2 0 ++ leBytes 2 0 ++ leBytes 2 0 ++ leBytes 2 0
    | some rp => [1] ++ leBytes 2 rp.l0 ++ leBytes 2 rp.t ++ leBytes 2 rp.r ++ leBytes 2 rp.k) ++
  leBytes 2 ph.a ++ leBytes 1 ph.shape ++ leBytes 1 ph.bank ++ leBytes 1 ph.n ++
  leInt16 ph.held ++ leInt16 ph.last ++ [flagByte ph.clamp]

/-- The 69 data bytes of READ_PHASES (R177). -/
def phasesBytes (ph : Phases) : List Byte := phaseBytes ph.a ++ phaseBytes ph.b ++ phaseBytes ph.c

/-- READ_PHASES, taken on every link (R177). -/
def takeReadPhases (ps : List Byte) (s : State) : Answer × State :=
  if ps.length = 0 then (.report .phases, s) else refuse s .length

end Sys2Proof.Machine
end

