-- ==== Sys2Proof/Machine/Schedule.lean ====
section
/-! DEFINITION. Schedule records: the ten-byte form, the kinds, the encodings refused at fetch, due points, and the change
each kind makes when it is applied (05_schedule_records.md). -/

namespace Sys2Proof.Machine

/-! ## Records (R71) -/

/-- The kind of a kind code (R71, R72 to R76). -/
def kindOf : Nat → RecKind
  | 0 => .endRecord
  | 1 => .level
  | 2 => .freq
  | 3 => .phaseJump
  | 4 => .shape
  | 5 => .slotbank
  | 6 => .noise
  | 7 => .mark
  | 8 => .loopBegin
  | 9 => .loopEnd
  | 10 => .goto
  | k => .unassigned k

/-- The code of a kind. -/
def RecKind.code : RecKind → Nat
  | .endRecord => 0
  | .level => 1
  | .freq => 2
  | .phaseJump => 3
  | .shape => 4
  | .slotbank => 5
  | .noise => 6
  | .mark => 7
  | .loopBegin => 8
  | .loopEnd => 9
  | .goto => 10
  | .unassigned k => k

/-- A record from its ten bytes; unassigned bits have no effect (R71, R181). -/
def decodeRecord (bs : List Byte) : Record :=
  { kind := kindOf (byteAt bs 0 % 16)
    mask := BitVec.ofNat 3 (byteAt bs 0 / 16)
    delay := wordAt bs 1
    angle := wordAt bs 3
    p1 := wordAt bs 5
    p2 := wordAt bs 7
    suppress := (bs.getD 9 0).getLsbD 0 }

/-- The byte address of a record. -/
def recordAddress (index : Nat) : Nat := index * 10

/-- The record that stands at an index (R70). -/
def recordAt (sched : Memory) (index : Nat) : Record := decodeRecord (sched.readBytes (recordAddress index) 10)

/-- Whether a record is one of the three control kinds (R75, R76). -/
def Record.isControl (r : Record) : Bool :=
  match r.kind with
  | .loopBegin => true
  | .loopEnd => true
  | .goto => true
  | _ => false

/-- Whether the fetcher refuses a record as BAD_RECORD: R77's table. -/
def Record.isBad (r : Record) : Bool :=
  match r.kind with
  | .unassigned _ => true
  | .shape => decide (63 < r.p1)
  | .slotbank => decide (3 < r.p1)
  | .noise => decide (255 < r.p1)
  | .goto => decide (1023 < r.p1)
  | _ => false

/-! ## Due points (R78) -/

/-- The due point of a timed record with delay d and angle a, from a chain base (R78). -/
def duePoint (base : Position) (d a : Nat) : Position :=
  if d = 0 ∧ a < base.ang.toNat then { c := base.c + 1, ang := BitVec.ofNat 16 a }
  else { c := base.c + BitVec.ofNat 32 d, ang := BitVec.ofNat 16 a }

/-! ## The change a record makes at its tick (R72, R73) -/

/-- The Timebase after a record: FREQ and PHASE_JUMP act on it (R73). -/
def Record.changeTimebase (r : Record) (tb : Timebase) : Timebase :=
  match r.kind with
  | .freq => tb.applyFreq r.p1 r.p2
  | .phaseJump => tb.applyJump r.mask r.p1
  | _ => tb

/-- The Phase Contexts after a record: LEVEL, SHAPE, SLOTBANK and NOISE act on the masked phases (R72). A SHAPE is given
here for an entry that is FIXED or MAPPED (R29). -/
def Record.changePhases (r : Record) (ph : Phases) : Phases :=
  match r.kind with
  | .level => ph.onMask r.mask (fun p => p.applyLevel r.p1 r.p2)
  | .shape => ph.onMask r.mask (fun p => { p with shape := r.p1 })
  | .slotbank => ph.onMask r.mask (fun p => { p with bank := r.p1 })
  | .noise => ph.onMask r.mask (fun p => { p with n := r.p1 })
  | _ => ph

/-- Whether a record is a FREQ whose p1 is clamped (R7, R73). -/
def Record.isClamped (r : Record) : Bool := decide (r.kind = .freq) && freqClamped r.p1

/-- Whether a record is a SHAPE that names an UNMAPPED entry (R29). -/
def Record.meetsUnmapped (r : Record) (map : Memory) : Bool :=
  decide (r.kind = .shape) && decide (mapEntry map r.p1 = .unmapped)

/-- Whether a LEVEL applied to one of the masked phases ends its ramp at its first step (R50, R51). -/
def Record.endsLevelRamp (r : Record) : Bool :=
  decide (r.kind = .level) && decide (r.p2 = 1) && !(r.mask == 0)

/-- READ_RECORDS: first index (2), count (1) (R85). -/
def takeReadRecords (ps : List Byte) (s : State) : Answer × State :=
  let first := wordAt ps 0
  let count := byteAt ps 2
  if ps.length ≠ 3 then refuse s .length
  else if 1023 < first ∨ count = 0 ∨ 24 < count ∨ 1024 < first + count then refuse s .badValue
  else (.data (s.sched.readBytes (recordAddress first) (10 * count)), s)

end Sys2Proof.Machine
end

