-- ==== Sys2Proof/Machine/Runner.lean ====
section
/-! DEFINITION. The Event Runner: fetching and fills, the application of records, faults, flushes, the hold, and the
requests WRITE_RECORDS, START, STOP, APPLY_NOW and READ_RUN (06_event_runner.md; WRITE_RECORDS in 05_schedule_records.md). -/

namespace Sys2Proof.Machine

/-! ## The walk (R75, R76) -/

/-- Where a control record at index `x` leaves a loop stack and where the walk continues (R75, R76). A LOOP_END on an
empty stack is a fault of fetching (R92) and never walked; it is given the stack unchanged. -/
def walkControl (r : Record) (x : Nat) (stack : List LoopFrame) : List LoopFrame × Nat :=
  match r.kind with
  | .loopBegin => ({ body := x + 1, remaining := r.p1 } :: stack, x + 1)
  | .loopEnd =>
    match stack with
    | [] => ([], x + 1)
    | top :: rest =>
      if top.remaining = 0 then (rest, x + 1)
      else ({ top with remaining := top.remaining - 1 } :: rest, top.body)
  | .goto => (stack, r.p1)
  | _ => (stack, x + 1)

/-! ## Fetching (R90 to R92) -/

/-- The reason a record at the fetch pointer cannot be walked: the first of R92's checks that applies. -/
def fetchFault (sched : Memory) (run : Runner) : Option FaultReason :=
  if Config.records ≤ run.fetchPtr then some .endOfMemory
  else
    let r := recordAt sched run.fetchPtr
    if r.isBad then some .badRecord
    else if r.isControl && decide (255 ≤ run.spin) then some .spin
    else if decide (r.kind = .loopBegin) && decide (Config.loopFrames ≤ run.fStack.length) then some .loopDepth
    else if decide (r.kind = .loopEnd) && run.fStack.isEmpty then some .loopUnbalanced
    else none

/-- A fault marker placed, and the fetcher halted: the fetch pointer, stack, chain base and spin count stay (R88, R92). -/
def placeMarker (run : Runner) (reason : FaultReason) : Runner :=
  { run with
    queue := run.queue ++ [{ src := run.fetchPtr, item := .marker reason, due := run.fBase }]
    halt := .fault
    allowance := run.allowance - 1 }

/-- A valid record placed and walked on the fetch side (R78, R79, R91). -/
def placeRecord (run : Runner) (r : Record) : Runner :=
  if r.isControl then
    { run with
      queue := run.queue ++ [{ src := run.fetchPtr, item := .record r, due := run.fBase }]
      fStack := (walkControl r run.fetchPtr run.fStack).1
      fetchPtr := (walkControl r run.fetchPtr run.fStack).2
      spin := run.spin + 1
      allowance := run.allowance - 1 }
  else
    { run with
      queue := run.queue ++ [{ src := run.fetchPtr, item := .record r, due := duePoint run.fBase r.delay r.angle }]
      fBase := duePoint run.fBase r.delay r.angle
      fetchPtr := run.fetchPtr + 1
      spin := 0
      halt := if r.kind = .endRecord then .endRecord else run.halt
      allowance := run.allowance - 1 }

/-- One fetch at the fetch pointer, from the Schedule Memory as it stands (R91, R92). -/
def fetchOne (sched : Memory) (run : Runner) : Runner :=
  match fetchFault sched run with
  | some reason => placeMarker run reason
  | none => placeRecord run (recordAt sched run.fetchPtr)

/-- Whether the fetcher goes on: RUNNING, no halt, room in the queue, allowance left (R90). -/
def canFetch (run : Runner) : Bool :=
  decide (run.state = .running) && decide (run.halt = .none) && decide (run.queue.length < Config.queueEntries) &&
  decide (0 < run.allowance)

/-- At most `k` fetches. -/
def fillUpTo (sched : Memory) : Nat → Runner → Runner
  | 0, run => run
  | k + 1, run => if canFetch run then fillUpTo sched k (fetchOne sched run) else run

/-- A fill (R90). Each fetch takes one of the queue's four places, so four fetches are all that a fill can make. -/
def fill (sched : Memory) (run : Runner) : Runner := fillUpTo sched Config.queueEntries run

/-- A flush: the queue emptied, the fetch side returned to the committed side (R101). -/
def flush (run : Runner) : Runner :=
  { run with
    queue := []
    fetchPtr := run.execPtr
    fStack := run.cStack
    fBase := run.cBase
    spin := 0
    halt := .none }

/-! ## What the runner can touch at a tick -/

/-- The part of the state that the Event Runner's work at a tick changes: itself, the Timebase and the Phase Contexts that
records act on, its counts, its notices and its trace entries (R93 to R100). -/
structure RunSide where
  tb : Timebase
  ph : Phases
  run : Runner
  cnt : CounterBank
  links : Links
  trace : Trace
  events : List TickEvent

/-- The runner's part of the state. -/
def State.runSide (s : State) : RunSide :=
  { tb := s.tb, ph := s.ph, run := s.run, cnt := s.cnt, links := s.links, trace := s.trace, events := s.events }

/-- The state with the runner's part replaced. -/
def State.withRunSide (s : State) (w : RunSide) : State :=
  { s with tb := w.tb, ph := w.ph, run := w.run, cnt := w.cnt, links := w.links, trace := w.trace, events := w.events }

/-- A trace entry with the fields that belong to its type at 0 (R156). -/
def plainEntry (type : TraceType) (index : Nat) (stamp : Position) (detail : TraceDetail) : TraceEntry :=
  { type := type, index := index, kind := 0, mask := 0, dueC := 0, dueAng := 0, stampC := stamp.cLow,
    stampAng := stamp.ang, late := false, clamped := false, detail := detail }

/-- The RECORD entry of an applied record (R95, R97, R106, R156). -/
def recordEntry (r : Record) (index : Nat) (due stamp : Position) (late : Bool) : TraceEntry :=
  { type := .record, index := index, kind := r.kind.code, mask := r.mask, dueC := due.cLow, dueAng := due.ang,
    stampC := stamp.cLow, stampAng := stamp.ang, late := late, clamped := r.isClamped,
    detail := if r.kind = .mark then .marker r.p1 else .nothing }

/-- A trace entry made in the tick under way. -/
def Trace.make (t : Trace) (e : TraceEntry) : Trace := { t with made := t.made ++ [e] }

/-- The RECORD entry of a record, unless its trace-suppress flag is set (R82). -/
def Trace.makeRecord (t : Trace) (r : Record) (index : Nat) (due stamp : Position) (late : Bool) : Trace :=
  if r.suppress then t else t.make (recordEntry r index due stamp late)

/-- The runner enters FAULTED: fault record, flush, FAULT entry, RUN_FAULTED on both links (R99, R100). The entry carries the
fault index as its record index (R157, R181) and, with the reason, in its detail field (R99): the model's reading where the
rules differ, log 28. -/
def enterFaulted (w : RunSide) (pos : Position) (reason : FaultReason) (index : Nat) (event : TickEvent) : RunSide :=
  { w with
    run := flush { w.run with state := .faulted, faultReason := reason, faultIndex := index }
    links := w.links.raise .runFaulted
    trace := w.trace.make (plainEntry .fault index pos (.fault reason index))
    events := w.events ++ [event] }

/-- A control record applied: walked on the committed side (R97). -/
def applyControl (w : RunSide) (e : QueueEntry) (r : Record) (pos : Position) : RunSide :=
  { w with
    run := { w.run with
      queue := w.run.queue.tail
      cStack := (walkControl r e.src w.run.cStack).1
      execPtr := (walkControl r e.src w.run.cStack).2 }
    cnt := w.cnt.count Nine.addApplied
    trace := w.trace.makeRecord r e.src e.due pos false
    events := w.events ++ [.applied r.kind] }

/-- An END record applied: the runner enters ENDED (R96, R98). -/
def applyEnd (w : RunSide) (e : QueueEntry) (r : Record) (pos : Position) (late : Bool) : RunSide :=
  { w with
    run := flush { w.run with state := .ended, execPtr := e.src + 1, cBase := e.due }
    cnt := w.cnt.count (fun n => n.addApplied.addLate late)
    links := w.links.raise .runEnded
    trace := (w.trace.makeRecord r e.src e.due pos late).make (plainEntry .endEntry e.src pos .nothing)
    events := w.events ++ [.applied .endRecord] }

/-- What a record adds to the tick's events besides its own application. -/
def Record.extraEvents (r : Record) : List TickEvent :=
  (if r.kind = .mark then [.marked r.p1] else []) ++ (if r.endsLevelRamp then [.levelRampEnd] else [])

/-- A timed record other than END applied (R95, R96). -/
def applyTimed (w : RunSide) (e : QueueEntry) (r : Record) (pos : Position) (late : Bool) : RunSide :=
  { w with
    tb := r.changeTimebase w.tb
    ph := r.changePhases w.ph
    run := { w.run with queue := w.run.queue.tail, execPtr := e.src + 1, cBase := e.due }
    cnt := w.cnt.count (fun n => n.addApplied.addLate late)
    trace := w.trace.makeRecord r e.src e.due pos late
    events := w.events ++ [.applied r.kind] ++ r.extraEvents }

/-- The entry at the head of the queue applied (R94 to R100). `prev` is the position of the tick before (R96). A record of
an unassigned kind never enters the queue (R77); if it did, it would be a BAD_RECORD: log 20. -/
def applyEntry (map : Memory) (prev pos : Position) (w : RunSide) (e : QueueEntry) : RunSide :=
  match e.item with
  | .marker reason => enterFaulted w pos reason e.src .faultMarker
  | .record r =>
    let late := e.due.le prev
    match r.kind with
    | .loopBegin => applyControl w e r pos
    | .loopEnd => applyControl w e r pos
    | .goto => applyControl w e r pos
    | .endRecord => applyEnd w e r pos late
    | .unassigned _ => enterFaulted w pos .badRecord e.src .faultMarker
    | .shape => if r.meetsUnmapped map then enterFaulted w pos .unmappedShape e.src .unmappedShape
                else applyTimed w e r pos late
    | .level => applyTimed w e r pos late
    | .freq => applyTimed w e r pos late
    | .phaseJump => applyTimed w e r pos late
    | .slotbank => applyTimed w e r pos late
    | .noise => applyTimed w e r pos late
    | .mark => applyTimed w e r pos late

/-- Whether the runner applies an entry: RUNNING and the entry's due point at or before the tick's position (R94). -/
def entryIsDue (w : RunSide) (pos : Position) (e : QueueEntry) : Bool :=
  decide (w.run.state = .running) && e.due.le pos

/-- The due entries applied in queue order, at most `k` of them (R94). -/
def applyDue (map : Memory) (prev pos : Position) : Nat → RunSide → RunSide
  | 0, w => w
  | k + 1, w =>
    match w.run.queue with
    | [] => w
    | e :: _ => if entryIsDue w pos e then applyDue map prev pos k (applyEntry map prev pos w e) else w

/-! ## The hold (R108, R109) -/

/-- The hold taken (R108). -/
def takeTheHold (w : RunSide) (pos : Position) : RunSide :=
  { w with
    run := flush { w.run with state := .held }
    links := w.links.raise .runHeld
    trace := w.trace.make (plainEntry .hold w.run.execPtr pos .nothing)
    events := w.events ++ [.takeHold] }

/-- The hold released: both chain bases at the releasing tick's position, and a fill (R109). -/
def releaseTheHold (sched : Memory) (w : RunSide) (pos : Position) : RunSide :=
  { w with
    run := fill sched { w.run with state := .running, cBase := pos, fBase := pos }
    trace := w.trace.make (plainEntry .release w.run.execPtr pos .nothing)
    events := w.events ++ [.releaseHold] }

/-! ## APPLY_NOW at its tick (R106) -/

/-- The record index of an APPLY_NOW's trace entry (R106). -/
def applyNowIndex : Nat := 65535

/-- A pending APPLY_NOW applied (R106). A SHAPE whose entry is UNMAPPED cannot be pending (R30); if it were, no shape field
would change: log 20. -/
def applyPending (map : Memory) (w : RunSide) (pos : Position) (r : Record) : RunSide :=
  { w with
    tb := r.changeTimebase w.tb
    ph := if r.meetsUnmapped map then w.ph else r.changePhases w.ph
    run := { w.run with applyNow := none }
    cnt := w.cnt.count Nine.addApplied
    trace := w.trace.makeRecord r applyNowIndex pos pos false
    events := w.events ++ [.applyNow] ++ r.extraEvents }

/-! ## The runner's tick (R93) -/

/-- The runner's part with the fetch allowance renewed, which opens the runner's work at a tick (R93). -/
def RunSide.renewed (w : RunSide) : RunSide := { w with run := { w.run with allowance := 8 } }

/-- Whether the runner applies due entries at a tick: it is RUNNING and does not take the hold there (R93). `boundary` says
that the tick is a cycle boundary, `hold` is the hold flag that the runner reads. -/
def appliesEntries (run : Runner) (boundary hold : Bool) : Bool := decide (run.state = .running) && !(boundary && hold)

/-- The runner's work at a tick at which it applies no entry of the queue, by its state: the hold taken or released, or a
pending APPLY_NOW applied (R93). -/
def otherWork (sched map : Memory) (pos : Position) (hold : Bool) (w : RunSide) : RunSide :=
  match w.run.state with
  | .running => takeTheHold w pos
  | .held => if hold then w else releaseTheHold sched w pos
  | .idle => match w.run.applyNow with
    | none => w
    | some r => applyPending map w pos r
  | .ended => match w.run.applyNow with
    | none => w
    | some r => applyPending map w pos r
  | .faulted => match w.run.applyNow with
    | none => w
    | some r => applyPending map w pos r

/-- The fill that follows the applications of a tick (R90, R93). -/
def RunSide.filled (sched : Memory) (w : RunSide) : RunSide := { w with run := fill sched w.run }

/-! ## Requests -/

/-- Whether a queued entry's source index lies in the range written (R84). -/
def coversQueued (run : Runner) (first count : Nat) : Bool :=
  run.queue.any (fun e => decide (first ≤ e.src) && decide (e.src < first + count))

/-- The runner after a WRITE_RECORDS: a flush where a queued index is covered, and in RUNNING a fill at once (R84, R90,
R102). -/
def afterRewrite (sched : Memory) (run : Runner) (first count : Nat) : Runner :=
  if coversQueued run first count then fill sched (flush run) else run

/-- WRITE_RECORDS: first index (2), count (1), count records (10 each) (R83). -/
def takeWriteRecords (ps : List Byte) (s : State) : Answer × State :=
  let first := wordAt ps 0
  let count := byteAt ps 2
  if ps.length < 3 ∨ ps.length ≠ 3 + 10 * count then refuse s .length
  else if 1023 < first ∨ count = 0 ∨ 19 < count ∨ 1024 < first + count then refuse s .badValue
  else
    let sched := s.sched.writeBytes (recordAddress first) (ps.drop 3)
    (.status .ok, { s with sched := sched, run := afterRewrite sched s.run first count })

/-- Whether the runner runs no program: IDLE, ENDED or FAULTED (R103, R105). -/
def Runner.stopped (run : Runner) : Bool :=
  match run.state with
  | .idle => true
  | .ended => true
  | .faulted => true
  | .running => false
  | .held => false

/-- The runner at START: RUNNING from an index, chain based at the next cycle, before its fill (R103). -/
def Runner.started (run : Runner) (index : Nat) (base : Position) : Runner :=
  { run with
    state := .running, execPtr := index, fetchPtr := index, cStack := [], fStack := [], faultReason := .none,
    faultIndex := 0, spin := 0, halt := .none, cBase := base, fBase := base }

/-- An entry formed at a request and put into the trace at the next tick (R157). -/
def Trace.defer (t : Trace) (type : TraceType) (index : Nat) : Trace :=
  { t with deferred := t.deferred ++ [{ type := type, index := index }] }

/-- START: start index (2) (R103). -/
def takeStart (ps : List Byte) (s : State) : Answer × State :=
  let index := wordAt ps 0
  if ps.length ≠ 2 then refuse s .length
  else if 1023 < index then refuse s .badValue
  else if !s.run.stopped || s.run.applyNow.isSome then refuse s .busy
  else if s.guard.hold then refuse s .held
  else
    (.status .ok,
      { s with
        run := fill s.sched (s.run.started index { c := s.tb.c + 1, ang := 0 })
        trace := s.trace.defer .start index })

/-- STOP (R104). -/
def takeStop (ps : List Byte) (s : State) : Answer × State :=
  if ps.length ≠ 0 then refuse s .length
  else if s.run.state = .idle then (.status .ok, s)
  else
    let stopped := if s.run.state = .running then flush s.run else s.run
    (.status .ok,
      { s with
        run := { stopped with state := .idle, cStack := [], fStack := [] }
        trace := s.trace.defer .stop s.run.execPtr })

/-- Whether APPLY_NOW accepts a record: its kind, and the p1 of SHAPE, SLOTBANK and NOISE, with the map entry of a SHAPE
not UNMAPPED (R105). -/
def applyNowAccepts (map : Memory) (r : Record) : Bool :=
  match r.kind with
  | .level => true
  | .freq => true
  | .phaseJump => true
  | .shape => decide (r.p1 ≤ 63) && !(r.meetsUnmapped map)
  | .slotbank => decide (r.p1 ≤ 3)
  | .noise => decide (r.p1 ≤ 255)
  | _ => false

/-- APPLY_NOW: one record of ten bytes (R105). -/
def takeApplyNow (ps : List Byte) (s : State) : Answer × State :=
  let r := decodeRecord ps
  if ps.length ≠ 10 then refuse s .length
  else if !s.run.stopped || s.run.applyNow.isSome then refuse s .busy
  else if !applyNowAccepts s.map r then refuse s .badValue
  else (.status (if r.isClamped then .clamped else .ok), { s with run := { s.run with applyNow := some r } })

/-- The number of a runner state (R181, encodings). -/
def RunState.code : RunState → Nat
  | .idle => 0
  | .running => 1
  | .held => 2
  | .ended => 3
  | .faulted => 4

/-- The number of a fault reason (R181, encodings). -/
def FaultReason.code : FaultReason → Nat
  | .none => 0
  | .badRecord => 1
  | .loopDepth => 2
  | .loopUnbalanced => 3
  | .endOfMemory => 4
  | .spin => 5
  | .unmappedShape => 6

/-- The number of a fetch halt (R181, encodings). -/
def FetchHalt.code : FetchHalt → Nat
  | .none => 0
  | .endRecord => 1
  | .fault => 2

/-- The due point of the head entry; (0, 0) for an empty queue (R107). -/
def headDue (run : Runner) : Position :=
  match run.queue with
  | [] => zeroPosition
  | e :: _ => e.due

/-- The remaining count of the committed top frame; 0 for an empty stack (R107). -/
def topRemaining (run : Runner) : Nat :=
  match run.cStack with
  | [] => 0
  | top :: _ => top.remaining

/-- The 27 data bytes of READ_RUN (R107, R181). Bits 2..7 of the pending flags are sent as 0: log 27. -/
def runBytes (run : Runner) (hold : Bool) : List Byte :=
  leBytes 1 run.state.code ++
  leBytes 1 ((if run.state = .running ∧ hold = true then 1 else 0) + (if run.applyNow.isSome then 2 else 0)) ++
  leBytes 2 run.execPtr ++ leBytes 2 run.fetchPtr ++ leBytes 1 run.halt.code ++ leBytes 1 run.queue.length ++
  positionBytes (headDue run) ++ leBytes 1 run.cStack.length ++ leBytes 2 (topRemaining run) ++
  leBytes 1 run.fStack.length ++ positionBytes run.cBase ++ leBytes 1 run.faultReason.code ++ leBytes 2 run.faultIndex

/-- READ_RUN (R107). -/
def takeReadRun (ps : List Byte) (s : State) : Answer × State :=
  if ps.length = 0 then (.report .run, s) else refuse s .length

end Sys2Proof.Machine
end

