-- ==== Sys2Proof/Machine/Scanner.lean ====
section
/-! DEFINITION. The Measurement Scanner: the scan, hand-over, accumulators and cycle records, gains, and the requests
SET_SCAN and READ_MEASURE (08_measurement_scanner.md). -/

namespace Sys2Proof.Machine

/-! ## Hand-over (R133, R138) -/

/-- The magnitude of a conversion, with -32,768 as 32,768 (R121, R138). -/
def magnitude (x : Int) : Nat := x.natAbs

/-- A present conversion folded into an accumulator (R138). -/
def Accumulator.fold (acc : Accumulator) (x : Int) : Accumulator :=
  { sum := acc.sum + magnitude x * magnitude x, count := acc.count + 1, peak := max acc.peak (magnitude x) }

/-- A channel after its present conversion is handed over (R133). -/
def Channel.present (ch : Channel) (x : Int) (stamp : Position) : Channel :=
  { ch with acc := ch.acc.fold x, latest := some { value := x, stamp := stamp }, missing := false }

/-- A channel after its conversion is handed over as missing (R133). -/
def Channel.lost (ch : Channel) : Channel := { ch with missing := true }

/-- The Scanner after the hand-over of the previous tick's conversion, present or missing (R133). -/
def Scanner.handOver (sc : Scanner) : Scanner :=
  match sc.outstanding with
  | none => sc
  | some cmd =>
    match sc.result with
    | some x =>
      { sc with
        outstanding := none, result := none
        channels := sc.channels.set cmd.channel ((sc.channels.get cmd.channel).present x cmd.stamp) }
    | none =>
      { sc with
        outstanding := none
        channels := sc.channels.set cmd.channel (sc.channels.get cmd.channel).lost }

/-- Whether the conversion handed over at the coming tick is missing (R132). -/
def Scanner.isMissing (sc : Scanner) : Bool := sc.outstanding.isSome && sc.result.isNone

/-! ## Cycle records (R139) -/

/-- The data of a closed record; none is NO_DATA (R139). -/
def cycleDataOf (acc : Accumulator) : Option CycleData :=
  if acc.count = 0 then none
  else some { rms := floorSqrt (acc.sum / acc.count), peak := acc.peak, count := acc.count }

/-- A channel after its accumulator is closed for a cycle (R139). -/
def Channel.close (ch : Channel) (cycle : Word32) : Channel :=
  { ch with cycleRec := { data := cycleDataOf ch.acc, cycle := cycle }, acc := accumulatorZero }

/-- The Scanner after every channel is closed at the boundary tick of position `pos`: the record's cycle is C - 1 (R139). -/
def Scanner.closeAll (sc : Scanner) (pos : Position) : Scanner :=
  { sc with channels := sc.channels.mapIdx (fun _ ch => ch.close (pos.c - 1)) }

/-! ## The scan (R131) -/

/-- The channel commanded next: the scan pointer, or channel 0 if the pointer is above S (R131). -/
def Scanner.nextChannel (sc : Scanner) : Nat := if sc.ptr ≤ sc.stop then sc.ptr else 0

/-- The tick's conversion commanded (R131). -/
def Scanner.command (sc : Scanner) (pos : Position) : Scanner :=
  { sc with
    outstanding := some { channel := sc.nextChannel, gain := (sc.channels.get sc.nextChannel).gain, stamp := pos }
    result := none
    ptr := if sc.nextChannel < sc.stop then sc.nextChannel + 1 else 0 }

/-! ## The ADC's result (R132) -/

/-- A result that the ADC delivers. A late one, for a command whose next tick has begun or that a reset has abandoned, is not
read and does not count for the command that follows (R132, R143; log 30). Of the results for the outstanding command the
first read whole is its conversion; with no command outstanding none is read (log 10). -/
def Scanner.readResult (sc : Scanner) (answered : Answered) (value : Word16) : Scanner :=
  match answered with
  | .ended => sc
  | .latest =>
    if sc.outstanding.isSome && sc.result.isNone then { sc with result := some (signed16 value.toNat) } else sc

/-! ## Requests -/

/-- S raised to the highest channel of a mask (R120, R136). -/
def raisedStop (stop : Nat) (watch : Byte) : Nat :=
  match highestChannel watch with
  | none => stop
  | some h => max stop h

/-- The gain code that SET_SCAN carries for a channel (R135). -/
def carriedGain (ps : List Byte) (i : Nat) : Nat := byteAt ps (i + 1)

/-- Whether SET_SCAN adjusts the gain of a channel: watched, and the carried code differs from the one held (R136). -/
def gainAdjusted (s : State) (ps : List Byte) (i : Nat) : Bool :=
  channelIn s.guard.watch i && decide (carriedGain ps i ≠ (s.scan.channels.get i).gain)

/-- SET_SCAN: S (1), eight gain codes (1 each), adjusted against the watch mask (R135, R136). -/
def takeSetScan (ps : List Byte) (s : State) : Answer × State :=
  let stop := byteAt ps 0
  if ps.length ≠ 9 then refuse s .length
  else if 7 < stop ∨ channelNumbers.any (fun i => decide (3 < carriedGain ps i)) = true then refuse s .badValue
  else
    let adjusted := decide (raisedStop stop s.guard.watch ≠ stop) || channelNumbers.any (gainAdjusted s ps)
    (.status (if adjusted then .clamped else .ok),
      { s with scan := { s.scan with
          stop := raisedStop stop s.guard.watch
          channels := s.scan.channels.mapIdx (fun i ch =>
            { ch with gain := if channelIn s.guard.watch i then ch.gain else carriedGain ps i }) } })

/-- The eleven bytes READ_MEASURE gives a channel's cycle record (R141, R181). -/
def cycleRecordBytes (ch : Channel) : List Byte :=
  match ch.cycleRec.data with
  | none => [0] ++ leBytes 4 ch.cycleRec.cycle.toNat ++ leBytes 2 0 ++ leBytes 2 0 ++ leBytes 2 0
  | some d => [1] ++ leBytes 4 ch.cycleRec.cycle.toNat ++ leBytes 2 d.rms ++ leBytes 2 d.peak ++ leBytes 2 d.count

/-- The ten bytes READ_MEASURE gives a channel's latest conversion (R141, R181). -/
def latestBytes (ch : Channel) : List Byte :=
  (match ch.latest with
    | none => [0] ++ leInt16 0 ++ positionBytes zeroPosition
    | some cv => [1] ++ leInt16 cv.value ++ positionBytes cv.stamp) ++ [flagByte ch.missing]

/-- The 178 data bytes of READ_MEASURE (R141, R181). -/
def measureBytes (sc : Scanner) : List Byte :=
  leBytes 1 sc.stop ++ leBytes 1 sc.ptr ++ sc.channels.toList.flatMap (fun ch => leBytes 1 ch.gain) ++
  sc.channels.toList.flatMap cycleRecordBytes ++ sc.channels.toList.flatMap latestBytes

/-- READ_MEASURE (R141). -/
def takeReadMeasure (ps : List Byte) (s : State) : Answer × State :=
  if ps.length = 0 then (.report .measure, s) else refuse s .length

end Sys2Proof.Machine
end

