-- ==== Sys2Proof/Machine/Guard.lean ====
section
/-! DEFINITION. The Output Guard: output states and guard ramps, limits, the hold flag, the examination of conversions and
cycle records, the trip, and the Guard Link requests (07_output_guard.md). SOFT_RESET's effect is in StartUp.lean. -/

namespace Sys2Proof.Machine

/-! ## Guard ramps (R113) -/

/-- G after step `k` of a ramp up of `r` ticks (R113). -/
def rampUpValue (r k : Nat) : Nat := roundNat (32768 * k) r

/-- G after step `k` of a ramp down of `r` ticks from `g0` (R113). -/
def rampDownValue (g0 r k : Nat) : Nat := g0 - roundNat (g0 * k) r

/-- One step of the guard ramp (R113). -/
def Guard.rampStep (g : Guard) : Guard :=
  match g.ramp with
  | none => g
  | some rp =>
    match g.out with
    | .rampUp =>
      if rp.k + 1 = rp.r then { g with g := 32768, ramp := none, out := .on }
      else { g with g := rampUpValue rp.r (rp.k + 1), ramp := some { rp with k := rp.k + 1 } }
    | .rampDown =>
      if rp.k + 1 = rp.r then { g with g := 0, ramp := none, out := .off }
      else { g with g := rampDownValue rp.g0 rp.r (rp.k + 1), ramp := some { rp with k := rp.k + 1 } }
    | .off => g
    | .on => g
    | .tripped => g

/-- Whether the guard ramp's next step is its last (R113). -/
def Guard.rampEnds (g : Guard) : Bool :=
  match g.ramp with
  | none => false
  | some rp => decide (rp.k + 1 = rp.r) && (decide (g.out = .rampUp) || decide (g.out = .rampDown))

/-- Pending limits come into force (R116). -/
def Guard.limitsStep (g : Guard) : Guard :=
  match g.pendingLimits with
  | none => g
  | some (lo, hi) => { g with lo := lo, hi := hi, pendingLimits := none }

/-- TRIP_OUT: asserted while the output state is TRIPPED (R126). -/
def Guard.tripOut (g : Guard) : Bool := decide (g.out = .tripped)

/-! ## Examination (R121 to R123) -/

/-- Whether a watched conversion's magnitude is above Ipk (R121). -/
def Guard.isOver (g : Guard) (channel : Nat) (x : Int) : Bool :=
  channelIn g.watch channel && decide (g.ipk < magnitude x)

/-- The counts after a present conversion: the missing run ends, and a watched channel's peak count grows or ends (R121,
R123). -/
def Guard.countPresent (g : Guard) (channel : Nat) (x : Int) : Guard :=
  { g with
    missingRun := 0
    peak := if channelIn g.watch channel then
        g.peak.set channel (if g.ipk < magnitude x then saturate255 (g.peak.get channel) else 0)
      else g.peak }

/-- The counts after a missing conversion (R123). -/
def Guard.countMissing (g : Guard) : Guard := { g with missingRun := min (g.missingRun + 1) 32 }

/-- The counts after the hand-over of the Scanner's conversion (R121, R123). -/
def Guard.examine (g : Guard) (sc : Scanner) : Guard :=
  match sc.outstanding with
  | none => g
  | some cmd =>
    match sc.result with
    | some x => g.countPresent cmd.channel x
    | none => g.countMissing

/-- The trip condition that a conversion handed over meets, from the counts after its examination (R121, R123). -/
def Guard.conversionTrip (g : Guard) (sc : Scanner) : Option (TripCause × Nat) :=
  match sc.outstanding with
  | none => none
  | some cmd =>
    match sc.result with
    | some _ =>
      if channelIn g.watch cmd.channel && decide (g.kp ≤ g.peak.get cmd.channel) then some (.peak, cmd.channel) else none
    | none =>
      if decide (g.missingRun = 32) && !(g.watch == 0) then some (.measureLost, cmd.channel) else none

/-- Whether the Scanner's conversion counts in OVERCURRENT (R121). -/
def Guard.overcurrent (g : Guard) (sc : Scanner) : Bool :=
  match sc.outstanding with
  | none => false
  | some cmd =>
    match sc.result with
    | some x => g.isOver cmd.channel x
    | none => false

/-- A channel's RMS count after a cycle record (R122). -/
def rmsCountAfter (g : Guard) (i n : Nat) (r : CycleRecord) : Nat :=
  if channelIn g.watch i then
    match r.data with
    | none => n
    | some d => if g.irms < d.rms then saturate255 n else 0
  else n

/-- The RMS counts after the cycle records of a boundary (R122). -/
def Guard.examineRecords (g : Guard) (sc : Scanner) : Guard :=
  { g with rms := g.rms.mapIdx (fun i n => rmsCountAfter g i n (sc.channels.get i).cycleRec) }

/-- The lowest watched channel whose RMS count is at or above Kr (R122). -/
def Guard.rmsTrip (g : Guard) : Option (TripCause × Nat) :=
  (channelNumbers.find? (fun i => channelIn g.watch i && decide (g.kr ≤ g.rms.get i))).map (fun i => (.rms, i))

/-! ## The trip (R124) -/

/-- The guard after a trip (R124). -/
def Guard.trip (g : Guard) (cause : TripCause) (channel : Nat) (pos : Position) : Guard :=
  { g with
    out := .tripped, g := 0, ramp := none, hold := true
    tripCause := cause, tripChannel := channel, tripStamp := pos }

/-- The trip that is made of the conditions met at a tick: none while TRIPPED, the conversion's before an RMS one (R125). -/
def Guard.tripMade (g : Guard) (conv rms : Option (TripCause × Nat)) : Option (TripCause × Nat) :=
  if g.out = .tripped then none else conv.or rms

/-! ## Requests -/

/-- ENABLE: ramp length (2) (R114). -/
def takeEnable (ps : List Byte) (s : State) : Answer × State :=
  let r := wordAt ps 0
  if ps.length ≠ 2 then refuse s .length
  else
    match s.guard.out with
    | .off =>
      if r = 0 then (.status .ok, { s with guard := { s.guard with out := .on, g := 32768 } })
      else (.status .ok, { s with guard := { s.guard with out := .rampUp, ramp := some { g0 := 0, r := r, k := 0 } } })
    | .rampUp => (.status .ok, s)
    | .on => (.status .ok, s)
    | .rampDown => refuse s .busy
    | .tripped => refuse s .tripped

/-- The guard after a SAFE of ramp length `r` in RAMP_UP, ON or RAMP_DOWN (R115). -/
def Guard.safe (g : Guard) (r : Nat) : Guard :=
  if r = 0 then { g with out := .off, g := 0, ramp := none }
  else { g with out := .rampDown, ramp := some { g0 := g.g, r := r, k := 0 } }

/-- SAFE: ramp length (2) (R115). -/
def takeSafe (ps : List Byte) (s : State) : Answer × State :=
  let r := wordAt ps 0
  if ps.length ≠ 2 then refuse s .length
  else
    match s.guard.out with
    | .off => (.status .ok, s)
    | .tripped => (.status .ok, s)
    | .rampUp => (.status .ok, { s with guard := s.guard.safe r })
    | .on => (.status .ok, { s with guard := s.guard.safe r })
    | .rampDown => (.status .ok, { s with guard := s.guard.safe r })

/-- SET_LIMITS: lo (2), hi (2), signed (R116). -/
def takeSetLimits (ps : List Byte) (s : State) : Answer × State :=
  let lo := signedAt ps 0
  let hi := signedAt ps 2
  if ps.length ≠ 4 then refuse s .length
  else if 0 < lo ∨ hi < 0 then refuse s .badValue
  else (.status .ok, { s with guard := { s.guard with pendingLimits := some (lo, hi) } })

/-- CLEAR_FLAGS: phase mask (1) (R117). -/
def takeClearFlags (ps : List Byte) (s : State) : Answer × State :=
  let mask := byteAt ps 0
  if ps.length ≠ 1 then refuse s .length
  else if 7 < mask then refuse s .badValue
  else (.status .ok, { s with ph := s.ph.onMask (BitVec.ofNat 3 mask) (fun p => { p with clamp := false }) })

/-- HOLD (R118). -/
def takeHoldRequest (ps : List Byte) (s : State) : Answer × State :=
  if ps.length ≠ 0 then refuse s .length
  else (.status .ok, { s with guard := { s.guard with hold := true } })

/-- RELEASE (R119). -/
def takeReleaseRequest (ps : List Byte) (s : State) : Answer × State :=
  if ps.length ≠ 0 then refuse s .length
  else if s.guard.out = .tripped then refuse s .tripped
  else (.status .ok, { s with guard := { s.guard with hold := false } })

/-- SET_WATCH: watch mask (1), Ipk (2), Kp (1), Irms (2), Kr (1) (R120). -/
def takeSetWatch (ps : List Byte) (s : State) : Answer × State :=
  let ipk := wordAt ps 1
  let kp := byteAt ps 3
  let irms := wordAt ps 4
  let kr := byteAt ps 6
  if ps.length ≠ 7 then refuse s .length
  else
    let watch : Byte := BitVec.ofNat 8 (byteAt ps 0)
    let stop := raisedStop s.scan.stop watch
    let adjusted := decide (32767 < ipk) || decide (kp = 0) || decide (32767 < irms) || decide (kr = 0)
    (.status (if adjusted then .clamped else .ok),
      { s with
        guard := { s.guard with
          watch := watch, ipk := min ipk 32767, kp := max kp 1, irms := min irms 32767, kr := max kr 1
          peak := eightOf 0, rms := eightOf 0 }
        scan := { s.scan with stop := stop }
        links := s.links.raiseIf (decide (s.scan.stop < stop)) .scanChanged })

/-- CLEAR_TRIP (R127). -/
def takeClearTrip (ps : List Byte) (s : State) : Answer × State :=
  if ps.length ≠ 0 then refuse s .length
  else if s.guard.out = .tripped then
    (.status .ok,
      { s with
        guard := { s.guard with
          out := .off, g := 0, tripCause := .none, tripChannel := 0, tripStamp := zeroPosition
          peak := eightOf 0, rms := eightOf 0, missingRun := 0 }
        trace := s.trace.defer .clearTrip 0 })
  else (.status .ok, s)

/-- The number of an output state (R181, encodings). -/
def OutState.code : OutState → Nat
  | .off => 0
  | .rampUp => 1
  | .on => 2
  | .rampDown => 3
  | .tripped => 4

/-- The number of a trip cause (R181, encodings). -/
def TripCause.code : TripCause → Nat
  | .none => 0
  | .peak => 1
  | .rms => 2
  | .measureLost => 3

/-- The steps that a guard ramp has still to make; 0 when none is present (R128). -/
def Guard.stepsRemaining (g : Guard) : Nat :=
  match g.ramp with
  | none => 0
  | some rp => rp.r - rp.k

/-- The 44 data bytes of READ_GUARD (R128, R181). Bits 3..7 of the clamp flags are sent as 0: log 27. -/
def guardBytes (g : Guard) (ph : Phases) : List Byte :=
  leBytes 1 g.out.code ++ leBytes 2 g.g ++ leBytes 2 g.stepsRemaining ++ leInt16 g.lo ++ leInt16 g.hi ++
  leBytes 1 ((if ph.a.clamp then 1 else 0) + (if ph.b.clamp then 2 else 0) + (if ph.c.clamp then 4 else 0)) ++
  [flagByte g.hold, g.watch] ++ leBytes 2 g.ipk ++ leBytes 1 g.kp ++ leBytes 2 g.irms ++ leBytes 1 g.kr ++
  g.peak.toList.flatMap (leBytes 1) ++ g.rms.toList.flatMap (leBytes 1) ++ leBytes 1 g.missingRun ++
  leBytes 1 g.tripCause.code ++ leBytes 1 g.tripChannel ++ positionBytes g.tripStamp ++ [flagByte g.tripOut]

/-- READ_GUARD (R128). -/
def takeReadGuard (ps : List Byte) (s : State) : Answer × State :=
  if ps.length = 0 then (.report .guard, s) else refuse s .length

end Sys2Proof.Machine
end

