-- ==== Sys2Proof/Machine/Capture.lean ====
section
/-! DEFINITION. The Capture Buffer: triggers, entries, losses, and its Monitor Link requests
(09_capture_buffer_and_event_trace.md, sections 9.1 to 9.4). -/

namespace Sys2Proof.Machine

/-! ## Entries offered (R145) -/

/-- The entry a present conversion offers (R145). -/
def conversionEntry (cmd : AdcCommand) (x : Int) : CapEntry :=
  { kind := .conversion, channel := cmd.channel, cycleStamp := cmd.stamp.cLow, angleStamp := cmd.stamp.ang, value := x,
    aux := 0 }

/-- The entry offered by the conversion that the Scanner hands over: none if it is missing (R133). -/
def conversionOffer (sc : Scanner) : List CapEntry :=
  match sc.outstanding with
  | none => []
  | some cmd =>
    match sc.result with
    | none => []
    | some x => [conversionEntry cmd x]

/-- The entry a cycle record with data offers; NO_DATA offers none (R139, R145). -/
def cycleOffer (pos : Position) (channel : Nat) (r : CycleRecord) : List CapEntry :=
  match r.data with
  | none => []
  | some d =>
    [{ kind := .cycle, channel := channel, cycleStamp := pos.cLow, angleStamp := pos.ang, value := (d.rms : Int),
       aux := d.peak }]

/-- The entries the records closed at a boundary offer, in channel order (R139). -/
def cycleOffers (sc : Scanner) (pos : Position) : List CapEntry :=
  channelNumbers.flatMap (fun i => cycleOffer pos i (sc.channels.get i).cycleRec)

/-! ## Triggers (R147, R148) -/

/-- Whether a marker passes the filter (R147). -/
def ArmSettings.accepts (a : ArmSettings) (marker : Nat) : Bool := !a.filterMatch || decide (a.filterValue = marker)

/-- Whether an event is an application of a MARK that passes the filter. -/
def ArmSettings.marksOn (a : ArmSettings) : TickEvent → Bool
  | .marked m => a.accepts m
  | _ => false

/-- Whether an event of the armed source occurs at the tick (R147). A REQUEST capture leaves ARMED when TRIGGER is taken
(R151). -/
def ArmSettings.occurs (a : ArmSettings) (boundary edge : Bool) (events : List TickEvent) : Bool :=
  match a.source with
  | .request => false
  | .mark => events.any a.marksOn
  | .external => edge
  | .trip => events.contains .trip
  | .cycle => boundary

/-- Whether the capture is triggered at the tick (R147). -/
def Capture.triggered (cap : Capture) (boundary trigIn : Bool) (events : List TickEvent) : Bool :=
  match cap.arm with
  | none => false
  | some a => decide (cap.state = .armed) && a.occurs boundary (trigIn && !cap.trigLevel) events

/-- The Capture Buffer at a tick, before the tick's entries: the trigger, its stamp, and the TRIG_IN level (R147, R148). A
capture that a TRIGGER request has started takes its stamp at its first tick (R151). -/
def Capture.atTick (cap : Capture) (boundary trigIn : Bool) (events : List TickEvent) (pos : Position) : Capture :=
  let hit := cap.triggered boundary trigIn events
  { cap with
    state := if hit then .capturing else cap.state
    stamp := if hit || (decide (cap.state = .capturing) && cap.stamp.isNone) then some pos else cap.stamp
    trigLevel := trigIn }

/-! ## Producing entries (R149, R150) -/

/-- Whether a capture takes an offered entry (R149). -/
def Capture.selects (cap : Capture) (e : CapEntry) : Bool :=
  match cap.arm with
  | none => false
  | some a =>
    decide (cap.state = .capturing) &&
    (match e.kind with
      | .conversion => channelIn a.mask e.channel
      | .cycle => a.cycleFlag)

/-- Whether the FIFO has no room (R150). -/
def Capture.full (cap : Capture) : Bool := decide (Config.captureEntries ≤ cap.fifo.length)

/-- Whether the entry produced next completes the window (R149). -/
def Capture.completes (cap : Capture) : Bool :=
  match cap.arm with
  | none => false
  | some a => decide (cap.count + 1 = a.window)

/-- The Capture Buffer after an entry is produced: put in the FIFO or dropped, and counted (R149, R150). -/
def Capture.produce (cap : Capture) (e : CapEntry) : Capture :=
  { cap with
    state := if cap.completes then .complete else cap.state
    count := cap.count + 1
    loss := cap.loss || cap.full
    fifo := if cap.full then cap.fifo else cap.fifo ++ [e] }

/-- CAPTURE_LOST incremented (R150). -/
def Nine.addCaptureLost (n : Nine) : Nine := { n with captureLost := saturate n.captureLost 1 }

/-- One offered entry taken or not (R149, R150). -/
def offerEntry (s : State) (e : CapEntry) : State :=
  if s.cap.selects e then
    { s with
      cap := s.cap.produce e
      cnt := if s.cap.full then s.cnt.count Nine.addCaptureLost else s.cnt
      links :=
        ((s.links.raiseIf (s.cap.full && !s.cap.loss) .captureLoss).raiseIf
          (!s.cap.full && decide (s.cap.fifo.length + 1 = 512)) .captureHalf).raiseIf s.cap.completes .captureDone
      events := if s.cap.completes then s.events ++ [.captureDone] else s.events }
  else s

/-- The tick's entries, in the order the Scanner offers them (R149). -/
def offerEntries : List CapEntry → State → State
  | [], s => s
  | e :: es, s => offerEntries es (offerEntry s e)

/-! ## Requests -/

/-- The trigger source of a number (R146). -/
def sourceOf : Nat → TriggerSource
  | 0 => .request
  | 1 => .mark
  | 2 => .external
  | 3 => .trip
  | _ => .cycle

/-- ARM_CAPTURE: source (1), filter mode (1), filter value (2), channel mask (1), cycle-record flag (1), W (2) (R146). -/
def takeArmCapture (ps : List Byte) (s : State) : Answer × State :=
  let source := byteAt ps 0
  let mode := byteAt ps 1
  let mask := byteAt ps 4
  let flag := byteAt ps 5
  let window := wordAt ps 6
  if ps.length ≠ 8 then refuse s .length
  else if 4 < source ∨ 1 < mode ∨ 1 < flag ∨ window = 0 ∨ 1024 < window then refuse s .badValue
  else if mask = 0 ∧ flag = 0 then refuse s .badValue
  else if s.cap.state = .armed ∨ s.cap.state = .capturing then refuse s .busy
  else
    (.status .ok,
      { s with cap := { s.cap with
          state := .armed
          arm := some { source := sourceOf source, filterMatch := decide (mode = 1), filterValue := wordAt ps 2,
                        mask := BitVec.ofNat 8 mask, cycleFlag := decide (flag = 1), window := window }
          count := 0, loss := false, stamp := none } })

/-- Whether a capture is ARMED on REQUEST (R151). -/
def Capture.armedOnRequest (cap : Capture) : Bool :=
  match cap.arm with
  | none => false
  | some a => decide (cap.state = .armed) && decide (a.source = .request)

/-- TRIGGER (R151). -/
def takeTrigger (ps : List Byte) (s : State) : Answer × State :=
  if ps.length ≠ 0 then refuse s .length
  else (.status .ok, { s with cap := { s.cap with state := if s.cap.armedOnRequest then .capturing else s.cap.state } })

/-- DISARM_CAPTURE (R152). -/
def takeDisarmCapture (ps : List Byte) (s : State) : Answer × State :=
  if ps.length ≠ 0 then refuse s .length
  else
    (.status .ok,
      { s with cap := { s.cap with state := .disarmed, arm := none, count := 0, loss := false, stamp := none } })

/-- FLUSH_CAPTURE (R153). -/
def takeFlushCapture (ps : List Byte) (s : State) : Answer × State :=
  if ps.length ≠ 0 then refuse s .length
  else (.status .ok, { s with cap := { s.cap with fifo := [] } })

/-- The number of a capture state (R181, encodings). -/
def CapState.code : CapState → Nat
  | .disarmed => 0
  | .armed => 1
  | .capturing => 2
  | .complete => 3

/-- The ten bytes of a capture entry (R181). -/
def capEntryBytes (e : CapEntry) : List Byte :=
  [if e.kind = .cycle then 1 else 0] ++ leBytes 1 e.channel ++ leBytes 2 e.cycleStamp.toNat ++
  leBytes 2 e.angleStamp.toNat ++ leInt16 e.value ++ leBytes 2 e.aux

/-- The window W; 0 when the arm settings are absent (R154). -/
def Capture.window (cap : Capture) : Nat :=
  match cap.arm with
  | none => 0
  | some a => a.window

/-- The trigger stamp as the low 16 bits of C and θ, both 0 when absent (R154). -/
def Capture.stampBytes (cap : Capture) : List Byte :=
  match cap.stamp with
  | none => leBytes 2 0 ++ leBytes 2 0
  | some p => leBytes 2 p.cLow.toNat ++ leBytes 2 p.ang.toNat

/-- The twelve bytes ahead of the entries of READ_CAPTURE (R154, R181). -/
def captureStatusBytes (cap : Capture) : List Byte :=
  leBytes 1 cap.state.code ++ leBytes 2 cap.fifo.length ++ leBytes 2 cap.count ++ leBytes 2 cap.window ++
  [flagByte cap.loss] ++ cap.stampBytes

/-- READ_CAPTURE: count n (1); the oldest min(n, occupancy) entries are removed and returned (R154). -/
def takeReadCapture (ps : List Byte) (s : State) : Answer × State :=
  let n := byteAt ps 0
  if ps.length ≠ 1 then refuse s .length
  else if n = 0 ∨ 24 < n then refuse s .badValue
  else
    let left := { s.cap with fifo := s.cap.fifo.drop n }
    (.data (captureStatusBytes left ++ (s.cap.fifo.take n).flatMap capEntryBytes), { s with cap := left })

end Sys2Proof.Machine
end

