-- ==== Sys2Proof/Machine/Trace.lean ====
section
/-! DEFINITION. The Event Trace: putting entries in, losses, and READ_TRACE (09_capture_buffer_and_event_trace.md, section
9.5). The runner's entries are made in Runner.lean. -/

namespace Sys2Proof.Machine

/-- TRACE_LOST incremented (R158). -/
def Nine.addTraceLost (n : Nine) : Nine := { n with traceLost := saturate n.traceLost 1 }

/-- Whether the trace has no room (R158). -/
def Trace.full (t : Trace) : Bool := decide (Config.traceEntries ≤ t.fifo.length)

/-- One entry put at the tail of the trace, or dropped and counted (R158). -/
def putEntry (s : State) (e : TraceEntry) : State :=
  if s.trace.full then { s with cnt := s.cnt.count Nine.addTraceLost }
  else
    { s with
      trace := { s.trace with fifo := s.trace.fifo ++ [e] }
      links := s.links.raiseIf (decide (s.trace.fifo.length + 1 = 32)) .traceHalf }

/-- Entries put in order. -/
def putEntries : List TraceEntry → State → State
  | [], s => s
  | e :: es, s => putEntries es (putEntry s e)

/-- The entries formed between ticks, with the tick's position (R157). -/
def deferredEntries (t : Trace) (pos : Position) : List TraceEntry :=
  t.deferred.map (fun d => plainEntry d.type d.index pos .nothing)

/-- How many entries stand up to and with the last CLEAR_TRIP, which a trip's entry of the same tick comes behind, the guard
having formed it before (R157). -/
def throughLastClear : List TraceEntry → Nat
  | [] => 0
  | e :: es =>
    if 0 < throughLastClear es then throughLastClear es + 1
    else if e.type = .clearTrip then 1 else 0

/-- An entry put at place `i` of a list. -/
def insertAt (i : Nat) (x : TraceEntry) (xs : List TraceEntry) : List TraceEntry := xs.take i ++ x :: xs.drop i

/-- The TRIP entry of the trip that the guard holds in its trip record (R124, R157). -/
def tripEntry (g : Guard) (pos : Position) : TraceEntry :=
  plainEntry .trip 0 pos (.tripped g.tripCause g.tripChannel)

/-- How many of the entries formed between ticks stand up to and with the last START or STOP: the runner's own requests, and
what was taken before one of them (R157). -/
def throughLastRequest : List TraceEntry → Nat
  | [] => 0
  | e :: es =>
    if 0 < throughLastRequest es then throughLastRequest es + 1
    else if e.type = .clearTrip then 0 else 1

/-- The entries formed between ticks, in the order taken and ahead of those that their own block makes at the tick, with the
runner's entries of the tick. A CLEAR_TRIP with no START or STOP behind it is the guard's, and its place among the runner's
entries of the tick is free (R157, R158; log 7). -/
def requestEntries (formed made : List TraceEntry) (free : Nat) : List TraceEntry :=
  let own := formed.drop (throughLastRequest formed)
  let place := free % (made.length + 1)
  if own.isEmpty || made.isEmpty then formed ++ made
  else formed.take (throughLastRequest formed) ++ (made.take place ++ own ++ made.drop place)

/-- The entries of a tick that do not come from a trip of this tick: those formed between ticks and the runner's (R157). -/
def runnerEntries (s : State) (pos : Position) : List TraceEntry :=
  requestEntries (deferredEntries s.trace pos) s.trace.made (Config.clearPlace s.free)

/-- The place of a TRIP entry among the tick's other entries: behind the guard's own, and otherwise free (R157, R158). -/
def tripPlace (s : State) (others : List TraceEntry) : Nat :=
  if others.length = throughLastClear others then others.length
  else throughLastClear others + Config.tripPlace s.free % (others.length - throughLastClear others + 1)

/-- The tick's trace entries in the order they enter (R157, R158). -/
def tickEntries (s : State) (pos : Position) : List TraceEntry :=
  if s.events.contains .trip then
    insertAt (tripPlace s (runnerEntries s pos)) (tripEntry s.guard pos) (runnerEntries s pos)
  else runnerEntries s pos

/-- The trace's work at the end of a tick (R157, R158). -/
def traceTick (s : State) (pos : Position) : State :=
  putEntries (tickEntries s pos)
    { s with
      trace := { s.trace with deferred := [], made := [] }
      events := if s.trace.deferred.isEmpty then s.events else s.events ++ [.deferredEntry]
      free := s.free + 1 }

/-! ## READ_TRACE (R159) -/

/-- The number of a trace type (R181, encodings). -/
def TraceType.code : TraceType → Nat
  | .record => 0
  | .start => 1
  | .stop => 2
  | .endEntry => 3
  | .fault => 4
  | .hold => 5
  | .release => 6
  | .trip => 7
  | .clearTrip => 8

/-- The three detail bytes (R181). R181 gives a FAULT the reason in the first and 0 in the others, so the source index that R99
puts into the field is sent as the record index alone: log 28. -/
def TraceDetail.bytes : TraceDetail → List Byte
  | .nothing => [0, 0, 0]
  | .marker v => leBytes 2 v ++ [0]
  | .fault r _ => leBytes 1 r.code ++ [0, 0]
  | .tripped cause ch => leBytes 1 cause.code ++ leBytes 1 ch ++ [0]

/-- The sixteen bytes of a trace entry (R181). The bits that R181 does not name are sent as 0: log 27. -/
def traceEntryBytes (e : TraceEntry) : List Byte :=
  leBytes 1 e.type.code ++ leBytes 1 (e.kind % 16 + 16 * e.mask.toNat) ++ leBytes 2 e.index ++
  leBytes 2 e.dueC.toNat ++ leBytes 2 e.dueAng.toNat ++ leBytes 2 e.stampC.toNat ++ leBytes 2 e.stampAng.toNat ++
  leBytes 1 ((if e.late then 1 else 0) + (if e.clamped then 2 else 0)) ++ e.detail.bytes

/-- READ_TRACE: count n (1); the oldest min(n, occupancy) entries are removed and returned (R159). -/
def takeReadTrace (ps : List Byte) (s : State) : Answer × State :=
  let n := byteAt ps 0
  if ps.length ≠ 1 then refuse s .length
  else if n = 0 ∨ 8 < n then refuse s .badValue
  else
    let left := { s.trace with fifo := s.trace.fifo.drop n }
    (.data (leBytes 1 left.fifo.length ++ (s.trace.fifo.take n).flatMap traceEntryBytes), { s with trace := left })

end Sys2Proof.Machine
end

