-- ==== Sys2Proof/Machine/Counters.lean ====
section
/-! DEFINITION. The Counter Bank: snapshots on request and at an interval, and the requests SNAPSHOT, SET_AUTO_SNAPSHOT and
READ_SNAPSHOT (10_counters_and_snapshots.md). The events counted are counted where they occur. -/

namespace Sys2Proof.Machine

/-- Whether a boundary tick brings the boundary count to K (R165). -/
def CounterBank.reaches (c : CounterBank) (boundary : Bool) : Bool :=
  boundary && decide (c.interval ≠ 0) && decide (c.boundary + 1 = c.interval)

/-- The boundary count after the tick: counted while K is not 0, and 0 again at K (R165). -/
def CounterBank.boundaryAfter (c : CounterBank) (boundary : Bool) : Nat :=
  if c.reaches boundary then 0
  else if boundary ∧ c.interval ≠ 0 then c.boundary + 1
  else c.boundary

/-- A snapshot taken: the live set as the ticks before left it is copied, and starts again from 0 (R163). -/
def CounterBank.snapshot (c : CounterBank) (pos : Position) : CounterBank :=
  { c with live := nineZero, snap := c.live, seq := c.seq + 1, stamp := pos, request := false }

/-- Whether a snapshot is taken at the tick (R163). -/
def CounterBank.takes (c : CounterBank) (boundary : Bool) : Bool := c.request || c.reaches boundary

/-- The Counter Bank at a tick, before the tick's own increments (R163, R165). -/
def CounterBank.atTick (c : CounterBank) (boundary : Bool) (pos : Position) : CounterBank :=
  { (if c.takes boundary then c.snapshot pos else c) with boundary := c.boundaryAfter boundary }

/-- The events of the Counter Bank at a tick. -/
def CounterBank.eventsAt (c : CounterBank) (boundary : Bool) : List TickEvent :=
  (if c.request then [.snapshotTaken] else []) ++ (if c.reaches boundary then [.autoSnapshot] else [])

/-- The Counter Bank's work at a tick (R163). -/
def snapshotTick (s : State) (boundary : Bool) (pos : Position) : State :=
  { s with
    cnt := s.cnt.atTick boundary pos
    links := s.links.raiseIf (s.cnt.takes boundary) .snapshotReady
    events := s.events ++ s.cnt.eventsAt boundary }

/-! ## Requests -/

/-- SNAPSHOT (R164). -/
def takeSnapshotRequest (ps : List Byte) (s : State) : Answer × State :=
  if ps.length ≠ 0 then refuse s .length
  else (.status .ok, { s with cnt := { s.cnt with request := true } })

/-- SET_AUTO_SNAPSHOT: interval K (2) (R165). -/
def takeSetAutoSnapshot (ps : List Byte) (s : State) : Answer × State :=
  if ps.length ≠ 2 then refuse s .length
  else (.status .ok, { s with cnt := { s.cnt with interval := wordAt ps 0, boundary := 0 } })

/-- Nine counters, two bytes each, in the order of R161's table. -/
def nineBytes (n : Nine) : List Byte :=
  leBytes 2 n.clampA ++ leBytes 2 n.clampB ++ leBytes 2 n.clampC ++ leBytes 2 n.applied ++ leBytes 2 n.late ++
  leBytes 2 n.overcurrent ++ leBytes 2 n.missing ++ leBytes 2 n.captureLost ++ leBytes 2 n.traceLost

/-- The 31 data bytes of READ_SNAPSHOT (R166, R181). -/
def snapshotBytes (c : CounterBank) : List Byte :=
  leBytes 2 c.seq.toNat ++ positionBytes c.stamp ++ nineBytes c.snap ++ leBytes 2 c.interval ++
  leBytes 2 c.boundary ++ [flagByte c.request]

/-- READ_SNAPSHOT (R166). -/
def takeReadSnapshot (ps : List Byte) (s : State) : Answer × State :=
  if ps.length = 0 then (.data (snapshotBytes s.cnt), s) else refuse s .length

end Sys2Proof.Machine
end

