-- ==== Sys2Proof/Machine/Links.lean ====
section
/-! DEFINITION. The links: transactions, the taking of requests with the link-level checks, responses, and the requests
READ_NOTICES, SET_ALERTS and SOFT_RESET (11_links_notices_and_start_up.md). -/

namespace Sys2Proof.Machine

/-! ## The requests that act on the link itself -/

/-- READ_NOTICES: the link's set is returned and emptied (R175). -/
def takeReadNotices (l : Link) (ps : List Byte) (s : State) : Answer × State :=
  if ps.length ≠ 0 then refuse s .length
  else
    (.data [(s.links.get l).notices, (s.links.get l).enable],
      { s with links := s.links.set l { s.links.get l with notices := 0 } })

/-- SET_ALERTS: enable mask (1); a bit beyond the link's notices is refused (R176). -/
def takeSetAlerts (l : Link) (ps : List Byte) (s : State) : Answer × State :=
  let mask : Byte := BitVec.ofNat 8 (byteAt ps 0)
  if ps.length ≠ 1 then refuse s .length
  else if mask &&& ~~~allNotices l ≠ 0 then refuse s .badValue
  else (.status .ok, { s with links := s.links.set l { s.links.get l with enable := mask } })

/-- SOFT_RESET: answered OK; its effect waits for the CS rise that ends its transaction (R129, R180). -/
def takeSoftReset (ps : List Byte) (s : State) : Answer × State :=
  if ps.length ≠ 0 then refuse s .length
  else (.status .ok, { s with links := { s.links with gl := { s.links.gl with softReset := true } } })

/-! ## Taking a request (R169, R171) -/

/-- Whether a request code belongs to a link or is common to all links (R171, R181, table of request codes). -/
def codeBelongs (code : Nat) (l : Link) : Bool :=
  decide (code < 0x10) ||
  (match l with
    | .pl => decide (0x10 ≤ code) && decide (code < 0x30)
    | .gl => decide (0x30 ≤ code) && decide (code < 0x50)
    | .ml => decide (0x50 ≤ code))

/-- The own checks and the effect of the request of a code, by the table of request codes (R181). -/
def takeByCode (code : Nat) (l : Link) (ps : List Byte) (s : State) : Answer × State :=
  match code with
  | 0x01 => takeReadNotices l ps s
  | 0x02 => takeSetAlerts l ps s
  | 0x03 => takeReadTimeline ps s
  | 0x04 => takeReadPhases ps s
  | 0x10 => takeWriteShape ps s
  | 0x11 => takeReadShape ps s
  | 0x12 => takeMapShape ps s
  | 0x13 => takeReadMap ps s
  | 0x14 => takeWriteSlots ps s
  | 0x15 => takeReadSlots ps s
  | 0x16 => takeSetSeed ps s
  | 0x17 => takeSetNominal ps s
  | 0x18 => takeWriteRecords ps s
  | 0x19 => takeReadRecords ps s
  | 0x1A => takeStart ps s
  | 0x1B => takeStop ps s
  | 0x1C => takeApplyNow ps s
  | 0x1D => takeReadRun ps s
  | 0x30 => takeEnable ps s
  | 0x31 => takeSafe ps s
  | 0x32 => takeSetLimits ps s
  | 0x33 => takeClearFlags ps s
  | 0x34 => takeHoldRequest ps s
  | 0x35 => takeReleaseRequest ps s
  | 0x36 => takeSetWatch ps s
  | 0x37 => takeClearTrip ps s
  | 0x38 => takeReadGuard ps s
  | 0x39 => takeSoftReset ps s
  | 0x50 => takeSetScan ps s
  | 0x51 => takeReadMeasure ps s
  | 0x52 => takeArmCapture ps s
  | 0x53 => takeTrigger ps s
  | 0x54 => takeDisarmCapture ps s
  | 0x55 => takeFlushCapture ps s
  | 0x56 => takeReadCapture ps s
  | 0x57 => takeReadTrace ps s
  | 0x58 => takeSnapshotRequest ps s
  | 0x59 => takeSetAutoSnapshot ps s
  | 0x5A => takeReadSnapshot ps s
  | _ => refuse s .unknown

/-- The link-level checks in R171's order, then the request's own. A request whose last byte arrived in INIT is NOT_READY
(R178). -/
def judge (l : Link) (r : Request) (s : State) : Answer × State :=
  if r.inInit then refuse s .notReady
  else if !requestCodes.contains r.code then refuse s .unknown
  else if !codeBelongs r.code.toNat l then refuse s .wrongLink
  else if 200 < r.n then refuse s .length
  else takeByCode r.code.toNat l r.params s

/-- Whether the oldest untaken request is the one of the transaction under way, so that its response can be read (R170). -/
def LinkState.isLive (lk : LinkState) : Bool := decide (lk.tx = .waiting) && decide (lk.untaken.length = 1)

/-- A link after its oldest untaken request is taken with an answer: the response waits if its transaction is under way, and
is lost otherwise (R169, R170). -/
def LinkState.answered (lk : LinkState) (live : Bool) (ans : Answer) : LinkState :=
  { lk with untaken := lk.untaken.tail, resp := if live then some (responseOf ans) else lk.resp }

/-- The oldest untaken request of a link taken: judged, its effect made, its answer kept (R169). -/
def takeOldest (l : Link) (s : State) : State :=
  match (s.links.get l).untaken with
  | [] => s
  | r :: _ =>
    let res := judge l r s
    { res.2 with
      links := res.2.links.set l ((res.2.links.get l).answered (s.links.get l).isLive res.1) }

/-- `n` untaken requests of one link taken, in their order (R169). -/
def takeNext (l : Link) : Nat → State → State
  | 0, s => s
  | n + 1, s => takeNext l n (takeOldest l s)

/-- Whether a request is one of the Program Link's for the Waveform Store, the Shape Map and the Slot Tables: WRITE_SHAPE,
READ_SHAPE, MAP_SHAPE, READ_MAP, WRITE_SLOTS and READ_SLOTS (R181, table of request codes). The outcome of each depends on
what is current, and the application of one record changes that (R21, R37). -/
def Request.forTables (r : Request) : Bool := decide (0x10 ≤ r.code.toNat) && decide (r.code.toNat ≤ 0x15)

/-- How many of the Program Link's untaken requests, counted from the newest, are for the tables. -/
def tableRequests (s : State) : Nat := (s.links.pl.untaken.reverse.takeWhile Request.forTables).length

/-- How many requests for the tables are left to be taken among the coming tick's applications: a free value, at most as many
as wait. Log 4. -/
def leftLate (s : State) : Nat :=
  if tableRequests s = 0 then 0 else Config.takenLate s.free % (tableRequests s + 1)

/-- How many requests a link keeps back, where the Program Link keeps back `late`. -/
def keptBack (late : Nat) : Link → Nat
  | .pl => late
  | .gl => 0
  | .ml => 0

/-- The links that hold an untaken request besides those kept back. -/
def waitingLinks (late : Nat) (s : State) : List Link :=
  [Link.pl, Link.gl, Link.ml].filter (fun l => decide (keptBack late l < (s.links.get l).untaken.length))

/-- How many untaken requests the links hold. -/
def untakenCount (s : State) : Nat :=
  s.links.pl.untaken.length + s.links.gl.untaken.length + s.links.ml.untaken.length

/-- At most `k` untaken requests taken, a link's own in order, but for the last `late` of the Program Link. Where several links hold one, a free value says which is
taken next (R169, R172). Log 5. -/
def takeWaiting (late : Nat) : Nat → State → State
  | 0, s => s
  | k + 1, s =>
    match waitingLinks late s with
    | [] => s
    | [l] => takeWaiting late k (takeOldest l s)
    | l :: ls =>
      takeWaiting late k
        (takeOldest ((l :: ls).getD (Config.takeChoice s.free % (l :: ls).length) l) { s with free := s.free + 1 })

/-- Every untaken request taken, but for the last `late` of the Program Link. -/
def takeAllBut (late : Nat) (s : State) : State := takeWaiting late (untakenCount s) s

/-- Every untaken request taken: no later than the first tick after its last byte (R169). Log 4. -/
def takeAll (s : State) : State := takeAllBut 0 s

/-! ## Responses (R169) -/

/-- The data of a report as of a tick (R15, R107, R128, R141, R177). -/
def reportBytes (s : State) : AsOf → List Byte
  | .timeline => timelineBytes s.tb
  | .phases => phasesBytes s.ph
  | .run => runBytes s.run s.guard.hold
  | .guard => guardBytes s.guard s.ph
  | .measure => measureBytes s.scan

/-- The bytes of a response, a report formed from the state given. -/
def formResponse (s : State) : Response → List Byte
  | .formed bytes => bytes
  | .atTick r => responseBytes .ok (reportBytes s r)

/-- A link whose response is ready leaves WAITING for RESPONDING (R169). -/
def LinkState.respond (lk : LinkState) (bytes : List Byte) : LinkState :=
  { lk with tx := .responding, out := bytes, resp := none }

/-- A link at the end of a tick: every response is ready no later than that tick (R169). -/
def LinkState.atTick (lk : LinkState) (s : State) : LinkState :=
  match lk.resp with
  | none => lk
  | some r => if lk.tx = .waiting then lk.respond (formResponse s r) else lk

/-- The links at the end of a tick (R169). -/
def respondTick (s : State) : State :=
  { s with links := { pl := s.links.pl.atTick s, gl := s.links.gl.atTick s, ml := s.links.ml.atTick s } }

/-- A response that is formed makes its link respond before the tick (R169). A report waits for its tick. -/
def LinkState.ready (lk : LinkState) : LinkState :=
  match lk.resp with
  | some (.formed bytes) => if lk.tx = .waiting then lk.respond bytes else lk
  | some (.atTick _) => lk
  | none => lk

/-! ## Transactions (R168, R170) -/

/-- A falling edge of CS: an IDLE link begins to receive, and enters DISCARD while RESETN is held (R168, R179). With CS
already low there is no edge. -/
def LinkState.fall (lk : LinkState) (resetLow : Bool) : LinkState :=
  if lk.csLow then lk
  else { lk with csLow := true, tx := if resetLow then .discard else .receiving, rx := [], resp := none, out := [] }

/-- A rising edge of CS ends the transaction in every state: a partial request is discarded, a response is lost, a complete
request stays to be taken (R168, R170). -/
def LinkState.rise (lk : LinkState) : LinkState :=
  { lk with csLow := false, tx := .idle, rx := [], resp := none, out := [] }

/-- Whether the bytes received make a complete request: n parameter bytes have followed the length byte, or n is 0 or above
200 (R168). -/
def isComplete (rx : List Byte) : Bool :=
  decide (2 ≤ rx.length) &&
  (decide (byteAt rx 1 = 0) || decide (200 < byteAt rx 1) || decide (rx.length = byteAt rx 1 + 2))

/-- The request that complete bytes make. -/
def requestOf (rx : List Byte) (inInit : Bool) : Request :=
  { code := rx.getD 0 0, n := byteAt rx 1, params := rx.drop 2, inInit := inInit }

/-- A byte taken in by a RECEIVING link; 0xFF is driven on SDO (R168). -/
def LinkState.receive (lk : LinkState) (sdi : Byte) (inInit : Bool) : LinkState :=
  let rx := lk.rx ++ [sdi]
  if isComplete rx then
    { lk with tx := .waiting, rx := [], untaken := lk.untaken ++ [requestOf rx inInit], sdo := 0xFF }
  else { lk with rx := rx, sdo := 0xFF }

/-- A byte sent by a RESPONDING link; after the last one the link is DRAINED (R169). -/
def LinkState.send (lk : LinkState) : LinkState :=
  match lk.out with
  | [] => { lk with tx := .drained, sdo := 0xFF }
  | b :: rest => { lk with tx := if rest.isEmpty then .drained else .responding, out := rest, sdo := b }

/-- One byte clocked by the master. SCK and SDI are ignored while CS is high (R168). -/
def LinkState.clockByte (lk : LinkState) (sdi : Byte) (inInit : Bool) : LinkState :=
  if lk.csLow then
    match lk.tx with
    | .receiving => lk.receive sdi inInit
    | .responding => lk.send
    | .waiting => { lk with sdo := 0xFF }
    | .drained => { lk with sdo := 0xFF }
    | .discard => { lk with sdo := 0xFF }
    | .idle => lk
  else lk

/-! ## Request commands -/

/-- Whether a master can begin a transaction on a link: CS high, the link IDLE, RESETN not asserted (R168, R179). -/
def canSend (l : Link) (s : State) : Bool :=
  !(s.links.get l).csLow && decide ((s.links.get l).tx = .idle) && !s.resetLow

/-- A link on which a whole request has been clocked in: CS low, WAITING (R168). With n above 200 the request ends at its
length byte. -/
def LinkState.sent (lk : LinkState) (code : Byte) (ps : List Byte) (inInit : Bool) : LinkState :=
  { lk with
    csLow := true, tx := .waiting, rx := [], resp := none, out := [], sdo := 0xFF
    untaken := lk.untaken ++
      [{ code := code, n := ps.length, params := if 200 < ps.length then [] else ps, inInit := inInit }] }

/-- The state with a request clocked in on an idle link. -/
def sendRequest (code : Byte) (l : Link) (ps : List Byte) (s : State) : State :=
  { s with links := s.links.set l ((s.links.get l).sent code ps s.inInit) }

/-- A request taken: the link's oldest untaken request if it is this one; otherwise, on an idle link that owes no taking,
the request is clocked in and taken. On a link that can do neither the command does not come about. Log 3. -/
def requestTaken (code : Byte) (l : Link) (ps : List Byte) (s : State) : State :=
  match (s.links.get l).untaken with
  | r :: _ => if r.code = code ∧ r.params = ps then takeOldest l s else s
  | [] => if canSend l s then takeOldest l (sendRequest code l ps s) else s

/-- The outcome of a request command; parameters that no length byte can announce are refused. Log 26. -/
def requestOutcome (code : Byte) (l : Link) (ps : List Byte) (s : State) : Host.Outcome State Fault Refusal :=
  if paramsFit ps then .next (requestTaken code l ps s) else .refused .illFormed

end Sys2Proof.Machine
end

