-- ==== Sys2Proof/Machine/Tick.lean ====
section
/-! DEFINITION. The sample tick: each block's work at one tick, in one order (log 24). -/

namespace Sys2Proof.Machine

/-- The Timebase's advance, which opens the tick (R3). -/
def timebaseTick (s : State) : State :=
  { s with
    tb := s.tb.advance
    events := (if s.tb.wraps then [.cycleBoundary] else []) ++
      (if s.tb.wraps && s.tb.rampEnds then [.freqRampEnd] else []) }

/-! ## Measurement and guard -/

/-- The Scanner after hand-over and, at a boundary, closing (R133, R139). -/
def Scanner.closed (sc : Scanner) (boundary : Bool) (pos : Position) : Scanner :=
  if boundary then sc.handOver.closeAll pos else sc.handOver

/-- The guard after the examination of the conversion and, at a boundary, of the cycle records (R121 to R123). -/
def Guard.examined (g : Guard) (sc : Scanner) (boundary : Bool) (pos : Position) : Guard :=
  if boundary then (g.examine sc).examineRecords (sc.closed boundary pos) else g.examine sc

/-- The trip made at a tick (R121 to R125). -/
def Guard.tripAt (g : Guard) (sc : Scanner) (boundary : Bool) (pos : Position) : Option (TripCause × Nat) :=
  let ge := g.examined sc boundary pos
  ge.tripMade (ge.conversionTrip sc) (if boundary then ge.rmsTrip else none)

/-- The guard after a tick: examination, then the trip or the ramp's step, then limits that come into force (R112, R113,
R116, R124). -/
def Guard.atTick (g : Guard) (sc : Scanner) (boundary : Bool) (pos : Position) : Guard :=
  (match g.tripAt sc boundary pos with
    | some t => (g.examined sc boundary pos).trip t.1 t.2 pos
    | none => (g.examined sc boundary pos).rampStep).limitsStep

/-- The counts of a hand-over: OVERCURRENT and MISSING (R121, R133). -/
def Nine.handOver (n : Nine) (isOver missing : Bool) : Nine :=
  { n with
    overcurrent := if isOver then saturate n.overcurrent 1 else n.overcurrent
    missing := if missing then saturate n.missing 1 else n.missing }

/-- The guard's events at a tick. -/
def Guard.eventsAt (g : Guard) (sc : Scanner) (boundary : Bool) (pos : Position) : List TickEvent :=
  (if (g.tripAt sc boundary pos).isSome then [.trip] else []) ++
  (if (g.tripAt sc boundary pos).isNone && g.rampEnds then [.guardRampEnd] else []) ++
  (if g.pendingLimits.isSome then [.limitsInForce] else [])

/-- The Scanner's and the guard's work at a tick: hand-over, examination, closing, trip or ramp, limits, and the tick's own
command (R113, R116, R121 to R125, R131, R133, R139). -/
def measureTick (s : State) (boundary : Bool) (pos : Position) : State :=
  { s with
    scan := (s.scan.closed boundary pos).command pos
    guard := s.guard.atTick s.scan boundary pos
    cnt := s.cnt.count (fun n => n.handOver (s.guard.overcurrent s.scan) s.scan.isMissing)
    links := s.links.raiseIf (s.guard.tripAt s.scan boundary pos).isSome .tripped
    events := s.events ++ s.guard.eventsAt s.scan boundary pos }

/-! ## Ramps and runner -/

/-- The level ramps' steps, before the tick's applications (R51). -/
def levelTick (s : State) : State :=
  { s with
    ph := s.ph.each Phase.rampStep
    events := if s.ph.a.rampEnds || s.ph.b.rampEnds || s.ph.c.rampEnds then s.events ++ [.levelRampEnd] else s.events }

/-- The hold flag that the runner reads at a tick: the flag as it stood before, or, free, the one that a trip of this tick
asserts (R93, R108, R124). Log 6. -/
def holdSeen (before tripped : Bool) (free : Nat) : Bool := before || (tripped && Config.tripSeen free)

/-- At most `k` due entries applied, each on the map and the state as they stand (R29, R94). -/
def applyStretch (prev pos : Position) (k : Nat) (s : State) : State :=
  s.withRunSide (applyDue s.map prev pos k s.runSide)

/-- At most `k` due entries applied and, before, between or after them, the `late` requests for the tables that wait: each is
taken after a free number of applications, and judged on the state that these left (R24, R27, R29 Note, R40). Log 4. -/
def applyAmong (prev pos : Position) : Nat → Nat → State → State
  | 0, k, s => applyStretch prev pos k s
  | late + 1, k, s =>
    let first := Config.appliedFirst s.free % (k + 1)
    applyAmong prev pos late (k - first)
      (takeOldest .pl { applyStretch prev pos first s with free := s.free + 1 })

/-- The runner's work at a tick (R93), with `late` requests for the tables taken during it. -/
def runTick (late : Nat) (s : State) (prev pos : Position) (boundary hold : Bool) : State :=
  let s1 := s.withRunSide s.runSide.renewed
  if appliesEntries s.run boundary hold then
    let s2 := applyAmong prev pos late s.run.queue.length s1
    s2.withRunSide (s2.runSide.filled s2.sched)
  else takeNext .pl late (s1.withRunSide (otherWork s1.sched s1.map pos hold s1.runSide))

/-! ## Capture -/

/-- The Capture Buffer's work at a tick: its trigger acts on the whole tick, then the offered entries are taken (R147 to
R150). `conv` is what the conversion handed over offers. -/
def captureTick (s : State) (conv : List CapEntry) (boundary trigIn : Bool) (pos : Position) : State :=
  offerEntries (conv ++ (if boundary then cycleOffers s.scan pos else []))
    { s with cap := s.cap.atTick boundary trigIn s.events pos }

/-! ## The tick -/

/-- The measuring half of a tick: Timebase, snapshot, Scanner and guard, level ramps. -/
def tickFront (s : State) : State :=
  let s1 := timebaseTick s
  levelTick (measureTick (snapshotTick s1 s.tb.wraps s1.tb.position) s.tb.wraps s1.tb.position)

/-- The tick up to the frame: the front half, the runner with `late` requests for the tables, the samples. -/
def tickMiddle (late : Nat) (s : State) : State :=
  let s1 := tickFront s
  synthesize (runTick late s1 s.tb.position s.tb.advance.position s.tb.wraps
    (holdSeen s.guard.hold (s1.events.contains .trip) s.free))

/-- A tick after INIT with RESETN released: all the work of all blocks at the position that the advance reaches (R3, R4,
R55, R93, R131, R147, R157, R163, R169). -/
def workTick (late : Nat) (trigIn : Bool) (s : State) : State :=
  respondTick
    (traceTick
      (captureTick (tickMiddle late s) (conversionOffer s.scan) s.tb.wraps trigIn s.tb.advance.position)
      s.tb.advance.position)

/-- A tick during INIT or while RESETN is held: a frame of zeros, and responses that are ready (R16, R17, R68, R169). -/
def quietTick (s : State) : State := respondTick { s with frame := frameZero, events := [] }

/-- Whether the part does its tick's work: INIT has ended and RESETN is not asserted (R3). -/
def State.works (s : State) : Bool := !s.inInit && !s.resetLow

/-- One sample tick (R3). Requests that wait are taken first, but for those for the tables that are taken among the
applications of a working tick (R169). Log 4. -/
def tick (trigIn : Bool) (s : State) : State :=
  if s.works then workTick (leftLate s) trigIn (takeAllBut (leftLate s) s) else quietTick (takeAll s)

/-- SAMPLE_TICK. -/
def execSampleTick (trigIn : Bool) (s : State) : Host.Outcome State Fault Refusal := .next (tick trigIn s)

end Sys2Proof.Machine
end

