-- ==== Sys2Proof/Machine/Events.lean ====
section
/-! DEFINITION. The rows of the opcode table that are events inside a tick. Each is the tick at which its event comes
about: where the coming tick is such a tick the command is that tick, whole; where it is not, the event does not come about
and nothing changes. Log 2. -/

namespace Sys2Proof.Machine

/-- The tick at which an event comes about, if the coming tick is one: `hit` recognises the event among the tick's. -/
def eventTick (hit : TickEvent → Bool) (trigIn : Bool) (s : State) : State :=
  if s.works && (tick trigIn s).events.any hit then tick trigIn s else s

/-- Recognises one event. -/
def isEvent (e : TickEvent) : TickEvent → Bool := fun x => decide (x = e)

/-- Recognises the application of a record of one kind from the Record Queue. -/
def isApplied (k : RecKind) : TickEvent → Bool := fun x => decide (x = .applied k)

/-- Recognises a SHAPE record that falls due: applied (R29), or met by an UNMAPPED entry (R100). -/
def isShapeDue : TickEvent → Bool := fun x => decide (x = .applied .shape) || decide (x = .unmappedShape)

/-- CYCLE_BOUNDARY: the advance of B wraps past 2^32 and C is incremented (R3). -/
def execCycleBoundary (trigIn : Bool) (s : State) : Host.Outcome State Fault Refusal :=
  .next (eventTick (isEvent .cycleBoundary) trigIn s)

/-- FREQ_RAMP_END: the frequency ramp makes its last step (R9). -/
def execFreqRampEnd (trigIn : Bool) (s : State) : Host.Outcome State Fault Refusal :=
  .next (eventTick (isEvent .freqRampEnd) trigIn s)

/-- LEVEL_RAMP_END: a level ramp makes its last step (R51). -/
def execLevelRampEnd (trigIn : Bool) (s : State) : Host.Outcome State Fault Refusal :=
  .next (eventTick (isEvent .levelRampEnd) trigIn s)

/-- GUARD_RAMP_END: the guard ramp makes its last step (R113). -/
def execGuardRampEnd (trigIn : Bool) (s : State) : Host.Outcome State Fault Refusal :=
  .next (eventTick (isEvent .guardRampEnd) trigIn s)

/-- PENDING_LIMITS_IN_FORCE: pending limits come into force (R116). -/
def execPendingLimitsInForce (trigIn : Bool) (s : State) : Host.Outcome State Fault Refusal :=
  .next (eventTick (isEvent .limitsInForce) trigIn s)

/-- LEVEL: a due LEVEL record is applied (R50, R72). -/
def execLevel (trigIn : Bool) (s : State) : Host.Outcome State Fault Refusal :=
  .next (eventTick (isApplied .level) trigIn s)

/-- FREQ: a due FREQ record is applied (R73). -/
def execFreq (trigIn : Bool) (s : State) : Host.Outcome State Fault Refusal :=
  .next (eventTick (isApplied .freq) trigIn s)

/-- PHASE_JUMP: a due PHASE_JUMP record is applied (R13, R73). -/
def execPhaseJump (trigIn : Bool) (s : State) : Host.Outcome State Fault Refusal :=
  .next (eventTick (isApplied .phaseJump) trigIn s)

/-- SHAPE: a due SHAPE record resolves its map entry, and is applied or faults (R29, R100). -/
def execShape (trigIn : Bool) (s : State) : Host.Outcome State Fault Refusal :=
  .next (eventTick isShapeDue trigIn s)

/-- SLOTBANK: a due SLOTBANK record is applied (R37, R72). -/
def execSlotbank (trigIn : Bool) (s : State) : Host.Outcome State Fault Refusal :=
  .next (eventTick (isApplied .slotbank) trigIn s)

/-- NOISE: a due NOISE record is applied (R54, R72). -/
def execNoise (trigIn : Bool) (s : State) : Host.Outcome State Fault Refusal :=
  .next (eventTick (isApplied .noise) trigIn s)

/-- MARK: a due MARK record is applied (R74). -/
def execMark (trigIn : Bool) (s : State) : Host.Outcome State Fault Refusal :=
  .next (eventTick (isApplied .mark) trigIn s)

/-- END: a due END record is applied (R98). -/
def execEndRecord (trigIn : Bool) (s : State) : Host.Outcome State Fault Refusal :=
  .next (eventTick (isApplied .endRecord) trigIn s)

/-- LOOP_BEGIN: a LOOP_BEGIN is applied (R75, R97). -/
def execLoopBegin (trigIn : Bool) (s : State) : Host.Outcome State Fault Refusal :=
  .next (eventTick (isApplied .loopBegin) trigIn s)

/-- LOOP_END: a LOOP_END is applied (R75, R97). -/
def execLoopEnd (trigIn : Bool) (s : State) : Host.Outcome State Fault Refusal :=
  .next (eventTick (isApplied .loopEnd) trigIn s)

/-- GOTO: a GOTO is applied (R76, R97). -/
def execGoto (trigIn : Bool) (s : State) : Host.Outcome State Fault Refusal :=
  .next (eventTick (isApplied .goto) trigIn s)

/-- FAULT_MARKER: a due fault marker moves the runner to FAULTED (R99). -/
def execFaultMarker (trigIn : Bool) (s : State) : Host.Outcome State Fault Refusal :=
  .next (eventTick (isEvent .faultMarker) trigIn s)

/-- TAKE_HOLD: the runner takes the hold (R108). -/
def execTakeHold (trigIn : Bool) (s : State) : Host.Outcome State Fault Refusal :=
  .next (eventTick (isEvent .takeHold) trigIn s)

/-- RELEASE_HOLD: the runner releases the hold (R109). -/
def execReleaseHold (trigIn : Bool) (s : State) : Host.Outcome State Fault Refusal :=
  .next (eventTick (isEvent .releaseHold) trigIn s)

/-- APPLY_NOW_APPLIED: a pending APPLY_NOW is applied (R106). -/
def execApplyNowApplied (trigIn : Bool) (s : State) : Host.Outcome State Fault Refusal :=
  .next (eventTick (isEvent .applyNow) trigIn s)

/-- TRIP: the guard trips (R124). -/
def execTrip (trigIn : Bool) (s : State) : Host.Outcome State Fault Refusal :=
  .next (eventTick (isEvent .trip) trigIn s)

/-- CAPTURE_DONE: a capture window completes (R149). -/
def execCaptureDone (trigIn : Bool) (s : State) : Host.Outcome State Fault Refusal :=
  .next (eventTick (isEvent .captureDone) trigIn s)

/-- DEFERRED_TRACE_ENTRY: an entry formed between ticks is put into the trace (R157). -/
def execDeferredTraceEntry (trigIn : Bool) (s : State) : Host.Outcome State Fault Refusal :=
  .next (eventTick (isEvent .deferredEntry) trigIn s)

/-- SNAPSHOT_TAKEN: a pending snapshot request is served (R163). -/
def execSnapshotTaken (trigIn : Bool) (s : State) : Host.Outcome State Fault Refusal :=
  .next (eventTick (isEvent .snapshotTaken) trigIn s)

/-- AUTO_SNAPSHOT: the boundary count reaches K and a snapshot is taken (R165). -/
def execAutoSnapshot (trigIn : Bool) (s : State) : Host.Outcome State Fault Refusal :=
  .next (eventTick (isEvent .autoSnapshot) trigIn s)

end Sys2Proof.Machine
end

