-- ==== Sys2Proof/Machine/Requests.lean ====
section
/-! DEFINITION. The request commands: each is its request taken on a link (R169, R171), by its code of the table of request
codes (R181). Its own checks and its effect are the `take…` definition of its block. -/

namespace Sys2Proof.Machine

/-- UNKNOWN_REQUEST: a request whose code is in no row of the table, answered UNKNOWN with no effect (R171). A code that is
in the table is refused: log 26. -/
def execUnknownRequest (l : Link) (code : Byte) (ps : List Byte) (s : State) : Host.Outcome State Fault Refusal :=
  if requestCodes.contains code then .refused .illFormed else requestOutcome code l ps s

/-- READ_NOTICES (R175). -/
def execReadNotices (l : Link) (ps : List Byte) (s : State) : Host.Outcome State Fault Refusal :=
  requestOutcome 0x01 l ps s

/-- SET_ALERTS (R176). -/
def execSetAlerts (l : Link) (ps : List Byte) (s : State) : Host.Outcome State Fault Refusal :=
  requestOutcome 0x02 l ps s

/-- READ_TIMELINE (R15). -/
def execReadTimeline (l : Link) (ps : List Byte) (s : State) : Host.Outcome State Fault Refusal :=
  requestOutcome 0x03 l ps s

/-- READ_PHASES (R177). -/
def execReadPhases (l : Link) (ps : List Byte) (s : State) : Host.Outcome State Fault Refusal :=
  requestOutcome 0x04 l ps s

/-- WRITE_SHAPE (R23). -/
def execWriteShape (l : Link) (ps : List Byte) (s : State) : Host.Outcome State Fault Refusal :=
  requestOutcome 0x10 l ps s

/-- READ_SHAPE (R25). -/
def execReadShape (l : Link) (ps : List Byte) (s : State) : Host.Outcome State Fault Refusal :=
  requestOutcome 0x11 l ps s

/-- MAP_SHAPE (R26). -/
def execMapShape (l : Link) (ps : List Byte) (s : State) : Host.Outcome State Fault Refusal :=
  requestOutcome 0x12 l ps s

/-- READ_MAP (R28). -/
def execReadMap (l : Link) (ps : List Byte) (s : State) : Host.Outcome State Fault Refusal :=
  requestOutcome 0x13 l ps s

/-- WRITE_SLOTS (R39). -/
def execWriteSlots (l : Link) (ps : List Byte) (s : State) : Host.Outcome State Fault Refusal :=
  requestOutcome 0x14 l ps s

/-- READ_SLOTS (R41). -/
def execReadSlots (l : Link) (ps : List Byte) (s : State) : Host.Outcome State Fault Refusal :=
  requestOutcome 0x15 l ps s

/-- SET_SEED (R44). -/
def execSetSeed (l : Link) (ps : List Byte) (s : State) : Host.Outcome State Fault Refusal :=
  requestOutcome 0x16 l ps s

/-- SET_NOMINAL (R48). -/
def execSetNominal (l : Link) (ps : List Byte) (s : State) : Host.Outcome State Fault Refusal :=
  requestOutcome 0x17 l ps s

/-- WRITE_RECORDS (R83). -/
def execWriteRecords (l : Link) (ps : List Byte) (s : State) : Host.Outcome State Fault Refusal :=
  requestOutcome 0x18 l ps s

/-- READ_RECORDS (R85). -/
def execReadRecords (l : Link) (ps : List Byte) (s : State) : Host.Outcome State Fault Refusal :=
  requestOutcome 0x19 l ps s

/-- START (R103). -/
def execStart (l : Link) (ps : List Byte) (s : State) : Host.Outcome State Fault Refusal :=
  requestOutcome 0x1A l ps s

/-- STOP (R104). -/
def execStop (l : Link) (ps : List Byte) (s : State) : Host.Outcome State Fault Refusal :=
  requestOutcome 0x1B l ps s

/-- APPLY_NOW (R105). -/
def execApplyNow (l : Link) (ps : List Byte) (s : State) : Host.Outcome State Fault Refusal :=
  requestOutcome 0x1C l ps s

/-- READ_RUN (R107). -/
def execReadRun (l : Link) (ps : List Byte) (s : State) : Host.Outcome State Fault Refusal :=
  requestOutcome 0x1D l ps s

/-- ENABLE (R114). -/
def execEnable (l : Link) (ps : List Byte) (s : State) : Host.Outcome State Fault Refusal :=
  requestOutcome 0x30 l ps s

/-- SAFE (R115). -/
def execSafe (l : Link) (ps : List Byte) (s : State) : Host.Outcome State Fault Refusal :=
  requestOutcome 0x31 l ps s

/-- SET_LIMITS (R116). -/
def execSetLimits (l : Link) (ps : List Byte) (s : State) : Host.Outcome State Fault Refusal :=
  requestOutcome 0x32 l ps s

/-- CLEAR_FLAGS (R117). -/
def execClearFlags (l : Link) (ps : List Byte) (s : State) : Host.Outcome State Fault Refusal :=
  requestOutcome 0x33 l ps s

/-- HOLD (R118). -/
def execHold (l : Link) (ps : List Byte) (s : State) : Host.Outcome State Fault Refusal :=
  requestOutcome 0x34 l ps s

/-- RELEASE (R119). -/
def execRelease (l : Link) (ps : List Byte) (s : State) : Host.Outcome State Fault Refusal :=
  requestOutcome 0x35 l ps s

/-- SET_WATCH (R120). -/
def execSetWatch (l : Link) (ps : List Byte) (s : State) : Host.Outcome State Fault Refusal :=
  requestOutcome 0x36 l ps s

/-- CLEAR_TRIP (R127). -/
def execClearTrip (l : Link) (ps : List Byte) (s : State) : Host.Outcome State Fault Refusal :=
  requestOutcome 0x37 l ps s

/-- READ_GUARD (R128). -/
def execReadGuard (l : Link) (ps : List Byte) (s : State) : Host.Outcome State Fault Refusal :=
  requestOutcome 0x38 l ps s

/-- SOFT_RESET (R129). -/
def execSoftReset (l : Link) (ps : List Byte) (s : State) : Host.Outcome State Fault Refusal :=
  requestOutcome 0x39 l ps s

/-- SET_SCAN (R135). -/
def execSetScan (l : Link) (ps : List Byte) (s : State) : Host.Outcome State Fault Refusal :=
  requestOutcome 0x50 l ps s

/-- READ_MEASURE (R141). -/
def execReadMeasure (l : Link) (ps : List Byte) (s : State) : Host.Outcome State Fault Refusal :=
  requestOutcome 0x51 l ps s

/-- ARM_CAPTURE (R146). -/
def execArmCapture (l : Link) (ps : List Byte) (s : State) : Host.Outcome State Fault Refusal :=
  requestOutcome 0x52 l ps s

/-- TRIGGER (R151). -/
def execTrigger (l : Link) (ps : List Byte) (s : State) : Host.Outcome State Fault Refusal :=
  requestOutcome 0x53 l ps s

/-- DISARM_CAPTURE (R152). -/
def execDisarmCapture (l : Link) (ps : List Byte) (s : State) : Host.Outcome State Fault Refusal :=
  requestOutcome 0x54 l ps s

/-- FLUSH_CAPTURE (R153). -/
def execFlushCapture (l : Link) (ps : List Byte) (s : State) : Host.Outcome State Fault Refusal :=
  requestOutcome 0x55 l ps s

/-- READ_CAPTURE (R154). -/
def execReadCapture (l : Link) (ps : List Byte) (s : State) : Host.Outcome State Fault Refusal :=
  requestOutcome 0x56 l ps s

/-- READ_TRACE (R159). -/
def execReadTrace (l : Link) (ps : List Byte) (s : State) : Host.Outcome State Fault Refusal :=
  requestOutcome 0x57 l ps s

/-- SNAPSHOT (R164). -/
def execSnapshot (l : Link) (ps : List Byte) (s : State) : Host.Outcome State Fault Refusal :=
  requestOutcome 0x58 l ps s

/-- SET_AUTO_SNAPSHOT (R165). -/
def execSetAutoSnapshot (l : Link) (ps : List Byte) (s : State) : Host.Outcome State Fault Refusal :=
  requestOutcome 0x59 l ps s

/-- READ_SNAPSHOT (R166). -/
def execReadSnapshot (l : Link) (ps : List Byte) (s : State) : Host.Outcome State Fault Refusal :=
  requestOutcome 0x5A l ps s

end Sys2Proof.Machine
end

