-- ==== Sys2Proof/Machine/StartUp.lean ====
section
/-! DEFINITION. Power-on, INIT, pin reset and the effect of SOFT_RESET on every block and every link (R178 to R180, and the
reset rules of the chapters), and the commands on the pins: RESETN, CS, bytes, ADC results. -/

namespace Sys2Proof.Machine

/-! ## Resets of the blocks -/

/-- Every block at its reset values; the memories keep their contents (R17, R31, R32, R42, R69, R86, R110, R129, R142, R155,
R160, R167). -/
def resetBlocks (s : State) : State :=
  { s with
    tb := timebaseReset, lfsr := lfsrReset, ph := phasesReset, run := runnerReset, guard := guardReset,
    scan := scannerReset, cap := captureReset, trace := traceReset, cnt := countersReset, events := [] }

/-- A link whose notices, mask and requests a reset has cleared (R173, R176, R179, R180). A request not yet taken is not
taken: log 11. -/
def LinkState.cleared (lk : LinkState) (l : Link) : LinkState :=
  { lk with
    rx := [], untaken := [], resp := none, out := [], softReset := false, notices := 0, enable := allNotices l }

/-- A link at the assertion of RESETN: in DISCARD with CS low, IDLE with CS high (R179). -/
def LinkState.pinReset (lk : LinkState) (l : Link) : LinkState :=
  { lk.cleared l with tx := if lk.csLow then .discard else .idle }

/-- A link of another master when a SOFT_RESET takes effect: an active transaction enters DISCARD (R180). -/
def LinkState.softResetOther (lk : LinkState) (l : Link) : LinkState :=
  { lk.cleared l with tx := if lk.tx = .idle then .idle else .discard }

/-- A link at power-on: IDLE, with its CS pin where its master holds it (R168, R178). Log 12. -/
def LinkState.powered (lk : LinkState) (l : Link) (resetLow : Bool) : LinkState :=
  { linkReset l with csLow := lk.csLow, tx := if lk.csLow && resetLow then .discard else .idle }

/-! ## Power and RESETN -/

/-- Power is applied: INIT, the memories cleared, every block at its reset values (R178, R31, R32, R86). The pins stay where
the test stand holds them. Log 12, log 16, log 25. -/
def powerOn (s : State) : State :=
  { resetBlocks s with
    inInit := true, wave := [], map := [], slots := [], sched := [], frame := frameZero
    links := { pl := s.links.pl.powered .pl s.resetLow, gl := s.links.gl.powered .gl s.resetLow,
               ml := s.links.ml.powered .ml s.resetLow } }

/-- POWER_ON. -/
def execPowerOn (s : State) : Host.Outcome State Fault Refusal := .next (powerOn s)

/-- The tick at which INIT ends: requests that wait are answered NOT_READY, the frame carries zeros, and every block holds
its reset values (R16, R68, R178). It does not come about outside INIT or while RESETN is asserted. Log 16. -/
def initEnd (s : State) : State :=
  if s.inInit && !s.resetLow then { resetBlocks (quietTick (takeAll s)) with inInit := false } else s

/-- INIT_END. -/
def execInitEnd (s : State) : Host.Outcome State Fault Refusal := .next (initEnd s)

/-- RESETN is asserted with power present (R179). In INIT the part stays in INIT (R178). -/
def pinReset (s : State) : State :=
  { resetBlocks s with
    resetLow := true
    links := { pl := s.links.pl.pinReset .pl, gl := s.links.gl.pinReset .gl, ml := s.links.ml.pinReset .ml } }

/-- PIN_RESET. -/
def execPinReset (s : State) : Host.Outcome State Fault Refusal := .next (pinReset s)

/-- RESETN is released: the next tick is the first advance from the reset values (R17). -/
def resetnRelease (s : State) : State := { s with resetLow := false }

/-- RESETN_RELEASE. -/
def execResetnRelease (s : State) : Host.Outcome State Fault Refusal := .next (resetnRelease s)

/-! ## CS and bytes -/

/-- CS_FALL. -/
def execCsFall (l : Link) (s : State) : Host.Outcome State Fault Refusal :=
  .next { s with links := s.links.set l ((s.links.get l).fall s.resetLow) }

/-- The effect of a SOFT_RESET at the CS rise that ends its own transaction (R180). -/
def softReset (s : State) : State :=
  { resetBlocks s with
    links := { pl := s.links.pl.softResetOther .pl
               gl := { s.links.gl.cleared .gl with csLow := false, tx := .idle }
               ml := s.links.ml.softResetOther .ml } }

/-- The code of SOFT_RESET (R181). -/
def softResetCode : Byte := 0x39

/-- Whether the link's transaction is WAITING with a SOFT_RESET that is complete and not yet taken. -/
def LinkState.holdsSoftReset (lk : LinkState) : Bool :=
  decide (lk.tx = .waiting) && (match lk.untaken.getLast? with
    | none => false
    | some r => decide (r.code = softResetCode))

/-- The untaken requests of one link taken, at most `k` of them. -/
def takeLink (l : Link) : Nat → State → State
  | 0, s => s
  | k + 1, s => takeLink l k (takeOldest l s)

/-- A complete SOFT_RESET is taken no later than the rising edge that ends its transaction, behind the requests completed
before it on the link (R169, R180). -/
def takeBeforeRise (l : Link) (s : State) : State :=
  if decide (l = .gl) && (s.links.get l).holdsSoftReset then takeLink l (s.links.get l).untaken.length s else s

/-- A rising edge of CS (R170). On the Guard Link it makes the effect of a SOFT_RESET taken in the transaction that it ends
(R180). -/
def csRise (l : Link) (s : State) : State :=
  let s1 := takeBeforeRise l s
  if (s1.links.get l).softReset then softReset s1
  else { s1 with links := s1.links.set l (s1.links.get l).rise }

/-- CS_RISE. With CS already high there is no edge. -/
def execCsRise (l : Link) (s : State) : Host.Outcome State Fault Refusal :=
  .next (if (s.links.get l).csLow then csRise l s else s)

/-- BYTE_CLOCKED. -/
def execByteClocked (l : Link) (sdi : Byte) (s : State) : Host.Outcome State Fault Refusal :=
  .next { s with links := s.links.set l ((s.links.get l).clockByte sdi s.inInit) }

/-- RESPONSE_READY. -/
def execResponseReady (l : Link) (s : State) : Host.Outcome State Fault Refusal :=
  .next { s with links := s.links.set l (s.links.get l).ready }

/-! ## The ADC -/

/-- ADC_RESULT. -/
def execAdcResult (value : AdcResult) (s : State) : Host.Outcome State Fault Refusal :=
  .next { s with scan := s.scan.readResult value.answered value.bits }

end Sys2Proof.Machine
end

