-- ==== Sys2Proof/Machine/Dispatch.lean ====
section
/-! DEFINITION. One arm per command, each a direct call of its meaning. -/

namespace Sys2Proof.Machine

def exec (i : Instr) (s : State) : Host.Outcome State Fault Refusal :=
  match i with
  | .powerOn => Sys2Proof.Machine.execPowerOn s
  | .initEnd => Sys2Proof.Machine.execInitEnd s
  | .pinReset => Sys2Proof.Machine.execPinReset s
  | .resetnRelease => Sys2Proof.Machine.execResetnRelease s
  | .sampleTick trigIn => Sys2Proof.Machine.execSampleTick trigIn s
  | .cycleBoundary trigIn => Sys2Proof.Machine.execCycleBoundary trigIn s
  | .freqRampEnd trigIn => Sys2Proof.Machine.execFreqRampEnd trigIn s
  | .levelRampEnd trigIn => Sys2Proof.Machine.execLevelRampEnd trigIn s
  | .guardRampEnd trigIn => Sys2Proof.Machine.execGuardRampEnd trigIn s
  | .pendingLimitsInForce trigIn => Sys2Proof.Machine.execPendingLimitsInForce trigIn s
  | .level trigIn => Sys2Proof.Machine.execLevel trigIn s
  | .freq trigIn => Sys2Proof.Machine.execFreq trigIn s
  | .phaseJump trigIn => Sys2Proof.Machine.execPhaseJump trigIn s
  | .shape trigIn => Sys2Proof.Machine.execShape trigIn s
  | .slotbank trigIn => Sys2Proof.Machine.execSlotbank trigIn s
  | .noise trigIn => Sys2Proof.Machine.execNoise trigIn s
  | .mark trigIn => Sys2Proof.Machine.execMark trigIn s
  | .endRecord trigIn => Sys2Proof.Machine.execEndRecord trigIn s
  | .loopBegin trigIn => Sys2Proof.Machine.execLoopBegin trigIn s
  | .loopEnd trigIn => Sys2Proof.Machine.execLoopEnd trigIn s
  | .goto trigIn => Sys2Proof.Machine.execGoto trigIn s
  | .faultMarker trigIn => Sys2Proof.Machine.execFaultMarker trigIn s
  | .takeHold trigIn => Sys2Proof.Machine.execTakeHold trigIn s
  | .releaseHold trigIn => Sys2Proof.Machine.execReleaseHold trigIn s
  | .applyNowApplied trigIn => Sys2Proof.Machine.execApplyNowApplied trigIn s
  | .trip trigIn => Sys2Proof.Machine.execTrip trigIn s
  | .captureDone trigIn => Sys2Proof.Machine.execCaptureDone trigIn s
  | .deferredTraceEntry trigIn => Sys2Proof.Machine.execDeferredTraceEntry trigIn s
  | .snapshotTaken trigIn => Sys2Proof.Machine.execSnapshotTaken trigIn s
  | .autoSnapshot trigIn => Sys2Proof.Machine.execAutoSnapshot trigIn s
  | .adcResult value => Sys2Proof.Machine.execAdcResult value s
  | .csFall l => Sys2Proof.Machine.execCsFall l s
  | .csRise l => Sys2Proof.Machine.execCsRise l s
  | .responseReady l => Sys2Proof.Machine.execResponseReady l s
  | .unknownRequest l code ps => Sys2Proof.Machine.execUnknownRequest l code ps s
  | .readNotices l ps => Sys2Proof.Machine.execReadNotices l ps s
  | .setAlerts l ps => Sys2Proof.Machine.execSetAlerts l ps s
  | .readTimeline l ps => Sys2Proof.Machine.execReadTimeline l ps s
  | .readPhases l ps => Sys2Proof.Machine.execReadPhases l ps s
  | .writeShape l ps => Sys2Proof.Machine.execWriteShape l ps s
  | .readShape l ps => Sys2Proof.Machine.execReadShape l ps s
  | .mapShape l ps => Sys2Proof.Machine.execMapShape l ps s
  | .readMap l ps => Sys2Proof.Machine.execReadMap l ps s
  | .writeSlots l ps => Sys2Proof.Machine.execWriteSlots l ps s
  | .readSlots l ps => Sys2Proof.Machine.execReadSlots l ps s
  | .setSeed l ps => Sys2Proof.Machine.execSetSeed l ps s
  | .setNominal l ps => Sys2Proof.Machine.execSetNominal l ps s
  | .writeRecords l ps => Sys2Proof.Machine.execWriteRecords l ps s
  | .readRecords l ps => Sys2Proof.Machine.execReadRecords l ps s
  | .start l ps => Sys2Proof.Machine.execStart l ps s
  | .stop l ps => Sys2Proof.Machine.execStop l ps s
  | .applyNow l ps => Sys2Proof.Machine.execApplyNow l ps s
  | .readRun l ps => Sys2Proof.Machine.execReadRun l ps s
  | .enable l ps => Sys2Proof.Machine.execEnable l ps s
  | .safe l ps => Sys2Proof.Machine.execSafe l ps s
  | .setLimits l ps => Sys2Proof.Machine.execSetLimits l ps s
  | .clearFlags l ps => Sys2Proof.Machine.execClearFlags l ps s
  | .hold l ps => Sys2Proof.Machine.execHold l ps s
  | .release l ps => Sys2Proof.Machine.execRelease l ps s
  | .setWatch l ps => Sys2Proof.Machine.execSetWatch l ps s
  | .clearTrip l ps => Sys2Proof.Machine.execClearTrip l ps s
  | .readGuard l ps => Sys2Proof.Machine.execReadGuard l ps s
  | .softReset l ps => Sys2Proof.Machine.execSoftReset l ps s
  | .setScan l ps => Sys2Proof.Machine.execSetScan l ps s
  | .readMeasure l ps => Sys2Proof.Machine.execReadMeasure l ps s
  | .armCapture l ps => Sys2Proof.Machine.execArmCapture l ps s
  | .trigger l ps => Sys2Proof.Machine.execTrigger l ps s
  | .disarmCapture l ps => Sys2Proof.Machine.execDisarmCapture l ps s
  | .flushCapture l ps => Sys2Proof.Machine.execFlushCapture l ps s
  | .readCapture l ps => Sys2Proof.Machine.execReadCapture l ps s
  | .readTrace l ps => Sys2Proof.Machine.execReadTrace l ps s
  | .snapshot l ps => Sys2Proof.Machine.execSnapshot l ps s
  | .setAutoSnapshot l ps => Sys2Proof.Machine.execSetAutoSnapshot l ps s
  | .readSnapshot l ps => Sys2Proof.Machine.execReadSnapshot l ps s
  | .byteClocked l sdi => Sys2Proof.Machine.execByteClocked l sdi s

end Sys2Proof.Machine
end

