-- ==== Sys2Proof/Safety.lean ====
section
/-! DEFINITION. What the spec says of every state of the part: the ranges and relations that its rules state as holding at
all times, block by block, as predicates on the state. Then the terms that the claims use. -/

namespace Sys2Proof.Safety

open Sys2Proof.Machine

/-! ## The stores -/

/-- The four stores are in canonical form and stay within their sizes: 32,768 bytes of samples, 64 map entries, 2,304 bytes
of slot entries, 10,240 bytes of records (R18, R20, R32, R70). -/
def StoresOk (s : State) : Prop :=
  s.wave.wf = true ∧ s.wave.within 32768 = true ∧ s.map.wf = true ∧ s.map.within 64 = true ∧
  s.slots.wf = true ∧ s.slots.within 2304 = true ∧ s.sched.wf = true ∧ s.sched.within 10240 = true

/-! ## Timebase -/

/-- A frequency is within 40,000..70,000 mHz (R2). -/
def FreqInRange (f : Nat) : Prop := 40000 ≤ f ∧ f ≤ 70000

/-- A frequency ramp runs between two frequencies in range, and k is below R (R2). -/
def FreqRampOk (rp : FreqRamp) : Prop := FreqInRange rp.f0 ∧ FreqInRange rp.t ∧ rp.k < rp.r

/-- F stays in range and I is always round(F × 2^32 / 25,600,000) (R5). -/
def TimebaseOk (tb : Timebase) : Prop :=
  FreqInRange tb.f ∧ tb.inc = incrementOf tb.f ∧ ∀ rp, tb.ramp = some rp → FreqRampOk rp

/-! ## Phase Contexts -/

/-- The fields of a record are 16-bit values (R71). -/
def RecordOk (r : Record) : Prop := r.delay < 65536 ∧ r.angle < 65536 ∧ r.p1 < 65536 ∧ r.p2 < 65536

/-- Every record that waits in the queue or as a pending APPLY_NOW has 16-bit fields (R71). -/
def WaitingRecordsOk (run : Runner) : Prop :=
  (∀ e ∈ run.queue, ∀ r, e.item = .record r → RecordOk r) ∧ (∀ r, run.applyNow = some r → RecordOk r)

/-- A level ramp that is present has made at least one step and has at least one to come (R46). -/
def LevelRampOk (rp : LevelRamp) : Prop := rp.l0 ≤ 65535 ∧ rp.t ≤ 65535 ∧ 1 ≤ rp.k ∧ rp.k < rp.r

/-- L stays within 0..65,535, P within 0..32,767, and A equals round(L × P / 32,768) at all times (R47). -/
def LevelOk (ph : Phase) : Prop :=
  ph.l ≤ 65535 ∧ ph.p ≤ 32767 ∧ ph.a = amplitudeOf ph.l ph.p ∧ ∀ rp, ph.ramp = some rp → LevelRampOk rp

/-- The levels of the three phases, with the records that may change them (R47). -/
def LevelsOk (s : State) : Prop := (∀ p, LevelOk (s.ph.get p)) ∧ WaitingRecordsOk s.run

/-- Every Phase Context names a Shape Map entry that is FIXED or MAPPED, and so does a pending APPLY_NOW SHAPE (R26, R30). -/
def ShapesMapped (s : State) : Prop :=
  (∀ p, mapEntry s.map (s.ph.get p).shape ≠ .unmapped) ∧
  (∀ r, s.run.applyNow = some r → r.kind = .shape → mapEntry s.map r.p1 ≠ .unmapped)

/-! ## Output Guard -/

/-- G and the guard ramp fit the output state (R111, R112). -/
def OutputOk (g : Guard) : Prop :=
  match g.out with
  | .off => g.g = 0 ∧ g.ramp = none
  | .tripped => g.g = 0 ∧ g.ramp = none
  | .on => g.g = 32768 ∧ g.ramp = none
  | .rampUp => g.g ≤ 32768 ∧ ∃ rp, g.ramp = some rp ∧ rp.k < rp.r
  | .rampDown => g.g ≤ 32768 ∧ ∃ rp, g.ramp = some rp ∧ rp.g0 ≤ 32768 ∧ rp.k < rp.r

/-- A pair of limits holds 0 between them, within the 16-bit codes (R111, R116). -/
def LimitsOk (lo hi : Int) : Prop := -32768 ≤ lo ∧ lo ≤ 0 ∧ 0 ≤ hi ∧ hi ≤ 32767

/-- What the guard's rules state of every state: G by output state, lo ≤ 0 ≤ hi, the flag asserted while TRIPPED, the watch
settings in range, the counts within their ranges (R111, R112, R116, R118, R120 to R123). -/
def GuardOk (g : Guard) : Prop :=
  OutputOk g ∧ LimitsOk g.lo g.hi ∧ (∀ p, g.pendingLimits = some p → LimitsOk p.1 p.2) ∧
  (g.out = .tripped → g.hold = true) ∧
  g.ipk ≤ 32767 ∧ 1 ≤ g.kp ∧ g.kp ≤ 255 ∧ g.irms ≤ 32767 ∧ 1 ≤ g.kr ∧ g.kr ≤ 255 ∧
  (∀ i, g.peak.get i ≤ 255 ∧ g.rms.get i ≤ 255) ∧ g.missingRun ≤ 32

/-! ## Scanner -/

/-- The stop channel is 0..7 and never below the highest watched channel, the scan pointer is 0..7, and every gain code is
0..3 (R130, R134, R136). -/
def ScanOk (s : State) : Prop :=
  s.scan.stop ≤ 7 ∧ s.scan.ptr ≤ 7 ∧ (∀ i, i ≤ 7 → channelIn s.guard.watch i = true → i ≤ s.scan.stop) ∧
  ∀ i, (s.scan.channels.get i).gain ≤ 3

/-! ## Counters and FIFOs -/

/-- Every counter of a set is within 0..65,535 (R161). -/
def NineOk (n : Nine) : Prop :=
  n.clampA ≤ 65535 ∧ n.clampB ≤ 65535 ∧ n.clampC ≤ 65535 ∧ n.applied ≤ 65535 ∧ n.late ≤ 65535 ∧
  n.overcurrent ≤ 65535 ∧ n.missing ≤ 65535 ∧ n.captureLost ≤ 65535 ∧ n.traceLost ≤ 65535

/-- The Capture Buffer holds at most 1,024 entries and the Event Trace at most 64, no entry of a tick is left over between
ticks, and every live and snapshot counter stays within 0..65,535 (R144, R156, R162). -/
def EvidenceOk (s : State) : Prop :=
  s.cap.fifo.length ≤ 1024 ∧ s.trace.fifo.length ≤ 64 ∧ s.trace.made = [] ∧ NineOk s.cnt.live ∧ NineOk s.cnt.snap

/-! ## Event Runner -/

/-- A loop stack holds at most 4 frames, each with a body start of 1..1,024 (R75, R89). -/
def StackOk (st : List LoopFrame) : Prop := st.length ≤ 4 ∧ ∀ fr ∈ st, 1 ≤ fr.body ∧ fr.body ≤ 1024

/-- Walking the queue's entries from a pointer, a loop stack and a chain base reaches the fetch side: each entry stands at
the pointer that the walk has reached, carries the due point that the walk's chain base gives, and was walkable; a fault
marker or an END is the last entry and has halted the fetcher (R78, R79, R88 to R92, R97). -/
def QueueWalks (run : Runner) : List QueueEntry → Nat → List LoopFrame → Position → Prop
  | [], ptr, st, base => ptr = run.fetchPtr ∧ st = run.fStack ∧ base = run.fBase
  | e :: es, ptr, st, base =>
    e.src = ptr ∧
    match e.item with
    | .marker _ =>
      es = [] ∧ run.halt = .fault ∧ e.due = base ∧ ptr = run.fetchPtr ∧ st = run.fStack ∧ base = run.fBase
    | .record r =>
      ptr < 1024 ∧ r.isBad = false ∧
      if r.isControl then
        e.due = base ∧ (r.kind = .loopBegin → st.length < 4) ∧ (r.kind = .loopEnd → st ≠ []) ∧
        QueueWalks run es (walkControl r ptr st).2 (walkControl r ptr st).1 base
      else
        e.due = duePoint base r.delay r.angle ∧ (r.kind = .endRecord → es = [] ∧ run.halt = .endRecord) ∧
        QueueWalks run es (ptr + 1) st (duePoint base r.delay r.angle)

/-- The two sides of the walk agree through the queue: from the committed side, the queued entries lead exactly to the fetch
side. The queue holds at most 4 entries and is empty outside RUNNING, both loop stacks hold at most 4 frames and are empty
in IDLE, and the pointers, the spin count and the allowance stay in range (R87 to R92). -/
def WalkOk (run : Runner) : Prop :=
  QueueWalks run run.queue run.execPtr run.cStack run.cBase ∧
  run.queue.length ≤ 4 ∧ (run.state ≠ .running → run.queue = []) ∧
  StackOk run.cStack ∧ StackOk run.fStack ∧ (run.state = .idle → run.cStack = [] ∧ run.fStack = []) ∧
  run.execPtr ≤ 1024 ∧ run.fetchPtr ≤ 1024 ∧ run.spin ≤ 255 ∧ run.allowance ≤ 8

/-! ## Terms of the claims: links and requests -/

/-- A link on which a master can begin a transaction whose request is judged beyond the INIT check: CS high, IDLE, no earlier
request still to be taken, RESETN released, INIT ended (R168, R171). -/
def Ready (l : Link) (s : State) : Prop :=
  (s.links.get l).csLow = false ∧ (s.links.get l).tx = .idle ∧ (s.links.get l).untaken = [] ∧ s.resetLow = false ∧
  s.inInit = false

/-- A link right after its request is taken: CS low, WAITING, with the response to come, every byte so far answered 0xFF
(R168, R169). The notice set, the mask and a SOFT_RESET that waits are untouched. -/
def answeredLink (lk : LinkState) (resp : Response) : LinkState :=
  { lk with csLow := true, tx := .waiting, rx := [], untaken := [], resp := some resp, out := [], sdo := 0xFF }

/-- The links after a request on `l` is answered with a status and data. -/
def answeredOn (s : State) (l : Link) (st : Status) (data : List Byte) : Links :=
  s.links.set l (answeredLink (s.links.get l) (.formed (responseBytes st data)))

/-- The state with one link replaced. -/
def withLink (s : State) (l : Link) (lk : LinkState) : State := { s with links := s.links.set l lk }

/-- The state after a request that changes nothing but its own link: a refusal, or a read. -/
def onlyAnswered (s : State) (l : Link) (st : Status) (data : List Byte) : State :=
  withLink s l (answeredLink (s.links.get l) (.formed (responseBytes st data)))

/-- Commands run one after another. -/
def runCommands : List Instr → State → Host.Outcome State Fault Refusal
  | [], s => .next s
  | c :: cs, s =>
    match exec c s with
    | .next t => runCommands cs t
    | .fault f => .fault f
    | .refused r => .refused r

/-! ## Terms of the claims: ticks -/

/-- The rows that are events of a tick, each with the events that it is: one, but for SHAPE, which is a SHAPE record that falls
due, applied (R29) or met by an UNMAPPED entry (R100). Log 2. -/
def eventRows (x : Bool) : List (Instr × List TickEvent) :=
  [(.cycleBoundary x, [.cycleBoundary]), (.freqRampEnd x, [.freqRampEnd]), (.levelRampEnd x, [.levelRampEnd]),
   (.guardRampEnd x, [.guardRampEnd]), (.pendingLimitsInForce x, [.limitsInForce]), (.level x, [.applied .level]),
   (.freq x, [.applied .freq]), (.phaseJump x, [.applied .phaseJump]),
   (.shape x, [.applied .shape, .unmappedShape]), (.slotbank x, [.applied .slotbank]), (.noise x, [.applied .noise]),
   (.mark x, [.applied .mark]), (.endRecord x, [.applied .endRecord]), (.loopBegin x, [.applied .loopBegin]),
   (.loopEnd x, [.applied .loopEnd]), (.goto x, [.applied .goto]), (.faultMarker x, [.faultMarker]),
   (.takeHold x, [.takeHold]), (.releaseHold x, [.releaseHold]), (.applyNowApplied x, [.applyNow]), (.trip x, [.trip]),
   (.captureDone x, [.captureDone]), (.deferredTraceEntry x, [.deferredEntry]), (.snapshotTaken x, [.snapshotTaken]),
   (.autoSnapshot x, [.autoSnapshot])]

/-- The position of the coming tick (R4). -/
def comingPosition (s : State) : Position := s.tb.advance.position

/-- A tick that works, with no request waiting to be taken at it: INIT ended, RESETN released (R3). -/
def PlainTick (s : State) : Prop := s.inInit = false ∧ s.resetLow = false ∧ untakenCount s = 0

/-- No trip comes about at the coming tick (R121 to R125). -/
def NoTrip (s : State) : Prop := s.guard.tripAt s.scan s.tb.wraps (comingPosition s) = none

/-- The coming tick is not one at which the runner takes the hold (R93, R108). -/
def NoHoldTaken (s : State) : Prop := s.tb.wraps = true → s.guard.hold = false ∧ NoTrip s

/-- RUNNING, with `e` at the head of the queue due at the coming plain tick and the entry behind it not, and no hold taken
there (R93, R94). -/
def OneDue (s : State) (e : QueueEntry) (rest : List QueueEntry) : Prop :=
  PlainTick s ∧ NoHoldTaken s ∧ s.run.state = .running ∧ s.run.queue = e :: rest ∧ e.due.le (comingPosition s) = true ∧
  ∀ e', rest.head? = some e' → e'.due.le (comingPosition s) = false

/-- The coming plain tick applies no record and no APPLY_NOW (R94, R106). -/
def NothingApplied (s : State) : Prop :=
  PlainTick s ∧ s.run.applyNow = none ∧ ∀ e, s.run.queue.head? = some e → e.due.le (comingPosition s) = false

/-- A stopped runner with an APPLY_NOW to be applied at the coming plain tick (R106). -/
def ApplyPending (s : State) (r : Record) : Prop :=
  PlainTick s ∧ s.run.stopped = true ∧ s.run.applyNow = some r

/-- What the counters hold when the coming tick begins to count: 0 where it takes a snapshot (R163). -/
def countedFrom (s : State) : Nine := if s.cnt.takes s.tb.wraps then nineZero else s.cnt.live

/-! ## Terms of the claims: records and tables -/

/-- A Shape Map entry is current: some Phase Context names it, or a pending APPLY_NOW SHAPE does (R21). -/
def EntryCurrent (s : State) (e : Nat) : Prop :=
  (∃ p, (s.ph.get p).shape = e) ∨ ∃ r, s.run.applyNow = some r ∧ r.kind = .shape ∧ r.p1 = e

/-- A RAM block is current: some current entry is MAPPED to it (R21). -/
def BlockCurrent (s : State) (block : Nat) : Prop :=
  ∃ e, e < 64 ∧ EntryCurrent s e ∧ mapEntry s.map e = .mapped block

/-- A slot bank is current for a phase: it is the phase's bank, or a pending APPLY_NOW SLOTBANK with the phase in its mask
names it (R37). -/
def BankCurrent (s : State) (p : PhaseId) (bank : Nat) : Prop :=
  (s.ph.get p).bank = bank ∨
  ∃ r, s.run.applyNow = some r ∧ r.kind = .slotbank ∧ Mask.names r.mask p = true ∧ r.p1 = bank

/-- Two contexts agree in all that records and SET_NOMINAL set: P, L, ramp, A, shape, bank, N. A tick's sample moves the
rest, Held, last code and clamp flag (R46, R65). -/
def SameSettings (x y : Phase) : Prop :=
  x.p = y.p ∧ x.l = y.l ∧ x.ramp = y.ramp ∧ x.a = y.a ∧ x.shape = y.shape ∧ x.bank = y.bank ∧ x.n = y.n

/-- A context after the coming tick's own level ramp step (R51). -/
def rampStepped (s : State) (p : PhaseId) : Phase :=
  match (s.ph.get p).ramp with
  | none => s.ph.get p
  | some rp =>
    if rp.k + 1 = rp.r then
      { s.ph.get p with l := rp.t, a := amplitudeOf rp.t (s.ph.get p).p, ramp := none }
    else
      { s.ph.get p with
        l := rampValue rp.l0 rp.t rp.r (rp.k + 1)
        a := amplitudeOf (rampValue rp.l0 rp.t rp.r (rp.k + 1)) (s.ph.get p).p
        ramp := some { rp with k := rp.k + 1 } }

/-- No entry but those of the runner's work enters the trace at the coming tick: none waits from before, and no trip comes about
(R157). -/
def QuietTrace (s : State) : Prop := NoTrip s ∧ s.trace.deferred = [] ∧ s.trace.made = []

/-- The RECORD entry of a record applied at the coming tick, none where the record suppresses it: index, kind, mask, due point,
applied stamp, late flag, the clamped flag of a FREQ whose p1 is above 30,000, the marker value of a MARK (R7, R82, R95, R97,
R106, R156, R157). -/
def recordTraced (s : State) (r : Record) (index : Nat) (due : Position) (late : Bool) : List TraceEntry :=
  if r.suppress then []
  else [{ type := .record, index := index, kind := r.kind.code, mask := r.mask, dueC := due.c.setWidth 16, dueAng := due.ang,
          stampC := (comingPosition s).c.setWidth 16, stampAng := (comingPosition s).ang, late := late,
          clamped := decide (r.kind = .freq ∧ 30000 < r.p1), detail := if r.kind = .mark then .marker r.p1 else .nothing }]

/-- An entry that the runner or the guard puts into the trace at the coming tick for an event that is no record (R156,
R157). -/
def eventEntry (s : State) (type : TraceType) (index : Nat) (detail : TraceDetail) : TraceEntry :=
  { type := type, index := index, kind := 0, mask := 0, dueC := 0, dueAng := 0,
    stampC := (comingPosition s).c.setWidth 16, stampAng := (comingPosition s).ang, late := false, clamped := false,
    detail := detail }

/-- The committed side, the counts and the trace after the one due record of a tick is applied, a timed record other than END:
the pointer behind the record, the chain base at its due point, the rest of the queue still ahead, APPLIED and, if the record is
late, LATE incremented, and its RECORD entry at the tail of a trace with room (R95, R96, R157). -/
def TimedApplied (s : State) (e : QueueEntry) (rest : List QueueEntry) (r : Record) (t : State) : Prop :=
  (QuietTrace s → s.trace.fifo.length < 64 →
    t.trace.fifo = s.trace.fifo ++ recordTraced s r e.src e.due (e.due.le s.tb.position)) ∧
  t.run.state = .running ∧ t.run.execPtr = e.src + 1 ∧ t.run.cBase = e.due ∧ t.run.cStack = s.run.cStack ∧
  t.run.applyNow = s.run.applyNow ∧ (∃ more, t.run.queue = rest ++ more) ∧
  t.cnt.live.applied = min ((countedFrom s).applied + 1) 65535 ∧
  t.cnt.live.late = if e.due.le s.tb.position then min ((countedFrom s).late + 1) 65535 else (countedFrom s).late

/-- The slot entry of a phase at the angle and bank that a tick leaves (R34). -/
def entryAfter (t : State) (p : PhaseId) : SlotEntry :=
  slotEntryAt t.slots p.number (t.ph.get p).bank (slotOf (t.tb.b + t.tb.offset p).toNat)

/-- A phase's sample before the limits, s4, from what a tick leaves, the Held code before it and the noise register after the
phase's turn: the stages of R56 to R61 in order. -/
def sampleUnlimited (t : State) (p : PhaseId) (held : Int) (drawn : BitVec 17) : Int :=
  let φ := (t.tb.b + t.tb.offset p).toNat
  let block := (mapEntry t.map (t.ph.get p).shape).block
  let a := sampleAt t.wave block (φ / 4194304)
  let b := sampleAt t.wave block ((φ / 4194304 + 1) % 1024)
  let w := a + roundInt ((b - a) * (φ / 16384 % 256 : Nat)) 256
  let s1 := roundInt (w * (t.ph.get p).a) 32768
  let e := entryAfter t p
  let s2 := match e.action with
    | .pass => s1
    | .zero => 0
    | .hold => held
    | .subst => e.code
    | .invert => -s1
  let s3 := if e.noise then s2 + (drawn.setWidth 8).toInt * (t.ph.get p).n else s2
  roundInt (s3 * t.guard.g) 32768

/-- A phase's DAC code: the sample brought within the limits, and 0 in OFF and TRIPPED (R62, R64). -/
def sampleCode (t : State) (p : PhaseId) (held : Int) (drawn : BitVec 17) : Int :=
  let s4 := sampleUnlimited t p held drawn
  let s5 := if s4 < t.guard.lo then t.guard.lo else if t.guard.hi < s4 then t.guard.hi else s4
  if t.guard.out = .off ∨ t.guard.out = .tripped then 0 else s5

/-- Whether the limit stage changes a phase's sample (R62). -/
def sampleClamped (t : State) (p : PhaseId) (held : Int) (drawn : BitVec 17) : Prop :=
  sampleUnlimited t p held drawn < t.guard.lo ∨ t.guard.hi < sampleUnlimited t p held drawn

/-- What the DAC interface sends for the frame of a state: 48 bits, the codes of A, B and C as 16-bit two's complement, most
significant bit first, DFRAME marking the first bit (R67) and, by the model's choice, that bit alone (log 31). -/
def FrameIsSent (t : State) : Prop :=
  t.dac.length = 48 ∧
  ∀ i, i < 48 → t.dac[i]? = some {
    dframe := decide (i = 0)
    ddata := (BitVec.ofInt 16 (if i < 16 then t.frame.a else if i < 32 then t.frame.b else t.frame.c)).getLsbD
      (15 - i % 16) }

/-! ## Terms of the claims: trips -/

/-- The conversion handed over meets a trip condition: PEAK, where its watched channel's peak count reaches Kp, or
MEASURE_LOST, where it is missing, brings the missing run to 32 and a channel is watched (R121, R123). -/
def ConversionTrips (g : Guard) (sc : Scanner) : Prop :=
  (∃ cmd v, sc.outstanding = some cmd ∧ sc.result = some v ∧ channelIn g.watch cmd.channel = true ∧
    g.kp ≤ if g.ipk < v.natAbs then min (g.peak.get cmd.channel + 1) 255 else 0) ∨
  (∃ cmd, sc.outstanding = some cmd ∧ sc.result = none ∧ g.watch ≠ 0 ∧ 31 ≤ g.missingRun)

/-- A channel's accumulator with the conversion handed over at the coming tick folded in (R133, R138). -/
def accumulated (sc : Scanner) (i : Nat) : Accumulator :=
  let acc := (sc.channels.get i).acc
  match sc.outstanding, sc.result with
  | some cmd, some v =>
    if cmd.channel = i then
      { sum := acc.sum + v.natAbs * v.natAbs, count := acc.count + 1, peak := max acc.peak v.natAbs }
    else acc
  | _, _ => acc

/-- A watched channel's RMS count after its record of a boundary: it grows where the record is above Irms, ends where it is
not, and stays at NO_DATA (R122, R139). -/
def rmsCounted (g : Guard) (sc : Scanner) (i : Nat) : Nat :=
  let acc := accumulated sc i
  if acc.count = 0 then g.rms.get i
  else if g.irms < floorSqrt (acc.sum / acc.count) then min (g.rms.get i + 1) 255 else 0

/-- A channel's peak count after the conversion handed over at the coming tick: on a watched channel it grows where the
magnitude is above Ipk and ends where it is not; a missing conversion and an unwatched channel leave it (R121). -/
def peakCounted (g : Guard) (sc : Scanner) (i : Nat) : Nat :=
  match sc.outstanding, sc.result with
  | some cmd, some v =>
    if cmd.channel = i ∧ channelIn g.watch i = true then
      if g.ipk < v.natAbs then min (g.peak.get i + 1) 255 else 0
    else g.peak.get i
  | _, _ => g.peak.get i

/-- The missing run after the hand-over of the coming tick: one more for a missing conversion, no further than 32, and 0 for one
that arrived, on any channel (R123). -/
def missingCounted (g : Guard) (sc : Scanner) : Nat :=
  match sc.outstanding, sc.result with
  | some _, some _ => 0
  | some _, none => min (g.missingRun + 1) 32
  | none, _ => g.missingRun

/-- A watched conversion above Ipk is handed over at the coming tick (R121). -/
def OverHandedOver (g : Guard) (sc : Scanner) : Prop :=
  ∃ cmd v, sc.outstanding = some cmd ∧ sc.result = some v ∧ channelIn g.watch cmd.channel = true ∧ g.ipk < v.natAbs

/-- A missing conversion is handed over at the coming tick (R133). -/
def MissingHandedOver (sc : Scanner) : Prop := sc.outstanding ≠ none ∧ sc.result = none

/-! ## Terms of the claims: capture -/

/-- The entries that a capture with the settings given takes of what the Scanner offers at the coming tick, in the order offered:
the conversion handed over, if its channel is selected, then at a boundary, if the cycle-record flag is set, the record of each
channel with data (R139, R145, R149). -/
def selectedEntries (a : ArmSettings) (s : State) : List CapEntry :=
  (match s.scan.outstanding, s.scan.result with
    | some cmd, some v =>
      if channelIn a.mask cmd.channel then
        [{ kind := .conversion, channel := cmd.channel, cycleStamp := cmd.stamp.c.setWidth 16, angleStamp := cmd.stamp.ang,
           value := v, aux := 0 }]
      else []
    | _, _ => []) ++
  (if s.tb.wraps = true ∧ a.cycleFlag = true then
    [0, 1, 2, 3, 4, 5, 6, 7].flatMap (fun i =>
      let acc := accumulated s.scan i
      if acc.count = 0 then []
      else [{ kind := .cycle, channel := i, cycleStamp := (comingPosition s).c.setWidth 16,
              angleStamp := (comingPosition s).ang, value := (floorSqrt (acc.sum / acc.count) : Nat), aux := acc.peak }])
   else [])

/-- An event of the sources EXTERNAL, TRIP or CYCLE, where it is the one armed, comes about at the coming tick: a rising edge of
TRIG_IN, a trip, a cycle boundary (R147, R148). -/
def TriggeredAt (a : ArmSettings) (x : Bool) (s : State) : Prop :=
  (a.source = .external ∧ x = true ∧ s.cap.trigLevel = false) ∨ (a.source = .trip ∧ ¬ NoTrip s) ∨
  (a.source = .cycle ∧ s.tb.wraps = true)

/-! ## Terms of the claims: layouts and encodings (R181) -/

/-- The encodings of R181 (the kinds: R72 to R76), in its order, little-endian fields of 1, 2 and 4 bytes, signed ones in two's
complement, flags. -/
def Encodings : Prop :=
  [TraceType.record, .start, .stop, .endEntry, .fault, .hold, .release, .trip, .clearTrip].map TraceType.code =
    [0, 1, 2, 3, 4, 5, 6, 7, 8] ∧
  [FaultReason.none, .badRecord, .loopDepth, .loopUnbalanced, .endOfMemory, .spin, .unmappedShape].map FaultReason.code =
    [0, 1, 2, 3, 4, 5, 6] ∧
  [TripCause.none, .peak, .rms, .measureLost].map TripCause.code = [0, 1, 2, 3] ∧
  [RunState.idle, .running, .held, .ended, .faulted].map RunState.code = [0, 1, 2, 3, 4] ∧
  [FetchHalt.none, .endRecord, .fault].map FetchHalt.code = [0, 1, 2] ∧
  [OutState.off, .rampUp, .on, .rampDown, .tripped].map OutState.code = [0, 1, 2, 3, 4] ∧
  [CapState.disarmed, .armed, .capturing, .complete].map CapState.code = [0, 1, 2, 3] ∧
  [RecKind.endRecord, .level, .freq, .phaseJump, .shape, .slotbank, .noise, .mark, .loopBegin, .loopEnd, .goto].map
    RecKind.code = [0, 1, 2, 3, 4, 5, 6, 7, 8, 9, 10] ∧
  (∀ n, leBytes 1 n = [BitVec.ofNat 8 n] ∧ leBytes 2 n = [BitVec.ofNat 8 n, BitVec.ofNat 8 (n / 256)] ∧
    leBytes 4 n = [BitVec.ofNat 8 n, BitVec.ofNat 8 (n / 256), BitVec.ofNat 8 (n / 65536), BitVec.ofNat 8 (n / 16777216)]) ∧
  (∀ v : Int, leInt16 v = leBytes 2 (BitVec.ofInt 16 v).toNat) ∧ flagByte true = 1 ∧ flagByte false = 0

/-- A position in a response: C (4), θ (2) (R181). -/
def positionData (p : Position) : List Byte := leBytes 4 p.c.toNat ++ leBytes 2 p.ang.toNat

/-- READ_TIMELINE's data: C (4), θ (2), F (4), OA, OB, OC (4 each), ramp target (4), ramp steps remaining (2) (R15, R181). -/
def timelineData (tb : Timebase) : List Byte :=
  leBytes 4 tb.c.toNat ++ leBytes 2 (tb.b.toNat / 65536) ++ leBytes 4 tb.f ++ leBytes 4 tb.oa.toNat ++
  leBytes 4 tb.ob.toNat ++ leBytes 4 tb.oc.toNat ++ leBytes 4 (match tb.ramp with | none => 0 | some rp => rp.t) ++
  leBytes 2 (match tb.ramp with | none => 0 | some rp => rp.r - rp.k)

/-- A phase's part of READ_PHASES' data: P, L (2 each), ramp present (1), L0, T, R, k (2 each), A (2), shape, bank, N (1 each),
Held, last code (2 each, signed), clamp flag (1) (R177, R181). -/
def phaseData (ph : Phase) : List Byte :=
  leBytes 2 ph.p ++ leBytes 2 ph.l ++ [flagByte ph.ramp.isSome] ++
  leBytes 2 (match ph.ramp with | none => 0 | some rp => rp.l0) ++
  leBytes 2 (match ph.ramp with | none => 0 | some rp => rp.t) ++
  leBytes 2 (match ph.ramp with | none => 0 | some rp => rp.r) ++
  leBytes 2 (match ph.ramp with | none => 0 | some rp => rp.k) ++
  leBytes 2 ph.a ++ leBytes 1 ph.shape ++ leBytes 1 ph.bank ++ leBytes 1 ph.n ++ leInt16 ph.held ++ leInt16 ph.last ++
  [flagByte ph.clamp]

/-- READ_RUN's data: state (1), hold pending in bit 0 and apply-now pending in bit 1 (1), execution and fetch pointer (2 each),
fetch halt, queue occupancy (1 each), head due point (6), committed loop depth (1), top frame remaining (2), fetch loop depth
(1), committed chain base (6), fault reason (1), fault index (2) (R107, R181; bits 2..7 of the flags: log 27). -/
def runData (run : Runner) (hold : Bool) : List Byte :=
  leBytes 1 run.state.code ++
  leBytes 1 ((if run.state = .running ∧ hold = true then 1 else 0) + (if run.applyNow = none then 0 else 2)) ++
  leBytes 2 run.execPtr ++ leBytes 2 run.fetchPtr ++ leBytes 1 run.halt.code ++ leBytes 1 run.queue.length ++
  positionData (match run.queue with | [] => { c := 0, ang := 0 } | e :: _ => e.due) ++ leBytes 1 run.cStack.length ++
  leBytes 2 (match run.cStack with | [] => 0 | top :: _ => top.remaining) ++ leBytes 1 run.fStack.length ++
  positionData run.cBase ++ leBytes 1 run.faultReason.code ++ leBytes 2 run.faultIndex

/-- READ_GUARD's data: output state (1), G (2), ramp steps remaining (2), lo, hi (2 each, signed), clamp flags of A, B, C in bits
0..2 (1), hold flag, watch mask (1 each), Ipk (2), Kp (1), Irms (2), Kr (1), peak counts and RMS counts of channels 0..7 (1 each),
missing run (1), trip cause, trip channel (1 each), trip stamp (6), TRIP_OUT (1) (R126, R128, R181; bits 3..7 of the clamp flags:
log 27). -/
def guardData (g : Guard) (ph : Phases) : List Byte :=
  leBytes 1 g.out.code ++ leBytes 2 g.g ++ leBytes 2 (match g.ramp with | none => 0 | some rp => rp.r - rp.k) ++
  leInt16 g.lo ++ leInt16 g.hi ++
  leBytes 1 ((if ph.a.clamp then 1 else 0) + (if ph.b.clamp then 2 else 0) + (if ph.c.clamp then 4 else 0)) ++
  [flagByte g.hold] ++ [g.watch] ++ leBytes 2 g.ipk ++ leBytes 1 g.kp ++ leBytes 2 g.irms ++ leBytes 1 g.kr ++
  [0, 1, 2, 3, 4, 5, 6, 7].flatMap (fun i => leBytes 1 (g.peak.get i)) ++
  [0, 1, 2, 3, 4, 5, 6, 7].flatMap (fun i => leBytes 1 (g.rms.get i)) ++
  leBytes 1 g.missingRun ++ leBytes 1 g.tripCause.code ++ leBytes 1 g.tripChannel ++ positionData g.tripStamp ++
  [flagByte (decide (g.out = .tripped))]

/-- READ_MEASURE's data: S, scan pointer (1 each), gain codes of channels 0..7 (1 each); for each channel record status (1),
record cycle (4), RMS, peak, count (2 each); for each channel latest present (1), latest value (2, signed), latest stamp (6),
missing flag (1) (R141, R181). -/
def measureData (sc : Scanner) : List Byte :=
  leBytes 1 sc.stop ++ leBytes 1 sc.ptr ++
  [0, 1, 2, 3, 4, 5, 6, 7].flatMap (fun i => leBytes 1 (sc.channels.get i).gain) ++
  [0, 1, 2, 3, 4, 5, 6, 7].flatMap (fun i =>
    let r := (sc.channels.get i).cycleRec
    [flagByte r.data.isSome] ++ leBytes 4 r.cycle.toNat ++ leBytes 2 (match r.data with | none => 0 | some d => d.rms) ++
    leBytes 2 (match r.data with | none => 0 | some d => d.peak) ++
    leBytes 2 (match r.data with | none => 0 | some d => d.count)) ++
  [0, 1, 2, 3, 4, 5, 6, 7].flatMap (fun i =>
    let ch := sc.channels.get i
    [flagByte ch.latest.isSome] ++ leInt16 (match ch.latest with | none => 0 | some cv => cv.value) ++
    positionData (match ch.latest with | none => { c := 0, ang := 0 } | some cv => cv.stamp) ++ [flagByte ch.missing])

/-- A capture entry's ten bytes: kind (0 CONVERSION, 1 CYCLE), channel, cycle stamp (2), angle stamp (2), value (2, signed for
CONVERSION and unsigned for CYCLE: its 16 bits), aux (2) (R181). -/
def captureEntryData (e : CapEntry) : List Byte :=
  leBytes 1 (match e.kind with | .conversion => 0 | .cycle => 1) ++ leBytes 1 e.channel ++ leBytes 2 e.cycleStamp.toNat ++
  leBytes 2 e.angleStamp.toNat ++ leBytes 2 (BitVec.ofInt 16 e.value).toNat ++ leBytes 2 e.aux

/-- A trace entry's sixteen bytes: type (1), record kind in bits 0..3 and phase mask in bits 4..6 (1), record index (2), due point
(C's low 16 bits, θ), applied stamp (the same), late in bit 0 and clamped in bit 1 (1), detail (3): the marker in the first two
bytes, or a fault's reason in the first, or a trip's cause and channel in the first two (R181; the bits it does not name: log 27;
a fault's index in the detail field: log 28). -/
def traceEntryData (e : TraceEntry) : List Byte :=
  leBytes 1 e.type.code ++ leBytes 1 (e.kind % 16 + 16 * e.mask.toNat) ++ leBytes 2 e.index ++
  leBytes 2 e.dueC.toNat ++ leBytes 2 e.dueAng.toNat ++ leBytes 2 e.stampC.toNat ++ leBytes 2 e.stampAng.toNat ++
  leBytes 1 ((if e.late then 1 else 0) + (if e.clamped then 2 else 0)) ++
  (match e.detail with
    | .nothing => [0, 0, 0]
    | .marker v => [BitVec.ofNat 8 v, BitVec.ofNat 8 (v / 256), 0]
    | .fault reason _ => [BitVec.ofNat 8 reason.code, 0, 0]
    | .tripped cause channel => [BitVec.ofNat 8 cause.code, BitVec.ofNat 8 channel, 0])

/-! ## Terms of the claims: the runner -/

/-- The runner after it enters FAULTED: the committed side as it stood, the fetch side returned to it, the fault record
(R99 to R101). -/
def faultedRun (run : Runner) (reason : FaultReason) (index : Nat) : Runner :=
  { run with
    state := .faulted, faultReason := reason, faultIndex := index, queue := [], fetchPtr := run.execPtr,
    fStack := run.cStack, fBase := run.cBase, spin := 0, halt := .none, allowance := 8 }

/-- A tick of the runner's that leaves the Timebase to its advance and the phases' settings to their ramps. -/
def OnlyAdvanced (s t : State) : Prop :=
  t.tb = s.tb.advance ∧ ∀ p, SameSettings (t.ph.get p) (rampStepped s p)

end Sys2Proof.Safety
end

