-- ==== Sys2Proof/Certificates/Slice0/Obligations.lean ====
section
/-! DEFINITION. The statements for the provers, in the order of OBLIGATIONS.json. Two conventions of the model stand under
many of them: a row that is an event of a tick is that tick, whole (log 2), and a request row on a ready link is the request
clocked in there and taken at once (log 3). -/

open Sys2Proof Sys2Proof.Machine Sys2Proof.Safety

/-! ## The queue, the rows -/

/-- A step runs the command at the front of the queue on the state with the queue's rest; on an empty queue the part
idles (log 19). -/
def Obligations.StepRunsFrontCommand : Prop :=
  (∀ (c : Instr) (rest : List Instr) (s : State), step { s with pending := c :: rest } = exec c { s with pending := rest }) ∧
  (∀ s : State, s.pending = [] → step s = .next s)

/-- Every command that a master can send completes, and no command touches the queue. A term that is no command is refused
by name (log 26). -/
def Obligations.WellFormedCommandsComplete : Prop :=
  ∀ (c : Instr) (s : State),
    (wellFormed c = true → ∃ t, exec c s = .next t ∧ t.pending = s.pending) ∧
    (wellFormed c = false → exec c s = .refused .illFormed)

/-- A row that is an event of a tick is the whole coming tick where its own event is among the events of that tick and the part
works, and nothing otherwise: the model's reading of these rows (log 2; the events of a tick: log 22). While the part is in
INIT or held in reset a tick has no event. -/
def Obligations.EventRowsAreTheirTick : Prop :=
  ∀ (x : Bool) (s : State),
    ∃ t, exec (.sampleTick x) s = .next t ∧ (s.works = false → t.events = []) ∧
      ∀ (row : Instr) (own : List TickEvent), (row, own) ∈ eventRows x →
        (s.works = true → (∃ e ∈ own, e ∈ t.events) → exec row s = .next t) ∧
        ((s.works = false ∨ ∀ e ∈ own, e ∉ t.events) → exec row s = .next s)

/-- The link-level checks come first and in R171's order: NOT_READY in INIT, UNKNOWN for a code of no row, WRONG_LINK for a
code of another link, LENGTH for more than 200 parameter bytes; a request refused by them changes nothing but its own
link's transaction. -/
def Obligations.LinkLevelChecksRefuse : Prop :=
  ∀ (c : Instr) (l : Link) (code : Byte) (ps : List Byte) (s : State), wellFormed c = true → c.request = some (l, code, ps) →
    (s.links.get l).csLow = false → (s.links.get l).tx = .idle → (s.links.get l).untaken = [] → s.resetLow = false →
    (s.inInit = true → exec c s = .next (onlyAnswered s l .notReady [])) ∧
    (s.inInit = false → code ∉ requestCodes → exec c s = .next (onlyAnswered s l .unknown [])) ∧
    (s.inInit = false → code ∈ requestCodes →
      ((l = .pl ∧ 0x30 ≤ code.toNat) ∨ (l = .gl ∧ 0x10 ≤ code.toNat ∧ code.toNat < 0x30) ∨
        (l = .gl ∧ 0x50 ≤ code.toNat) ∨ (l = .ml ∧ 0x10 ≤ code.toNat ∧ code.toNat < 0x50)) →
      exec c s = .next (onlyAnswered s l .wrongLink [])) ∧
    (s.inInit = false → code ∈ requestCodes →
      (code.toNat < 0x10 ∨ (l = .pl ∧ code.toNat < 0x30) ∨ (l = .gl ∧ 0x30 ≤ code.toNat ∧ code.toNat < 0x50) ∨
        (l = .ml ∧ 0x50 ≤ code.toNat)) →
      200 < ps.length → exec c s = .next (onlyAnswered s l .length []))

/-! ## Transactions -/

/-- CS edges and the moment of responding (R168 to R170, R179): a falling edge begins a transaction on an idle link, and
leads to DISCARD while RESETN is held; a rising edge ends it in every state and loses the response, but keeps a complete
request that is still to be taken; a response that is formed makes a waiting link respond. Without an edge nothing
happens. -/
def Obligations.CsEdgesAndResponse : Prop :=
  ∀ (l : Link) (s : State),
    ((s.links.get l).csLow = false → exec (.csFall l) s = .next (withLink s l
      { s.links.get l with csLow := true, tx := if s.resetLow then .discard else .receiving, rx := [], resp := none,
                           out := [] })) ∧
    ((s.links.get l).csLow = true → exec (.csFall l) s = .next s) ∧
    ((s.links.get l).csLow = true → (s.links.get l).softReset = false → 
      (l = .gl → (s.links.get l).tx = .waiting → ∀ r, (s.links.get l).untaken.getLast? = some r → r.code ≠ 0x39) →
      exec (.csRise l) s = .next (withLink s l
        { s.links.get l with csLow := false, tx := .idle, rx := [], resp := none, out := [] })) ∧
    ((s.links.get l).csLow = false → exec (.csRise l) s = .next s) ∧
    (∀ bytes, (s.links.get l).tx = .waiting → (s.links.get l).resp = some (.formed bytes) →
      exec (.responseReady l) s = .next (withLink s l
        { s.links.get l with tx := .responding, out := bytes, resp := none })) ∧
    (∀ report, (s.links.get l).resp = some (.atTick report) → exec (.responseReady l) s = .next s)

/-- A request is what its bytes say: on a ready link, CS_FALL and the bytes that encode a request row leave one complete
request on the link and change nothing else; that request decodes to the row; and taking it there has the effect of the row
on the ready link (log 3). A length byte above 200 ends the request at once (R168). -/
def Obligations.RequestBytesDecodeToTheirRow : Prop :=
  ∀ (c : Instr) (l : Link) (code : Byte) (ps : List Byte) (s : State), wellFormed c = true →
    c.request = some (l, code, ps) → Ready l s →
    (ps.length ≤ 200 →
      ∃ t, runCommands (.csFall l :: (requestBytes c).map (fun b => .byteClocked l b)) s = .next t ∧
        t = { s with links := s.links.set l { s.links.get l with
                csLow := true, tx := .waiting, rx := [], resp := none, out := [], sdo := 0xFF,
                untaken := [{ code := code, n := ps.length, params := ps, inInit := false }] } } ∧
        commandOf l code ps = c ∧ exec c t = exec c s) ∧
    (200 < ps.length →
      ∃ t, runCommands (.csFall l :: ((requestBytes c).take 2).map (fun b => .byteClocked l b)) s = .next t ∧
        (t.links.get l).tx = .waiting ∧ exec (commandOf l code []) t = exec c s)

/-- A responding link sends its bytes in order, one for each byte clocked, and is DRAINED after the last; a link that is
receiving, waiting, drained or discarding drives 0xFF; bytes clocked while CS is high do nothing, SDO then not modelled (R168,
R169; log 13). -/
def Obligations.ResponseIsClockedOut : Prop :=
  ∀ (l : Link) (s : State),
    (∀ (bytes sdis : List Byte) (i : Nat), (s.links.get l).csLow = true → (s.links.get l).tx = .responding →
      (s.links.get l).out = bytes →
      sdis.length = bytes.length → i < bytes.length →
      runCommands ((sdis.take (i + 1)).map (fun b => .byteClocked l b)) s = .next (withLink s l
        { s.links.get l with
          tx := if i + 1 = bytes.length then .drained else .responding, out := bytes.drop (i + 1),
          sdo := bytes.getD i 0 })) ∧
    (∀ sdi, (s.links.get l).csLow = true → (s.links.get l).tx ≠ .responding → (s.links.get l).tx ≠ .idle →
      ∃ t, exec (.byteClocked l sdi) s = .next t ∧ (t.links.get l).sdo = 0xFF ∧
        ((s.links.get l).tx ≠ .receiving → t = { s with links := s.links.set l { s.links.get l with sdo := 0xFF } })) ∧
    (∀ sdi, (s.links.get l).csLow = false → exec (.byteClocked l sdi) s = .next s)

/-! ## Notices -/

/-- READ_NOTICES returns the link's notice set and mask and empties the set; SET_ALERTS stores a mask within the link's
notices and refuses any other; each acts on the link that carries it alone (R173, R175, R176). -/
def Obligations.NoticesReadAndMaskSet : Prop :=
  ∀ (l : Link) (s : State), Ready l s →
    exec (.readNotices l []) s = .next (withLink s l
      { answeredLink (s.links.get l) (.formed [0x00, 0x02, (s.links.get l).notices, (s.links.get l).enable]) with
        notices := 0 }) ∧
    (∀ mask : Byte, mask &&& ~~~allNotices l = 0 → exec (.setAlerts l [mask]) s = .next (withLink s l
      { answeredLink (s.links.get l) (.formed [0x00, 0x00]) with enable := mask })) ∧
    (∀ mask : Byte, mask &&& ~~~allNotices l ≠ 0 →
      exec (.setAlerts l [mask]) s = .next (onlyAnswered s l .badValue [])) ∧
    (∀ ps : List Byte, ps.length ≤ 200 → ps.length ≠ 0 →
      exec (.readNotices l ps) s = .next (onlyAnswered s l .length [])) ∧
    (∀ ps : List Byte, ps.length ≤ 200 → ps.length ≠ 1 →
      exec (.setAlerts l ps) s = .next (onlyAnswered s l .length []))

/-- The ALERT line of a link is asserted exactly while INIT has ended, RESETN is released, and some notice of the set has its
bit set in the link's mask. So it changes with the set and the mask: at a raising, which adds the notice whatever the mask; at
a READ_NOTICES, which returns every notice of the set, enabled or not, and leaves the line deasserted; at a SET_ALERTS, which
asserts it at once for a notice that is still in the set; and at a reset, which deasserts it. It does not depend on the
transaction (R174). -/
def Obligations.AlertFollowsSetAndMask : Prop :=
  ∀ (l : Link) (s : State),
    let asserted := fun (notices enable : Byte) => s.inInit = false ∧ s.resetLow = false ∧
      ∃ i, i < 8 ∧ notices.getLsbD i = true ∧ enable.getLsbD i = true
    let lk := s.links.get l
    (s.alert l = true ↔ asserted lk.notices lk.enable) ∧
    (∀ n : Notice, ((s.links.raise n).get l).notices = lk.notices ||| noticeBit l n ∧
      (({ s with links := s.links.raise n } : State).alert l = true ↔
        asserted (lk.notices ||| noticeBit l n) lk.enable)) ∧
    ((takeReadNotices l [] s).1 = .data [lk.notices, lk.enable] ∧ (takeReadNotices l [] s).2.alert l = false) ∧
    (∀ mask : Byte, mask &&& ~~~allNotices l = 0 →
      ((takeSetAlerts l [mask] s).2.alert l = true ↔ asserted lk.notices mask)) ∧
    ((pinReset s).alert l = false ∧ (softReset s).alert l = false ∧ (powerOn s).alert l = false) ∧
    (∀ lk' : LinkState, lk'.notices = lk.notices → lk'.enable = lk.enable → (withLink s l lk').alert l = s.alert l)

/-! ## Start-up and resets -/

/-- Power applied: INIT, the four memories cleared, every block at the values of State.reset, every link with an empty notice set
and every notice enabled; the pins stay where they are held (R16, R31, R32, R86, R178; the pins: log 12; the clearing at
once: log 16). The end of INIT leaves every block at its reset values, the memories as the clearing left them and the links
as they stood, but for responses that become ready; while RESETN is asserted INIT does not end (R16, R178). -/
def Obligations.PowerOnAndInit : Prop :=
  (∀ s : State, ∃ links, exec .powerOn s = .next
       { State.reset with inInit := true, resetLow := s.resetLow, links := links, free := s.free, pending := s.pending } ∧
     ∀ l, links.get l = { linkReset l with
       csLow := (s.links.get l).csLow, tx := if (s.links.get l).csLow && s.resetLow then .discard else .idle }) ∧
  (∀ s : State, s.inInit = true →
     (s.resetLow = true → exec .initEnd s = .next s) ∧
     (s.resetLow = false → untakenCount s = 0 →
       ∃ links, exec .initEnd s = .next
           { State.reset with wave := s.wave, map := s.map, slots := s.slots, sched := s.sched, links := links,
                              free := s.free, pending := s.pending } ∧
         ∀ l, (links.get l).notices = (s.links.get l).notices ∧ (links.get l).enable = (s.links.get l).enable ∧
           (links.get l).csLow = (s.links.get l).csLow ∧
           (((s.links.get l).tx ≠ .waiting ∨ (s.links.get l).resp = none) → links.get l = s.links.get l)))

/-- A pin reset puts every block at its reset values and every link into DISCARD with CS low and IDLE with CS high, with no
notice, every notice enabled and no request left to take (log 11); the memories keep their contents. RESETN released, the next
tick is the first advance (R17, R31, R32, R86, R179). -/
def Obligations.PinResetAndRelease : Prop :=
  ∀ s : State,
    (∃ links, exec .pinReset s = .next
        { State.reset with inInit := s.inInit, resetLow := true, wave := s.wave, map := s.map, slots := s.slots,
                           sched := s.sched, frame := s.frame, links := links, free := s.free, pending := s.pending } ∧
      ∀ l, links.get l = { linkReset l with
        csLow := (s.links.get l).csLow, tx := if (s.links.get l).csLow then .discard else .idle,
        sdo := (s.links.get l).sdo }) ∧
    exec .resetnRelease s = .next { s with resetLow := false }

/-- A tick in INIT or with RESETN held does no block's work: the frame is three zeros and is sent, nothing advances, and only a
response that is ready makes its link respond (R3, R16, R17, R55, R67, R68; DFRAME's mark one bit long: log 31). -/
def Obligations.QuietTickSendsZeros : Prop :=
  ∀ (x : Bool) (s : State), (s.inInit = true ∨ s.resetLow = true) → untakenCount s = 0 →
    ∃ links t, exec (.sampleTick x) s = .next t ∧
      t = { s with frame := { a := 0, b := 0, c := 0 }, events := [], links := links } ∧ FrameIsSent t ∧
      ∀ l, (links.get l).notices = (s.links.get l).notices ∧ (links.get l).enable = (s.links.get l).enable ∧
        (((s.links.get l).tx ≠ .waiting ∨ (s.links.get l).resp = none) → links.get l = s.links.get l)

/-- SOFT_RESET is answered OK and changes nothing but its own link until the rising edge of CS that ends its transaction;
there every block takes the values of a pin reset, a transaction under way on another link enters DISCARD, every notice set
is emptied, every mask enabled and every request not yet taken dropped. So it is too where the rising edge finds the SOFT_RESET
complete and not yet taken: it is taken there, behind the requests of the link that wait ahead of it, and takes effect. One
that came in INIT, or with parameters, has no effect (R129, R180; log 11). -/
def Obligations.SoftResetActsAtItsCsRise : Prop :=
  ∀ s : State,
    (Ready .gl s → exec (.softReset .gl []) s = .next (withLink s .gl
      { answeredLink s.links.gl (.formed [0x00, 0x00]) with softReset := true })) ∧
    (∀ ps : List Byte, Ready .gl s → ps.length ≤ 200 → ps.length ≠ 0 →
      exec (.softReset .gl ps) s = .next (onlyAnswered s .gl .length [])) ∧
    (s.links.gl.csLow = true →
      ((s.links.gl.softReset = true ∧ s.links.gl.untaken = []) ∨
        (s.links.gl.tx = .waiting ∧ ∃ ahead,
          s.links.gl.untaken = ahead ++ [{ code := 0x39, n := 0, params := [], inInit := false }])) →
      ∃ links, exec (.csRise .gl) s = .next
          { State.reset with inInit := s.inInit, resetLow := s.resetLow, wave := s.wave, map := s.map, slots := s.slots,
                             sched := s.sched, frame := s.frame, links := links, free := s.free,
                             pending := s.pending } ∧
        links.gl = { linkReset .gl with sdo := s.links.gl.sdo } ∧
        ∀ l, l ≠ .gl → links.get l = { linkReset l with
          csLow := (s.links.get l).csLow, tx := if (s.links.get l).tx = .idle then .idle else .discard,
          sdo := (s.links.get l).sdo }) ∧
    (∀ r : Request, s.links.gl.csLow = true → s.links.gl.softReset = false → s.links.gl.tx = .waiting →
      s.links.gl.untaken = [r] → r.code = 0x39 → (r.inInit = true ∨ 200 < r.n ∨ r.params ≠ []) →
      exec (.csRise .gl) s = .next (withLink s .gl
        { s.links.gl with csLow := false, tx := .idle, rx := [], untaken := [], resp := none, out := [] }))

/-! ## Timebase -/

/-- The rounding of every rule is to the nearest integer of the exact quotient, halves away from zero; floor, here of a square
root of 64 bits, is the greatest integer not above the value; div and mod are the integer division and its remainder (R1). -/
def Obligations.RoundingIsToNearestHalvesAway : Prop :=
  (∀ (n : Int) (d : Nat), 0 < d →
    2 * (n - roundInt n d * d).natAbs ≤ d ∧
    (2 * (n - roundInt n d * d).natAbs = d → n.natAbs < (roundInt n d * d).natAbs)) ∧
  (∀ n d : Nat, 0 < d → roundInt (n : Int) d = (roundNat n d : Int)) ∧
  (∀ n : Nat, n < 18446744073709551616 → floorSqrt n * floorSqrt n ≤ n ∧ n < (floorSqrt n + 1) * (floorSqrt n + 1)) ∧
  ∀ n d : Nat, 0 < d → n / d * d + n % d = n ∧ n % d < d

/-- A working tick adds I to B modulo 2^32; where the sum reaches 2^32 the tick is a cycle boundary and C is incremented, and
the row CYCLE_BOUNDARY is that tick (R3). -/
def Obligations.TickAdvancesTheTimeline : Prop :=
  ∀ (x : Bool) (s : State), s.inInit = false → s.resetLow = false →
    ∃ t, exec (.sampleTick x) s = .next t ∧ t.tb.b = s.tb.b + BitVec.ofNat 32 s.tb.inc ∧
      (4294967296 ≤ s.tb.b.toNat + s.tb.inc → t.tb.c = s.tb.c + 1 ∧ exec (.cycleBoundary x) s = .next t) ∧
      (s.tb.b.toNat + s.tb.inc < 4294967296 → t.tb.c = s.tb.c ∧ exec (.cycleBoundary x) s = .next s)

/-- What a tick leaves alone: with no request to take, a working tick changes no store, no queue of commands, no P, no
setting of the watch, no stop channel and no gain, no arm settings, no interval K, and on each link neither CS nor the bytes
received nor the mask; it takes no notice away. -/
def Obligations.TickFrame : Prop :=
  ∀ (x : Bool) (s : State), PlainTick s →
    ∃ t, exec (.sampleTick x) s = .next t ∧
      t.inInit = false ∧ t.resetLow = false ∧ t.pending = s.pending ∧
      t.wave = s.wave ∧ t.map = s.map ∧ t.slots = s.slots ∧ t.sched = s.sched ∧
      (∀ p, (t.ph.get p).p = (s.ph.get p).p) ∧
      t.guard.watch = s.guard.watch ∧ t.guard.ipk = s.guard.ipk ∧ t.guard.kp = s.guard.kp ∧
      t.guard.irms = s.guard.irms ∧ t.guard.kr = s.guard.kr ∧
      t.scan.stop = s.scan.stop ∧ (∀ i, (t.scan.channels.get i).gain = (s.scan.channels.get i).gain) ∧
      t.cap.arm = s.cap.arm ∧ t.cnt.interval = s.cnt.interval ∧
      ∀ l, (t.links.get l).csLow = (s.links.get l).csLow ∧ (t.links.get l).rx = (s.links.get l).rx ∧
        (t.links.get l).untaken = (s.links.get l).untaken ∧ (t.links.get l).sdo = (s.links.get l).sdo ∧
        (t.links.get l).softReset = (s.links.get l).softReset ∧ (t.links.get l).enable = (s.links.get l).enable ∧
        (t.links.get l).notices ||| (s.links.get l).notices = (t.links.get l).notices

/-- A frequency ramp makes one step at each cycle boundary: F0 + round((T - F0) × k / R), with I recomputed; its last step
reaches T and ends it, and that tick is the row FREQ_RAMP_END; away from a boundary nothing of it moves (R9). -/
def Obligations.FrequencyRampSteps : Prop :=
  ∀ (x : Bool) (s : State) (rp : FreqRamp), NothingApplied s → s.tb.ramp = some rp →
    ∃ t, exec (.sampleTick x) s = .next t ∧
      (s.tb.b.toNat + s.tb.inc < 4294967296 →
        t.tb = { s.tb with b := s.tb.b + BitVec.ofNat 32 s.tb.inc } ∧ exec (.freqRampEnd x) s = .next s) ∧
      (4294967296 ≤ s.tb.b.toNat + s.tb.inc → rp.k + 1 ≠ rp.r →
        let f := ((rp.f0 : Int) + roundInt (((rp.t : Int) - rp.f0) * ((rp.k + 1 : Nat) : Int)) rp.r).toNat
        t.tb = { s.tb with b := s.tb.b + BitVec.ofNat 32 s.tb.inc, c := s.tb.c + 1, f := f, inc := incrementOf f,
                           ramp := some { rp with k := rp.k + 1 } } ∧
        exec (.freqRampEnd x) s = .next s) ∧
      (4294967296 ≤ s.tb.b.toNat + s.tb.inc → rp.k + 1 = rp.r →
        t.tb = { s.tb with b := s.tb.b + BitVec.ofNat 32 s.tb.inc, c := s.tb.c + 1, f := rp.t,
                           inc := incrementOf rp.t, ramp := none } ∧
        exec (.freqRampEnd x) s = .next t)

/-- FREQ applied as the one due record of a tick: the target is 40,000 plus p1 clamped to 30,000; at once for length 0, with I
recomputed and any ramp gone, else as a new ramp from the F that the advance left; the offsets and the phases' settings are
untouched. PHASE_JUMP applied so: d × 65,536 is added to the offset of each masked phase, and nothing else of the Timebase
or of the phases' settings moves. The RECORD entry of either is traced, the clamped flag set for a FREQ whose p1 is above 30,000
(R6, R7, R8, R13, R14, R95). -/
def Obligations.FreqAndPhaseJumpApplied : Prop :=
  ∀ (x : Bool) (s : State) (e : QueueEntry) (rest : List QueueEntry) (r : Record),
    OneDue s e rest → e.item = .record r →
    (r.kind = .freq → ∃ t, exec (.freq x) s = .next t ∧ exec (.sampleTick x) s = .next t ∧ TimedApplied s e rest r t ∧
      (r.p2 = 0 → t.tb = { s.tb.advance with
        f := 40000 + min r.p1 30000, inc := incrementOf (40000 + min r.p1 30000), ramp := none }) ∧
      (r.p2 ≠ 0 → t.tb = { s.tb.advance with
        ramp := some { f0 := s.tb.advance.f, t := 40000 + min r.p1 30000, r := r.p2, k := 0 } }) ∧
      ∀ p, SameSettings (t.ph.get p) (rampStepped s p)) ∧
    (r.kind = .phaseJump → ∃ t, exec (.phaseJump x) s = .next t ∧ exec (.sampleTick x) s = .next t ∧
      TimedApplied s e rest r t ∧
      (∀ p, t.tb.offset p =
        if Mask.names r.mask p then s.tb.offset p + BitVec.ofNat 32 r.p1 * 65536 else s.tb.offset p) ∧
      t.tb.b = s.tb.advance.b ∧ t.tb.inc = s.tb.advance.inc ∧ t.tb.f = s.tb.advance.f ∧
      t.tb.ramp = s.tb.advance.ramp ∧ t.tb.c = s.tb.advance.c ∧
      ∀ p, SameSettings (t.ph.get p) (rampStepped s p))

/-! ## Stores -/

/-- WRITE_SHAPE makes R23's checks in order; accepted, it stores its samples from the start sample on and changes no other
byte of the store and nothing else of the part (R21, R23; where a sample's bytes stand: log 15). -/
def Obligations.WriteShapeChecksAndStores : Prop :=
  ∀ (ps : List Byte) (s : State), Ready .pl s → s.wave.wf = true → ps.length ≤ 200 →
    let block := byteAt ps 0
    let start := wordAt ps 1
    let count := byteAt ps 3
    let lengthOk := 4 ≤ ps.length ∧ ps.length = 4 + 2 * count
    let valueOk := block ≤ 15 ∧ 1 ≤ count ∧ count ≤ 32 ∧ start ≤ 1023 ∧ start + count ≤ 1024
    (¬ lengthOk → exec (.writeShape .pl ps) s = .next (onlyAnswered s .pl .length [])) ∧
    (lengthOk → ¬ valueOk → exec (.writeShape .pl ps) s = .next (onlyAnswered s .pl .badValue [])) ∧
    (lengthOk → valueOk → BlockCurrent s block →
      exec (.writeShape .pl ps) s = .next (onlyAnswered s .pl .inUse [])) ∧
    (lengthOk → valueOk → ¬ BlockCurrent s block →
      ∃ wave, exec (.writeShape .pl ps) s = .next { s with wave := wave, links := answeredOn s .pl .ok [] } ∧
        wave.wf = true ∧
        (∀ i, i < count → sampleAt wave block (start + i) = signedAt ps (4 + 2 * i)) ∧
        ∀ a, (a < sampleAddress block start ∨ sampleAddress block start + 2 * count ≤ a) →
          wave.read a = s.wave.read a)

/-- MAP_SHAPE makes R26's checks in order; accepted, its entry becomes MAPPED to the target block, or UNMAPPED for 255, and no
other entry and nothing else of the part changes (R20, R21, R26). -/
def Obligations.MapShapeChecksAndMaps : Prop :=
  ∀ (ps : List Byte) (s : State), Ready .pl s → s.map.wf = true → ps.length ≤ 200 →
    let entry := byteAt ps 0
    let target := byteAt ps 1
    let valueOk := entry ≤ 63 ∧ (target ≤ 15 ∨ target = 255)
    (ps.length ≠ 2 → exec (.mapShape .pl ps) s = .next (onlyAnswered s .pl .length [])) ∧
    (ps.length = 2 → ¬ valueOk → exec (.mapShape .pl ps) s = .next (onlyAnswered s .pl .badValue [])) ∧
    (ps.length = 2 → valueOk → (entry = 0 ∨ EntryCurrent s entry) →
      exec (.mapShape .pl ps) s = .next (onlyAnswered s .pl .inUse [])) ∧
    (ps.length = 2 → valueOk → entry ≠ 0 → ¬ EntryCurrent s entry →
      ∃ map, exec (.mapShape .pl ps) s = .next { s with map := map, links := answeredOn s .pl .ok [] } ∧
        map.wf = true ∧ mapEntry map entry = (if target = 255 then .unmapped else .mapped target) ∧
        ∀ e, e ≠ entry → mapEntry map e = mapEntry s.map e)

/-- WRITE_SLOTS makes R39's checks in order; accepted, it stores its entries from the first slot on and changes no other byte
of the tables and nothing else of the part (R33, R37, R39; where an entry's bytes stand: log 15). -/
def Obligations.WriteSlotsChecksAndStores : Prop :=
  ∀ (ps : List Byte) (s : State), Ready .pl s → s.slots.wf = true → ps.length ≤ 200 →
    let phase := byteAt ps 0
    let bank := byteAt ps 1
    let first := byteAt ps 2
    let count := byteAt ps 3
    let lengthOk := 4 ≤ ps.length ∧ ps.length = 4 + 3 * count
    let valueOk := phase ≤ 2 ∧ bank ≤ 3 ∧ first ≤ 63 ∧ 1 ≤ count ∧ count ≤ 64 ∧ first + count ≤ 64
    let entriesOk := ∀ i, i < count → byteAt ps (4 + 3 * i) % 128 ≤ 4
    (¬ lengthOk → exec (.writeSlots .pl ps) s = .next (onlyAnswered s .pl .length [])) ∧
    (lengthOk → ¬ (valueOk ∧ entriesOk) →
      exec (.writeSlots .pl ps) s = .next (onlyAnswered s .pl .badValue [])) ∧
    (lengthOk → valueOk → entriesOk → BankCurrent s (phaseOf phase) bank →
      exec (.writeSlots .pl ps) s = .next (onlyAnswered s .pl .inUse [])) ∧
    (lengthOk → valueOk → entriesOk → ¬ BankCurrent s (phaseOf phase) bank →
      ∃ slots, exec (.writeSlots .pl ps) s = .next { s with slots := slots, links := answeredOn s .pl .ok [] } ∧
        slots.wf = true ∧
        (∀ i, i < count → slotEntryAt slots phase bank (first + i) =
          { action := actionOf (byteAt ps (4 + 3 * i) % 128), noise := decide (128 ≤ byteAt ps (4 + 3 * i)),
            code := signedAt ps (5 + 3 * i) }) ∧
        ∀ a, (a < slotAddress phase bank first ∨ slotAddress phase bank first + 3 * count ≤ a) →
          slots.read a = s.slots.read a)

/-- SET_SEED: any length but 4 is refused LENGTH; a seed above 131,071 is refused BAD_VALUE with the register unchanged; 1 to
131,071 is stored and answered OK; 0 is stored as 1 and answered CLAMPED; nothing but the register changes (R44). -/
def Obligations.SetSeedStoresTheSeed : Prop :=
  ∀ (ps : List Byte) (s : State), Ready .pl s → ps.length ≤ 200 →
    (ps.length ≠ 4 → exec (.setSeed .pl ps) s = .next (onlyAnswered s .pl .length [])) ∧
    (ps.length = 4 → 131071 < dwordAt ps 0 → exec (.setSeed .pl ps) s = .next (onlyAnswered s .pl .badValue [])) ∧
    (ps.length = 4 → 1 ≤ dwordAt ps 0 → dwordAt ps 0 ≤ 131071 → exec (.setSeed .pl ps) s =
      .next { s with lfsr := BitVec.ofNat 17 (dwordAt ps 0), links := answeredOn s .pl .ok [] }) ∧
    (ps.length = 4 → dwordAt ps 0 = 0 → exec (.setSeed .pl ps) s =
      .next { s with lfsr := 1, links := answeredOn s .pl .clamped [] })

/-- The reads of the stores answer OK with what the store holds, byte by byte, and change nothing; a wrong length is refused
LENGTH and a range outside the store BAD_VALUE (R25, R28, R41, R85; where the bytes stand: log 15; bits 2..6 of a READ_MAP
entry's first byte are 0: log 27). -/
def Obligations.StoreReadsReturnTheContents : Prop :=
  ∀ (ps : List Byte) (s : State), Ready .pl s → ps.length ≤ 200 →
    (ps.length ≠ 4 → exec (.readShape .pl ps) s = .next (onlyAnswered s .pl .length []) ∧
      exec (.readSlots .pl ps) s = .next (onlyAnswered s .pl .length [])) ∧
    (ps.length ≠ 0 → exec (.readMap .pl ps) s = .next (onlyAnswered s .pl .length [])) ∧
    (ps.length ≠ 3 → exec (.readRecords .pl ps) s = .next (onlyAnswered s .pl .length [])) ∧
    (ps.length = 4 →
      let inRange := byteAt ps 0 ≤ 16 ∧ 1 ≤ byteAt ps 3 ∧ byteAt ps 3 ≤ 64 ∧ wordAt ps 1 + byteAt ps 3 ≤ 1024
      (inRange → exec (.readShape .pl ps) s = .next (onlyAnswered s .pl .ok
        ((List.range (byteAt ps 3)).flatMap (fun i => leInt16 (sampleAt s.wave (byteAt ps 0) (wordAt ps 1 + i)))))) ∧
      (¬ inRange → exec (.readShape .pl ps) s = .next (onlyAnswered s .pl .badValue []))) ∧
    (ps.length = 4 →
      let inRange := byteAt ps 0 ≤ 2 ∧ byteAt ps 1 ≤ 3 ∧ byteAt ps 2 ≤ 63 ∧ 1 ≤ byteAt ps 3 ∧ byteAt ps 3 ≤ 64 ∧
        byteAt ps 2 + byteAt ps 3 ≤ 64
      (inRange → exec (.readSlots .pl ps) s = .next (onlyAnswered s .pl .ok ((List.range (3 * byteAt ps 3)).map
        (fun i => s.slots.read (slotAddress (byteAt ps 0) (byteAt ps 1) (byteAt ps 2) + i))))) ∧
      (¬ inRange → exec (.readSlots .pl ps) s = .next (onlyAnswered s .pl .badValue []))) ∧
    (ps.length = 3 →
      let inRange := wordAt ps 0 ≤ 1023 ∧ 1 ≤ byteAt ps 2 ∧ byteAt ps 2 ≤ 24 ∧ wordAt ps 0 + byteAt ps 2 ≤ 1024
      (inRange → exec (.readRecords .pl ps) s = .next (onlyAnswered s .pl .ok ((List.range (10 * byteAt ps 2)).map
        (fun i => s.sched.read (recordAddress (wordAt ps 0) + i))))) ∧
      (¬ inRange → exec (.readRecords .pl ps) s = .next (onlyAnswered s .pl .badValue []))) ∧
    (ps.length = 0 → ∃ data, exec (.readMap .pl ps) s = .next (onlyAnswered s .pl .ok data) ∧ data.length = 130 ∧
      (∀ e, e < 64 → data.getD (2 * e + 1) 0 = BitVec.ofNat 8 (mapEntry s.map e).block ∧
        byteAt data (2 * e) % 128 = (mapEntry s.map e).code ∧ (128 ≤ byteAt data (2 * e) ↔ EntryCurrent s e)) ∧
      ∀ b, b < 16 → ((wordAt data 128).testBit b = true ↔ BlockCurrent s b))

/-- WRITE_RECORDS makes R83's checks in order; accepted, it stores the carried records byte by byte and changes no other byte; the
runner is untouched unless the range covers a queued source index: then the queue is flushed and fetching starts again from
the committed side on the new contents (R83, R84, R101, R102; where a record's bytes stand: log 15). -/
def Obligations.WriteRecordsStoresAndFlushes : Prop :=
  ∀ (ps : List Byte) (s : State), Ready .pl s → s.sched.wf = true → ps.length ≤ 200 →
    let first := wordAt ps 0
    let count := byteAt ps 2
    let lengthOk := 3 ≤ ps.length ∧ ps.length = 3 + 10 * count
    let valueOk := first ≤ 1023 ∧ 1 ≤ count ∧ count ≤ 19 ∧ first + count ≤ 1024
    (¬ lengthOk → exec (.writeRecords .pl ps) s = .next (onlyAnswered s .pl .length [])) ∧
    (lengthOk → ¬ valueOk → exec (.writeRecords .pl ps) s = .next (onlyAnswered s .pl .badValue [])) ∧
    (lengthOk → valueOk →
      ∃ sched run, exec (.writeRecords .pl ps) s =
          .next { s with sched := sched, run := run, links := answeredOn s .pl .ok [] } ∧
        sched.wf = true ∧
        (∀ i, i < 10 * count → sched.read (recordAddress first + i) = ps.getD (3 + i) 0) ∧
        (∀ a, (a < recordAddress first ∨ recordAddress first + 10 * count ≤ a) → sched.read a = s.sched.read a) ∧
        ((∀ q ∈ s.run.queue, q.src < first ∨ first + count ≤ q.src) → run = s.run) ∧
        ((∃ q ∈ s.run.queue, first ≤ q.src ∧ q.src < first + count) → run = fill sched
          { s.run with queue := [], fetchPtr := s.run.execPtr, fStack := s.run.cStack, fBase := s.run.cBase, spin := 0,
                       halt := .none }))

/-! ## Phase Contexts and samples -/

/-- SET_NOMINAL: any length but 3 is refused LENGTH; a mask above 7 or a peak above 32,767 is refused BAD_VALUE; otherwise P of
each masked phase takes the peak, with A recomputed from its L, ramps go on, and nothing else changes (R47, R48). -/
def Obligations.SetNominalSetsThePeaks : Prop :=
  ∀ (ps : List Byte) (s : State), Ready .pl s → ps.length ≤ 200 →
    (ps.length ≠ 3 → exec (.setNominal .pl ps) s = .next (onlyAnswered s .pl .length [])) ∧
    (ps.length = 3 → (7 < byteAt ps 0 ∨ 32767 < wordAt ps 1) →
      exec (.setNominal .pl ps) s = .next (onlyAnswered s .pl .badValue [])) ∧
    (ps.length = 3 → byteAt ps 0 ≤ 7 → wordAt ps 1 ≤ 32767 →
      ∃ ph, exec (.setNominal .pl ps) s = .next { s with ph := ph, links := answeredOn s .pl .ok [] } ∧
        ∀ p : PhaseId, ph.get p = if (byteAt ps 0).testBit p.number then
            { s.ph.get p with p := wordAt ps 1, a := amplitudeOf (s.ph.get p).l (wordAt ps 1) }
          else s.ph.get p)

/-- LEVEL applied as the one due record of a tick: each masked phase's L takes p1 at once for length 0 or 1, with no ramp left,
and for a longer ramp begins one from the L that the tick's ramp step left, its first step made; A follows L; the other phases
and the Timebase are untouched (R47, R50, R51). A level ramp makes one step at each tick, L0 + round((T - L0) × k / R) with A
recomputed; its last step reaches T and ends it, and a tick with a last step is the row LEVEL_RAMP_END (R51). -/
def Obligations.LevelsApplyAndRamp : Prop :=
  (∀ (x : Bool) (s : State) (e : QueueEntry) (rest : List QueueEntry) (r : Record),
     OneDue s e rest → e.item = .record r → r.kind = .level →
     ∃ t, exec (.level x) s = .next t ∧ exec (.sampleTick x) s = .next t ∧ TimedApplied s e rest r t ∧
       t.tb = s.tb.advance ∧
       ∀ p,
         (Mask.names r.mask p = false → SameSettings (t.ph.get p) (rampStepped s p)) ∧
         (Mask.names r.mask p = true → r.p2 ≤ 1 → SameSettings (t.ph.get p)
           { rampStepped s p with l := r.p1, a := amplitudeOf r.p1 (s.ph.get p).p, ramp := none }) ∧
         (Mask.names r.mask p = true → 2 ≤ r.p2 → SameSettings (t.ph.get p)
           { rampStepped s p with
             l := rampValue (rampStepped s p).l r.p1 r.p2 1
             a := amplitudeOf (rampValue (rampStepped s p).l r.p1 r.p2 1) (s.ph.get p).p
             ramp := some { l0 := (rampStepped s p).l, t := r.p1, r := r.p2, k := 1 } })) ∧
  (∀ (x : Bool) (s : State), NothingApplied s →
     ∃ t, exec (.sampleTick x) s = .next t ∧ (∀ p, SameSettings (t.ph.get p) (rampStepped s p)) ∧
       ((∃ p rp, (s.ph.get p).ramp = some rp ∧ rp.k + 1 = rp.r) → exec (.levelRampEnd x) s = .next t) ∧
       ((∀ p rp, (s.ph.get p).ramp = some rp → rp.k + 1 ≠ rp.r) → exec (.levelRampEnd x) s = .next s))

/-- SHAPE as the one due record of a tick: where its entry is FIXED or MAPPED each masked phase's shape takes p1 and nothing
else of the settings changes; where it is UNMAPPED, whatever the mask, the record is not applied: the runner enters FAULTED
with UNMAPPED_SHAPE and the record's index, the committed side as it stood, no APPLIED and no LATE, RUN_FAULTED is raised on the
Program Link and the Guard Link, and a FAULT entry enters the trace where it has room and nothing else enters (R29, R100, R101,
R157; what the entry's detail holds: log 28). -/
def Obligations.ShapeResolvedAtItsTick : Prop :=
  ∀ (x : Bool) (s : State) (e : QueueEntry) (rest : List QueueEntry) (r : Record),
    OneDue s e rest → e.item = .record r → r.kind = .shape →
    ∃ t, exec (.shape x) s = .next t ∧ exec (.sampleTick x) s = .next t ∧
      (mapEntry s.map r.p1 ≠ .unmapped → TimedApplied s e rest r t ∧ t.tb = s.tb.advance ∧
        ∀ p, SameSettings (t.ph.get p)
          (if Mask.names r.mask p then { rampStepped s p with shape := r.p1 } else rampStepped s p)) ∧
      (mapEntry s.map r.p1 = .unmapped → OnlyAdvanced s t ∧ t.run = faultedRun s.run .unmappedShape e.src ∧
        t.cnt.live.applied = (countedFrom s).applied ∧ t.cnt.live.late = (countedFrom s).late ∧
        t.links.pl.notices.getLsbD 1 = true ∧ t.links.gl.notices.getLsbD 2 = true ∧
        (NoTrip s → s.trace.deferred = [] → s.trace.made = [] → s.trace.fifo.length < 64 →
          t.trace.fifo = s.trace.fifo ++ [eventEntry s .fault e.src (.fault .unmappedShape e.src)]))

/-- SLOTBANK and NOISE as the one due record of a tick set the bank and N of each masked phase to p1 and nothing else of the
settings (R37, R54). -/
def Obligations.SlotbankAndNoiseApplied : Prop :=
  ∀ (x : Bool) (s : State) (e : QueueEntry) (rest : List QueueEntry) (r : Record),
    OneDue s e rest → e.item = .record r →
    (r.kind = .slotbank → ∃ t, exec (.slotbank x) s = .next t ∧ exec (.sampleTick x) s = .next t ∧
      TimedApplied s e rest r t ∧ t.tb = s.tb.advance ∧ ∀ p, SameSettings (t.ph.get p)
        (if Mask.names r.mask p then { rampStepped s p with bank := r.p1 } else rampStepped s p)) ∧
    (r.kind = .noise → ∃ t, exec (.noise x) s = .next t ∧ exec (.sampleTick x) s = .next t ∧
      TimedApplied s e rest r t ∧ t.tb = s.tb.advance ∧ ∀ p, SameSettings (t.ph.get p)
        (if Mask.names r.mask p then { rampStepped s p with n := r.p1 } else rampStepped s p))

/-- The interpolation and the amplitude scale of a sample. The block is the one that the phase's Shape Map entry names; its
samples i and i + 1, the one behind 1,023 being sample 0, are interpolated to w = a + round((b - a) × f / 256), which lies
between a and b, both included, is a for f = 0 and for a = b, and rounds a half downward on a downward slope and upward on an
upward one (R57). Then s1 = round(w × A / 32,768), within -65,533..65,533, reaching -65,533 only for w = -32,768 with
A = 65,533 and +65,533 never; A = 32,768 leaves w, A = 0 gives 0, and -w gives -s1 (R58). -/
def Obligations.InterpolationAndAmplitudeScale : Prop :=
  (∀ (s : State) (p : PhaseId) (drawn : BitVec 17),
     let φ := (s.tb.phi p).toNat
     let block := (mapEntry s.map (s.ph.get p).shape).block
     let w := shapeSample s.wave block φ
     w = interpolate (sampleAt s.wave block (φ / 4194304)) (sampleAt s.wave block ((φ / 4194304 + 1) % 1024))
       (φ / 16384 % 256) ∧
     sampleBeforeLimit s p drawn = guardScaled (noised (entryFor s p) (acted (entryFor s p) (amplified w (s.ph.get p).a)
       (s.ph.get p).held) (noiseValue drawn) (s.ph.get p).n) s.guard.g) ∧
  (∀ (a b : Int) (f : Nat), -32768 ≤ a → a ≤ 32767 → -32768 ≤ b → b ≤ 32767 → f < 256 →
     interpolate a b f = a + roundInt ((b - a) * f) 256 ∧
     -65535 ≤ b - a ∧ b - a ≤ 65535 ∧ min a b ≤ interpolate a b f ∧ interpolate a b f ≤ max a b ∧
     interpolate a b 0 = a ∧ interpolate a a f = a ∧
     (∀ k : Int, (b - a) * f = 256 * k + 128 →
       (b < a → interpolate a b f = a + k) ∧ (a < b → interpolate a b f = a + k + 1))) ∧
  (interpolate 23170 23311 64 = 23205 ∧ interpolate 23311 23170 64 = 23276 ∧ interpolate 100 98 64 = 99 ∧
   interpolate 100 102 64 = 101 ∧ interpolate (-32768) 32767 255 = 32511) ∧
  (∀ (w : Int) (amp : Nat), -32768 ≤ w → w ≤ 32767 → amp ≤ 65533 →
     amplified w amp = roundInt (w * amp) 32768 ∧ -65533 ≤ amplified w amp ∧ amplified w amp < 65533 ∧
     (amplified w amp = -65533 → w = -32768 ∧ amp = 65533) ∧ amplified (-32768) 65533 = -65533 ∧
     amplified w 32768 = w ∧ amplified w 0 = 0 ∧ amplified (-w) amp = -amplified w amp)

/-- Each working tick sends one code a phase, computed by the eight stages from what the tick leaves; the noise register makes
one draw for each flagged entry in the order A, B, C; last code takes the code, and Held too unless the action is HOLD; in OFF
and TRIPPED the codes are 0, and with lo ≤ 0 ≤ hi no code leaves the limits; the three codes leave as 48 bits on DDATA with
DFRAME at the first (R43, R55 to R67; the mark one bit long: log 31). -/
def Obligations.SamplesAreComputedByTheStages : Prop :=
  ∀ (x : Bool) (s : State), PlainTick s →
    ∃ t, exec (.sampleTick x) s = .next t ∧
      let rA := if (entryAfter t .a).noise then noiseDraw s.lfsr else s.lfsr
      let rB := if (entryAfter t .b).noise then noiseDraw rA else rA
      let rC := if (entryAfter t .c).noise then noiseDraw rB else rB
      t.lfsr = rC ∧
      t.frame = { a := sampleCode t .a s.ph.a.held rA, b := sampleCode t .b s.ph.b.held rB,
                  c := sampleCode t .c s.ph.c.held rC } ∧ FrameIsSent t ∧
      t.ph.a.last = t.frame.a ∧ t.ph.b.last = t.frame.b ∧ t.ph.c.last = t.frame.c ∧
      t.ph.a.held = (if (entryAfter t .a).action = .hold then s.ph.a.held else t.frame.a) ∧
      t.ph.b.held = (if (entryAfter t .b).action = .hold then s.ph.b.held else t.frame.b) ∧
      t.ph.c.held = (if (entryAfter t .c).action = .hold then s.ph.c.held else t.frame.c) ∧
      ((t.guard.out = .off ∨ t.guard.out = .tripped) → t.frame = { a := 0, b := 0, c := 0 }) ∧
      (t.guard.lo ≤ 0 → 0 ≤ t.guard.hi →
        (t.guard.lo ≤ t.frame.a ∧ t.frame.a ≤ t.guard.hi) ∧ (t.guard.lo ≤ t.frame.b ∧ t.frame.b ≤ t.guard.hi) ∧
        (t.guard.lo ≤ t.frame.c ∧ t.frame.c ≤ t.guard.hi))

/-- A sample that the limit stage changes sets its phase's sticky clamp flag and counts in its phase's clamp counter; the first
clamp of a phase whose flag is clear raises CLAMPED_FIRST on the Guard Link; a sample within the limits
does neither (R62, R63). -/
def Obligations.ClampsAreFlaggedAndCounted : Prop :=
  ∀ (x : Bool) (s : State), PlainTick s →
    ∃ t, exec (.sampleTick x) s = .next t ∧
      let rA := if (entryAfter t .a).noise then noiseDraw s.lfsr else s.lfsr
      let rB := if (entryAfter t .b).noise then noiseDraw rA else rA
      let rC := if (entryAfter t .c).noise then noiseDraw rB else rB
      (sampleClamped t .a s.ph.a.held rA → t.ph.a.clamp = true ∧
        t.cnt.live.clampA = min ((countedFrom s).clampA + 1) 65535 ∧
        (s.ph.a.clamp = false → t.links.gl.notices.getLsbD 1 = true)) ∧
      (sampleClamped t .b s.ph.b.held rB → t.ph.b.clamp = true ∧
        t.cnt.live.clampB = min ((countedFrom s).clampB + 1) 65535 ∧
        (s.ph.b.clamp = false → t.links.gl.notices.getLsbD 1 = true)) ∧
      (sampleClamped t .c s.ph.c.held rC → t.ph.c.clamp = true ∧
        t.cnt.live.clampC = min ((countedFrom s).clampC + 1) 65535 ∧
        (s.ph.c.clamp = false → t.links.gl.notices.getLsbD 1 = true)) ∧
      (¬ sampleClamped t .a s.ph.a.held rA → t.ph.a.clamp = s.ph.a.clamp ∧
        t.cnt.live.clampA = (countedFrom s).clampA) ∧
      (¬ sampleClamped t .b s.ph.b.held rB → t.ph.b.clamp = s.ph.b.clamp ∧
        t.cnt.live.clampB = (countedFrom s).clampB) ∧
      (¬ sampleClamped t .c s.ph.c.held rC → t.ph.c.clamp = s.ph.c.clamp ∧
        t.cnt.live.clampC = (countedFrom s).clampC)

/-! ## Event Runner -/

/-- START makes R103's checks in order; accepted, the runner is RUNNING from the index with both stacks empty, the fault record
cleared and both chain bases at (C + 1, 0) (C + 1 modulo 2^32: log 23), a START entry waits for the trace, and a fill follows:
its first fetch puts the record at the index, or a marker in its stead, at the head of the queue (R78, R79, R91, R92, R103).
STOP: any length but 0 is refused LENGTH; in IDLE it changes nothing; in every other state the runner enters IDLE with the
queue and both loop stacks empty, a STOP entry waits for the trace, and the execution pointer, the committed chain base, the
fault record, a pending APPLY_NOW and the hold flag stay (R104). -/
def Obligations.StartAndStop : Prop :=
  (∀ (ps : List Byte) (s : State), Ready .pl s → ps.length ≤ 200 →
     let index := wordAt ps 0
     let stopped := s.run.state = .idle ∨ s.run.state = .ended ∨ s.run.state = .faulted
     (ps.length ≠ 2 → exec (.start .pl ps) s = .next (onlyAnswered s .pl .length [])) ∧
     (ps.length = 2 → 1023 < index → exec (.start .pl ps) s = .next (onlyAnswered s .pl .badValue [])) ∧
     (ps.length = 2 → index ≤ 1023 → ¬ (stopped ∧ s.run.applyNow = none) →
       exec (.start .pl ps) s = .next (onlyAnswered s .pl .busy [])) ∧
     (ps.length = 2 → index ≤ 1023 → stopped → s.run.applyNow = none → s.guard.hold = true →
       exec (.start .pl ps) s = .next (onlyAnswered s .pl .held [])) ∧
     (ps.length = 2 → index ≤ 1023 → stopped → s.run.applyNow = none → s.guard.hold = false →
       let base : Position := { c := s.tb.c + 1, ang := 0 }
       ∃ run, exec (.start .pl ps) s = .next { s with
           run := run, trace := { s.trace with deferred := s.trace.deferred ++ [{ type := .start, index := index }] },
           links := answeredOn s .pl .ok [] } ∧
         run = fill s.sched { s.run with
           state := .running, execPtr := index, fetchPtr := index, cStack := [], fStack := [], faultReason := .none,
           faultIndex := 0, spin := 0, halt := .none, cBase := base, fBase := base } ∧
         (s.run.queue = [] → 1 ≤ s.run.allowance →
           let r := recordAt s.sched index
           run.queue.head? = some
             { src := index
               item := if r.isBad then .marker .badRecord else if r.kind = .loopEnd then .marker .loopUnbalanced
                       else .record r
               due := if r.isBad = true ∨ r.isControl = true then base
                      else { c := s.tb.c + 1 + BitVec.ofNat 32 r.delay, ang := BitVec.ofNat 16 r.angle } }))) ∧
  (∀ (ps : List Byte) (s : State), Ready .pl s → ps.length ≤ 200 →
     (ps.length ≠ 0 → exec (.stop .pl ps) s = .next (onlyAnswered s .pl .length [])) ∧
     (ps.length = 0 → s.run.state = .idle → exec (.stop .pl ps) s = .next (onlyAnswered s .pl .ok [])) ∧
     (ps.length = 0 → s.run.state ≠ .idle →
       ∃ run, exec (.stop .pl ps) s = .next { s with
           run := run,
           trace := { s.trace with deferred := s.trace.deferred ++ [{ type := .stop, index := s.run.execPtr }] },
           links := answeredOn s .pl .ok [] } ∧
         (s.run.state = .running → run = { s.run with
           state := .idle, queue := [], cStack := [], fStack := [], fetchPtr := s.run.execPtr, fBase := s.run.cBase,
           spin := 0, halt := .none }) ∧
         (s.run.state ≠ .running → run = { s.run with state := .idle, cStack := [], fStack := [] })))

/-- APPLY_NOW makes R105's checks in order and keeps the record for the next tick, CLAMPED for a FREQ whose p1 is above 30,000;
a refused one leaves nothing pending (R30, R38, R105). -/
def Obligations.ApplyNowChecksAndWaits : Prop :=
  ∀ (ps : List Byte) (s : State), Ready .pl s → ps.length ≤ 200 →
    let r := decodeRecord ps
    let stopped := s.run.state = .idle ∨ s.run.state = .ended ∨ s.run.state = .faulted
    let accepted := r.kind = .level ∨ r.kind = .freq ∨ r.kind = .phaseJump ∨
      (r.kind = .shape ∧ r.p1 ≤ 63 ∧ mapEntry s.map r.p1 ≠ .unmapped) ∨ (r.kind = .slotbank ∧ r.p1 ≤ 3) ∨
      (r.kind = .noise ∧ r.p1 ≤ 255)
    (ps.length ≠ 10 → exec (.applyNow .pl ps) s = .next (onlyAnswered s .pl .length [])) ∧
    (ps.length = 10 → ¬ (stopped ∧ s.run.applyNow = none) →
      exec (.applyNow .pl ps) s = .next (onlyAnswered s .pl .busy [])) ∧
    (ps.length = 10 → stopped → s.run.applyNow = none → ¬ accepted →
      exec (.applyNow .pl ps) s = .next (onlyAnswered s .pl .badValue [])) ∧
    (ps.length = 10 → stopped → s.run.applyNow = none → accepted →
      exec (.applyNow .pl ps) s = .next { s with
        run := { s.run with applyNow := some r },
        links := answeredOn s .pl (if r.kind = .freq ∧ 30000 < r.p1 then .clamped else .ok) [] })

/-- A pending APPLY_NOW is applied at the next tick as a record of its kind and is then no longer pending; the runner stays in
its state with its pointer, stacks, chain bases and fault record, APPLIED is incremented and LATE is not. Its RECORD entry, unless
suppressed, is put in the trace with index 65,535, due point and stamp both at the tick's position, not late, clamped for a FREQ
whose p1 is above 30,000 (R7, R106, R157). -/
def Obligations.PendingApplyNowIsApplied : Prop :=
  ∀ (x : Bool) (s : State) (r : Record), ApplyPending s r → (r.kind = .shape → mapEntry s.map r.p1 ≠ .unmapped) →
    ∃ t, exec (.applyNowApplied x) s = .next t ∧ exec (.sampleTick x) s = .next t ∧
      t.run = { s.run with applyNow := none, allowance := 8 } ∧
      t.cnt.live.applied = min ((countedFrom s).applied + 1) 65535 ∧ t.cnt.live.late = (countedFrom s).late ∧
      (QuietTrace s → s.trace.fifo.length < 64 →
        t.trace.fifo = s.trace.fifo ++ recordTraced s r 65535 (comingPosition s) false) ∧
      t.tb = r.changeTimebase s.tb.advance ∧
      ∀ p, SameSettings (t.ph.get p) ((r.changePhases (s.ph.each Phase.rampStep)).get p)

/-- MARK as the one due record of a tick changes no setting. Its RECORD entry, unless suppressed, is put in the trace with its
marker value; a capture ARMED on MARK whose filter it passes is stamped with the tick, suppressed or not (R74, R82, R95, R147,
R157). -/
def Obligations.MarkAppliedAndTraced : Prop :=
  ∀ (x : Bool) (s : State) (e : QueueEntry) (rest : List QueueEntry) (r : Record),
    OneDue s e rest → e.item = .record r → r.kind = .mark →
    ∃ t, exec (.mark x) s = .next t ∧ exec (.sampleTick x) s = .next t ∧ TimedApplied s e rest r t ∧ OnlyAdvanced s t ∧
      (NoTrip s → s.trace.deferred = [] → s.trace.made = [] → s.trace.fifo.length < 64 →
        t.trace.fifo = s.trace.fifo ++ (if r.suppress then [] else
          [{ type := .record, index := e.src, kind := 7, mask := r.mask, dueC := e.due.c.setWidth 16,
             dueAng := e.due.ang, stampC := (comingPosition s).c.setWidth 16, stampAng := (comingPosition s).ang,
             late := e.due.le s.tb.position, clamped := false, detail := .marker r.p1 }])) ∧
      (∀ a, s.cap.state = .armed → s.cap.arm = some a → a.source = .mark →
        (a.filterMatch = false ∨ a.filterValue = r.p1) → t.cap.stamp = some (comingPosition s))

/-- END as the one due record of a tick: the runner enters ENDED with the pointer behind the record, the chain base at its due
point, and the queue flushed; RUN_ENDED is raised on the Program Link, and settings and Timebase are untouched; its RECORD entry,
unless suppressed, and the END entry behind it enter the trace (R98, R101, R157). A
fault marker as the one due entry: the runner enters FAULTED with the marker's reason and source index, the queue flushed, the
committed side as it stood; nothing counts as applied, RUN_FAULTED is raised on the Program Link and the Guard Link, and a FAULT
entry with reason and index enters the trace where it has room and nothing else enters (R99, R101, R157; what the entry's detail
holds: log 28). -/
def Obligations.EndAndFaultMarkerStopTheRunner : Prop :=
  (∀ (x : Bool) (s : State) (e : QueueEntry) (rest : List QueueEntry) (r : Record),
     OneDue s e rest → e.item = .record r → r.kind = .endRecord →
     ∃ t, exec (.endRecord x) s = .next t ∧ exec (.sampleTick x) s = .next t ∧ OnlyAdvanced s t ∧
       t.run = { s.run with
         state := .ended, execPtr := e.src + 1, cBase := e.due, queue := [], fetchPtr := e.src + 1,
         fStack := s.run.cStack, fBase := e.due, spin := 0, halt := .none, allowance := 8 } ∧
       t.cnt.live.applied = min ((countedFrom s).applied + 1) 65535 ∧
       t.cnt.live.late =
         (if e.due.le s.tb.position then min ((countedFrom s).late + 1) 65535 else (countedFrom s).late) ∧
       t.links.pl.notices.getLsbD 0 = true ∧
       (QuietTrace s → s.trace.fifo.length + 2 ≤ 64 →
         t.trace.fifo = s.trace.fifo ++ recordTraced s r e.src e.due (e.due.le s.tb.position) ++
           [eventEntry s .endEntry e.src .nothing])) ∧
  (∀ (x : Bool) (s : State) (e : QueueEntry) (rest : List QueueEntry) (reason : FaultReason),
     OneDue s e rest → e.item = .marker reason →
     ∃ t, exec (.faultMarker x) s = .next t ∧ exec (.sampleTick x) s = .next t ∧ OnlyAdvanced s t ∧
       t.run = faultedRun s.run reason e.src ∧
       t.cnt.live.applied = (countedFrom s).applied ∧ t.cnt.live.late = (countedFrom s).late ∧
       t.links.pl.notices.getLsbD 1 = true ∧ t.links.gl.notices.getLsbD 2 = true ∧
       (NoTrip s → s.trace.deferred = [] → s.trace.made = [] → s.trace.fifo.length < 64 →
         t.trace.fifo = s.trace.fifo ++ [eventEntry s .fault e.src (.fault reason e.src)]))

/-- The control records, each as the one due record of a tick: LOOP_BEGIN pushes a frame and goes on behind itself; LOOP_END
pops a frame with nothing remaining and goes on behind itself, or counts the frame down and goes back to its body; GOTO goes
on at its target. The chain base stays, APPLIED is incremented, LATE is not, settings and Timebase are untouched, and its RECORD
entry, unless suppressed, enters the trace, not late (R75, R76, R97, R157). -/
def Obligations.ControlRecordsWalk : Prop :=
  ∀ (x : Bool) (s : State) (e : QueueEntry) (rest : List QueueEntry) (r : Record),
    OneDue s e rest → e.item = .record r →
    let common := fun t : State => exec (.sampleTick x) s = .next t ∧ OnlyAdvanced s t ∧ t.run.state = .running ∧
      t.run.cBase = s.run.cBase ∧ (∃ more, t.run.queue = rest ++ more) ∧
      t.cnt.live.applied = min ((countedFrom s).applied + 1) 65535 ∧ t.cnt.live.late = (countedFrom s).late ∧
      (QuietTrace s → s.trace.fifo.length < 64 → t.trace.fifo = s.trace.fifo ++ recordTraced s r e.src e.due false)
    (r.kind = .loopBegin → ∃ t, exec (.loopBegin x) s = .next t ∧ common t ∧ t.run.execPtr = e.src + 1 ∧
      t.run.cStack = { body := e.src + 1, remaining := r.p1 } :: s.run.cStack) ∧
    (r.kind = .loopEnd → ∀ top below, s.run.cStack = top :: below →
      ∃ t, exec (.loopEnd x) s = .next t ∧ common t ∧
        (top.remaining = 0 → t.run.execPtr = e.src + 1 ∧ t.run.cStack = below) ∧
        (top.remaining ≠ 0 → t.run.execPtr = top.body ∧
          t.run.cStack = { body := top.body, remaining := top.remaining - 1 } :: below)) ∧
    (r.kind = .goto → ∃ t, exec (.goto x) s = .next t ∧ common t ∧ t.run.execPtr = r.p1 ∧
      t.run.cStack = s.run.cStack)

/-- The hold is taken at a cycle boundary in RUNNING with the flag asserted, before any entry of the tick: HELD, the queue
flushed, RUN_HELD raised. It is released at the first tick in HELD with the flag clear: RUNNING, both chain bases at that
tick's position, a fill, no entry applied; with the flag asserted the runner stays HELD. The HOLD and the RELEASE entry, each with
the execution pointer, enter the trace (R101, R108, R109, R157). -/
def Obligations.HoldTakenAndReleased : Prop :=
  ∀ (x : Bool) (s : State), PlainTick s →
    (s.run.state = .running → s.tb.wraps = true → s.guard.hold = true →
      ∃ t, exec (.takeHold x) s = .next t ∧ exec (.sampleTick x) s = .next t ∧ OnlyAdvanced s t ∧
        t.run = { s.run with
          state := .held, queue := [], fetchPtr := s.run.execPtr, fStack := s.run.cStack, fBase := s.run.cBase,
          spin := 0, halt := .none, allowance := 8 } ∧
        t.links.pl.notices.getLsbD 2 = true ∧
        (QuietTrace s → s.trace.fifo.length < 64 →
          t.trace.fifo = s.trace.fifo ++ [eventEntry s .hold s.run.execPtr .nothing])) ∧
    (s.run.state = .held → s.guard.hold = false → NoTrip s →
      ∃ t, exec (.releaseHold x) s = .next t ∧ exec (.sampleTick x) s = .next t ∧ OnlyAdvanced s t ∧
        t.run = fill s.sched { s.run with
          state := .running, cBase := comingPosition s, fBase := comingPosition s, allowance := 8 } ∧
        (QuietTrace s → s.trace.fifo.length < 64 →
          t.trace.fifo = s.trace.fifo ++ [eventEntry s .release s.run.execPtr .nothing])) ∧
    (s.run.state = .held → s.guard.hold = true →
      exec (.releaseHold x) s = .next s ∧
      ∃ t, exec (.sampleTick x) s = .next t ∧ OnlyAdvanced s t ∧ t.run = { s.run with allowance := 8 })

/-! ## Output Guard -/

/-- ENABLE and SAFE by the output state: OFF is left at once for length 0, G with it (log 18: R114 gives that G from the next
tick on), or by a ramp up; RAMP_UP and ON stay; RAMP_DOWN refuses ENABLE BUSY and TRIPPED refuses it TRIPPED; SAFE cuts the
output at once for length 0 or begins a ramp down from the G that holds, and in OFF and TRIPPED changes nothing (R113, R114,
R115). -/
def Obligations.EnableAndSafeByOutputState : Prop :=
  ∀ (ps : List Byte) (s : State), Ready .gl s → ps.length ≤ 200 →
    let r := wordAt ps 0
    let ok := answeredOn s .gl .ok []
    (ps.length ≠ 2 → exec (.enable .gl ps) s = .next (onlyAnswered s .gl .length []) ∧
      exec (.safe .gl ps) s = .next (onlyAnswered s .gl .length [])) ∧
    (ps.length = 2 →
      (s.guard.out = .off → r = 0 →
        exec (.enable .gl ps) s = .next { s with guard := { s.guard with out := .on, g := 32768 }, links := ok }) ∧
      (s.guard.out = .off → r ≠ 0 → exec (.enable .gl ps) s = .next { s with
        guard := { s.guard with out := .rampUp, ramp := some { g0 := 0, r := r, k := 0 } }, links := ok }) ∧
      ((s.guard.out = .rampUp ∨ s.guard.out = .on) →
        exec (.enable .gl ps) s = .next (onlyAnswered s .gl .ok [])) ∧
      (s.guard.out = .rampDown → exec (.enable .gl ps) s = .next (onlyAnswered s .gl .busy [])) ∧
      (s.guard.out = .tripped → exec (.enable .gl ps) s = .next (onlyAnswered s .gl .tripped [])) ∧
      ((s.guard.out = .off ∨ s.guard.out = .tripped) →
        exec (.safe .gl ps) s = .next (onlyAnswered s .gl .ok [])) ∧
      ((s.guard.out = .rampUp ∨ s.guard.out = .on ∨ s.guard.out = .rampDown) → r = 0 →
        exec (.safe .gl ps) s = .next { s with
          guard := { s.guard with out := .off, g := 0, ramp := none }, links := ok }) ∧
      ((s.guard.out = .rampUp ∨ s.guard.out = .on ∨ s.guard.out = .rampDown) → r ≠ 0 →
        exec (.safe .gl ps) s = .next { s with
          guard := { s.guard with out := .rampDown, ramp := some { g0 := s.guard.g, r := r, k := 0 } }, links := ok }))

/-- A guard ramp makes one step at each tick without a trip: up, G takes round(32,768 × k / R) and its last step makes the
output ON; down, G0 - round(G0 × k / R) and its last step makes it OFF. A tick with a last step is the row GUARD_RAMP_END
(R113). -/
def Obligations.GuardRampSteps : Prop :=
  ∀ (x : Bool) (s : State) (rp : GuardRamp), PlainTick s → NoTrip s → s.guard.ramp = some rp →
    (s.guard.out = .rampUp ∨ s.guard.out = .rampDown) →
    ∃ t, exec (.sampleTick x) s = .next t ∧
      (rp.k + 1 ≠ rp.r → exec (.guardRampEnd x) s = .next s ∧ t.guard.out = s.guard.out ∧
        t.guard.ramp = some { rp with k := rp.k + 1 } ∧
        (s.guard.out = .rampUp → t.guard.g = roundNat (32768 * (rp.k + 1)) rp.r) ∧
        (s.guard.out = .rampDown → t.guard.g = rp.g0 - roundNat (rp.g0 * (rp.k + 1)) rp.r)) ∧
      (rp.k + 1 = rp.r → exec (.guardRampEnd x) s = .next t ∧ t.guard.ramp = none ∧
        (s.guard.out = .rampUp → t.guard.out = .on ∧ t.guard.g = 32768) ∧
        (s.guard.out = .rampDown → t.guard.out = .off ∧ t.guard.g = 0))

/-- SET_LIMITS: any length but 4 is refused LENGTH, lo above 0 or hi below 0 is refused BAD_VALUE, any other pair becomes the
pending limits in place of any pair pending. At the next tick they come into force, for that tick's samples: the row
PENDING_LIMITS_IN_FORCE (R116). -/
def Obligations.LimitsWaitForTheTick : Prop :=
  (∀ (ps : List Byte) (s : State), Ready .gl s → ps.length ≤ 200 →
    (ps.length ≠ 4 → exec (.setLimits .gl ps) s = .next (onlyAnswered s .gl .length [])) ∧
    (ps.length = 4 → (0 < signedAt ps 0 ∨ signedAt ps 2 < 0) →
      exec (.setLimits .gl ps) s = .next (onlyAnswered s .gl .badValue [])) ∧
    (ps.length = 4 → signedAt ps 0 ≤ 0 → 0 ≤ signedAt ps 2 → exec (.setLimits .gl ps) s = .next { s with
      guard := { s.guard with pendingLimits := some (signedAt ps 0, signedAt ps 2) },
      links := answeredOn s .gl .ok [] })) ∧
  ∀ (x : Bool) (s : State), PlainTick s →
    (∀ lo hi, s.guard.pendingLimits = some (lo, hi) → ∃ t, exec (.pendingLimitsInForce x) s = .next t ∧
      exec (.sampleTick x) s = .next t ∧ t.guard.lo = lo ∧ t.guard.hi = hi ∧ t.guard.pendingLimits = none) ∧
    (s.guard.pendingLimits = none → exec (.pendingLimitsInForce x) s = .next s ∧
      ∃ t, exec (.sampleTick x) s = .next t ∧ t.guard.lo = s.guard.lo ∧ t.guard.hi = s.guard.hi)

/-- CLEAR_FLAGS clears the clamp flag of each masked phase and refuses a mask above 7; HOLD asserts the hold flag; RELEASE
clears it but in TRIPPED is refused TRIPPED; CLEAR_TRIP in TRIPPED leaves the output OFF with G 0, the trip record cleared, every
peak and RMS count and the missing run 0, a CLEAR_TRIP entry waiting for the trace and the hold flag as it was, and in the other
states changes nothing; nothing else changes (R117, R118, R119, R127). -/
def Obligations.FlagsHoldAndTripCleared : Prop :=
  ∀ (ps : List Byte) (s : State), Ready .gl s → ps.length ≤ 200 →
    (ps.length ≠ 1 → exec (.clearFlags .gl ps) s = .next (onlyAnswered s .gl .length [])) ∧
    (ps.length = 1 → 7 < byteAt ps 0 → exec (.clearFlags .gl ps) s = .next (onlyAnswered s .gl .badValue [])) ∧
    (ps.length = 1 → byteAt ps 0 ≤ 7 →
      ∃ ph, exec (.clearFlags .gl ps) s = .next { s with ph := ph, links := answeredOn s .gl .ok [] } ∧
        ∀ p : PhaseId, ph.get p =
          if (byteAt ps 0).testBit p.number then { s.ph.get p with clamp := false } else s.ph.get p) ∧
    (ps.length ≠ 0 → exec (.hold .gl ps) s = .next (onlyAnswered s .gl .length []) ∧
      exec (.release .gl ps) s = .next (onlyAnswered s .gl .length [])) ∧
    (ps.length = 0 → exec (.hold .gl ps) s =
      .next { s with guard := { s.guard with hold := true }, links := answeredOn s .gl .ok [] }) ∧
    (ps.length = 0 → s.guard.out = .tripped → exec (.release .gl ps) s = .next (onlyAnswered s .gl .tripped [])) ∧
    (ps.length = 0 → s.guard.out ≠ .tripped → exec (.release .gl ps) s =
      .next { s with guard := { s.guard with hold := false }, links := answeredOn s .gl .ok [] }) ∧
    (ps.length ≠ 0 → exec (.clearTrip .gl ps) s = .next (onlyAnswered s .gl .length [])) ∧
    (ps.length = 0 → s.guard.out ≠ .tripped → exec (.clearTrip .gl ps) s = .next (onlyAnswered s .gl .ok [])) ∧
    (ps.length = 0 → s.guard.out = .tripped → exec (.clearTrip .gl ps) s = .next { s with
      guard := { s.guard with
        out := .off, g := 0, tripCause := .none, tripChannel := 0, tripStamp := zeroPosition,
        peak := eightOf 0, rms := eightOf 0, missingRun := 0 },
      trace := { s.trace with deferred := s.trace.deferred ++ [{ type := .clearTrip, index := 0 }] },
      links := answeredOn s .gl .ok [] })

/-- SET_WATCH takes its five settings, Ipk and Irms no higher than 32,767 and Kp and Kr no lower than 1, CLAMPED if one is so
adjusted; the peak and RMS counts become 0 and the missing run stays; S is raised to the highest watched channel where it
stands below it, with SCAN_CHANGED on the Monitor Link (R120). -/
def Obligations.SetWatchTakesTheSettings : Prop :=
  ∀ (ps : List Byte) (s : State), Ready .gl s → ps.length ≤ 200 →
    (ps.length ≠ 7 → exec (.setWatch .gl ps) s = .next (onlyAnswered s .gl .length [])) ∧
    (ps.length = 7 →
      let watch : Byte := ps.getD 0 0
      let ipk := wordAt ps 1
      let kp := byteAt ps 3
      let irms := wordAt ps 4
      let kr := byteAt ps 6
      let st : Status := if 32767 < ipk ∨ kp = 0 ∨ 32767 < irms ∨ kr = 0 then .clamped else .ok
      ∃ stop links, exec (.setWatch .gl ps) s = .next { s with
          guard := { s.guard with
            watch := watch, ipk := min ipk 32767, kp := max kp 1, irms := min irms 32767, kr := max kr 1,
            peak := eightOf 0, rms := eightOf 0 },
          scan := { s.scan with stop := stop }, links := links } ∧
        (∀ h, h ≤ 7 → channelIn watch h = true → (∀ i, h < i → i ≤ 7 → channelIn watch i = false) →
          stop = max s.scan.stop h) ∧
        (watch = 0 → stop = s.scan.stop) ∧
        (stop = s.scan.stop → links = answeredOn s .gl st []) ∧
        (s.scan.stop < stop → links =
          { answeredOn s .gl st [] with ml := { s.links.ml with notices := s.links.ml.notices ||| 0x20 } }))

/-- A trip at a plain tick: TRIPPED with G 0 and no ramp, the hold flag asserted, the trip record made of the cause, the channel
and the tick's position, three codes of 0 in the tick's frame, TRIPPED raised on the Program Link and the Guard Link, limits
and watch settings kept but for pending limits that come into force, and, with room in the trace and nothing else to put in
it, the TRIP entry at its tail. The row TRIP is that tick (R64, R124, R126, R157). -/
def Obligations.TripCutsTheOutput : Prop :=
  ∀ (x : Bool) (s : State) (cause : TripCause) (channel : Nat), PlainTick s →
    s.guard.tripAt s.scan s.tb.wraps (comingPosition s) = some (cause, channel) →
    ∃ t, exec (.trip x) s = .next t ∧ exec (.sampleTick x) s = .next t ∧
      t.guard.out = .tripped ∧ t.guard.tripOut = true ∧ t.guard.g = 0 ∧ t.guard.ramp = none ∧ t.guard.hold = true ∧
      t.guard.tripCause = cause ∧ t.guard.tripChannel = channel ∧ t.guard.tripStamp = comingPosition s ∧
      t.frame = { a := 0, b := 0, c := 0 } ∧
      t.links.pl.notices.getLsbD 3 = true ∧ t.links.gl.notices.getLsbD 0 = true ∧
      (s.guard.pendingLimits = none → t.guard.lo = s.guard.lo ∧ t.guard.hi = s.guard.hi) ∧
      (∀ lo hi, s.guard.pendingLimits = some (lo, hi) → t.guard.lo = lo ∧ t.guard.hi = hi) ∧
      t.guard.watch = s.guard.watch ∧ t.guard.ipk = s.guard.ipk ∧ t.guard.kp = s.guard.kp ∧
      t.guard.irms = s.guard.irms ∧ t.guard.kr = s.guard.kr ∧
      (s.run.state = .idle → s.run.applyNow = none → s.trace.deferred = [] → s.trace.made = [] →
        s.trace.fifo.length < 64 →
        t.trace.fifo = s.trace.fifo ++ [eventEntry s .trip 0 (.tripped cause channel)])

/-- When a trip comes about, and when none does. PEAK: a watched channel's conversion above Ipk in magnitude that brings its peak
count to Kp. MEASURE_LOST: a missing conversion that brings the missing run to 32 with a channel watched. RMS: at a boundary
whose conversion makes no trip of its own, a watched channel whose RMS count stands at Kr or above after its record, closed
with that conversion folded in; of several the lowest. A conversion's trip goes before an RMS one. While TRIPPED, with no channel
watched, or with no condition met, none (R121, R122, R123, R125, R138, R139). -/
def Obligations.TripConditions : Prop :=
  ∀ (s : State) (boundary : Bool) (pos : Position),
    let trip := s.guard.tripAt s.scan boundary pos
    (s.guard.out = .tripped → trip = none) ∧
    (s.guard.watch = 0 → trip = none) ∧
    (∀ cmd v, s.guard.out ≠ .tripped → s.scan.outstanding = some cmd → s.scan.result = some v →
      channelIn s.guard.watch cmd.channel = true → s.guard.ipk < v.natAbs →
      s.guard.kp ≤ min (s.guard.peak.get cmd.channel + 1) 255 → trip = some (.peak, cmd.channel)) ∧
    (∀ cmd, s.guard.out ≠ .tripped → s.scan.outstanding = some cmd → s.scan.result = none → s.guard.watch ≠ 0 →
      31 ≤ s.guard.missingRun → trip = some (.measureLost, cmd.channel)) ∧
    ((∀ cmd, s.scan.outstanding = some cmd → cmd.channel ≤ 7) → s.guard.out ≠ .tripped →
      ¬ ConversionTrips s.guard s.scan →
      (∀ i, boundary = true → i ≤ 7 → channelIn s.guard.watch i = true → s.guard.kr ≤ rmsCounted s.guard s.scan i →
        (∀ j, j < i → channelIn s.guard.watch j = true → rmsCounted s.guard s.scan j < s.guard.kr) →
        trip = some (.rms, i)) ∧
      ((boundary = false ∨
          ∀ i, i ≤ 7 → channelIn s.guard.watch i = true → rmsCounted s.guard s.scan i < s.guard.kr) → trip = none))

/-! ## Measurement Scanner -/

/-- SET_SCAN makes R135's checks in order; accepted, S is raised to the highest watched channel where it is below it, the gain
of each watched channel is kept and that of every other taken, CLAMPED if a value was so adjusted; nothing else changes
(R135, R136). -/
def Obligations.SetScanKeepsTheWatch : Prop :=
  ∀ (ps : List Byte) (s : State), Ready .ml s → ps.length ≤ 200 →
    let valueOk := byteAt ps 0 ≤ 7 ∧ ∀ i, i ≤ 7 → byteAt ps (i + 1) ≤ 3
    (ps.length ≠ 9 → exec (.setScan .ml ps) s = .next (onlyAnswered s .ml .length [])) ∧
    (ps.length = 9 → ¬ valueOk → exec (.setScan .ml ps) s = .next (onlyAnswered s .ml .badValue [])) ∧
    (ps.length = 9 → valueOk →
      ∃ stop channels st, exec (.setScan .ml ps) s = .next { s with
          scan := { s.scan with stop := stop, channels := channels }, links := answeredOn s .ml st [] } ∧
        (∀ h, h ≤ 7 → channelIn s.guard.watch h = true → (∀ i, h < i → i ≤ 7 → channelIn s.guard.watch i = false) →
          stop = max (byteAt ps 0) h) ∧
        (s.guard.watch = 0 → stop = byteAt ps 0) ∧
        (∀ i, i ≤ 7 → channels.get i = { s.scan.channels.get i with
          gain := if channelIn s.guard.watch i then (s.scan.channels.get i).gain else byteAt ps (i + 1) }) ∧
        ((stop = byteAt ps 0 ∧
            ∀ i, i ≤ 7 → channelIn s.guard.watch i = true → byteAt ps (i + 1) = (s.scan.channels.get i).gain) →
          st = .ok) ∧
        ((stop ≠ byteAt ps 0 ∨
            ∃ i, i ≤ 7 ∧ channelIn s.guard.watch i = true ∧ byteAt ps (i + 1) ≠ (s.scan.channels.get i).gain) →
          st = .clamped))

/-- ADC_RESULT gives the outstanding command its conversion, the 16 bits read as signed; a result with no command outstanding
is not read, a second one for a command is not taken, and a late one, for a command whose next tick has begun or that a reset
has abandoned, is not read and does not count for the command that follows (R132, R143; the second one: log 10; how a command
row says which it is: log 30). At a working tick the conversion of
the tick before is handed over, folded into its channel's accumulator and kept as the latest, or marks its channel missing; at
a boundary every accumulator is closed into its record for the cycle that ends and starts again from 0; then the next channel
is commanded, with its gain, at the tick's position (R131, R133, R138, R139). The guard's peak counts, its RMS counts at a boundary
and its missing run, in every output state, move as the hand-over and the records have it, and OVERCURRENT and MISSING count them
(R121, R122, R123, R133). -/
def Obligations.ConversionsAreReadAndHandedOver : Prop :=
  (∀ (v : Word16) (s : State),
     (s.scan.outstanding ≠ none → s.scan.result = none →
       exec (.adcResult ⟨.latest, v⟩) s = .next { s with scan := { s.scan with result := some v.toInt } }) ∧
     ((s.scan.outstanding = none ∨ s.scan.result ≠ none) → exec (.adcResult ⟨.latest, v⟩) s = .next s) ∧
     exec (.adcResult ⟨.ended, v⟩) s = .next s) ∧
  (∀ (x : Bool) (s : State), PlainTick s →
     ∃ t, exec (.sampleTick x) s = .next t ∧
       let due := if s.scan.ptr ≤ s.scan.stop then s.scan.ptr else 0
       t.scan.outstanding =
         some { channel := due, gain := (s.scan.channels.get due).gain, stamp := comingPosition s } ∧
       t.scan.result = none ∧ t.scan.ptr = (if due < s.scan.stop then due + 1 else 0) ∧ t.scan.stop = s.scan.stop ∧
       t.guard.missingRun = missingCounted s.guard s.scan ∧
       (OverHandedOver s.guard s.scan → t.cnt.live.overcurrent = min ((countedFrom s).overcurrent + 1) 65535) ∧
       (¬ OverHandedOver s.guard s.scan → t.cnt.live.overcurrent = (countedFrom s).overcurrent) ∧
       (MissingHandedOver s.scan → t.cnt.live.missing = min ((countedFrom s).missing + 1) 65535) ∧
       (¬ MissingHandedOver s.scan → t.cnt.live.missing = (countedFrom s).missing) ∧
       ∀ i, i ≤ 7 →
         let before := s.scan.channels.get i
         let handed : Channel := match s.scan.outstanding, s.scan.result with
           | some cmd, some v =>
             if cmd.channel = i then
               { before with
                 acc := { sum := before.acc.sum + v.natAbs * v.natAbs, count := before.acc.count + 1,
                          peak := max before.acc.peak v.natAbs }
                 latest := some { value := v, stamp := cmd.stamp }, missing := false }
             else before
           | some cmd, none => if cmd.channel = i then { before with missing := true } else before
           | none, _ => before
         (∀ cmd, s.scan.outstanding = some cmd → cmd.channel ≤ 7) →
         t.guard.peak.get i = peakCounted s.guard s.scan i ∧
         t.guard.rms.get i = (if s.tb.wraps = true ∧ channelIn s.guard.watch i = true then rmsCounted s.guard s.scan i
                              else s.guard.rms.get i) ∧
         (s.tb.wraps = false → t.scan.channels.get i = handed) ∧
         (s.tb.wraps = true → t.scan.channels.get i = { handed with
           acc := { sum := 0, count := 0, peak := 0 }
           cycleRec := { cycle := (comingPosition s).c - 1
                         data := if handed.acc.count = 0 then none
                                 else some { rms := floorSqrt (handed.acc.sum / handed.acc.count),
                                             peak := handed.acc.peak, count := handed.acc.count } } }))

/-! ## Capture Buffer and Event Trace -/

/-- ARM_CAPTURE makes R146's checks in order; accepted, the arm settings take the carried values, count, loss and stamp start
anew, the state is ARMED and the FIFO is kept. TRIGGER starts a capture ARMED on REQUEST and changes nothing else;
DISARM_CAPTURE leaves DISARMED with the FIFO kept; FLUSH_CAPTURE empties the FIFO and keeps the rest (R146, R151, R152,
R153). -/
def Obligations.CaptureIsArmedAndStopped : Prop :=
  ∀ (ps : List Byte) (s : State), Ready .ml s → ps.length ≤ 200 →
    let ok := answeredOn s .ml .ok []
    let valueOk := byteAt ps 0 ≤ 4 ∧ byteAt ps 1 ≤ 1 ∧ byteAt ps 5 ≤ 1 ∧ 1 ≤ wordAt ps 6 ∧ wordAt ps 6 ≤ 1024 ∧
      ¬ (byteAt ps 4 = 0 ∧ byteAt ps 5 = 0)
    let free := s.cap.state = .disarmed ∨ s.cap.state = .complete
    (ps.length ≠ 8 → exec (.armCapture .ml ps) s = .next (onlyAnswered s .ml .length [])) ∧
    (ps.length = 8 → ¬ valueOk → exec (.armCapture .ml ps) s = .next (onlyAnswered s .ml .badValue [])) ∧
    (ps.length = 8 → valueOk → ¬ free → exec (.armCapture .ml ps) s = .next (onlyAnswered s .ml .busy [])) ∧
    (ps.length = 8 → valueOk → free → exec (.armCapture .ml ps) s = .next { s with
      cap := { s.cap with
        state := .armed, count := 0, loss := false, stamp := none
        arm := some { source := sourceOf (byteAt ps 0), filterMatch := decide (byteAt ps 1 = 1),
                      filterValue := wordAt ps 2, mask := ps.getD 4 0, cycleFlag := decide (byteAt ps 5 = 1),
                      window := wordAt ps 6 } }
      links := ok }) ∧
    (ps.length ≠ 0 → exec (.trigger .ml ps) s = .next (onlyAnswered s .ml .length []) ∧
      exec (.disarmCapture .ml ps) s = .next (onlyAnswered s .ml .length []) ∧
      exec (.flushCapture .ml ps) s = .next (onlyAnswered s .ml .length [])) ∧
    (ps.length = 0 →
      ((∃ a, s.cap.state = .armed ∧ s.cap.arm = some a ∧ a.source = .request) →
        exec (.trigger .ml ps) s = .next { s with cap := { s.cap with state := .capturing }, links := ok }) ∧
      ((¬ ∃ a, s.cap.state = .armed ∧ s.cap.arm = some a ∧ a.source = .request) →
        exec (.trigger .ml ps) s = .next (onlyAnswered s .ml .ok [])) ∧
      exec (.disarmCapture .ml ps) s = .next { s with
        cap := { s.cap with state := .disarmed, arm := none, count := 0, loss := false, stamp := none }, links := ok } ∧
      exec (.flushCapture .ml ps) s = .next { s with cap := { s.cap with fifo := [] }, links := ok })

/-- READ_CAPTURE and READ_TRACE remove the oldest min(n, occupancy) entries and return them, oldest first, behind what stands
after the removal: the capture's state, the entries left, count, window, loss and stamp; the number of trace entries left.
An n of 0 or above 24, or above 8, is refused BAD_VALUE; nothing else changes (R154, R159). The bytes of a capture entry and of a
trace entry are written out field by field (R181; the bits it does not name: log 27; a fault's detail: log 28). -/
def Obligations.ReadsRemoveTheOldestEntries : Prop :=
  Encodings ∧
  ∀ (ps : List Byte) (s : State), Ready .ml s → ps.length ≤ 200 →
    let n := byteAt ps 0
    (ps.length ≠ 1 → exec (.readCapture .ml ps) s = .next (onlyAnswered s .ml .length []) ∧
      exec (.readTrace .ml ps) s = .next (onlyAnswered s .ml .length [])) ∧
    (ps.length = 1 →
      ((n = 0 ∨ 24 < n) → exec (.readCapture .ml ps) s = .next (onlyAnswered s .ml .badValue [])) ∧
      ((n = 0 ∨ 8 < n) → exec (.readTrace .ml ps) s = .next (onlyAnswered s .ml .badValue [])) ∧
      (1 ≤ n → n ≤ 24 → exec (.readCapture .ml ps) s = .next { s with
        cap := { s.cap with fifo := s.cap.fifo.drop n }
        links := answeredOn s .ml .ok
          ([BitVec.ofNat 8 s.cap.state.code] ++ leBytes 2 (s.cap.fifo.length - n) ++ leBytes 2 s.cap.count ++
           leBytes 2 (match s.cap.arm with | none => 0 | some a => a.window) ++ [flagByte s.cap.loss] ++
           (match s.cap.stamp with
             | none => [0, 0, 0, 0]
             | some p => leBytes 2 (p.c.toNat % 65536) ++ leBytes 2 p.ang.toNat) ++
           (s.cap.fifo.take n).flatMap captureEntryData) }) ∧
      (1 ≤ n → n ≤ 8 → exec (.readTrace .ml ps) s = .next { s with
        trace := { s.trace with fifo := s.trace.fifo.drop n }
        links := answeredOn s .ml .ok
          ([BitVec.ofNat 8 (s.trace.fifo.length - n)] ++ (s.trace.fifo.take n).flatMap traceEntryData) }))

/-- What a tick does to a capture. ARMED on EXTERNAL, TRIP or CYCLE, it is triggered by a rising edge of TRIG_IN, by a trip, by a
cycle boundary, and its trigger stamp takes the tick's position; a capture that TRIGGER has set CAPTURING takes its stamp at its
first tick. From its trigger tick on it takes the selected conversion handed over and then, at a boundary, the records with data in
channel order, until the count reaches W, part way through them if need be: each entry is put at the tail of the FIFO, or dropped
and counted when the FIFO holds 1,024, and counts toward W either way; the first drop of a window raises CAPTURE_LOSS, the rise
through 512 CAPTURE_HALF; at W the capture is COMPLETE, CAPTURE_DONE is raised, and that tick is the row CAPTURE_DONE. In every
other case only the TRIG_IN level moves (R139, R145, R147, R148, R149, R150, R151). -/
def Obligations.CaptureTakesAConversion : Prop :=
  (∀ (x : Bool) (s : State), PlainTick s →
     (s.cap.state = .disarmed ∨ s.cap.state = .complete ∨ (s.cap.state = .armed ∧
       ∀ a, s.cap.arm = some a → ¬ TriggeredAt a x s ∧ (a.source = .mark → NothingApplied s))) →
     ∃ t, exec (.sampleTick x) s = .next t ∧ t.cap = { s.cap with trigLevel := x } ∧
       t.cnt.live.captureLost = (countedFrom s).captureLost ∧ exec (.captureDone x) s = .next s) ∧
  (∀ (x : Bool) (s : State) (a : ArmSettings), PlainTick s → s.cap.arm = some a →
     (s.cap.state = .capturing ∨ (s.cap.state = .armed ∧ TriggeredAt a x s)) → s.cap.count < a.window →
     (∀ cmd, s.scan.outstanding = some cmd → cmd.channel ≤ 7) →
     let made := (selectedEntries a s).take (a.window - s.cap.count)
     let room := 1024 - s.cap.fifo.length
     ∃ t, exec (.sampleTick x) s = .next t ∧ t.cap.arm = some a ∧ t.cap.trigLevel = x ∧
       (s.cap.state = .armed → t.cap.stamp = some (comingPosition s)) ∧
       (s.cap.state = .capturing → s.cap.stamp = none → t.cap.stamp = some (comingPosition s)) ∧
       (s.cap.state = .capturing → s.cap.stamp ≠ none → t.cap.stamp = s.cap.stamp) ∧
       t.cap.count = s.cap.count + made.length ∧ t.cap.fifo = s.cap.fifo ++ made.take room ∧
       (made.length ≤ room → t.cap.loss = s.cap.loss ∧ t.cnt.live.captureLost = (countedFrom s).captureLost) ∧
       (room < made.length → t.cap.loss = true ∧
         t.cnt.live.captureLost = min ((countedFrom s).captureLost + (made.length - room)) 65535 ∧
         (s.cap.loss = false → t.links.ml.notices.getLsbD 2 = true)) ∧
       (s.cap.fifo.length < 512 → 512 ≤ s.cap.fifo.length + made.length → t.links.ml.notices.getLsbD 0 = true) ∧
       (s.cap.count + made.length = a.window → exec (.captureDone x) s = .next t ∧ t.cap.state = .complete ∧
         t.links.ml.notices.getLsbD 1 = true) ∧
       (s.cap.count + made.length ≠ a.window → exec (.captureDone x) s = .next s ∧ t.cap.state = .capturing))

/-- The entries formed when START, STOP or CLEAR_TRIP was taken are put into the trace at the next tick, with its position, in
the order taken; that tick is the row DEFERRED_TRACE_ENTRY. Those that find 64 entries there are dropped and counted in TRACE_LOST,
and TRACE_HALF is raised by the rise from 31 to 32 entries and not otherwise. Said for a tick at which no record or APPLY_NOW is
applied, no trip comes about and no hold is taken or released, whatever the runner's state (R157, R158). -/
def Obligations.DeferredEntriesEnterTheTrace : Prop :=
  ∀ (x : Bool) (s : State), NothingApplied s → NoTrip s → s.trace.made = [] →
    (s.run.state = .running → s.tb.wraps = true → s.guard.hold = false) → (s.run.state = .held → s.guard.hold = true) →
    let formed := s.trace.deferred.map (fun d => eventEntry s d.type d.index .nothing)
    let room := 64 - s.trace.fifo.length
    ∃ t, exec (.sampleTick x) s = .next t ∧ t.trace.deferred = [] ∧ t.trace.made = [] ∧
      t.trace.fifo = s.trace.fifo ++ formed.take room ∧
      (formed.length ≤ room → t.cnt.live.traceLost = (countedFrom s).traceLost) ∧
      (room < formed.length →
        t.cnt.live.traceLost = min ((countedFrom s).traceLost + (formed.length - room)) 65535) ∧
      t.links.ml.notices.getLsbD 3 = (s.links.ml.notices.getLsbD 3 ||
        decide (s.trace.fifo.length < 32 ∧ 32 ≤ s.trace.fifo.length + formed.length)) ∧
      (s.trace.deferred ≠ [] → exec (.deferredTraceEntry x) s = .next t) ∧
      (s.trace.deferred = [] → exec (.deferredTraceEntry x) s = .next s)

/-! ## Counter Bank -/

/-- SNAPSHOT makes the request pending; SET_AUTO_SNAPSHOT stores K and sets the boundary count to 0; READ_SNAPSHOT returns the
snapshot set with its sequence and stamp, K, the boundary count and the pending flag, and changes nothing (R164, R165, R166). A
snapshot is taken at a tick with a request pending, the row SNAPSHOT_TAKEN, and at a boundary that brings the boundary count to
K, the row AUTO_SNAPSHOT: the snapshot set takes the live counts of the ticks before, the sequence and the stamp move on, the
request is absent, SNAPSHOT_READY is raised, and the tick's own counts start from 0. Otherwise the snapshot set stays (R163,
R165). -/
def Obligations.SnapshotsRequestedAndTaken : Prop :=
  (∀ (ps : List Byte) (s : State), Ready .ml s → ps.length ≤ 200 →
     let ok := answeredOn s .ml .ok []
     (ps.length ≠ 0 → exec (.snapshot .ml ps) s = .next (onlyAnswered s .ml .length []) ∧
       exec (.readSnapshot .ml ps) s = .next (onlyAnswered s .ml .length [])) ∧
     (ps.length ≠ 2 → exec (.setAutoSnapshot .ml ps) s = .next (onlyAnswered s .ml .length [])) ∧
     (ps.length = 0 → exec (.snapshot .ml ps) s = .next { s with cnt := { s.cnt with request := true }, links := ok } ∧
       exec (.readSnapshot .ml ps) s = .next (onlyAnswered s .ml .ok
         (leBytes 2 s.cnt.seq.toNat ++ leBytes 4 s.cnt.stamp.c.toNat ++ leBytes 2 s.cnt.stamp.ang.toNat ++
          leBytes 2 s.cnt.snap.clampA ++ leBytes 2 s.cnt.snap.clampB ++ leBytes 2 s.cnt.snap.clampC ++
          leBytes 2 s.cnt.snap.applied ++ leBytes 2 s.cnt.snap.late ++ leBytes 2 s.cnt.snap.overcurrent ++
          leBytes 2 s.cnt.snap.missing ++ leBytes 2 s.cnt.snap.captureLost ++ leBytes 2 s.cnt.snap.traceLost ++
          leBytes 2 s.cnt.interval ++ leBytes 2 s.cnt.boundary ++ [if s.cnt.request then 1 else 0]))) ∧
     (ps.length = 2 → exec (.setAutoSnapshot .ml ps) s =
       .next { s with cnt := { s.cnt with interval := wordAt ps 0, boundary := 0 }, links := ok })) ∧
  (∀ (x : Bool) (s : State), PlainTick s →
     ∃ t, exec (.sampleTick x) s = .next t ∧
       let auto := s.tb.wraps = true ∧ s.cnt.interval ≠ 0 ∧ s.cnt.boundary + 1 = s.cnt.interval
       ((s.cnt.request = true ∨ auto) →
         t.cnt.snap = s.cnt.live ∧ t.cnt.seq = s.cnt.seq + 1 ∧ t.cnt.stamp = comingPosition s ∧
         t.cnt.request = false ∧ t.links.ml.notices.getLsbD 4 = true ∧ t.cnt.live.overcurrent ≤ 1 ∧
         t.cnt.live.missing ≤ 1) ∧
       (s.cnt.request = false → ¬ auto →
         t.cnt.snap = s.cnt.snap ∧ t.cnt.seq = s.cnt.seq ∧ t.cnt.stamp = s.cnt.stamp) ∧
       t.cnt.boundary = (if auto then 0 else if s.tb.wraps = true ∧ s.cnt.interval ≠ 0 then s.cnt.boundary + 1
                         else s.cnt.boundary) ∧
       (s.cnt.request = true → exec (.snapshotTaken x) s = .next t) ∧
       (s.cnt.request = false → exec (.snapshotTaken x) s = .next s) ∧
       (auto → exec (.autoSnapshot x) s = .next t) ∧ (¬ auto → exec (.autoSnapshot x) s = .next s))

/-! ## Reports as of one tick -/

/-- The reports READ_TIMELINE, READ_PHASES, READ_RUN, READ_GUARD and READ_MEASURE are taken at once, and their data are formed
at the first tick after, from what that tick leaves: OK, the length, and 28, 69, 27, 44 or 178 bytes. READ_TIMELINE and
READ_PHASES are taken on every link, the others on their own. The data are written out field by field (R15, R107, R128, R141, R169,
R177, R181; the bits it does not name: log 27). -/
def Obligations.ReportsAreFormedAtTheTick : Prop :=
  Encodings ∧
  (∀ (l : Link) (s : State), Ready l s →
    let taken := fun r => withLink s l (answeredLink (s.links.get l) (.atTick r))
    exec (.readTimeline l []) s = .next (taken .timeline) ∧ exec (.readPhases l []) s = .next (taken .phases) ∧
    (l = .pl → exec (.readRun l []) s = .next (taken .run)) ∧
    (l = .gl → exec (.readGuard l []) s = .next (taken .guard)) ∧
    (l = .ml → exec (.readMeasure l []) s = .next (taken .measure)) ∧
    ∀ ps : List Byte, ps.length ≤ 200 → ps.length ≠ 0 →
      exec (.readTimeline l ps) s = .next (onlyAnswered s l .length []) ∧
      exec (.readPhases l ps) s = .next (onlyAnswered s l .length []) ∧
      (l = .pl → exec (.readRun l ps) s = .next (onlyAnswered s l .length [])) ∧
      (l = .gl → exec (.readGuard l ps) s = .next (onlyAnswered s l .length [])) ∧
      (l = .ml → exec (.readMeasure l ps) s = .next (onlyAnswered s l .length []))) ∧
  ∀ (x : Bool) (l : Link) (r : AsOf) (s : State), PlainTick s → (s.links.get l).tx = .waiting →
    (s.links.get l).resp = some (.atTick r) →
    ∃ t data, exec (.sampleTick x) s = .next t ∧ (t.links.get l).tx = .responding ∧ (t.links.get l).resp = none ∧
      (t.links.get l).out = 0x00 :: BitVec.ofNat 8 data.length :: data ∧
      (r = .timeline → data.length = 28 ∧ data = timelineData t.tb) ∧
      (r = .phases → data.length = 69 ∧ data = phaseData t.ph.a ++ phaseData t.ph.b ++ phaseData t.ph.c) ∧
      (r = .run → data.length = 27 ∧ data = runData t.run t.guard.hold) ∧
      (r = .guard → data.length = 44 ∧ data = guardData t.guard t.ph) ∧
      (r = .measure → data.length = 178 ∧ data = measureData t.scan)

/-! ## Invariants of every step -/

/-- The state after reset meets every invariant below. -/
def Obligations.ResetMeetsEveryInvariant : Prop :=
  StoresOk State.reset ∧ TimebaseOk State.reset.tb ∧ State.reset.lfsr ≠ 0 ∧ LevelsOk State.reset ∧
  ShapesMapped State.reset ∧ GuardOk State.reset.guard ∧ ScanOk State.reset ∧ EvidenceOk State.reset ∧
  WalkOk State.reset.run

/-- Every step keeps the four stores in canonical form and within their sizes (R18, R20, R32, R70). -/
def Obligations.StepKeepsTheStores : Prop :=
  ∀ s t : State, StoresOk s → step s = .next t → StoresOk t

/-- Every step keeps F within 40,000..70,000 mHz with I = round(F × 2^32 / 25,600,000), and the noise register off 0 (R5, R9,
R42). -/
def Obligations.StepKeepsTimebaseAndNoise : Prop :=
  (∀ s t : State, TimebaseOk s.tb → step s = .next t → TimebaseOk t.tb) ∧
  (∀ s t : State, s.lfsr ≠ 0 → step s = .next t → t.lfsr ≠ 0)

/-- Every step keeps each level within 0..65,535 with A = round(L × P / 32,768), and every Phase Context on a FIXED or MAPPED
entry (R26, R30, R47). -/
def Obligations.StepKeepsLevelsAndShapes : Prop :=
  (∀ s t : State, LevelsOk s → step s = .next t → LevelsOk t) ∧
  (∀ s t : State, ShapesMapped s → step s = .next t → ShapesMapped t)

/-- Every step keeps G fitted to the output state, lo ≤ 0 ≤ hi, the hold flag asserted while TRIPPED, the watch settings and
counts in range, and the stop channel at or above the highest watched channel (R111, R112, R116, R118, R136). -/
def Obligations.StepKeepsGuardAndScan : Prop :=
  (∀ s t : State, GuardOk s.guard → step s = .next t → GuardOk t.guard) ∧
  (∀ s t : State, ScanOk s → step s = .next t → ScanOk t)

/-- Every step keeps the capture FIFO within 1,024 entries, the trace within 64, and every counter within 0..65,535 (R144, R156,
R161, R162). -/
def Obligations.StepKeepsTheEvidenceBounds : Prop :=
  ∀ s t : State, EvidenceOk s → step s = .next t → EvidenceOk t

/-- Every step keeps the two sides of the walk in agreement: from the committed pointer, loop stack and chain base, the queued
entries lead exactly to the fetch side; at most 4 entries, none outside RUNNING, loop stacks of at most 4 frames, empty in
IDLE (R75, R78, R79, R87 to R92, R97, R101). -/
def Obligations.StepKeepsTheWalk : Prop :=
  ∀ s t : State, WalkOk s.run → step s = .next t → WalkOk t.run
end

