-- ==== Sys2Proof/Laws/State.lean ====
section
/-! SUPPORT. One lemma per field per update, so that no proof unfolds a record update. -/

namespace Sys2Proof.Machine

/-! ## Links -/

@[simp] theorem Links.get_set (ls : Links) (l : Link) (x : LinkState) : (ls.set l x).get l = x := by cases l <;> rfl

theorem Links.get_set_ne (ls : Links) (l l' : Link) (x : LinkState) (h : l' ≠ l) : (ls.set l x).get l' = ls.get l' := by
  cases l <;> cases l' <;> first | rfl | exact absurd rfl h

@[simp] theorem Links.set_set (ls : Links) (l : Link) (x y : LinkState) : (ls.set l x).set l y = ls.set l y := by
  cases l <;> rfl

@[simp] theorem Links.set_get (ls : Links) (l : Link) : ls.set l (ls.get l) = ls := by cases l <;> rfl

@[simp] theorem LinkState.raise_csLow (lk : LinkState) (l : Link) (n : Notice) : (lk.raise l n).csLow = lk.csLow := rfl
@[simp] theorem LinkState.raise_tx (lk : LinkState) (l : Link) (n : Notice) : (lk.raise l n).tx = lk.tx := rfl
@[simp] theorem LinkState.raise_rx (lk : LinkState) (l : Link) (n : Notice) : (lk.raise l n).rx = lk.rx := rfl
@[simp] theorem LinkState.raise_untaken (lk : LinkState) (l : Link) (n : Notice) : (lk.raise l n).untaken = lk.untaken := rfl
@[simp] theorem LinkState.raise_resp (lk : LinkState) (l : Link) (n : Notice) : (lk.raise l n).resp = lk.resp := rfl
@[simp] theorem LinkState.raise_out (lk : LinkState) (l : Link) (n : Notice) : (lk.raise l n).out = lk.out := rfl
@[simp] theorem LinkState.raise_sdo (lk : LinkState) (l : Link) (n : Notice) : (lk.raise l n).sdo = lk.sdo := rfl
@[simp] theorem LinkState.raise_softReset (lk : LinkState) (l : Link) (n : Notice) : (lk.raise l n).softReset = lk.softReset := rfl
@[simp] theorem LinkState.raise_enable (lk : LinkState) (l : Link) (n : Notice) : (lk.raise l n).enable = lk.enable := rfl
@[simp] theorem LinkState.raise_notices (lk : LinkState) (l : Link) (n : Notice) : (lk.raise l n).notices = lk.notices ||| noticeBit l n := rfl

/-- A notice raised on a link is that link with the notice's bit set. -/
@[simp] theorem Links.get_raise (ls : Links) (n : Notice) (l : Link) : (ls.raise n).get l = (ls.get l).raise l n := by
  cases l <;> rfl

/-- Raising a notice is idempotent. -/
@[simp] theorem LinkState.raise_raise (lk : LinkState) (l : Link) (n : Notice) :
    (lk.raise l n).raise l n = lk.raise l n := by
  simp [LinkState.raise, BitVec.or_assoc]

@[simp] theorem Links.raiseIf_false (ls : Links) (n : Notice) : ls.raiseIf false n = ls := rfl

@[simp] theorem Links.raiseIf_true (ls : Links) (n : Notice) : ls.raiseIf true n = ls.raise n := rfl

@[simp] theorem Links.raiseIf_csLow (ls : Links) (c : Bool) (n : Notice) (l : Link) :
    ((ls.raiseIf c n).get l).csLow = (ls.get l).csLow := by
  cases c <;> simp
@[simp] theorem Links.raiseIf_tx (ls : Links) (c : Bool) (n : Notice) (l : Link) :
    ((ls.raiseIf c n).get l).tx = (ls.get l).tx := by
  cases c <;> simp
@[simp] theorem Links.raiseIf_rx (ls : Links) (c : Bool) (n : Notice) (l : Link) :
    ((ls.raiseIf c n).get l).rx = (ls.get l).rx := by
  cases c <;> simp
@[simp] theorem Links.raiseIf_untaken (ls : Links) (c : Bool) (n : Notice) (l : Link) :
    ((ls.raiseIf c n).get l).untaken = (ls.get l).untaken := by
  cases c <;> simp
@[simp] theorem Links.raiseIf_resp (ls : Links) (c : Bool) (n : Notice) (l : Link) :
    ((ls.raiseIf c n).get l).resp = (ls.get l).resp := by
  cases c <;> simp
@[simp] theorem Links.raiseIf_out (ls : Links) (c : Bool) (n : Notice) (l : Link) :
    ((ls.raiseIf c n).get l).out = (ls.get l).out := by
  cases c <;> simp
@[simp] theorem Links.raiseIf_sdo (ls : Links) (c : Bool) (n : Notice) (l : Link) :
    ((ls.raiseIf c n).get l).sdo = (ls.get l).sdo := by
  cases c <;> simp
@[simp] theorem Links.raiseIf_softReset (ls : Links) (c : Bool) (n : Notice) (l : Link) :
    ((ls.raiseIf c n).get l).softReset = (ls.get l).softReset := by
  cases c <;> simp
@[simp] theorem Links.raiseIf_enable (ls : Links) (c : Bool) (n : Notice) (l : Link) :
    ((ls.raiseIf c n).get l).enable = (ls.get l).enable := by
  cases c <;> simp

/-! ## Phases -/

@[simp] theorem Phases.get_set (ph : Phases) (p : PhaseId) (x : Phase) : (ph.set p x).get p = x := by cases p <;> rfl

theorem Phases.get_set_ne (ph : Phases) (p p' : PhaseId) (x : Phase) (h : p' ≠ p) : (ph.set p x).get p' = ph.get p' := by
  cases p <;> cases p' <;> first | rfl | exact absurd rfl h

@[simp] theorem Phases.get_each (ph : Phases) (f : Phase → Phase) (p : PhaseId) : (ph.each f).get p = f (ph.get p) := by
  cases p <;> rfl

@[simp] theorem Phases.get_onMask (ph : Phases) (m : Mask) (f : Phase → Phase) (p : PhaseId) :
    (ph.onMask m f).get p = if Mask.names m p then f (ph.get p) else ph.get p := by
  cases p <;> rfl

@[simp] theorem Phase.setLevel_p (ph : Phase) (l : Nat) : (ph.setLevel l).p = ph.p := rfl
@[simp] theorem Phase.setLevel_ramp (ph : Phase) (l : Nat) : (ph.setLevel l).ramp = ph.ramp := rfl
@[simp] theorem Phase.setLevel_shape (ph : Phase) (l : Nat) : (ph.setLevel l).shape = ph.shape := rfl
@[simp] theorem Phase.setLevel_bank (ph : Phase) (l : Nat) : (ph.setLevel l).bank = ph.bank := rfl
@[simp] theorem Phase.setLevel_n (ph : Phase) (l : Nat) : (ph.setLevel l).n = ph.n := rfl
@[simp] theorem Phase.setLevel_held (ph : Phase) (l : Nat) : (ph.setLevel l).held = ph.held := rfl
@[simp] theorem Phase.setLevel_last (ph : Phase) (l : Nat) : (ph.setLevel l).last = ph.last := rfl
@[simp] theorem Phase.setLevel_clamp (ph : Phase) (l : Nat) : (ph.setLevel l).clamp = ph.clamp := rfl
@[simp] theorem Phase.setLevel_l (ph : Phase) (l : Nat) : (ph.setLevel l).l = l := rfl
@[simp] theorem Phase.setLevel_a (ph : Phase) (l : Nat) : (ph.setLevel l).a = amplitudeOf l ph.p := rfl
@[simp] theorem Phase.setPeak_l (ph : Phase) (p : Nat) : (ph.setPeak p).l = ph.l := rfl
@[simp] theorem Phase.setPeak_ramp (ph : Phase) (p : Nat) : (ph.setPeak p).ramp = ph.ramp := rfl
@[simp] theorem Phase.setPeak_shape (ph : Phase) (p : Nat) : (ph.setPeak p).shape = ph.shape := rfl
@[simp] theorem Phase.setPeak_bank (ph : Phase) (p : Nat) : (ph.setPeak p).bank = ph.bank := rfl
@[simp] theorem Phase.setPeak_n (ph : Phase) (p : Nat) : (ph.setPeak p).n = ph.n := rfl
@[simp] theorem Phase.setPeak_held (ph : Phase) (p : Nat) : (ph.setPeak p).held = ph.held := rfl
@[simp] theorem Phase.setPeak_last (ph : Phase) (p : Nat) : (ph.setPeak p).last = ph.last := rfl
@[simp] theorem Phase.setPeak_clamp (ph : Phase) (p : Nat) : (ph.setPeak p).clamp = ph.clamp := rfl
@[simp] theorem Phase.setPeak_p (ph : Phase) (p : Nat) : (ph.setPeak p).p = p := rfl
@[simp] theorem Phase.setPeak_a (ph : Phase) (p : Nat) : (ph.setPeak p).a = amplitudeOf ph.l p := rfl
@[simp] theorem Phase.afterSample_p (ph : Phase) (e : SlotEntry) (code : Int) (c : Bool) : (ph.afterSample e code c).p = ph.p := rfl
@[simp] theorem Phase.afterSample_l (ph : Phase) (e : SlotEntry) (code : Int) (c : Bool) : (ph.afterSample e code c).l = ph.l := rfl
@[simp] theorem Phase.afterSample_ramp (ph : Phase) (e : SlotEntry) (code : Int) (c : Bool) : (ph.afterSample e code c).ramp = ph.ramp := rfl
@[simp] theorem Phase.afterSample_a (ph : Phase) (e : SlotEntry) (code : Int) (c : Bool) : (ph.afterSample e code c).a = ph.a := rfl
@[simp] theorem Phase.afterSample_shape (ph : Phase) (e : SlotEntry) (code : Int) (c : Bool) : (ph.afterSample e code c).shape = ph.shape := rfl
@[simp] theorem Phase.afterSample_bank (ph : Phase) (e : SlotEntry) (code : Int) (c : Bool) : (ph.afterSample e code c).bank = ph.bank := rfl
@[simp] theorem Phase.afterSample_n (ph : Phase) (e : SlotEntry) (code : Int) (c : Bool) : (ph.afterSample e code c).n = ph.n := rfl
@[simp] theorem Phase.afterSample_last (ph : Phase) (e : SlotEntry) (code : Int) (c : Bool) : (ph.afterSample e code c).last = code := rfl
@[simp] theorem Phase.rampStep_p (ph : Phase) : ph.rampStep.p = ph.p := by
  unfold Phase.rampStep; split <;> (try split) <;> rfl
@[simp] theorem Phase.applyLevel_p (ph : Phase) (t r : Nat) : (ph.applyLevel t r).p = ph.p := by
  unfold Phase.applyLevel; split <;> simp
@[simp] theorem Phase.rampStep_shape (ph : Phase) : ph.rampStep.shape = ph.shape := by
  unfold Phase.rampStep; split <;> (try split) <;> rfl
@[simp] theorem Phase.applyLevel_shape (ph : Phase) (t r : Nat) : (ph.applyLevel t r).shape = ph.shape := by
  unfold Phase.applyLevel; split <;> simp
@[simp] theorem Phase.rampStep_bank (ph : Phase) : ph.rampStep.bank = ph.bank := by
  unfold Phase.rampStep; split <;> (try split) <;> rfl
@[simp] theorem Phase.applyLevel_bank (ph : Phase) (t r : Nat) : (ph.applyLevel t r).bank = ph.bank := by
  unfold Phase.applyLevel; split <;> simp
@[simp] theorem Phase.rampStep_n (ph : Phase) : ph.rampStep.n = ph.n := by
  unfold Phase.rampStep; split <;> (try split) <;> rfl
@[simp] theorem Phase.applyLevel_n (ph : Phase) (t r : Nat) : (ph.applyLevel t r).n = ph.n := by
  unfold Phase.applyLevel; split <;> simp
@[simp] theorem Phase.rampStep_held (ph : Phase) : ph.rampStep.held = ph.held := by
  unfold Phase.rampStep; split <;> (try split) <;> rfl
@[simp] theorem Phase.applyLevel_held (ph : Phase) (t r : Nat) : (ph.applyLevel t r).held = ph.held := by
  unfold Phase.applyLevel; split <;> simp
@[simp] theorem Phase.rampStep_last (ph : Phase) : ph.rampStep.last = ph.last := by
  unfold Phase.rampStep; split <;> (try split) <;> rfl
@[simp] theorem Phase.applyLevel_last (ph : Phase) (t r : Nat) : (ph.applyLevel t r).last = ph.last := by
  unfold Phase.applyLevel; split <;> simp
@[simp] theorem Phase.rampStep_clamp (ph : Phase) : ph.rampStep.clamp = ph.clamp := by
  unfold Phase.rampStep; split <;> (try split) <;> rfl
@[simp] theorem Phase.applyLevel_clamp (ph : Phase) (t r : Nat) : (ph.applyLevel t r).clamp = ph.clamp := by
  unfold Phase.applyLevel; split <;> simp

/-! ## Timebase -/

@[simp] theorem Timebase.setFreq_b (tb : Timebase) (f : Nat) : (tb.setFreq f).b = tb.b := rfl
@[simp] theorem Timebase.setFreq_ramp (tb : Timebase) (f : Nat) : (tb.setFreq f).ramp = tb.ramp := rfl
@[simp] theorem Timebase.setFreq_c (tb : Timebase) (f : Nat) : (tb.setFreq f).c = tb.c := rfl
@[simp] theorem Timebase.setFreq_oa (tb : Timebase) (f : Nat) : (tb.setFreq f).oa = tb.oa := rfl
@[simp] theorem Timebase.setFreq_ob (tb : Timebase) (f : Nat) : (tb.setFreq f).ob = tb.ob := rfl
@[simp] theorem Timebase.setFreq_oc (tb : Timebase) (f : Nat) : (tb.setFreq f).oc = tb.oc := rfl
@[simp] theorem Timebase.setFreq_f (tb : Timebase) (f : Nat) : (tb.setFreq f).f = f := rfl
@[simp] theorem Timebase.setFreq_inc (tb : Timebase) (f : Nat) : (tb.setFreq f).inc = incrementOf f := rfl
@[simp] theorem Timebase.rampStep_b (tb : Timebase) : tb.rampStep.b = tb.b := by
  unfold Timebase.rampStep; split <;> (try split) <;> rfl
@[simp] theorem Timebase.applyFreq_b (tb : Timebase) (p1 p2 : Nat) : (tb.applyFreq p1 p2).b = tb.b := by
  unfold Timebase.applyFreq; split <;> rfl
@[simp] theorem Timebase.rampStep_c (tb : Timebase) : tb.rampStep.c = tb.c := by
  unfold Timebase.rampStep; split <;> (try split) <;> rfl
@[simp] theorem Timebase.applyFreq_c (tb : Timebase) (p1 p2 : Nat) : (tb.applyFreq p1 p2).c = tb.c := by
  unfold Timebase.applyFreq; split <;> rfl
@[simp] theorem Timebase.rampStep_oa (tb : Timebase) : tb.rampStep.oa = tb.oa := by
  unfold Timebase.rampStep; split <;> (try split) <;> rfl
@[simp] theorem Timebase.applyFreq_oa (tb : Timebase) (p1 p2 : Nat) : (tb.applyFreq p1 p2).oa = tb.oa := by
  unfold Timebase.applyFreq; split <;> rfl
@[simp] theorem Timebase.rampStep_ob (tb : Timebase) : tb.rampStep.ob = tb.ob := by
  unfold Timebase.rampStep; split <;> (try split) <;> rfl
@[simp] theorem Timebase.applyFreq_ob (tb : Timebase) (p1 p2 : Nat) : (tb.applyFreq p1 p2).ob = tb.ob := by
  unfold Timebase.applyFreq; split <;> rfl
@[simp] theorem Timebase.rampStep_oc (tb : Timebase) : tb.rampStep.oc = tb.oc := by
  unfold Timebase.rampStep; split <;> (try split) <;> rfl
@[simp] theorem Timebase.applyFreq_oc (tb : Timebase) (p1 p2 : Nat) : (tb.applyFreq p1 p2).oc = tb.oc := by
  unfold Timebase.applyFreq; split <;> rfl
@[simp] theorem Timebase.applyJump_b (tb : Timebase) (m : Mask) (d : Nat) : (tb.applyJump m d).b = tb.b := rfl
@[simp] theorem Timebase.applyJump_inc (tb : Timebase) (m : Mask) (d : Nat) : (tb.applyJump m d).inc = tb.inc := rfl
@[simp] theorem Timebase.applyJump_f (tb : Timebase) (m : Mask) (d : Nat) : (tb.applyJump m d).f = tb.f := rfl
@[simp] theorem Timebase.applyJump_ramp (tb : Timebase) (m : Mask) (d : Nat) : (tb.applyJump m d).ramp = tb.ramp := rfl
@[simp] theorem Timebase.applyJump_c (tb : Timebase) (m : Mask) (d : Nat) : (tb.applyJump m d).c = tb.c := rfl
@[simp] theorem Timebase.advance_oa (tb : Timebase) : tb.advance.oa = tb.oa := by
  unfold Timebase.advance; dsimp only; split <;> simp
@[simp] theorem Timebase.advance_ob (tb : Timebase) : tb.advance.ob = tb.ob := by
  unfold Timebase.advance; dsimp only; split <;> simp
@[simp] theorem Timebase.advance_oc (tb : Timebase) : tb.advance.oc = tb.oc := by
  unfold Timebase.advance; dsimp only; split <;> simp
@[simp] theorem Timebase.advance_b (tb : Timebase) : tb.advance.b = tb.b + BitVec.ofNat 32 tb.inc := by
  unfold Timebase.advance; dsimp only; split <;> simp
@[simp] theorem Timebase.advance_c (tb : Timebase) : tb.advance.c = if tb.wraps then tb.c + 1 else tb.c := by
  unfold Timebase.advance; dsimp only; split <;> simp
@[simp] theorem Record.changeTimebase_b (r : Record) (tb : Timebase) : (r.changeTimebase tb).b = tb.b := by
  unfold Record.changeTimebase; split <;> simp
@[simp] theorem Record.changeTimebase_c (r : Record) (tb : Timebase) : (r.changeTimebase tb).c = tb.c := by
  unfold Record.changeTimebase; split <;> simp

/-! ## Event Runner, trace -/

@[simp] theorem flush_state (run : Runner) : (flush run).state = run.state := rfl
@[simp] theorem flush_execPtr (run : Runner) : (flush run).execPtr = run.execPtr := rfl
@[simp] theorem flush_cStack (run : Runner) : (flush run).cStack = run.cStack := rfl
@[simp] theorem flush_cBase (run : Runner) : (flush run).cBase = run.cBase := rfl
@[simp] theorem flush_faultReason (run : Runner) : (flush run).faultReason = run.faultReason := rfl
@[simp] theorem flush_faultIndex (run : Runner) : (flush run).faultIndex = run.faultIndex := rfl
@[simp] theorem flush_allowance (run : Runner) : (flush run).allowance = run.allowance := rfl
@[simp] theorem flush_applyNow (run : Runner) : (flush run).applyNow = run.applyNow := rfl
@[simp] theorem flush_queue (run : Runner) : (flush run).queue = [] := rfl
@[simp] theorem flush_fetchPtr (run : Runner) : (flush run).fetchPtr = run.execPtr := rfl
@[simp] theorem flush_fStack (run : Runner) : (flush run).fStack = run.cStack := rfl
@[simp] theorem flush_fBase (run : Runner) : (flush run).fBase = run.cBase := rfl
@[simp] theorem flush_spin (run : Runner) : (flush run).spin = 0 := rfl
@[simp] theorem flush_halt (run : Runner) : (flush run).halt = .none := rfl
@[simp] theorem fetchOne_state (sched : Memory) (run : Runner) : (fetchOne sched run).state = run.state := by
  unfold fetchOne; split
  · rfl
  · unfold placeRecord; split <;> rfl
@[simp] theorem fillUpTo_state (sched : Memory) (k : Nat) (run : Runner) : (fillUpTo sched k run).state = run.state := by
  induction k generalizing run with
  | zero => rfl
  | succ k ih => unfold fillUpTo; split <;> simp [ih]
@[simp] theorem fill_state (sched : Memory) (run : Runner) : (fill sched run).state = run.state := fillUpTo_state _ _ _
@[simp] theorem fetchOne_execPtr (sched : Memory) (run : Runner) : (fetchOne sched run).execPtr = run.execPtr := by
  unfold fetchOne; split
  · rfl
  · unfold placeRecord; split <;> rfl
@[simp] theorem fillUpTo_execPtr (sched : Memory) (k : Nat) (run : Runner) : (fillUpTo sched k run).execPtr = run.execPtr := by
  induction k generalizing run with
  | zero => rfl
  | succ k ih => unfold fillUpTo; split <;> simp [ih]
@[simp] theorem fill_execPtr (sched : Memory) (run : Runner) : (fill sched run).execPtr = run.execPtr := fillUpTo_execPtr _ _ _
@[simp] theorem fetchOne_cStack (sched : Memory) (run : Runner) : (fetchOne sched run).cStack = run.cStack := by
  unfold fetchOne; split
  · rfl
  · unfold placeRecord; split <;> rfl
@[simp] theorem fillUpTo_cStack (sched : Memory) (k : Nat) (run : Runner) : (fillUpTo sched k run).cStack = run.cStack := by
  induction k generalizing run with
  | zero => rfl
  | succ k ih => unfold fillUpTo; split <;> simp [ih]
@[simp] theorem fill_cStack (sched : Memory) (run : Runner) : (fill sched run).cStack = run.cStack := fillUpTo_cStack _ _ _
@[simp] theorem fetchOne_cBase (sched : Memory) (run : Runner) : (fetchOne sched run).cBase = run.cBase := by
  unfold fetchOne; split
  · rfl
  · unfold placeRecord; split <;> rfl
@[simp] theorem fillUpTo_cBase (sched : Memory) (k : Nat) (run : Runner) : (fillUpTo sched k run).cBase = run.cBase := by
  induction k generalizing run with
  | zero => rfl
  | succ k ih => unfold fillUpTo; split <;> simp [ih]
@[simp] theorem fill_cBase (sched : Memory) (run : Runner) : (fill sched run).cBase = run.cBase := fillUpTo_cBase _ _ _
@[simp] theorem fetchOne_faultReason (sched : Memory) (run : Runner) : (fetchOne sched run).faultReason = run.faultReason := by
  unfold fetchOne; split
  · rfl
  · unfold placeRecord; split <;> rfl
@[simp] theorem fillUpTo_faultReason (sched : Memory) (k : Nat) (run : Runner) : (fillUpTo sched k run).faultReason = run.faultReason := by
  induction k generalizing run with
  | zero => rfl
  | succ k ih => unfold fillUpTo; split <;> simp [ih]
@[simp] theorem fill_faultReason (sched : Memory) (run : Runner) : (fill sched run).faultReason = run.faultReason := fillUpTo_faultReason _ _ _
@[simp] theorem fetchOne_faultIndex (sched : Memory) (run : Runner) : (fetchOne sched run).faultIndex = run.faultIndex := by
  unfold fetchOne; split
  · rfl
  · unfold placeRecord; split <;> rfl
@[simp] theorem fillUpTo_faultIndex (sched : Memory) (k : Nat) (run : Runner) : (fillUpTo sched k run).faultIndex = run.faultIndex := by
  induction k generalizing run with
  | zero => rfl
  | succ k ih => unfold fillUpTo; split <;> simp [ih]
@[simp] theorem fill_faultIndex (sched : Memory) (run : Runner) : (fill sched run).faultIndex = run.faultIndex := fillUpTo_faultIndex _ _ _
@[simp] theorem fetchOne_applyNow (sched : Memory) (run : Runner) : (fetchOne sched run).applyNow = run.applyNow := by
  unfold fetchOne; split
  · rfl
  · unfold placeRecord; split <;> rfl
@[simp] theorem fillUpTo_applyNow (sched : Memory) (k : Nat) (run : Runner) : (fillUpTo sched k run).applyNow = run.applyNow := by
  induction k generalizing run with
  | zero => rfl
  | succ k ih => unfold fillUpTo; split <;> simp [ih]
@[simp] theorem fill_applyNow (sched : Memory) (run : Runner) : (fill sched run).applyNow = run.applyNow := fillUpTo_applyNow _ _ _
@[simp] theorem Trace.make_fifo (t : Trace) (e : TraceEntry) : (t.make e).fifo = t.fifo := rfl
@[simp] theorem Trace.make_deferred (t : Trace) (e : TraceEntry) : (t.make e).deferred = t.deferred := rfl
@[simp] theorem Trace.make_made (t : Trace) (e : TraceEntry) : (t.make e).made = t.made ++ [e] := rfl
@[simp] theorem Trace.defer_fifo (t : Trace) (ty : TraceType) (i : Nat) : (t.defer ty i).fifo = t.fifo := rfl
@[simp] theorem Trace.defer_made (t : Trace) (ty : TraceType) (i : Nat) : (t.defer ty i).made = t.made := rfl
@[simp] theorem Trace.makeRecord_fifo (t : Trace) (r : Record) (i : Nat) (d st : Position) (l : Bool) :
    (t.makeRecord r i d st l).fifo = t.fifo := by
  unfold Trace.makeRecord; split <;> rfl
@[simp] theorem Trace.makeRecord_deferred (t : Trace) (r : Record) (i : Nat) (d st : Position) (l : Bool) :
    (t.makeRecord r i d st l).deferred = t.deferred := by
  unfold Trace.makeRecord; split <;> rfl

/-! ## State -/

@[simp] theorem State.withRunSide_inInit (s : State) (w : RunSide) : (s.withRunSide w).inInit = s.inInit := rfl
@[simp] theorem State.withRunSide_resetLow (s : State) (w : RunSide) : (s.withRunSide w).resetLow = s.resetLow := rfl
@[simp] theorem State.withRunSide_wave (s : State) (w : RunSide) : (s.withRunSide w).wave = s.wave := rfl
@[simp] theorem State.withRunSide_map (s : State) (w : RunSide) : (s.withRunSide w).map = s.map := rfl
@[simp] theorem State.withRunSide_slots (s : State) (w : RunSide) : (s.withRunSide w).slots = s.slots := rfl
@[simp] theorem State.withRunSide_sched (s : State) (w : RunSide) : (s.withRunSide w).sched = s.sched := rfl
@[simp] theorem State.withRunSide_lfsr (s : State) (w : RunSide) : (s.withRunSide w).lfsr = s.lfsr := rfl
@[simp] theorem State.withRunSide_frame (s : State) (w : RunSide) : (s.withRunSide w).frame = s.frame := rfl
@[simp] theorem State.withRunSide_guard (s : State) (w : RunSide) : (s.withRunSide w).guard = s.guard := rfl
@[simp] theorem State.withRunSide_scan (s : State) (w : RunSide) : (s.withRunSide w).scan = s.scan := rfl
@[simp] theorem State.withRunSide_cap (s : State) (w : RunSide) : (s.withRunSide w).cap = s.cap := rfl
@[simp] theorem State.withRunSide_free (s : State) (w : RunSide) : (s.withRunSide w).free = s.free := rfl
@[simp] theorem State.withRunSide_pending (s : State) (w : RunSide) : (s.withRunSide w).pending = s.pending := rfl
@[simp] theorem State.withRunSide_tb (s : State) (w : RunSide) : (s.withRunSide w).tb = w.tb := rfl
@[simp] theorem State.withRunSide_ph (s : State) (w : RunSide) : (s.withRunSide w).ph = w.ph := rfl
@[simp] theorem State.withRunSide_run (s : State) (w : RunSide) : (s.withRunSide w).run = w.run := rfl
@[simp] theorem State.withRunSide_cnt (s : State) (w : RunSide) : (s.withRunSide w).cnt = w.cnt := rfl
@[simp] theorem State.withRunSide_links (s : State) (w : RunSide) : (s.withRunSide w).links = w.links := rfl
@[simp] theorem State.withRunSide_trace (s : State) (w : RunSide) : (s.withRunSide w).trace = w.trace := rfl
@[simp] theorem State.withRunSide_events (s : State) (w : RunSide) : (s.withRunSide w).events = w.events := rfl
@[simp] theorem State.runSide_tb (s : State) : s.runSide.tb = s.tb := rfl
@[simp] theorem State.runSide_ph (s : State) : s.runSide.ph = s.ph := rfl
@[simp] theorem State.runSide_run (s : State) : s.runSide.run = s.run := rfl
@[simp] theorem State.runSide_cnt (s : State) : s.runSide.cnt = s.cnt := rfl
@[simp] theorem State.runSide_links (s : State) : s.runSide.links = s.links := rfl
@[simp] theorem State.runSide_trace (s : State) : s.runSide.trace = s.trace := rfl
@[simp] theorem State.runSide_events (s : State) : s.runSide.events = s.events := rfl
@[simp] theorem timebaseTick_inInit (s : State) : (timebaseTick s).inInit = s.inInit := rfl
@[simp] theorem timebaseTick_resetLow (s : State) : (timebaseTick s).resetLow = s.resetLow := rfl
@[simp] theorem timebaseTick_wave (s : State) : (timebaseTick s).wave = s.wave := rfl
@[simp] theorem timebaseTick_map (s : State) : (timebaseTick s).map = s.map := rfl
@[simp] theorem timebaseTick_slots (s : State) : (timebaseTick s).slots = s.slots := rfl
@[simp] theorem timebaseTick_sched (s : State) : (timebaseTick s).sched = s.sched := rfl
@[simp] theorem timebaseTick_lfsr (s : State) : (timebaseTick s).lfsr = s.lfsr := rfl
@[simp] theorem timebaseTick_ph (s : State) : (timebaseTick s).ph = s.ph := rfl
@[simp] theorem timebaseTick_frame (s : State) : (timebaseTick s).frame = s.frame := rfl
@[simp] theorem timebaseTick_run (s : State) : (timebaseTick s).run = s.run := rfl
@[simp] theorem timebaseTick_guard (s : State) : (timebaseTick s).guard = s.guard := rfl
@[simp] theorem timebaseTick_scan (s : State) : (timebaseTick s).scan = s.scan := rfl
@[simp] theorem timebaseTick_cap (s : State) : (timebaseTick s).cap = s.cap := rfl
@[simp] theorem timebaseTick_trace (s : State) : (timebaseTick s).trace = s.trace := rfl
@[simp] theorem timebaseTick_cnt (s : State) : (timebaseTick s).cnt = s.cnt := rfl
@[simp] theorem timebaseTick_links (s : State) : (timebaseTick s).links = s.links := rfl
@[simp] theorem timebaseTick_free (s : State) : (timebaseTick s).free = s.free := rfl
@[simp] theorem timebaseTick_pending (s : State) : (timebaseTick s).pending = s.pending := rfl
@[simp] theorem snapshotTick_inInit (s : State) (b : Bool) (pos : Position) : (snapshotTick s b pos).inInit = s.inInit := rfl
@[simp] theorem snapshotTick_resetLow (s : State) (b : Bool) (pos : Position) : (snapshotTick s b pos).resetLow = s.resetLow := rfl
@[simp] theorem snapshotTick_tb (s : State) (b : Bool) (pos : Position) : (snapshotTick s b pos).tb = s.tb := rfl
@[simp] theorem snapshotTick_wave (s : State) (b : Bool) (pos : Position) : (snapshotTick s b pos).wave = s.wave := rfl
@[simp] theorem snapshotTick_map (s : State) (b : Bool) (pos : Position) : (snapshotTick s b pos).map = s.map := rfl
@[simp] theorem snapshotTick_slots (s : State) (b : Bool) (pos : Position) : (snapshotTick s b pos).slots = s.slots := rfl
@[simp] theorem snapshotTick_sched (s : State) (b : Bool) (pos : Position) : (snapshotTick s b pos).sched = s.sched := rfl
@[simp] theorem snapshotTick_lfsr (s : State) (b : Bool) (pos : Position) : (snapshotTick s b pos).lfsr = s.lfsr := rfl
@[simp] theorem snapshotTick_ph (s : State) (b : Bool) (pos : Position) : (snapshotTick s b pos).ph = s.ph := rfl
@[simp] theorem snapshotTick_frame (s : State) (b : Bool) (pos : Position) : (snapshotTick s b pos).frame = s.frame := rfl
@[simp] theorem snapshotTick_run (s : State) (b : Bool) (pos : Position) : (snapshotTick s b pos).run = s.run := rfl
@[simp] theorem snapshotTick_guard (s : State) (b : Bool) (pos : Position) : (snapshotTick s b pos).guard = s.guard := rfl
@[simp] theorem snapshotTick_scan (s : State) (b : Bool) (pos : Position) : (snapshotTick s b pos).scan = s.scan := rfl
@[simp] theorem snapshotTick_cap (s : State) (b : Bool) (pos : Position) : (snapshotTick s b pos).cap = s.cap := rfl
@[simp] theorem snapshotTick_trace (s : State) (b : Bool) (pos : Position) : (snapshotTick s b pos).trace = s.trace := rfl
@[simp] theorem snapshotTick_free (s : State) (b : Bool) (pos : Position) : (snapshotTick s b pos).free = s.free := rfl
@[simp] theorem snapshotTick_pending (s : State) (b : Bool) (pos : Position) : (snapshotTick s b pos).pending = s.pending := rfl
@[simp] theorem measureTick_inInit (s : State) (b : Bool) (pos : Position) : (measureTick s b pos).inInit = s.inInit := rfl
@[simp] theorem measureTick_resetLow (s : State) (b : Bool) (pos : Position) : (measureTick s b pos).resetLow = s.resetLow := rfl
@[simp] theorem measureTick_tb (s : State) (b : Bool) (pos : Position) : (measureTick s b pos).tb = s.tb := rfl
@[simp] theorem measureTick_wave (s : State) (b : Bool) (pos : Position) : (measureTick s b pos).wave = s.wave := rfl
@[simp] theorem measureTick_map (s : State) (b : Bool) (pos : Position) : (measureTick s b pos).map = s.map := rfl
@[simp] theorem measureTick_slots (s : State) (b : Bool) (pos : Position) : (measureTick s b pos).slots = s.slots := rfl
@[simp] theorem measureTick_sched (s : State) (b : Bool) (pos : Position) : (measureTick s b pos).sched = s.sched := rfl
@[simp] theorem measureTick_lfsr (s : State) (b : Bool) (pos : Position) : (measureTick s b pos).lfsr = s.lfsr := rfl
@[simp] theorem measureTick_ph (s : State) (b : Bool) (pos : Position) : (measureTick s b pos).ph = s.ph := rfl
@[simp] theorem measureTick_frame (s : State) (b : Bool) (pos : Position) : (measureTick s b pos).frame = s.frame := rfl
@[simp] theorem measureTick_run (s : State) (b : Bool) (pos : Position) : (measureTick s b pos).run = s.run := rfl
@[simp] theorem measureTick_cap (s : State) (b : Bool) (pos : Position) : (measureTick s b pos).cap = s.cap := rfl
@[simp] theorem measureTick_trace (s : State) (b : Bool) (pos : Position) : (measureTick s b pos).trace = s.trace := rfl
@[simp] theorem measureTick_free (s : State) (b : Bool) (pos : Position) : (measureTick s b pos).free = s.free := rfl
@[simp] theorem measureTick_pending (s : State) (b : Bool) (pos : Position) : (measureTick s b pos).pending = s.pending := rfl
@[simp] theorem levelTick_inInit (s : State) : (levelTick s).inInit = s.inInit := rfl
@[simp] theorem levelTick_resetLow (s : State) : (levelTick s).resetLow = s.resetLow := rfl
@[simp] theorem levelTick_tb (s : State) : (levelTick s).tb = s.tb := rfl
@[simp] theorem levelTick_wave (s : State) : (levelTick s).wave = s.wave := rfl
@[simp] theorem levelTick_map (s : State) : (levelTick s).map = s.map := rfl
@[simp] theorem levelTick_slots (s : State) : (levelTick s).slots = s.slots := rfl
@[simp] theorem levelTick_sched (s : State) : (levelTick s).sched = s.sched := rfl
@[simp] theorem levelTick_lfsr (s : State) : (levelTick s).lfsr = s.lfsr := rfl
@[simp] theorem levelTick_frame (s : State) : (levelTick s).frame = s.frame := rfl
@[simp] theorem levelTick_run (s : State) : (levelTick s).run = s.run := rfl
@[simp] theorem levelTick_guard (s : State) : (levelTick s).guard = s.guard := rfl
@[simp] theorem levelTick_scan (s : State) : (levelTick s).scan = s.scan := rfl
@[simp] theorem levelTick_cap (s : State) : (levelTick s).cap = s.cap := rfl
@[simp] theorem levelTick_trace (s : State) : (levelTick s).trace = s.trace := rfl
@[simp] theorem levelTick_cnt (s : State) : (levelTick s).cnt = s.cnt := rfl
@[simp] theorem levelTick_links (s : State) : (levelTick s).links = s.links := rfl
@[simp] theorem levelTick_free (s : State) : (levelTick s).free = s.free := rfl
@[simp] theorem levelTick_pending (s : State) : (levelTick s).pending = s.pending := rfl
/-- The runner's work at a tick with no request taken during it, on the runner's part (R93). -/
def runnerTick (sched map : Memory) (prev pos : Position) (boundary hold : Bool) (w : RunSide) : RunSide :=
  if appliesEntries w.run boundary hold then
    (applyDue map prev pos w.run.queue.length w.renewed).filled sched
  else otherWork sched map pos hold w.renewed

/-- With no request taken during it, the runner's work changes the runner's part alone. -/
theorem runTick_zero (s : State) (prev pos : Position) (b h : Bool) :
    runTick 0 s prev pos b h = s.withRunSide (runnerTick s.sched s.map prev pos b h s.runSide) := by
  unfold runTick runnerTick
  simp only [State.runSide_run]
  by_cases ha : appliesEntries s.run b h = true
  · simp only [ha, if_true]; rfl
  · simp only [ha]; rfl

@[simp] theorem runTick_inInit (s : State) (prev pos : Position) (b h : Bool) : (runTick 0 s prev pos b h).inInit = s.inInit := by
  rw [runTick_zero]; rfl
@[simp] theorem runTick_resetLow (s : State) (prev pos : Position) (b h : Bool) : (runTick 0 s prev pos b h).resetLow = s.resetLow := by
  rw [runTick_zero]; rfl
@[simp] theorem runTick_wave (s : State) (prev pos : Position) (b h : Bool) : (runTick 0 s prev pos b h).wave = s.wave := by
  rw [runTick_zero]; rfl
@[simp] theorem runTick_map (s : State) (prev pos : Position) (b h : Bool) : (runTick 0 s prev pos b h).map = s.map := by
  rw [runTick_zero]; rfl
@[simp] theorem runTick_slots (s : State) (prev pos : Position) (b h : Bool) : (runTick 0 s prev pos b h).slots = s.slots := by
  rw [runTick_zero]; rfl
@[simp] theorem runTick_sched (s : State) (prev pos : Position) (b h : Bool) : (runTick 0 s prev pos b h).sched = s.sched := by
  rw [runTick_zero]; rfl
@[simp] theorem runTick_lfsr (s : State) (prev pos : Position) (b h : Bool) : (runTick 0 s prev pos b h).lfsr = s.lfsr := by
  rw [runTick_zero]; rfl
@[simp] theorem runTick_frame (s : State) (prev pos : Position) (b h : Bool) : (runTick 0 s prev pos b h).frame = s.frame := by
  rw [runTick_zero]; rfl
@[simp] theorem runTick_guard (s : State) (prev pos : Position) (b h : Bool) : (runTick 0 s prev pos b h).guard = s.guard := by
  rw [runTick_zero]; rfl
@[simp] theorem runTick_scan (s : State) (prev pos : Position) (b h : Bool) : (runTick 0 s prev pos b h).scan = s.scan := by
  rw [runTick_zero]; rfl
@[simp] theorem runTick_cap (s : State) (prev pos : Position) (b h : Bool) : (runTick 0 s prev pos b h).cap = s.cap := by
  rw [runTick_zero]; rfl
@[simp] theorem runTick_free (s : State) (prev pos : Position) (b h : Bool) : (runTick 0 s prev pos b h).free = s.free := by
  rw [runTick_zero]; rfl
@[simp] theorem runTick_pending (s : State) (prev pos : Position) (b h : Bool) : (runTick 0 s prev pos b h).pending = s.pending := by
  rw [runTick_zero]; rfl
@[simp] theorem synthPhase_inInit (s : State) (p : PhaseId) : (synthPhase s p).inInit = s.inInit := rfl
@[simp] theorem synthPhase_resetLow (s : State) (p : PhaseId) : (synthPhase s p).resetLow = s.resetLow := rfl
@[simp] theorem synthPhase_tb (s : State) (p : PhaseId) : (synthPhase s p).tb = s.tb := rfl
@[simp] theorem synthPhase_wave (s : State) (p : PhaseId) : (synthPhase s p).wave = s.wave := rfl
@[simp] theorem synthPhase_map (s : State) (p : PhaseId) : (synthPhase s p).map = s.map := rfl
@[simp] theorem synthPhase_slots (s : State) (p : PhaseId) : (synthPhase s p).slots = s.slots := rfl
@[simp] theorem synthPhase_sched (s : State) (p : PhaseId) : (synthPhase s p).sched = s.sched := rfl
@[simp] theorem synthPhase_run (s : State) (p : PhaseId) : (synthPhase s p).run = s.run := rfl
@[simp] theorem synthPhase_guard (s : State) (p : PhaseId) : (synthPhase s p).guard = s.guard := rfl
@[simp] theorem synthPhase_scan (s : State) (p : PhaseId) : (synthPhase s p).scan = s.scan := rfl
@[simp] theorem synthPhase_cap (s : State) (p : PhaseId) : (synthPhase s p).cap = s.cap := rfl
@[simp] theorem synthPhase_trace (s : State) (p : PhaseId) : (synthPhase s p).trace = s.trace := rfl
@[simp] theorem synthPhase_events (s : State) (p : PhaseId) : (synthPhase s p).events = s.events := rfl
@[simp] theorem synthPhase_free (s : State) (p : PhaseId) : (synthPhase s p).free = s.free := rfl
@[simp] theorem synthPhase_pending (s : State) (p : PhaseId) : (synthPhase s p).pending = s.pending := rfl
@[simp] theorem synthesize_inInit (s : State) : (synthesize s).inInit = s.inInit := by simp [synthesize]
@[simp] theorem synthesize_resetLow (s : State) : (synthesize s).resetLow = s.resetLow := by simp [synthesize]
@[simp] theorem synthesize_tb (s : State) : (synthesize s).tb = s.tb := by simp [synthesize]
@[simp] theorem synthesize_wave (s : State) : (synthesize s).wave = s.wave := by simp [synthesize]
@[simp] theorem synthesize_map (s : State) : (synthesize s).map = s.map := by simp [synthesize]
@[simp] theorem synthesize_slots (s : State) : (synthesize s).slots = s.slots := by simp [synthesize]
@[simp] theorem synthesize_sched (s : State) : (synthesize s).sched = s.sched := by simp [synthesize]
@[simp] theorem synthesize_run (s : State) : (synthesize s).run = s.run := by simp [synthesize]
@[simp] theorem synthesize_guard (s : State) : (synthesize s).guard = s.guard := by simp [synthesize]
@[simp] theorem synthesize_scan (s : State) : (synthesize s).scan = s.scan := by simp [synthesize]
@[simp] theorem synthesize_cap (s : State) : (synthesize s).cap = s.cap := by simp [synthesize]
@[simp] theorem synthesize_trace (s : State) : (synthesize s).trace = s.trace := by simp [synthesize]
@[simp] theorem synthesize_events (s : State) : (synthesize s).events = s.events := by simp [synthesize]
@[simp] theorem synthesize_free (s : State) : (synthesize s).free = s.free := by simp [synthesize]
@[simp] theorem synthesize_pending (s : State) : (synthesize s).pending = s.pending := by simp [synthesize]
@[simp] theorem offerEntry_inInit (s : State) (e : CapEntry) : (offerEntry s e).inInit = s.inInit := by
  unfold offerEntry; split <;> rfl
@[simp] theorem offerEntries_inInit (es : List CapEntry) (s : State) : (offerEntries es s).inInit = s.inInit := by
  induction es generalizing s with
  | nil => rfl
  | cons e es ih => simp [offerEntries, ih]
@[simp] theorem captureTick_inInit (s : State) (es : List CapEntry) (b t : Bool) (pos : Position) :
    (captureTick s es b t pos).inInit = s.inInit := by
  simp [captureTick]
@[simp] theorem offerEntry_resetLow (s : State) (e : CapEntry) : (offerEntry s e).resetLow = s.resetLow := by
  unfold offerEntry; split <;> rfl
@[simp] theorem offerEntries_resetLow (es : List CapEntry) (s : State) : (offerEntries es s).resetLow = s.resetLow := by
  induction es generalizing s with
  | nil => rfl
  | cons e es ih => simp [offerEntries, ih]
@[simp] theorem captureTick_resetLow (s : State) (es : List CapEntry) (b t : Bool) (pos : Position) :
    (captureTick s es b t pos).resetLow = s.resetLow := by
  simp [captureTick]
@[simp] theorem offerEntry_tb (s : State) (e : CapEntry) : (offerEntry s e).tb = s.tb := by
  unfold offerEntry; split <;> rfl
@[simp] theorem offerEntries_tb (es : List CapEntry) (s : State) : (offerEntries es s).tb = s.tb := by
  induction es generalizing s with
  | nil => rfl
  | cons e es ih => simp [offerEntries, ih]
@[simp] theorem captureTick_tb (s : State) (es : List CapEntry) (b t : Bool) (pos : Position) :
    (captureTick s es b t pos).tb = s.tb := by
  simp [captureTick]
@[simp] theorem offerEntry_wave (s : State) (e : CapEntry) : (offerEntry s e).wave = s.wave := by
  unfold offerEntry; split <;> rfl
@[simp] theorem offerEntries_wave (es : List CapEntry) (s : State) : (offerEntries es s).wave = s.wave := by
  induction es generalizing s with
  | nil => rfl
  | cons e es ih => simp [offerEntries, ih]
@[simp] theorem captureTick_wave (s : State) (es : List CapEntry) (b t : Bool) (pos : Position) :
    (captureTick s es b t pos).wave = s.wave := by
  simp [captureTick]
@[simp] theorem offerEntry_map (s : State) (e : CapEntry) : (offerEntry s e).map = s.map := by
  unfold offerEntry; split <;> rfl
@[simp] theorem offerEntries_map (es : List CapEntry) (s : State) : (offerEntries es s).map = s.map := by
  induction es generalizing s with
  | nil => rfl
  | cons e es ih => simp [offerEntries, ih]
@[simp] theorem captureTick_map (s : State) (es : List CapEntry) (b t : Bool) (pos : Position) :
    (captureTick s es b t pos).map = s.map := by
  simp [captureTick]
@[simp] theorem offerEntry_slots (s : State) (e : CapEntry) : (offerEntry s e).slots = s.slots := by
  unfold offerEntry; split <;> rfl
@[simp] theorem offerEntries_slots (es : List CapEntry) (s : State) : (offerEntries es s).slots = s.slots := by
  induction es generalizing s with
  | nil => rfl
  | cons e es ih => simp [offerEntries, ih]
@[simp] theorem captureTick_slots (s : State) (es : List CapEntry) (b t : Bool) (pos : Position) :
    (captureTick s es b t pos).slots = s.slots := by
  simp [captureTick]
@[simp] theorem offerEntry_sched (s : State) (e : CapEntry) : (offerEntry s e).sched = s.sched := by
  unfold offerEntry; split <;> rfl
@[simp] theorem offerEntries_sched (es : List CapEntry) (s : State) : (offerEntries es s).sched = s.sched := by
  induction es generalizing s with
  | nil => rfl
  | cons e es ih => simp [offerEntries, ih]
@[simp] theorem captureTick_sched (s : State) (es : List CapEntry) (b t : Bool) (pos : Position) :
    (captureTick s es b t pos).sched = s.sched := by
  simp [captureTick]
@[simp] theorem offerEntry_lfsr (s : State) (e : CapEntry) : (offerEntry s e).lfsr = s.lfsr := by
  unfold offerEntry; split <;> rfl
@[simp] theorem offerEntries_lfsr (es : List CapEntry) (s : State) : (offerEntries es s).lfsr = s.lfsr := by
  induction es generalizing s with
  | nil => rfl
  | cons e es ih => simp [offerEntries, ih]
@[simp] theorem captureTick_lfsr (s : State) (es : List CapEntry) (b t : Bool) (pos : Position) :
    (captureTick s es b t pos).lfsr = s.lfsr := by
  simp [captureTick]
@[simp] theorem offerEntry_ph (s : State) (e : CapEntry) : (offerEntry s e).ph = s.ph := by
  unfold offerEntry; split <;> rfl
@[simp] theorem offerEntries_ph (es : List CapEntry) (s : State) : (offerEntries es s).ph = s.ph := by
  induction es generalizing s with
  | nil => rfl
  | cons e es ih => simp [offerEntries, ih]
@[simp] theorem captureTick_ph (s : State) (es : List CapEntry) (b t : Bool) (pos : Position) :
    (captureTick s es b t pos).ph = s.ph := by
  simp [captureTick]
@[simp] theorem offerEntry_frame (s : State) (e : CapEntry) : (offerEntry s e).frame = s.frame := by
  unfold offerEntry; split <;> rfl
@[simp] theorem offerEntries_frame (es : List CapEntry) (s : State) : (offerEntries es s).frame = s.frame := by
  induction es generalizing s with
  | nil => rfl
  | cons e es ih => simp [offerEntries, ih]
@[simp] theorem captureTick_frame (s : State) (es : List CapEntry) (b t : Bool) (pos : Position) :
    (captureTick s es b t pos).frame = s.frame := by
  simp [captureTick]
@[simp] theorem offerEntry_run (s : State) (e : CapEntry) : (offerEntry s e).run = s.run := by
  unfold offerEntry; split <;> rfl
@[simp] theorem offerEntries_run (es : List CapEntry) (s : State) : (offerEntries es s).run = s.run := by
  induction es generalizing s with
  | nil => rfl
  | cons e es ih => simp [offerEntries, ih]
@[simp] theorem captureTick_run (s : State) (es : List CapEntry) (b t : Bool) (pos : Position) :
    (captureTick s es b t pos).run = s.run := by
  simp [captureTick]
@[simp] theorem offerEntry_guard (s : State) (e : CapEntry) : (offerEntry s e).guard = s.guard := by
  unfold offerEntry; split <;> rfl
@[simp] theorem offerEntries_guard (es : List CapEntry) (s : State) : (offerEntries es s).guard = s.guard := by
  induction es generalizing s with
  | nil => rfl
  | cons e es ih => simp [offerEntries, ih]
@[simp] theorem captureTick_guard (s : State) (es : List CapEntry) (b t : Bool) (pos : Position) :
    (captureTick s es b t pos).guard = s.guard := by
  simp [captureTick]
@[simp] theorem offerEntry_scan (s : State) (e : CapEntry) : (offerEntry s e).scan = s.scan := by
  unfold offerEntry; split <;> rfl
@[simp] theorem offerEntries_scan (es : List CapEntry) (s : State) : (offerEntries es s).scan = s.scan := by
  induction es generalizing s with
  | nil => rfl
  | cons e es ih => simp [offerEntries, ih]
@[simp] theorem captureTick_scan (s : State) (es : List CapEntry) (b t : Bool) (pos : Position) :
    (captureTick s es b t pos).scan = s.scan := by
  simp [captureTick]
@[simp] theorem offerEntry_trace (s : State) (e : CapEntry) : (offerEntry s e).trace = s.trace := by
  unfold offerEntry; split <;> rfl
@[simp] theorem offerEntries_trace (es : List CapEntry) (s : State) : (offerEntries es s).trace = s.trace := by
  induction es generalizing s with
  | nil => rfl
  | cons e es ih => simp [offerEntries, ih]
@[simp] theorem captureTick_trace (s : State) (es : List CapEntry) (b t : Bool) (pos : Position) :
    (captureTick s es b t pos).trace = s.trace := by
  simp [captureTick]
@[simp] theorem offerEntry_free (s : State) (e : CapEntry) : (offerEntry s e).free = s.free := by
  unfold offerEntry; split <;> rfl
@[simp] theorem offerEntries_free (es : List CapEntry) (s : State) : (offerEntries es s).free = s.free := by
  induction es generalizing s with
  | nil => rfl
  | cons e es ih => simp [offerEntries, ih]
@[simp] theorem captureTick_free (s : State) (es : List CapEntry) (b t : Bool) (pos : Position) :
    (captureTick s es b t pos).free = s.free := by
  simp [captureTick]
@[simp] theorem offerEntry_pending (s : State) (e : CapEntry) : (offerEntry s e).pending = s.pending := by
  unfold offerEntry; split <;> rfl
@[simp] theorem offerEntries_pending (es : List CapEntry) (s : State) : (offerEntries es s).pending = s.pending := by
  induction es generalizing s with
  | nil => rfl
  | cons e es ih => simp [offerEntries, ih]
@[simp] theorem captureTick_pending (s : State) (es : List CapEntry) (b t : Bool) (pos : Position) :
    (captureTick s es b t pos).pending = s.pending := by
  simp [captureTick]
@[simp] theorem putEntry_inInit (s : State) (e : TraceEntry) : (putEntry s e).inInit = s.inInit := by
  unfold putEntry; split <;> rfl
@[simp] theorem putEntries_inInit (es : List TraceEntry) (s : State) : (putEntries es s).inInit = s.inInit := by
  induction es generalizing s with
  | nil => rfl
  | cons e es ih => simp [putEntries, ih]
@[simp] theorem traceTick_inInit (s : State) (pos : Position) : (traceTick s pos).inInit = s.inInit := by
  simp [traceTick]
@[simp] theorem putEntry_resetLow (s : State) (e : TraceEntry) : (putEntry s e).resetLow = s.resetLow := by
  unfold putEntry; split <;> rfl
@[simp] theorem putEntries_resetLow (es : List TraceEntry) (s : State) : (putEntries es s).resetLow = s.resetLow := by
  induction es generalizing s with
  | nil => rfl
  | cons e es ih => simp [putEntries, ih]
@[simp] theorem traceTick_resetLow (s : State) (pos : Position) : (traceTick s pos).resetLow = s.resetLow := by
  simp [traceTick]
@[simp] theorem putEntry_tb (s : State) (e : TraceEntry) : (putEntry s e).tb = s.tb := by
  unfold putEntry; split <;> rfl
@[simp] theorem putEntries_tb (es : List TraceEntry) (s : State) : (putEntries es s).tb = s.tb := by
  induction es generalizing s with
  | nil => rfl
  | cons e es ih => simp [putEntries, ih]
@[simp] theorem traceTick_tb (s : State) (pos : Position) : (traceTick s pos).tb = s.tb := by
  simp [traceTick]
@[simp] theorem putEntry_wave (s : State) (e : TraceEntry) : (putEntry s e).wave = s.wave := by
  unfold putEntry; split <;> rfl
@[simp] theorem putEntries_wave (es : List TraceEntry) (s : State) : (putEntries es s).wave = s.wave := by
  induction es generalizing s with
  | nil => rfl
  | cons e es ih => simp [putEntries, ih]
@[simp] theorem traceTick_wave (s : State) (pos : Position) : (traceTick s pos).wave = s.wave := by
  simp [traceTick]
@[simp] theorem putEntry_map (s : State) (e : TraceEntry) : (putEntry s e).map = s.map := by
  unfold putEntry; split <;> rfl
@[simp] theorem putEntries_map (es : List TraceEntry) (s : State) : (putEntries es s).map = s.map := by
  induction es generalizing s with
  | nil => rfl
  | cons e es ih => simp [putEntries, ih]
@[simp] theorem traceTick_map (s : State) (pos : Position) : (traceTick s pos).map = s.map := by
  simp [traceTick]
@[simp] theorem putEntry_slots (s : State) (e : TraceEntry) : (putEntry s e).slots = s.slots := by
  unfold putEntry; split <;> rfl
@[simp] theorem putEntries_slots (es : List TraceEntry) (s : State) : (putEntries es s).slots = s.slots := by
  induction es generalizing s with
  | nil => rfl
  | cons e es ih => simp [putEntries, ih]
@[simp] theorem traceTick_slots (s : State) (pos : Position) : (traceTick s pos).slots = s.slots := by
  simp [traceTick]
@[simp] theorem putEntry_sched (s : State) (e : TraceEntry) : (putEntry s e).sched = s.sched := by
  unfold putEntry; split <;> rfl
@[simp] theorem putEntries_sched (es : List TraceEntry) (s : State) : (putEntries es s).sched = s.sched := by
  induction es generalizing s with
  | nil => rfl
  | cons e es ih => simp [putEntries, ih]
@[simp] theorem traceTick_sched (s : State) (pos : Position) : (traceTick s pos).sched = s.sched := by
  simp [traceTick]
@[simp] theorem putEntry_lfsr (s : State) (e : TraceEntry) : (putEntry s e).lfsr = s.lfsr := by
  unfold putEntry; split <;> rfl
@[simp] theorem putEntries_lfsr (es : List TraceEntry) (s : State) : (putEntries es s).lfsr = s.lfsr := by
  induction es generalizing s with
  | nil => rfl
  | cons e es ih => simp [putEntries, ih]
@[simp] theorem traceTick_lfsr (s : State) (pos : Position) : (traceTick s pos).lfsr = s.lfsr := by
  simp [traceTick]
@[simp] theorem putEntry_ph (s : State) (e : TraceEntry) : (putEntry s e).ph = s.ph := by
  unfold putEntry; split <;> rfl
@[simp] theorem putEntries_ph (es : List TraceEntry) (s : State) : (putEntries es s).ph = s.ph := by
  induction es generalizing s with
  | nil => rfl
  | cons e es ih => simp [putEntries, ih]
@[simp] theorem traceTick_ph (s : State) (pos : Position) : (traceTick s pos).ph = s.ph := by
  simp [traceTick]
@[simp] theorem putEntry_frame (s : State) (e : TraceEntry) : (putEntry s e).frame = s.frame := by
  unfold putEntry; split <;> rfl
@[simp] theorem putEntries_frame (es : List TraceEntry) (s : State) : (putEntries es s).frame = s.frame := by
  induction es generalizing s with
  | nil => rfl
  | cons e es ih => simp [putEntries, ih]
@[simp] theorem traceTick_frame (s : State) (pos : Position) : (traceTick s pos).frame = s.frame := by
  simp [traceTick]
@[simp] theorem putEntry_run (s : State) (e : TraceEntry) : (putEntry s e).run = s.run := by
  unfold putEntry; split <;> rfl
@[simp] theorem putEntries_run (es : List TraceEntry) (s : State) : (putEntries es s).run = s.run := by
  induction es generalizing s with
  | nil => rfl
  | cons e es ih => simp [putEntries, ih]
@[simp] theorem traceTick_run (s : State) (pos : Position) : (traceTick s pos).run = s.run := by
  simp [traceTick]
@[simp] theorem putEntry_guard (s : State) (e : TraceEntry) : (putEntry s e).guard = s.guard := by
  unfold putEntry; split <;> rfl
@[simp] theorem putEntries_guard (es : List TraceEntry) (s : State) : (putEntries es s).guard = s.guard := by
  induction es generalizing s with
  | nil => rfl
  | cons e es ih => simp [putEntries, ih]
@[simp] theorem traceTick_guard (s : State) (pos : Position) : (traceTick s pos).guard = s.guard := by
  simp [traceTick]
@[simp] theorem putEntry_scan (s : State) (e : TraceEntry) : (putEntry s e).scan = s.scan := by
  unfold putEntry; split <;> rfl
@[simp] theorem putEntries_scan (es : List TraceEntry) (s : State) : (putEntries es s).scan = s.scan := by
  induction es generalizing s with
  | nil => rfl
  | cons e es ih => simp [putEntries, ih]
@[simp] theorem traceTick_scan (s : State) (pos : Position) : (traceTick s pos).scan = s.scan := by
  simp [traceTick]
@[simp] theorem putEntry_cap (s : State) (e : TraceEntry) : (putEntry s e).cap = s.cap := by
  unfold putEntry; split <;> rfl
@[simp] theorem putEntries_cap (es : List TraceEntry) (s : State) : (putEntries es s).cap = s.cap := by
  induction es generalizing s with
  | nil => rfl
  | cons e es ih => simp [putEntries, ih]
@[simp] theorem traceTick_cap (s : State) (pos : Position) : (traceTick s pos).cap = s.cap := by
  simp [traceTick]
@[simp] theorem putEntry_events (s : State) (e : TraceEntry) : (putEntry s e).events = s.events := by
  unfold putEntry; split <;> rfl
@[simp] theorem putEntries_events (es : List TraceEntry) (s : State) : (putEntries es s).events = s.events := by
  induction es generalizing s with
  | nil => rfl
  | cons e es ih => simp [putEntries, ih]
@[simp] theorem putEntry_free (s : State) (e : TraceEntry) : (putEntry s e).free = s.free := by
  unfold putEntry; split <;> rfl
@[simp] theorem putEntries_free (es : List TraceEntry) (s : State) : (putEntries es s).free = s.free := by
  induction es generalizing s with
  | nil => rfl
  | cons e es ih => simp [putEntries, ih]
@[simp] theorem putEntry_pending (s : State) (e : TraceEntry) : (putEntry s e).pending = s.pending := by
  unfold putEntry; split <;> rfl
@[simp] theorem putEntries_pending (es : List TraceEntry) (s : State) : (putEntries es s).pending = s.pending := by
  induction es generalizing s with
  | nil => rfl
  | cons e es ih => simp [putEntries, ih]
@[simp] theorem traceTick_pending (s : State) (pos : Position) : (traceTick s pos).pending = s.pending := by
  simp [traceTick]
@[simp] theorem respondTick_inInit (s : State) : (respondTick s).inInit = s.inInit := rfl
@[simp] theorem respondTick_resetLow (s : State) : (respondTick s).resetLow = s.resetLow := rfl
@[simp] theorem respondTick_tb (s : State) : (respondTick s).tb = s.tb := rfl
@[simp] theorem respondTick_wave (s : State) : (respondTick s).wave = s.wave := rfl
@[simp] theorem respondTick_map (s : State) : (respondTick s).map = s.map := rfl
@[simp] theorem respondTick_slots (s : State) : (respondTick s).slots = s.slots := rfl
@[simp] theorem respondTick_sched (s : State) : (respondTick s).sched = s.sched := rfl
@[simp] theorem respondTick_lfsr (s : State) : (respondTick s).lfsr = s.lfsr := rfl
@[simp] theorem respondTick_ph (s : State) : (respondTick s).ph = s.ph := rfl
@[simp] theorem respondTick_frame (s : State) : (respondTick s).frame = s.frame := rfl
@[simp] theorem respondTick_run (s : State) : (respondTick s).run = s.run := rfl
@[simp] theorem respondTick_guard (s : State) : (respondTick s).guard = s.guard := rfl
@[simp] theorem respondTick_scan (s : State) : (respondTick s).scan = s.scan := rfl
@[simp] theorem respondTick_cap (s : State) : (respondTick s).cap = s.cap := rfl
@[simp] theorem respondTick_trace (s : State) : (respondTick s).trace = s.trace := rfl
@[simp] theorem respondTick_cnt (s : State) : (respondTick s).cnt = s.cnt := rfl
@[simp] theorem respondTick_events (s : State) : (respondTick s).events = s.events := rfl
@[simp] theorem respondTick_free (s : State) : (respondTick s).free = s.free := rfl
@[simp] theorem respondTick_pending (s : State) : (respondTick s).pending = s.pending := rfl
@[simp] theorem sendRequest_inInit (code : Byte) (l : Link) (ps : List Byte) (s : State) : (sendRequest code l ps s).inInit = s.inInit := rfl
@[simp] theorem sendRequest_resetLow (code : Byte) (l : Link) (ps : List Byte) (s : State) : (sendRequest code l ps s).resetLow = s.resetLow := rfl
@[simp] theorem sendRequest_tb (code : Byte) (l : Link) (ps : List Byte) (s : State) : (sendRequest code l ps s).tb = s.tb := rfl
@[simp] theorem sendRequest_wave (code : Byte) (l : Link) (ps : List Byte) (s : State) : (sendRequest code l ps s).wave = s.wave := rfl
@[simp] theorem sendRequest_map (code : Byte) (l : Link) (ps : List Byte) (s : State) : (sendRequest code l ps s).map = s.map := rfl
@[simp] theorem sendRequest_slots (code : Byte) (l : Link) (ps : List Byte) (s : State) : (sendRequest code l ps s).slots = s.slots := rfl
@[simp] theorem sendRequest_sched (code : Byte) (l : Link) (ps : List Byte) (s : State) : (sendRequest code l ps s).sched = s.sched := rfl
@[simp] theorem sendRequest_lfsr (code : Byte) (l : Link) (ps : List Byte) (s : State) : (sendRequest code l ps s).lfsr = s.lfsr := rfl
@[simp] theorem sendRequest_ph (code : Byte) (l : Link) (ps : List Byte) (s : State) : (sendRequest code l ps s).ph = s.ph := rfl
@[simp] theorem sendRequest_frame (code : Byte) (l : Link) (ps : List Byte) (s : State) : (sendRequest code l ps s).frame = s.frame := rfl
@[simp] theorem sendRequest_run (code : Byte) (l : Link) (ps : List Byte) (s : State) : (sendRequest code l ps s).run = s.run := rfl
@[simp] theorem sendRequest_guard (code : Byte) (l : Link) (ps : List Byte) (s : State) : (sendRequest code l ps s).guard = s.guard := rfl
@[simp] theorem sendRequest_scan (code : Byte) (l : Link) (ps : List Byte) (s : State) : (sendRequest code l ps s).scan = s.scan := rfl
@[simp] theorem sendRequest_cap (code : Byte) (l : Link) (ps : List Byte) (s : State) : (sendRequest code l ps s).cap = s.cap := rfl
@[simp] theorem sendRequest_trace (code : Byte) (l : Link) (ps : List Byte) (s : State) : (sendRequest code l ps s).trace = s.trace := rfl
@[simp] theorem sendRequest_cnt (code : Byte) (l : Link) (ps : List Byte) (s : State) : (sendRequest code l ps s).cnt = s.cnt := rfl
@[simp] theorem sendRequest_events (code : Byte) (l : Link) (ps : List Byte) (s : State) : (sendRequest code l ps s).events = s.events := rfl
@[simp] theorem sendRequest_free (code : Byte) (l : Link) (ps : List Byte) (s : State) : (sendRequest code l ps s).free = s.free := rfl
@[simp] theorem sendRequest_pending (code : Byte) (l : Link) (ps : List Byte) (s : State) : (sendRequest code l ps s).pending = s.pending := rfl

/-! ## ADC results and the DAC interface -/

@[simp] theorem Scanner.readResult_ended (sc : Scanner) (v : Word16) : sc.readResult .ended v = sc := rfl

theorem Scanner.readResult_latest (sc : Scanner) (v : Word16) (ho : sc.outstanding.isSome = true) (hr : sc.result = none) :
    sc.readResult .latest v = { sc with result := some (signed16 v.toNat) } := by simp [Scanner.readResult, ho, hr]

@[simp] theorem Scanner.readResult_outstanding (sc : Scanner) (a : Answered) (v : Word16) :
    (sc.readResult a v).outstanding = sc.outstanding := by unfold Scanner.readResult; split <;> (try split) <;> rfl
@[simp] theorem Scanner.readResult_stop (sc : Scanner) (a : Answered) (v : Word16) :
    (sc.readResult a v).stop = sc.stop := by unfold Scanner.readResult; split <;> (try split) <;> rfl
@[simp] theorem Scanner.readResult_ptr (sc : Scanner) (a : Answered) (v : Word16) :
    (sc.readResult a v).ptr = sc.ptr := by unfold Scanner.readResult; split <;> (try split) <;> rfl
@[simp] theorem Scanner.readResult_channels (sc : Scanner) (a : Answered) (v : Word16) :
    (sc.readResult a v).channels = sc.channels := by unfold Scanner.readResult; split <;> (try split) <;> rfl

@[simp] theorem codeBits_length (code : Int) : (codeBits code).length = 16 := by simp [codeBits]

/-- Bit `i` of a code on DDATA is bit 15 - i of its pattern. -/
theorem codeBits_get (code : Int) (i : Nat) (h : i < 16) :
    (codeBits code)[i]? = some ((BitVec.ofInt 16 code).getLsbD (15 - i)) := by
  rw [codeBits, List.getElem?_map, List.getElem?_range h]
  rfl

@[simp] theorem Frame.sent_length (f : Frame) : f.sent.length = 48 := by simp [Frame.sent, Frame.ddata]

/-- What DFRAME and DDATA carry at bit `i` of a frame (R67). -/
theorem Frame.sent_get (f : Frame) (i : Nat) (h : i < 48) :
    f.sent[i]? = some { dframe := decide (i = 0), ddata := (BitVec.ofInt 16 (if i < 16 then f.a else if i < 32 then f.b
      else f.c)).getLsbD (15 - i % 16) } := by
  have key : f.ddata[i]? = some ((BitVec.ofInt 16 (if i < 16 then f.a else if i < 32 then f.b else f.c)).getLsbD
      (15 - i % 16)) := by
    unfold Frame.ddata
    by_cases h1 : i < 16
    · rw [List.getElem?_append_left (by simp; omega), List.getElem?_append_left (by simpa using h1), codeBits_get _ _ h1,
        if_pos h1, Nat.mod_eq_of_lt h1]
    · by_cases h2 : i < 32
      · rw [List.getElem?_append_left (by simp; omega), List.getElem?_append_right (by simp; omega), codeBits_length,
          codeBits_get _ _ (by omega), if_neg h1, if_pos h2, show i % 16 = i - 16 by omega]
      · rw [List.getElem?_append_right (by simp; omega), List.length_append, codeBits_length, codeBits_length,
          codeBits_get _ _ (by omega), if_neg h1, if_neg h2, show i % 16 = i - 32 by omega]
  rw [Frame.sent, List.getElem?_mapIdx, key]
  rfl

/-! ## Trace entries of a tick -/

/-- With nothing formed between ticks the tick's own entries stand alone. -/
@[simp] theorem requestEntries_nil_left (made : List TraceEntry) (free : Nat) : requestEntries [] made free = made := by
  simp [requestEntries]

/-- With nothing made in the tick the entries formed between ticks stand in the order taken. -/
@[simp] theorem requestEntries_nil_right (formed : List TraceEntry) (free : Nat) :
    requestEntries formed [] free = formed := by simp [requestEntries]

end Sys2Proof.Machine
end

