-- ==== Sys2Proof/Laws/Tick.lean ====
section
/-! SUPPORT. The sample tick seen from outside: what each field holds after its stages, and what every stage leaves alone. -/

namespace Sys2Proof.Machine

/-! ## The front half -/

@[simp] theorem tickFront_inInit (s : State) : (tickFront s).inInit = s.inInit := rfl
@[simp] theorem tickFront_resetLow (s : State) : (tickFront s).resetLow = s.resetLow := rfl
@[simp] theorem tickFront_wave (s : State) : (tickFront s).wave = s.wave := rfl
@[simp] theorem tickFront_map (s : State) : (tickFront s).map = s.map := rfl
@[simp] theorem tickFront_slots (s : State) : (tickFront s).slots = s.slots := rfl
@[simp] theorem tickFront_sched (s : State) : (tickFront s).sched = s.sched := rfl
@[simp] theorem tickFront_pending (s : State) : (tickFront s).pending = s.pending := rfl
@[simp] theorem tickFront_lfsr (s : State) : (tickFront s).lfsr = s.lfsr := rfl
@[simp] theorem tickFront_frame (s : State) : (tickFront s).frame = s.frame := rfl
@[simp] theorem tickFront_run (s : State) : (tickFront s).run = s.run := rfl
@[simp] theorem tickFront_cap (s : State) : (tickFront s).cap = s.cap := rfl
@[simp] theorem tickFront_trace (s : State) : (tickFront s).trace = s.trace := rfl
@[simp] theorem tickFront_free (s : State) : (tickFront s).free = s.free := rfl
@[simp] theorem tickFront_tb (s : State) : (tickFront s).tb = s.tb.advance := rfl
@[simp] theorem tickFront_ph (s : State) : (tickFront s).ph = s.ph.each Phase.rampStep := rfl
@[simp] theorem tickFront_scan (s : State) : (tickFront s).scan = (s.scan.closed s.tb.wraps s.tb.advance.position).command s.tb.advance.position := rfl
@[simp] theorem tickFront_guard (s : State) : (tickFront s).guard = s.guard.atTick s.scan s.tb.wraps s.tb.advance.position := rfl

/-! ## The runner at a tick -/

/-- The hold flag that the runner reads at the coming tick. -/
def State.holdRead (s : State) : Bool := holdSeen s.guard.hold ((tickFront s).events.contains .trip) s.free

/-- The runner's part of the state after the coming tick's runner work. -/
def State.runAfter (s : State) : RunSide :=
  runnerTick s.sched s.map s.tb.position s.tb.advance.position s.tb.wraps s.holdRead (tickFront s).runSide

theorem tickMiddle_eq (s : State) : tickMiddle 0 s = synthesize ((tickFront s).withRunSide s.runAfter) := by
  rw [tickMiddle, runTick_zero]; rfl

@[simp] theorem tickMiddle_inInit (s : State) : (tickMiddle 0 s).inInit = (tickFront s).inInit := by simp [tickMiddle_eq]
@[simp] theorem tickMiddle_resetLow (s : State) : (tickMiddle 0 s).resetLow = (tickFront s).resetLow := by simp [tickMiddle_eq]
@[simp] theorem tickMiddle_wave (s : State) : (tickMiddle 0 s).wave = (tickFront s).wave := by simp [tickMiddle_eq]
@[simp] theorem tickMiddle_map (s : State) : (tickMiddle 0 s).map = (tickFront s).map := by simp [tickMiddle_eq]
@[simp] theorem tickMiddle_slots (s : State) : (tickMiddle 0 s).slots = (tickFront s).slots := by simp [tickMiddle_eq]
@[simp] theorem tickMiddle_sched (s : State) : (tickMiddle 0 s).sched = (tickFront s).sched := by simp [tickMiddle_eq]
@[simp] theorem tickMiddle_pending (s : State) : (tickMiddle 0 s).pending = (tickFront s).pending := by simp [tickMiddle_eq]
@[simp] theorem tickMiddle_cap (s : State) : (tickMiddle 0 s).cap = (tickFront s).cap := by simp [tickMiddle_eq]
@[simp] theorem tickMiddle_scan (s : State) : (tickMiddle 0 s).scan = (tickFront s).scan := by simp [tickMiddle_eq]
@[simp] theorem tickMiddle_guard (s : State) : (tickMiddle 0 s).guard = (tickFront s).guard := by simp [tickMiddle_eq]
@[simp] theorem tickMiddle_free (s : State) : (tickMiddle 0 s).free = (tickFront s).free := by simp [tickMiddle_eq]
@[simp] theorem tickMiddle_tb (s : State) : (tickMiddle 0 s).tb = s.runAfter.tb := by simp [tickMiddle_eq]
@[simp] theorem tickMiddle_run (s : State) : (tickMiddle 0 s).run = s.runAfter.run := by simp [tickMiddle_eq]
@[simp] theorem tickMiddle_trace (s : State) : (tickMiddle 0 s).trace = s.runAfter.trace := by simp [tickMiddle_eq]
@[simp] theorem tickMiddle_events (s : State) : (tickMiddle 0 s).events = s.runAfter.events := by simp [tickMiddle_eq]

/-! ## The whole tick -/

@[simp] theorem workTick_inInit (t : Bool) (s : State) : (workTick 0 t s).inInit = s.inInit := by simp [workTick]
@[simp] theorem workTick_resetLow (t : Bool) (s : State) : (workTick 0 t s).resetLow = s.resetLow := by simp [workTick]
@[simp] theorem workTick_wave (t : Bool) (s : State) : (workTick 0 t s).wave = s.wave := by simp [workTick]
@[simp] theorem workTick_map (t : Bool) (s : State) : (workTick 0 t s).map = s.map := by simp [workTick]
@[simp] theorem workTick_slots (t : Bool) (s : State) : (workTick 0 t s).slots = s.slots := by simp [workTick]
@[simp] theorem workTick_sched (t : Bool) (s : State) : (workTick 0 t s).sched = s.sched := by simp [workTick]
@[simp] theorem workTick_pending (t : Bool) (s : State) : (workTick 0 t s).pending = s.pending := by simp [workTick]
@[simp] theorem workTick_lfsr (t : Bool) (s : State) : (workTick 0 t s).lfsr = (tickMiddle 0 s).lfsr := by simp [workTick]
@[simp] theorem workTick_ph (t : Bool) (s : State) : (workTick 0 t s).ph = (tickMiddle 0 s).ph := by simp [workTick]
@[simp] theorem workTick_frame (t : Bool) (s : State) : (workTick 0 t s).frame = (tickMiddle 0 s).frame := by simp [workTick]
@[simp] theorem workTick_tb (t : Bool) (s : State) : (workTick 0 t s).tb = s.runAfter.tb := by simp [workTick]
@[simp] theorem workTick_run (t : Bool) (s : State) : (workTick 0 t s).run = s.runAfter.run := by simp [workTick]
@[simp] theorem workTick_scan (t : Bool) (s : State) : (workTick 0 t s).scan = (s.scan.closed s.tb.wraps s.tb.advance.position).command s.tb.advance.position := by simp [workTick]
@[simp] theorem workTick_guard (t : Bool) (s : State) : (workTick 0 t s).guard = s.guard.atTick s.scan s.tb.wraps s.tb.advance.position := by simp [workTick]
@[simp] theorem workTick_free (t : Bool) (s : State) : (workTick 0 t s).free = s.free + 1 := by simp [workTick, traceTick]

/-- The events of a tick: those up to the runner stay, and the capture and the trace only add theirs. -/
theorem offerEntries_events (es : List CapEntry) (s : State) : ∃ more, (offerEntries es s).events = s.events ++ more := by
  induction es generalizing s with
  | nil => exact ⟨[], by simp [offerEntries]⟩
  | cons e es ih =>
    obtain ⟨more, h⟩ := ih (offerEntry s e)
    simp only [offerEntries, h]
    unfold offerEntry
    split
    · dsimp only
      split
      · exact ⟨.captureDone :: more, by simp⟩
      · exact ⟨more, rfl⟩
    · exact ⟨more, rfl⟩

theorem workTick_events (t : Bool) (s : State) : ∃ more, (workTick 0 t s).events = s.runAfter.events ++ more := by
  obtain ⟨more, h⟩ := offerEntries_events (conversionOffer s.scan ++
      (if s.tb.wraps then cycleOffers (tickMiddle 0 s).scan s.tb.advance.position else []))
    { tickMiddle 0 s with cap := (tickMiddle 0 s).cap.atTick s.tb.wraps t (tickMiddle 0 s).events s.tb.advance.position }
  simp only [workTick, respondTick_events, traceTick, putEntries_events]
  have hc : (captureTick (tickMiddle 0 s) (conversionOffer s.scan) s.tb.wraps t s.tb.advance.position).events =
      s.runAfter.events ++ more := by
    simpa [captureTick] using h
  split
  · exact ⟨more, hc⟩
  · exact ⟨more ++ [.deferredEntry], by rw [hc, List.append_assoc]⟩

/-! ## Requests that wait -/

theorem takeWaiting_zero (late : Nat) (s : State) : takeWaiting late 0 s = s := rfl

/-- With no request waiting none is taken. -/
theorem takeAllBut_none (late : Nat) (s : State) (h : untakenCount s = 0) : takeAllBut late s = s := by
  simp [takeAllBut, h, takeWaiting]

theorem takeAll_none (s : State) (h : untakenCount s = 0) : takeAll s = s := takeAllBut_none 0 s h

/-- With no request waiting none is left to be taken during the tick. -/
theorem leftLate_none (s : State) (h : untakenCount s = 0) : leftLate s = 0 := by
  have : s.links.pl.untaken = [] := List.eq_nil_of_length_eq_zero (by unfold untakenCount at h; omega)
  simp [leftLate, tableRequests, this]

/-- What the taking of any request keeps, the taking of all that wait keeps. -/
theorem takeWaiting_keeps (P : State → Prop) (hfree : ∀ s n, P s → P { s with free := n })
    (htake : ∀ l s, P s → P (takeOldest l s)) (late k : Nat) (s : State) (h : P s) : P (takeWaiting late k s) := by
  induction k generalizing s with
  | zero => exact h
  | succ k ih =>
    unfold takeWaiting
    split
    · exact h
    · exact ih _ (htake _ _ h)
    · exact ih _ (htake _ _ (hfree _ _ h))

theorem takeNext_keeps (P : State → Prop) (l : Link) (htake : ∀ s, P s → P (takeOldest l s)) (n : Nat) (s : State)
    (h : P s) : P (takeNext l n s) := by
  induction n generalizing s with
  | zero => exact h
  | succ n ih => exact ih _ (htake _ h)

/-- What a stretch of applications and the taking of a request of the Program Link keep, the applications of a tick keep,
whatever requests are taken among them. -/
theorem applyAmong_keeps (P : State → Prop) (prev pos : Position) (hfree : ∀ s n, P s → P { s with free := n })
    (htake : ∀ s, P s → P (takeOldest .pl s)) (happly : ∀ k s, P s → P (applyStretch prev pos k s)) (late k : Nat)
    (s : State) (h : P s) : P (applyAmong prev pos late k s) := by
  induction late generalizing k s with
  | zero => exact happly _ _ h
  | succ late ih => exact ih _ _ (htake _ (hfree _ _ (happly _ _ h)))

/-- What each part of the runner's work keeps, the whole of it keeps. -/
theorem runTick_keeps (P : State → Prop) (prev pos : Position) (b hold : Bool) (hfree : ∀ s n, P s → P { s with free := n })
    (htake : ∀ s, P s → P (takeOldest .pl s)) (happly : ∀ k s, P s → P (applyStretch prev pos k s))
    (hrenew : ∀ s, P s → P (s.withRunSide s.runSide.renewed))
    (hfill : ∀ s, P s → P (s.withRunSide (s.runSide.filled s.sched)))
    (hother : ∀ s, P s → P (s.withRunSide (otherWork s.sched s.map pos hold s.runSide)))
    (late : Nat) (s : State) (h : P s) : P (runTick late s prev pos b hold) := by
  unfold runTick
  dsimp only
  split
  · exact hfill _ (applyAmong_keeps P prev pos hfree htake happly late _ _ (hrenew _ h))
  · exact takeNext_keeps P .pl htake late _ (hother _ (hrenew _ h))

/-- A working tick with no request waiting. -/
theorem tick_working (t : Bool) (s : State) (hw : s.works = true) (h : untakenCount s = 0) : tick t s = workTick 0 t s := by
  simp [tick, hw, takeAllBut_none _ s h, leftLate_none s h]

/-- The row of an event that comes about is its tick. -/
theorem eventTick_hit (hit : TickEvent → Bool) (t : Bool) (s : State) (hw : s.works = true)
    (h : (tick t s).events.any hit = true) : eventTick hit t s = tick t s := by simp [eventTick, hw, h]

/-- The row of an event is its tick, or nothing comes about. -/
theorem eventTick_cases (hit : TickEvent → Bool) (t : Bool) (s : State) :
    eventTick hit t s = tick t s ∨ eventTick hit t s = s := by unfold eventTick; split <;> simp

/-- An event that the runner's work or an earlier stage notes makes its row the tick. -/
theorem eventTick_of_runAfter (hit : TickEvent → Bool) (t : Bool) (s : State) (hw : s.works = true)
    (hu : untakenCount s = 0) (h : s.runAfter.events.any hit = true) : eventTick hit t s = workTick 0 t s := by
  rw [eventTick_hit hit t s hw, tick_working t s hw hu]
  obtain ⟨more, hm⟩ := workTick_events t s
  rw [tick_working t s hw hu, hm, List.any_append, h, Bool.true_or]

/-! ## The samples leave the settings alone -/

open Sys2Proof.Safety

theorem sameSettings_synthPhase (s : State) (q p : PhaseId) : SameSettings ((synthPhase s q).ph.get p) (s.ph.get p) := by
  cases q <;> cases p <;> exact ⟨rfl, rfl, rfl, rfl, rfl, rfl, rfl⟩

theorem sameSettings_trans {x y z : Phase} (h1 : SameSettings x y) (h2 : SameSettings y z) : SameSettings x z := by
  obtain ⟨a1, a2, a3, a4, a5, a6, a7⟩ := h1
  obtain ⟨b1, b2, b3, b4, b5, b6, b7⟩ := h2
  exact ⟨a1.trans b1, a2.trans b2, a3.trans b3, a4.trans b4, a5.trans b5, a6.trans b6, a7.trans b7⟩

theorem sameSettings_synthesize (s : State) (p : PhaseId) : SameSettings ((synthesize s).ph.get p) (s.ph.get p) :=
  sameSettings_trans (sameSettings_trans (sameSettings_synthPhase _ .c p) (sameSettings_synthPhase _ .b p))
    (sameSettings_synthPhase s .a p)

/-- The settings after a working tick are those the runner leaves. -/
theorem sameSettings_workTick (x : Bool) (s : State) (p : PhaseId) :
    SameSettings ((workTick 0 x s).ph.get p) (s.runAfter.ph.get p) := by
  rw [workTick_ph, tickMiddle_eq]
  exact sameSettings_synthesize _ p

/-- A phase's settings after the coming tick's ramp step. -/
theorem rampStepped_eq (s : State) (p : PhaseId) : rampStepped s p = (s.ph.get p).rampStep := by
  unfold rampStepped Phase.rampStep
  generalize s.ph.get p = q
  obtain ⟨_, _, ramp, _, _, _, _, _, _, _⟩ := q
  cases ramp with
  | none => rfl
  | some rp => dsimp only; split <;> rfl

/-! ## The counts and the links through the later stages -/

@[simp] theorem synthPhase_cnt_snap (s : State) (p : PhaseId) : (synthPhase s p).cnt.snap = s.cnt.snap := by
  unfold synthPhase; dsimp only; split <;> (try cases p) <;> rfl
@[simp] theorem synthPhase_cnt_seq (s : State) (p : PhaseId) : (synthPhase s p).cnt.seq = s.cnt.seq := by
  unfold synthPhase; dsimp only; split <;> (try cases p) <;> rfl
@[simp] theorem synthPhase_cnt_stamp (s : State) (p : PhaseId) : (synthPhase s p).cnt.stamp = s.cnt.stamp := by
  unfold synthPhase; dsimp only; split <;> (try cases p) <;> rfl
@[simp] theorem synthPhase_cnt_request (s : State) (p : PhaseId) : (synthPhase s p).cnt.request = s.cnt.request := by
  unfold synthPhase; dsimp only; split <;> (try cases p) <;> rfl
@[simp] theorem synthPhase_cnt_interval (s : State) (p : PhaseId) : (synthPhase s p).cnt.interval = s.cnt.interval := by
  unfold synthPhase; dsimp only; split <;> (try cases p) <;> rfl
@[simp] theorem synthPhase_cnt_boundary (s : State) (p : PhaseId) : (synthPhase s p).cnt.boundary = s.cnt.boundary := by
  unfold synthPhase; dsimp only; split <;> (try cases p) <;> rfl
@[simp] theorem synthPhase_live_applied (s : State) (p : PhaseId) : (synthPhase s p).cnt.live.applied = s.cnt.live.applied := by
  unfold synthPhase; dsimp only; split <;> (try cases p) <;> rfl
@[simp] theorem synthPhase_live_late (s : State) (p : PhaseId) : (synthPhase s p).cnt.live.late = s.cnt.live.late := by
  unfold synthPhase; dsimp only; split <;> (try cases p) <;> rfl
@[simp] theorem synthPhase_live_overcurrent (s : State) (p : PhaseId) : (synthPhase s p).cnt.live.overcurrent = s.cnt.live.overcurrent := by
  unfold synthPhase; dsimp only; split <;> (try cases p) <;> rfl
@[simp] theorem synthPhase_live_missing (s : State) (p : PhaseId) : (synthPhase s p).cnt.live.missing = s.cnt.live.missing := by
  unfold synthPhase; dsimp only; split <;> (try cases p) <;> rfl
@[simp] theorem synthPhase_live_captureLost (s : State) (p : PhaseId) : (synthPhase s p).cnt.live.captureLost = s.cnt.live.captureLost := by
  unfold synthPhase; dsimp only; split <;> (try cases p) <;> rfl
@[simp] theorem synthPhase_live_traceLost (s : State) (p : PhaseId) : (synthPhase s p).cnt.live.traceLost = s.cnt.live.traceLost := by
  unfold synthPhase; dsimp only; split <;> (try cases p) <;> rfl
@[simp] theorem synthesize_cnt_snap (s : State) : (synthesize s).cnt.snap = s.cnt.snap := by
  simp [synthesize]
@[simp] theorem synthesize_cnt_seq (s : State) : (synthesize s).cnt.seq = s.cnt.seq := by
  simp [synthesize]
@[simp] theorem synthesize_cnt_stamp (s : State) : (synthesize s).cnt.stamp = s.cnt.stamp := by
  simp [synthesize]
@[simp] theorem synthesize_cnt_request (s : State) : (synthesize s).cnt.request = s.cnt.request := by
  simp [synthesize]
@[simp] theorem synthesize_cnt_interval (s : State) : (synthesize s).cnt.interval = s.cnt.interval := by
  simp [synthesize]
@[simp] theorem synthesize_cnt_boundary (s : State) : (synthesize s).cnt.boundary = s.cnt.boundary := by
  simp [synthesize]
@[simp] theorem synthesize_live_applied (s : State) : (synthesize s).cnt.live.applied = s.cnt.live.applied := by
  simp [synthesize]
@[simp] theorem synthesize_live_late (s : State) : (synthesize s).cnt.live.late = s.cnt.live.late := by
  simp [synthesize]
@[simp] theorem synthesize_live_overcurrent (s : State) : (synthesize s).cnt.live.overcurrent = s.cnt.live.overcurrent := by
  simp [synthesize]
@[simp] theorem synthesize_live_missing (s : State) : (synthesize s).cnt.live.missing = s.cnt.live.missing := by
  simp [synthesize]
@[simp] theorem synthesize_live_captureLost (s : State) : (synthesize s).cnt.live.captureLost = s.cnt.live.captureLost := by
  simp [synthesize]
@[simp] theorem synthesize_live_traceLost (s : State) : (synthesize s).cnt.live.traceLost = s.cnt.live.traceLost := by
  simp [synthesize]
@[simp] theorem offerEntry_cnt_snap (s : State) (e : CapEntry) : (offerEntry s e).cnt.snap = s.cnt.snap := by
  unfold offerEntry; split
  · dsimp only; split <;> rfl
  · rfl
@[simp] theorem offerEntry_cnt_seq (s : State) (e : CapEntry) : (offerEntry s e).cnt.seq = s.cnt.seq := by
  unfold offerEntry; split
  · dsimp only; split <;> rfl
  · rfl
@[simp] theorem offerEntry_cnt_stamp (s : State) (e : CapEntry) : (offerEntry s e).cnt.stamp = s.cnt.stamp := by
  unfold offerEntry; split
  · dsimp only; split <;> rfl
  · rfl
@[simp] theorem offerEntry_cnt_request (s : State) (e : CapEntry) : (offerEntry s e).cnt.request = s.cnt.request := by
  unfold offerEntry; split
  · dsimp only; split <;> rfl
  · rfl
@[simp] theorem offerEntry_cnt_interval (s : State) (e : CapEntry) : (offerEntry s e).cnt.interval = s.cnt.interval := by
  unfold offerEntry; split
  · dsimp only; split <;> rfl
  · rfl
@[simp] theorem offerEntry_cnt_boundary (s : State) (e : CapEntry) : (offerEntry s e).cnt.boundary = s.cnt.boundary := by
  unfold offerEntry; split
  · dsimp only; split <;> rfl
  · rfl
@[simp] theorem offerEntry_live_applied (s : State) (e : CapEntry) : (offerEntry s e).cnt.live.applied = s.cnt.live.applied := by
  unfold offerEntry; split
  · dsimp only; split <;> rfl
  · rfl
@[simp] theorem offerEntry_live_late (s : State) (e : CapEntry) : (offerEntry s e).cnt.live.late = s.cnt.live.late := by
  unfold offerEntry; split
  · dsimp only; split <;> rfl
  · rfl
@[simp] theorem offerEntry_live_overcurrent (s : State) (e : CapEntry) : (offerEntry s e).cnt.live.overcurrent = s.cnt.live.overcurrent := by
  unfold offerEntry; split
  · dsimp only; split <;> rfl
  · rfl
@[simp] theorem offerEntry_live_missing (s : State) (e : CapEntry) : (offerEntry s e).cnt.live.missing = s.cnt.live.missing := by
  unfold offerEntry; split
  · dsimp only; split <;> rfl
  · rfl
@[simp] theorem offerEntry_live_traceLost (s : State) (e : CapEntry) : (offerEntry s e).cnt.live.traceLost = s.cnt.live.traceLost := by
  unfold offerEntry; split
  · dsimp only; split <;> rfl
  · rfl
@[simp] theorem offerEntry_live_clampA (s : State) (e : CapEntry) : (offerEntry s e).cnt.live.clampA = s.cnt.live.clampA := by
  unfold offerEntry; split
  · dsimp only; split <;> rfl
  · rfl
@[simp] theorem offerEntry_live_clampB (s : State) (e : CapEntry) : (offerEntry s e).cnt.live.clampB = s.cnt.live.clampB := by
  unfold offerEntry; split
  · dsimp only; split <;> rfl
  · rfl
@[simp] theorem offerEntry_live_clampC (s : State) (e : CapEntry) : (offerEntry s e).cnt.live.clampC = s.cnt.live.clampC := by
  unfold offerEntry; split
  · dsimp only; split <;> rfl
  · rfl
@[simp] theorem offerEntries_cnt_snap (es : List CapEntry) (s : State) : (offerEntries es s).cnt.snap = s.cnt.snap := by
  induction es generalizing s with
  | nil => rfl
  | cons e es ih => simp [offerEntries, ih]
@[simp] theorem offerEntries_cnt_seq (es : List CapEntry) (s : State) : (offerEntries es s).cnt.seq = s.cnt.seq := by
  induction es generalizing s with
  | nil => rfl
  | cons e es ih => simp [offerEntries, ih]
@[simp] theorem offerEntries_cnt_stamp (es : List CapEntry) (s : State) : (offerEntries es s).cnt.stamp = s.cnt.stamp := by
  induction es generalizing s with
  | nil => rfl
  | cons e es ih => simp [offerEntries, ih]
@[simp] theorem offerEntries_cnt_request (es : List CapEntry) (s : State) : (offerEntries es s).cnt.request = s.cnt.request := by
  induction es generalizing s with
  | nil => rfl
  | cons e es ih => simp [offerEntries, ih]
@[simp] theorem offerEntries_cnt_interval (es : List CapEntry) (s : State) : (offerEntries es s).cnt.interval = s.cnt.interval := by
  induction es generalizing s with
  | nil => rfl
  | cons e es ih => simp [offerEntries, ih]
@[simp] theorem offerEntries_cnt_boundary (es : List CapEntry) (s : State) : (offerEntries es s).cnt.boundary = s.cnt.boundary := by
  induction es generalizing s with
  | nil => rfl
  | cons e es ih => simp [offerEntries, ih]
@[simp] theorem offerEntries_live_applied (es : List CapEntry) (s : State) : (offerEntries es s).cnt.live.applied = s.cnt.live.applied := by
  induction es generalizing s with
  | nil => rfl
  | cons e es ih => simp [offerEntries, ih]
@[simp] theorem offerEntries_live_late (es : List CapEntry) (s : State) : (offerEntries es s).cnt.live.late = s.cnt.live.late := by
  induction es generalizing s with
  | nil => rfl
  | cons e es ih => simp [offerEntries, ih]
@[simp] theorem offerEntries_live_overcurrent (es : List CapEntry) (s : State) : (offerEntries es s).cnt.live.overcurrent = s.cnt.live.overcurrent := by
  induction es generalizing s with
  | nil => rfl
  | cons e es ih => simp [offerEntries, ih]
@[simp] theorem offerEntries_live_missing (es : List CapEntry) (s : State) : (offerEntries es s).cnt.live.missing = s.cnt.live.missing := by
  induction es generalizing s with
  | nil => rfl
  | cons e es ih => simp [offerEntries, ih]
@[simp] theorem offerEntries_live_traceLost (es : List CapEntry) (s : State) : (offerEntries es s).cnt.live.traceLost = s.cnt.live.traceLost := by
  induction es generalizing s with
  | nil => rfl
  | cons e es ih => simp [offerEntries, ih]
@[simp] theorem offerEntries_live_clampA (es : List CapEntry) (s : State) : (offerEntries es s).cnt.live.clampA = s.cnt.live.clampA := by
  induction es generalizing s with
  | nil => rfl
  | cons e es ih => simp [offerEntries, ih]
@[simp] theorem offerEntries_live_clampB (es : List CapEntry) (s : State) : (offerEntries es s).cnt.live.clampB = s.cnt.live.clampB := by
  induction es generalizing s with
  | nil => rfl
  | cons e es ih => simp [offerEntries, ih]
@[simp] theorem offerEntries_live_clampC (es : List CapEntry) (s : State) : (offerEntries es s).cnt.live.clampC = s.cnt.live.clampC := by
  induction es generalizing s with
  | nil => rfl
  | cons e es ih => simp [offerEntries, ih]
@[simp] theorem captureTick_cnt_snap (s : State) (es : List CapEntry) (b x : Bool) (pos : Position) : (captureTick s es b x pos).cnt.snap = s.cnt.snap := by
  simp [captureTick]
@[simp] theorem captureTick_cnt_seq (s : State) (es : List CapEntry) (b x : Bool) (pos : Position) : (captureTick s es b x pos).cnt.seq = s.cnt.seq := by
  simp [captureTick]
@[simp] theorem captureTick_cnt_stamp (s : State) (es : List CapEntry) (b x : Bool) (pos : Position) : (captureTick s es b x pos).cnt.stamp = s.cnt.stamp := by
  simp [captureTick]
@[simp] theorem captureTick_cnt_request (s : State) (es : List CapEntry) (b x : Bool) (pos : Position) : (captureTick s es b x pos).cnt.request = s.cnt.request := by
  simp [captureTick]
@[simp] theorem captureTick_cnt_interval (s : State) (es : List CapEntry) (b x : Bool) (pos : Position) : (captureTick s es b x pos).cnt.interval = s.cnt.interval := by
  simp [captureTick]
@[simp] theorem captureTick_cnt_boundary (s : State) (es : List CapEntry) (b x : Bool) (pos : Position) : (captureTick s es b x pos).cnt.boundary = s.cnt.boundary := by
  simp [captureTick]
@[simp] theorem captureTick_live_applied (s : State) (es : List CapEntry) (b x : Bool) (pos : Position) : (captureTick s es b x pos).cnt.live.applied = s.cnt.live.applied := by
  simp [captureTick]
@[simp] theorem captureTick_live_late (s : State) (es : List CapEntry) (b x : Bool) (pos : Position) : (captureTick s es b x pos).cnt.live.late = s.cnt.live.late := by
  simp [captureTick]
@[simp] theorem captureTick_live_overcurrent (s : State) (es : List CapEntry) (b x : Bool) (pos : Position) : (captureTick s es b x pos).cnt.live.overcurrent = s.cnt.live.overcurrent := by
  simp [captureTick]
@[simp] theorem captureTick_live_missing (s : State) (es : List CapEntry) (b x : Bool) (pos : Position) : (captureTick s es b x pos).cnt.live.missing = s.cnt.live.missing := by
  simp [captureTick]
@[simp] theorem captureTick_live_traceLost (s : State) (es : List CapEntry) (b x : Bool) (pos : Position) : (captureTick s es b x pos).cnt.live.traceLost = s.cnt.live.traceLost := by
  simp [captureTick]
@[simp] theorem captureTick_live_clampA (s : State) (es : List CapEntry) (b x : Bool) (pos : Position) : (captureTick s es b x pos).cnt.live.clampA = s.cnt.live.clampA := by
  simp [captureTick]
@[simp] theorem captureTick_live_clampB (s : State) (es : List CapEntry) (b x : Bool) (pos : Position) : (captureTick s es b x pos).cnt.live.clampB = s.cnt.live.clampB := by
  simp [captureTick]
@[simp] theorem captureTick_live_clampC (s : State) (es : List CapEntry) (b x : Bool) (pos : Position) : (captureTick s es b x pos).cnt.live.clampC = s.cnt.live.clampC := by
  simp [captureTick]
@[simp] theorem putEntry_cnt_snap (s : State) (e : TraceEntry) : (putEntry s e).cnt.snap = s.cnt.snap := by
  unfold putEntry; split <;> rfl
@[simp] theorem putEntry_cnt_seq (s : State) (e : TraceEntry) : (putEntry s e).cnt.seq = s.cnt.seq := by
  unfold putEntry; split <;> rfl
@[simp] theorem putEntry_cnt_stamp (s : State) (e : TraceEntry) : (putEntry s e).cnt.stamp = s.cnt.stamp := by
  unfold putEntry; split <;> rfl
@[simp] theorem putEntry_cnt_request (s : State) (e : TraceEntry) : (putEntry s e).cnt.request = s.cnt.request := by
  unfold putEntry; split <;> rfl
@[simp] theorem putEntry_cnt_interval (s : State) (e : TraceEntry) : (putEntry s e).cnt.interval = s.cnt.interval := by
  unfold putEntry; split <;> rfl
@[simp] theorem putEntry_cnt_boundary (s : State) (e : TraceEntry) : (putEntry s e).cnt.boundary = s.cnt.boundary := by
  unfold putEntry; split <;> rfl
@[simp] theorem putEntry_live_applied (s : State) (e : TraceEntry) : (putEntry s e).cnt.live.applied = s.cnt.live.applied := by
  unfold putEntry; split <;> rfl
@[simp] theorem putEntry_live_late (s : State) (e : TraceEntry) : (putEntry s e).cnt.live.late = s.cnt.live.late := by
  unfold putEntry; split <;> rfl
@[simp] theorem putEntry_live_overcurrent (s : State) (e : TraceEntry) : (putEntry s e).cnt.live.overcurrent = s.cnt.live.overcurrent := by
  unfold putEntry; split <;> rfl
@[simp] theorem putEntry_live_missing (s : State) (e : TraceEntry) : (putEntry s e).cnt.live.missing = s.cnt.live.missing := by
  unfold putEntry; split <;> rfl
@[simp] theorem putEntry_live_captureLost (s : State) (e : TraceEntry) : (putEntry s e).cnt.live.captureLost = s.cnt.live.captureLost := by
  unfold putEntry; split <;> rfl
@[simp] theorem putEntry_live_clampA (s : State) (e : TraceEntry) : (putEntry s e).cnt.live.clampA = s.cnt.live.clampA := by
  unfold putEntry; split <;> rfl
@[simp] theorem putEntry_live_clampB (s : State) (e : TraceEntry) : (putEntry s e).cnt.live.clampB = s.cnt.live.clampB := by
  unfold putEntry; split <;> rfl
@[simp] theorem putEntry_live_clampC (s : State) (e : TraceEntry) : (putEntry s e).cnt.live.clampC = s.cnt.live.clampC := by
  unfold putEntry; split <;> rfl
@[simp] theorem putEntries_cnt_snap (es : List TraceEntry) (s : State) : (putEntries es s).cnt.snap = s.cnt.snap := by
  induction es generalizing s with
  | nil => rfl
  | cons e es ih => simp [putEntries, ih]
@[simp] theorem putEntries_cnt_seq (es : List TraceEntry) (s : State) : (putEntries es s).cnt.seq = s.cnt.seq := by
  induction es generalizing s with
  | nil => rfl
  | cons e es ih => simp [putEntries, ih]
@[simp] theorem putEntries_cnt_stamp (es : List TraceEntry) (s : State) : (putEntries es s).cnt.stamp = s.cnt.stamp := by
  induction es generalizing s with
  | nil => rfl
  | cons e es ih => simp [putEntries, ih]
@[simp] theorem putEntries_cnt_request (es : List TraceEntry) (s : State) : (putEntries es s).cnt.request = s.cnt.request := by
  induction es generalizing s with
  | nil => rfl
  | cons e es ih => simp [putEntries, ih]
@[simp] theorem putEntries_cnt_interval (es : List TraceEntry) (s : State) : (putEntries es s).cnt.interval = s.cnt.interval := by
  induction es generalizing s with
  | nil => rfl
  | cons e es ih => simp [putEntries, ih]
@[simp] theorem putEntries_cnt_boundary (es : List TraceEntry) (s : State) : (putEntries es s).cnt.boundary = s.cnt.boundary := by
  induction es generalizing s with
  | nil => rfl
  | cons e es ih => simp [putEntries, ih]
@[simp] theorem putEntries_live_applied (es : List TraceEntry) (s : State) : (putEntries es s).cnt.live.applied = s.cnt.live.applied := by
  induction es generalizing s with
  | nil => rfl
  | cons e es ih => simp [putEntries, ih]
@[simp] theorem putEntries_live_late (es : List TraceEntry) (s : State) : (putEntries es s).cnt.live.late = s.cnt.live.late := by
  induction es generalizing s with
  | nil => rfl
  | cons e es ih => simp [putEntries, ih]
@[simp] theorem putEntries_live_overcurrent (es : List TraceEntry) (s : State) : (putEntries es s).cnt.live.overcurrent = s.cnt.live.overcurrent := by
  induction es generalizing s with
  | nil => rfl
  | cons e es ih => simp [putEntries, ih]
@[simp] theorem putEntries_live_missing (es : List TraceEntry) (s : State) : (putEntries es s).cnt.live.missing = s.cnt.live.missing := by
  induction es generalizing s with
  | nil => rfl
  | cons e es ih => simp [putEntries, ih]
@[simp] theorem putEntries_live_captureLost (es : List TraceEntry) (s : State) : (putEntries es s).cnt.live.captureLost = s.cnt.live.captureLost := by
  induction es generalizing s with
  | nil => rfl
  | cons e es ih => simp [putEntries, ih]
@[simp] theorem putEntries_live_clampA (es : List TraceEntry) (s : State) : (putEntries es s).cnt.live.clampA = s.cnt.live.clampA := by
  induction es generalizing s with
  | nil => rfl
  | cons e es ih => simp [putEntries, ih]
@[simp] theorem putEntries_live_clampB (es : List TraceEntry) (s : State) : (putEntries es s).cnt.live.clampB = s.cnt.live.clampB := by
  induction es generalizing s with
  | nil => rfl
  | cons e es ih => simp [putEntries, ih]
@[simp] theorem putEntries_live_clampC (es : List TraceEntry) (s : State) : (putEntries es s).cnt.live.clampC = s.cnt.live.clampC := by
  induction es generalizing s with
  | nil => rfl
  | cons e es ih => simp [putEntries, ih]
@[simp] theorem traceTick_cnt_snap (s : State) (pos : Position) : (traceTick s pos).cnt.snap = s.cnt.snap := by
  simp [traceTick]
@[simp] theorem traceTick_cnt_seq (s : State) (pos : Position) : (traceTick s pos).cnt.seq = s.cnt.seq := by
  simp [traceTick]
@[simp] theorem traceTick_cnt_stamp (s : State) (pos : Position) : (traceTick s pos).cnt.stamp = s.cnt.stamp := by
  simp [traceTick]
@[simp] theorem traceTick_cnt_request (s : State) (pos : Position) : (traceTick s pos).cnt.request = s.cnt.request := by
  simp [traceTick]
@[simp] theorem traceTick_cnt_interval (s : State) (pos : Position) : (traceTick s pos).cnt.interval = s.cnt.interval := by
  simp [traceTick]
@[simp] theorem traceTick_cnt_boundary (s : State) (pos : Position) : (traceTick s pos).cnt.boundary = s.cnt.boundary := by
  simp [traceTick]
@[simp] theorem traceTick_live_applied (s : State) (pos : Position) : (traceTick s pos).cnt.live.applied = s.cnt.live.applied := by
  simp [traceTick]
@[simp] theorem traceTick_live_late (s : State) (pos : Position) : (traceTick s pos).cnt.live.late = s.cnt.live.late := by
  simp [traceTick]
@[simp] theorem traceTick_live_overcurrent (s : State) (pos : Position) : (traceTick s pos).cnt.live.overcurrent = s.cnt.live.overcurrent := by
  simp [traceTick]
@[simp] theorem traceTick_live_missing (s : State) (pos : Position) : (traceTick s pos).cnt.live.missing = s.cnt.live.missing := by
  simp [traceTick]
@[simp] theorem traceTick_live_captureLost (s : State) (pos : Position) : (traceTick s pos).cnt.live.captureLost = s.cnt.live.captureLost := by
  simp [traceTick]
@[simp] theorem traceTick_live_clampA (s : State) (pos : Position) : (traceTick s pos).cnt.live.clampA = s.cnt.live.clampA := by
  simp [traceTick]
@[simp] theorem traceTick_live_clampB (s : State) (pos : Position) : (traceTick s pos).cnt.live.clampB = s.cnt.live.clampB := by
  simp [traceTick]
@[simp] theorem traceTick_live_clampC (s : State) (pos : Position) : (traceTick s pos).cnt.live.clampC = s.cnt.live.clampC := by
  simp [traceTick]
@[simp] theorem workTick_cnt_snap (x : Bool) (s : State) : (workTick 0 x s).cnt.snap = s.runAfter.cnt.snap := by
  simp [workTick, tickMiddle_eq]
@[simp] theorem workTick_cnt_seq (x : Bool) (s : State) : (workTick 0 x s).cnt.seq = s.runAfter.cnt.seq := by
  simp [workTick, tickMiddle_eq]
@[simp] theorem workTick_cnt_stamp (x : Bool) (s : State) : (workTick 0 x s).cnt.stamp = s.runAfter.cnt.stamp := by
  simp [workTick, tickMiddle_eq]
@[simp] theorem workTick_cnt_request (x : Bool) (s : State) : (workTick 0 x s).cnt.request = s.runAfter.cnt.request := by
  simp [workTick, tickMiddle_eq]
@[simp] theorem workTick_cnt_interval (x : Bool) (s : State) : (workTick 0 x s).cnt.interval = s.runAfter.cnt.interval := by
  simp [workTick, tickMiddle_eq]
@[simp] theorem workTick_cnt_boundary (x : Bool) (s : State) : (workTick 0 x s).cnt.boundary = s.runAfter.cnt.boundary := by
  simp [workTick, tickMiddle_eq]
@[simp] theorem workTick_live_applied (x : Bool) (s : State) : (workTick 0 x s).cnt.live.applied = s.runAfter.cnt.live.applied := by
  simp [workTick, tickMiddle_eq]
@[simp] theorem workTick_live_late (x : Bool) (s : State) : (workTick 0 x s).cnt.live.late = s.runAfter.cnt.live.late := by
  simp [workTick, tickMiddle_eq]
@[simp] theorem workTick_live_overcurrent (x : Bool) (s : State) : (workTick 0 x s).cnt.live.overcurrent = s.runAfter.cnt.live.overcurrent := by
  simp [workTick, tickMiddle_eq]
@[simp] theorem workTick_live_missing (x : Bool) (s : State) : (workTick 0 x s).cnt.live.missing = s.runAfter.cnt.live.missing := by
  simp [workTick, tickMiddle_eq]
@[simp] theorem snapshotTick_link_csLow (s : State) (b : Bool) (pos : Position) (l : Link) : ((snapshotTick s b pos).links.get l).csLow = (s.links.get l).csLow := by
  simp [snapshotTick]
@[simp] theorem snapshotTick_link_tx (s : State) (b : Bool) (pos : Position) (l : Link) : ((snapshotTick s b pos).links.get l).tx = (s.links.get l).tx := by
  simp [snapshotTick]
@[simp] theorem snapshotTick_link_rx (s : State) (b : Bool) (pos : Position) (l : Link) : ((snapshotTick s b pos).links.get l).rx = (s.links.get l).rx := by
  simp [snapshotTick]
@[simp] theorem snapshotTick_link_untaken (s : State) (b : Bool) (pos : Position) (l : Link) : ((snapshotTick s b pos).links.get l).untaken = (s.links.get l).untaken := by
  simp [snapshotTick]
@[simp] theorem snapshotTick_link_resp (s : State) (b : Bool) (pos : Position) (l : Link) : ((snapshotTick s b pos).links.get l).resp = (s.links.get l).resp := by
  simp [snapshotTick]
@[simp] theorem snapshotTick_link_out (s : State) (b : Bool) (pos : Position) (l : Link) : ((snapshotTick s b pos).links.get l).out = (s.links.get l).out := by
  simp [snapshotTick]
@[simp] theorem snapshotTick_link_sdo (s : State) (b : Bool) (pos : Position) (l : Link) : ((snapshotTick s b pos).links.get l).sdo = (s.links.get l).sdo := by
  simp [snapshotTick]
@[simp] theorem snapshotTick_link_softReset (s : State) (b : Bool) (pos : Position) (l : Link) : ((snapshotTick s b pos).links.get l).softReset = (s.links.get l).softReset := by
  simp [snapshotTick]
@[simp] theorem snapshotTick_link_enable (s : State) (b : Bool) (pos : Position) (l : Link) : ((snapshotTick s b pos).links.get l).enable = (s.links.get l).enable := by
  simp [snapshotTick]
@[simp] theorem measureTick_link_csLow (s : State) (b : Bool) (pos : Position) (l : Link) : ((measureTick s b pos).links.get l).csLow = (s.links.get l).csLow := by
  simp [measureTick]
@[simp] theorem measureTick_link_tx (s : State) (b : Bool) (pos : Position) (l : Link) : ((measureTick s b pos).links.get l).tx = (s.links.get l).tx := by
  simp [measureTick]
@[simp] theorem measureTick_link_rx (s : State) (b : Bool) (pos : Position) (l : Link) : ((measureTick s b pos).links.get l).rx = (s.links.get l).rx := by
  simp [measureTick]
@[simp] theorem measureTick_link_untaken (s : State) (b : Bool) (pos : Position) (l : Link) : ((measureTick s b pos).links.get l).untaken = (s.links.get l).untaken := by
  simp [measureTick]
@[simp] theorem measureTick_link_resp (s : State) (b : Bool) (pos : Position) (l : Link) : ((measureTick s b pos).links.get l).resp = (s.links.get l).resp := by
  simp [measureTick]
@[simp] theorem measureTick_link_out (s : State) (b : Bool) (pos : Position) (l : Link) : ((measureTick s b pos).links.get l).out = (s.links.get l).out := by
  simp [measureTick]
@[simp] theorem measureTick_link_sdo (s : State) (b : Bool) (pos : Position) (l : Link) : ((measureTick s b pos).links.get l).sdo = (s.links.get l).sdo := by
  simp [measureTick]
@[simp] theorem measureTick_link_softReset (s : State) (b : Bool) (pos : Position) (l : Link) : ((measureTick s b pos).links.get l).softReset = (s.links.get l).softReset := by
  simp [measureTick]
@[simp] theorem measureTick_link_enable (s : State) (b : Bool) (pos : Position) (l : Link) : ((measureTick s b pos).links.get l).enable = (s.links.get l).enable := by
  simp [measureTick]
@[simp] theorem tickFront_link_csLow (s : State) (l : Link) : ((tickFront s).links.get l).csLow = (s.links.get l).csLow := by
  simp [tickFront, levelTick, timebaseTick]
@[simp] theorem tickFront_link_tx (s : State) (l : Link) : ((tickFront s).links.get l).tx = (s.links.get l).tx := by
  simp [tickFront, levelTick, timebaseTick]
@[simp] theorem tickFront_link_rx (s : State) (l : Link) : ((tickFront s).links.get l).rx = (s.links.get l).rx := by
  simp [tickFront, levelTick, timebaseTick]
@[simp] theorem tickFront_link_untaken (s : State) (l : Link) : ((tickFront s).links.get l).untaken = (s.links.get l).untaken := by
  simp [tickFront, levelTick, timebaseTick]
@[simp] theorem tickFront_link_resp (s : State) (l : Link) : ((tickFront s).links.get l).resp = (s.links.get l).resp := by
  simp [tickFront, levelTick, timebaseTick]
@[simp] theorem tickFront_link_out (s : State) (l : Link) : ((tickFront s).links.get l).out = (s.links.get l).out := by
  simp [tickFront, levelTick, timebaseTick]
@[simp] theorem tickFront_link_sdo (s : State) (l : Link) : ((tickFront s).links.get l).sdo = (s.links.get l).sdo := by
  simp [tickFront, levelTick, timebaseTick]
@[simp] theorem tickFront_link_softReset (s : State) (l : Link) : ((tickFront s).links.get l).softReset = (s.links.get l).softReset := by
  simp [tickFront, levelTick, timebaseTick]
@[simp] theorem tickFront_link_enable (s : State) (l : Link) : ((tickFront s).links.get l).enable = (s.links.get l).enable := by
  simp [tickFront, levelTick, timebaseTick]
@[simp] theorem synthPhase_link_csLow (s : State) (p : PhaseId) (l : Link) : ((synthPhase s p).links.get l).csLow = (s.links.get l).csLow := by
  simp [synthPhase]
@[simp] theorem synthPhase_link_tx (s : State) (p : PhaseId) (l : Link) : ((synthPhase s p).links.get l).tx = (s.links.get l).tx := by
  simp [synthPhase]
@[simp] theorem synthPhase_link_rx (s : State) (p : PhaseId) (l : Link) : ((synthPhase s p).links.get l).rx = (s.links.get l).rx := by
  simp [synthPhase]
@[simp] theorem synthPhase_link_untaken (s : State) (p : PhaseId) (l : Link) : ((synthPhase s p).links.get l).untaken = (s.links.get l).untaken := by
  simp [synthPhase]
@[simp] theorem synthPhase_link_resp (s : State) (p : PhaseId) (l : Link) : ((synthPhase s p).links.get l).resp = (s.links.get l).resp := by
  simp [synthPhase]
@[simp] theorem synthPhase_link_out (s : State) (p : PhaseId) (l : Link) : ((synthPhase s p).links.get l).out = (s.links.get l).out := by
  simp [synthPhase]
@[simp] theorem synthPhase_link_sdo (s : State) (p : PhaseId) (l : Link) : ((synthPhase s p).links.get l).sdo = (s.links.get l).sdo := by
  simp [synthPhase]
@[simp] theorem synthPhase_link_softReset (s : State) (p : PhaseId) (l : Link) : ((synthPhase s p).links.get l).softReset = (s.links.get l).softReset := by
  simp [synthPhase]
@[simp] theorem synthPhase_link_enable (s : State) (p : PhaseId) (l : Link) : ((synthPhase s p).links.get l).enable = (s.links.get l).enable := by
  simp [synthPhase]
@[simp] theorem synthesize_link_csLow (s : State) (l : Link) : ((synthesize s).links.get l).csLow = (s.links.get l).csLow := by
  simp [synthesize]
@[simp] theorem synthesize_link_tx (s : State) (l : Link) : ((synthesize s).links.get l).tx = (s.links.get l).tx := by
  simp [synthesize]
@[simp] theorem synthesize_link_rx (s : State) (l : Link) : ((synthesize s).links.get l).rx = (s.links.get l).rx := by
  simp [synthesize]
@[simp] theorem synthesize_link_untaken (s : State) (l : Link) : ((synthesize s).links.get l).untaken = (s.links.get l).untaken := by
  simp [synthesize]
@[simp] theorem synthesize_link_resp (s : State) (l : Link) : ((synthesize s).links.get l).resp = (s.links.get l).resp := by
  simp [synthesize]
@[simp] theorem synthesize_link_out (s : State) (l : Link) : ((synthesize s).links.get l).out = (s.links.get l).out := by
  simp [synthesize]
@[simp] theorem synthesize_link_sdo (s : State) (l : Link) : ((synthesize s).links.get l).sdo = (s.links.get l).sdo := by
  simp [synthesize]
@[simp] theorem synthesize_link_softReset (s : State) (l : Link) : ((synthesize s).links.get l).softReset = (s.links.get l).softReset := by
  simp [synthesize]
@[simp] theorem synthesize_link_enable (s : State) (l : Link) : ((synthesize s).links.get l).enable = (s.links.get l).enable := by
  simp [synthesize]
@[simp] theorem offerEntry_link_csLow (s : State) (e : CapEntry) (l : Link) : ((offerEntry s e).links.get l).csLow = (s.links.get l).csLow := by
  unfold offerEntry; split <;> simp
@[simp] theorem offerEntry_link_tx (s : State) (e : CapEntry) (l : Link) : ((offerEntry s e).links.get l).tx = (s.links.get l).tx := by
  unfold offerEntry; split <;> simp
@[simp] theorem offerEntry_link_rx (s : State) (e : CapEntry) (l : Link) : ((offerEntry s e).links.get l).rx = (s.links.get l).rx := by
  unfold offerEntry; split <;> simp
@[simp] theorem offerEntry_link_untaken (s : State) (e : CapEntry) (l : Link) : ((offerEntry s e).links.get l).untaken = (s.links.get l).untaken := by
  unfold offerEntry; split <;> simp
@[simp] theorem offerEntry_link_resp (s : State) (e : CapEntry) (l : Link) : ((offerEntry s e).links.get l).resp = (s.links.get l).resp := by
  unfold offerEntry; split <;> simp
@[simp] theorem offerEntry_link_out (s : State) (e : CapEntry) (l : Link) : ((offerEntry s e).links.get l).out = (s.links.get l).out := by
  unfold offerEntry; split <;> simp
@[simp] theorem offerEntry_link_sdo (s : State) (e : CapEntry) (l : Link) : ((offerEntry s e).links.get l).sdo = (s.links.get l).sdo := by
  unfold offerEntry; split <;> simp
@[simp] theorem offerEntry_link_softReset (s : State) (e : CapEntry) (l : Link) : ((offerEntry s e).links.get l).softReset = (s.links.get l).softReset := by
  unfold offerEntry; split <;> simp
@[simp] theorem offerEntry_link_enable (s : State) (e : CapEntry) (l : Link) : ((offerEntry s e).links.get l).enable = (s.links.get l).enable := by
  unfold offerEntry; split <;> simp
@[simp] theorem offerEntries_link_csLow (es : List CapEntry) (s : State) (l : Link) : ((offerEntries es s).links.get l).csLow = (s.links.get l).csLow := by
  induction es generalizing s with
  | nil => rfl
  | cons e es ih => simp [offerEntries, ih]
@[simp] theorem offerEntries_link_tx (es : List CapEntry) (s : State) (l : Link) : ((offerEntries es s).links.get l).tx = (s.links.get l).tx := by
  induction es generalizing s with
  | nil => rfl
  | cons e es ih => simp [offerEntries, ih]
@[simp] theorem offerEntries_link_rx (es : List CapEntry) (s : State) (l : Link) : ((offerEntries es s).links.get l).rx = (s.links.get l).rx := by
  induction es generalizing s with
  | nil => rfl
  | cons e es ih => simp [offerEntries, ih]
@[simp] theorem offerEntries_link_untaken (es : List CapEntry) (s : State) (l : Link) : ((offerEntries es s).links.get l).untaken = (s.links.get l).untaken := by
  induction es generalizing s with
  | nil => rfl
  | cons e es ih => simp [offerEntries, ih]
@[simp] theorem offerEntries_link_resp (es : List CapEntry) (s : State) (l : Link) : ((offerEntries es s).links.get l).resp = (s.links.get l).resp := by
  induction es generalizing s with
  | nil => rfl
  | cons e es ih => simp [offerEntries, ih]
@[simp] theorem offerEntries_link_out (es : List CapEntry) (s : State) (l : Link) : ((offerEntries es s).links.get l).out = (s.links.get l).out := by
  induction es generalizing s with
  | nil => rfl
  | cons e es ih => simp [offerEntries, ih]
@[simp] theorem offerEntries_link_sdo (es : List CapEntry) (s : State) (l : Link) : ((offerEntries es s).links.get l).sdo = (s.links.get l).sdo := by
  induction es generalizing s with
  | nil => rfl
  | cons e es ih => simp [offerEntries, ih]
@[simp] theorem offerEntries_link_softReset (es : List CapEntry) (s : State) (l : Link) : ((offerEntries es s).links.get l).softReset = (s.links.get l).softReset := by
  induction es generalizing s with
  | nil => rfl
  | cons e es ih => simp [offerEntries, ih]
@[simp] theorem offerEntries_link_enable (es : List CapEntry) (s : State) (l : Link) : ((offerEntries es s).links.get l).enable = (s.links.get l).enable := by
  induction es generalizing s with
  | nil => rfl
  | cons e es ih => simp [offerEntries, ih]
@[simp] theorem captureTick_link_csLow (s : State) (es : List CapEntry) (b x : Bool) (pos : Position) (l : Link) : ((captureTick s es b x pos).links.get l).csLow = (s.links.get l).csLow := by
  simp [captureTick]
@[simp] theorem captureTick_link_tx (s : State) (es : List CapEntry) (b x : Bool) (pos : Position) (l : Link) : ((captureTick s es b x pos).links.get l).tx = (s.links.get l).tx := by
  simp [captureTick]
@[simp] theorem captureTick_link_rx (s : State) (es : List CapEntry) (b x : Bool) (pos : Position) (l : Link) : ((captureTick s es b x pos).links.get l).rx = (s.links.get l).rx := by
  simp [captureTick]
@[simp] theorem captureTick_link_untaken (s : State) (es : List CapEntry) (b x : Bool) (pos : Position) (l : Link) : ((captureTick s es b x pos).links.get l).untaken = (s.links.get l).untaken := by
  simp [captureTick]
@[simp] theorem captureTick_link_resp (s : State) (es : List CapEntry) (b x : Bool) (pos : Position) (l : Link) : ((captureTick s es b x pos).links.get l).resp = (s.links.get l).resp := by
  simp [captureTick]
@[simp] theorem captureTick_link_out (s : State) (es : List CapEntry) (b x : Bool) (pos : Position) (l : Link) : ((captureTick s es b x pos).links.get l).out = (s.links.get l).out := by
  simp [captureTick]
@[simp] theorem captureTick_link_sdo (s : State) (es : List CapEntry) (b x : Bool) (pos : Position) (l : Link) : ((captureTick s es b x pos).links.get l).sdo = (s.links.get l).sdo := by
  simp [captureTick]
@[simp] theorem captureTick_link_softReset (s : State) (es : List CapEntry) (b x : Bool) (pos : Position) (l : Link) : ((captureTick s es b x pos).links.get l).softReset = (s.links.get l).softReset := by
  simp [captureTick]
@[simp] theorem captureTick_link_enable (s : State) (es : List CapEntry) (b x : Bool) (pos : Position) (l : Link) : ((captureTick s es b x pos).links.get l).enable = (s.links.get l).enable := by
  simp [captureTick]
@[simp] theorem putEntry_link_csLow (s : State) (e : TraceEntry) (l : Link) : ((putEntry s e).links.get l).csLow = (s.links.get l).csLow := by
  unfold putEntry; split <;> simp
@[simp] theorem putEntry_link_tx (s : State) (e : TraceEntry) (l : Link) : ((putEntry s e).links.get l).tx = (s.links.get l).tx := by
  unfold putEntry; split <;> simp
@[simp] theorem putEntry_link_rx (s : State) (e : TraceEntry) (l : Link) : ((putEntry s e).links.get l).rx = (s.links.get l).rx := by
  unfold putEntry; split <;> simp
@[simp] theorem putEntry_link_untaken (s : State) (e : TraceEntry) (l : Link) : ((putEntry s e).links.get l).untaken = (s.links.get l).untaken := by
  unfold putEntry; split <;> simp
@[simp] theorem putEntry_link_resp (s : State) (e : TraceEntry) (l : Link) : ((putEntry s e).links.get l).resp = (s.links.get l).resp := by
  unfold putEntry; split <;> simp
@[simp] theorem putEntry_link_out (s : State) (e : TraceEntry) (l : Link) : ((putEntry s e).links.get l).out = (s.links.get l).out := by
  unfold putEntry; split <;> simp
@[simp] theorem putEntry_link_sdo (s : State) (e : TraceEntry) (l : Link) : ((putEntry s e).links.get l).sdo = (s.links.get l).sdo := by
  unfold putEntry; split <;> simp
@[simp] theorem putEntry_link_softReset (s : State) (e : TraceEntry) (l : Link) : ((putEntry s e).links.get l).softReset = (s.links.get l).softReset := by
  unfold putEntry; split <;> simp
@[simp] theorem putEntry_link_enable (s : State) (e : TraceEntry) (l : Link) : ((putEntry s e).links.get l).enable = (s.links.get l).enable := by
  unfold putEntry; split <;> simp
@[simp] theorem putEntries_link_csLow (es : List TraceEntry) (s : State) (l : Link) : ((putEntries es s).links.get l).csLow = (s.links.get l).csLow := by
  induction es generalizing s with
  | nil => rfl
  | cons e es ih => simp [putEntries, ih]
@[simp] theorem putEntries_link_tx (es : List TraceEntry) (s : State) (l : Link) : ((putEntries es s).links.get l).tx = (s.links.get l).tx := by
  induction es generalizing s with
  | nil => rfl
  | cons e es ih => simp [putEntries, ih]
@[simp] theorem putEntries_link_rx (es : List TraceEntry) (s : State) (l : Link) : ((putEntries es s).links.get l).rx = (s.links.get l).rx := by
  induction es generalizing s with
  | nil => rfl
  | cons e es ih => simp [putEntries, ih]
@[simp] theorem putEntries_link_untaken (es : List TraceEntry) (s : State) (l : Link) : ((putEntries es s).links.get l).untaken = (s.links.get l).untaken := by
  induction es generalizing s with
  | nil => rfl
  | cons e es ih => simp [putEntries, ih]
@[simp] theorem putEntries_link_resp (es : List TraceEntry) (s : State) (l : Link) : ((putEntries es s).links.get l).resp = (s.links.get l).resp := by
  induction es generalizing s with
  | nil => rfl
  | cons e es ih => simp [putEntries, ih]
@[simp] theorem putEntries_link_out (es : List TraceEntry) (s : State) (l : Link) : ((putEntries es s).links.get l).out = (s.links.get l).out := by
  induction es generalizing s with
  | nil => rfl
  | cons e es ih => simp [putEntries, ih]
@[simp] theorem putEntries_link_sdo (es : List TraceEntry) (s : State) (l : Link) : ((putEntries es s).links.get l).sdo = (s.links.get l).sdo := by
  induction es generalizing s with
  | nil => rfl
  | cons e es ih => simp [putEntries, ih]
@[simp] theorem putEntries_link_softReset (es : List TraceEntry) (s : State) (l : Link) : ((putEntries es s).links.get l).softReset = (s.links.get l).softReset := by
  induction es generalizing s with
  | nil => rfl
  | cons e es ih => simp [putEntries, ih]
@[simp] theorem putEntries_link_enable (es : List TraceEntry) (s : State) (l : Link) : ((putEntries es s).links.get l).enable = (s.links.get l).enable := by
  induction es generalizing s with
  | nil => rfl
  | cons e es ih => simp [putEntries, ih]
@[simp] theorem traceTick_link_csLow (s : State) (pos : Position) (l : Link) : ((traceTick s pos).links.get l).csLow = (s.links.get l).csLow := by
  simp [traceTick]
@[simp] theorem traceTick_link_tx (s : State) (pos : Position) (l : Link) : ((traceTick s pos).links.get l).tx = (s.links.get l).tx := by
  simp [traceTick]
@[simp] theorem traceTick_link_rx (s : State) (pos : Position) (l : Link) : ((traceTick s pos).links.get l).rx = (s.links.get l).rx := by
  simp [traceTick]
@[simp] theorem traceTick_link_untaken (s : State) (pos : Position) (l : Link) : ((traceTick s pos).links.get l).untaken = (s.links.get l).untaken := by
  simp [traceTick]
@[simp] theorem traceTick_link_resp (s : State) (pos : Position) (l : Link) : ((traceTick s pos).links.get l).resp = (s.links.get l).resp := by
  simp [traceTick]
@[simp] theorem traceTick_link_out (s : State) (pos : Position) (l : Link) : ((traceTick s pos).links.get l).out = (s.links.get l).out := by
  simp [traceTick]
@[simp] theorem traceTick_link_sdo (s : State) (pos : Position) (l : Link) : ((traceTick s pos).links.get l).sdo = (s.links.get l).sdo := by
  simp [traceTick]
@[simp] theorem traceTick_link_softReset (s : State) (pos : Position) (l : Link) : ((traceTick s pos).links.get l).softReset = (s.links.get l).softReset := by
  simp [traceTick]
@[simp] theorem traceTick_link_enable (s : State) (pos : Position) (l : Link) : ((traceTick s pos).links.get l).enable = (s.links.get l).enable := by
  simp [traceTick]
/-! ## What the runner does at a tick, case by case -/

open Sys2Proof.Safety

theorem plainTick_works {s : State} (h : PlainTick s) : s.works = true := by simp [State.works, h.1, h.2.1]

/-- The events of the front half of a tick. -/
theorem tickFront_events (s : State) : (tickFront s).events =
    if s.ph.a.rampEnds || s.ph.b.rampEnds || s.ph.c.rampEnds then
      (((if s.tb.wraps then [.cycleBoundary] else []) ++ (if s.tb.wraps && s.tb.rampEnds then [.freqRampEnd] else [])) ++
        s.cnt.eventsAt s.tb.wraps ++ s.guard.eventsAt s.scan s.tb.wraps s.tb.advance.position) ++ [.levelRampEnd]
    else
      ((if s.tb.wraps then [.cycleBoundary] else []) ++ (if s.tb.wraps && s.tb.rampEnds then [.freqRampEnd] else [])) ++
        s.cnt.eventsAt s.tb.wraps ++ s.guard.eventsAt s.scan s.tb.wraps s.tb.advance.position := rfl

/-- SAMPLE_TICK at a plain tick. -/
theorem exec_sampleTick_plain (x : Bool) (s : State) (h : PlainTick s) :
    exec (.sampleTick x) s = .next (workTick 0 x s) := by
  show Host.Outcome.next (tick x s) = _
  rw [tick_working x s (plainTick_works h) h.2.2]

/-- The row of an event that the runner's work or an earlier stage notes, at a plain tick. -/
theorem eventTick_plain (hit : TickEvent → Bool) (x : Bool) (s : State) (h : PlainTick s)
    (hh : s.runAfter.events.any hit = true) : eventTick hit x s = workTick 0 x s :=
  eventTick_of_runAfter hit x s (plainTick_works h) h.2.2 hh

/-- What the counts APPLIED and LATE hold when the runner's work begins (R163). -/
theorem tickFront_applied (s : State) : (tickFront s).cnt.live.applied = (countedFrom s).applied := by
  simp [tickFront, levelTick, measureTick, snapshotTick, timebaseTick, CounterBank.count, Nine.handOver,
    CounterBank.atTick, countedFrom]
  split <;> rfl

theorem tickFront_late (s : State) : (tickFront s).cnt.live.late = (countedFrom s).late := by
  simp [tickFront, levelTick, measureTick, snapshotTick, timebaseTick, CounterBank.count, Nine.handOver,
    CounterBank.atTick, countedFrom]
  split <;> rfl

/-- A tick is a trip's only where the guard makes one. -/
theorem tickFront_trip (s : State) :
    (tickFront s).events.contains .trip = (s.guard.tripAt s.scan s.tb.wraps s.tb.advance.position).isSome := by
  rw [tickFront_events, Bool.eq_iff_iff, List.contains_iff_mem]
  by_cases hl : (s.ph.a.rampEnds || s.ph.b.rampEnds || s.ph.c.rampEnds) = true
  · rw [if_pos hl]; simp [Guard.eventsAt, CounterBank.eventsAt]
  · rw [if_neg hl]; simp [Guard.eventsAt, CounterBank.eventsAt]

theorem holdRead_noTrip (s : State) (h : NoTrip s) : s.holdRead = s.guard.hold := by
  unfold NoTrip comingPosition at h
  rw [State.holdRead, tickFront_trip, h]
  simp [holdSeen]

/-- The runner's part at the start of its work at the coming tick. -/
def State.runStart (s : State) : RunSide :=
  { (tickFront s).runSide with run := { s.run with allowance := 8 } }

/-- A fill changes nothing of a runner that is not RUNNING. -/
theorem fill_not_running (sched : Memory) (run : Runner) (h : run.state ≠ .running) : fill sched run = run := by
  have : canFetch run = false := by simp [canFetch, h]
  simp [fill, Config.queueEntries, fillUpTo, this]

/-- A fill only adds entries behind those that stand in the queue. -/
theorem fillUpTo_queue (sched : Memory) (k : Nat) (run : Runner) :
    ∃ more, (fillUpTo sched k run).queue = run.queue ++ more := by
  induction k generalizing run with
  | zero => exact ⟨[], by simp [fillUpTo]⟩
  | succ k ih =>
    unfold fillUpTo
    split
    · obtain ⟨more, h⟩ := ih (fetchOne sched run)
      have h1 : ∃ x, (fetchOne sched run).queue = run.queue ++ [x] := by
        unfold fetchOne placeMarker placeRecord
        split
        · exact ⟨_, rfl⟩
        · split <;> exact ⟨_, rfl⟩
      obtain ⟨x, hx⟩ := h1
      exact ⟨x :: more, by rw [h, hx]; simp⟩
    · exact ⟨[], by simp⟩

theorem fill_queue (sched : Memory) (run : Runner) : ∃ more, (fill sched run).queue = run.queue ++ more :=
  fillUpTo_queue sched _ run

/-- Once an entry leaves the runner stopped, or the next head not due, no more is applied. -/
theorem applyDue_stop (map : Memory) (prev pos : Position) (k : Nat) (w : RunSide)
    (h : w.run.state ≠ .running ∨ ∀ e, w.run.queue.head? = some e → e.due.le pos = false) :
    applyDue map prev pos k w = w := by
  cases k with
  | zero => rfl
  | succ k =>
    unfold applyDue
    split
    · rfl
    · rename_i e es he
      have : entryIsDue w pos e = false := by
        rcases h with h | h
        · simp [entryIsDue, h]
        · simp [entryIsDue, h e (by simp [he])]
      simp [this]

/-- The one due entry of a tick is applied, and the queue is filled. -/
theorem oneDue_runAfter {s : State} {e : QueueEntry} {rest : List QueueEntry} (h : OneDue s e rest) (w : RunSide)
    (hw : w = applyEntry s.map s.tb.position s.tb.advance.position s.runStart e)
    (hq : w.run.state ≠ .running ∨ w.run.queue = rest) :
    s.runAfter = { w with run := fill s.sched w.run } := by
  obtain ⟨hp, hh, hst, hqu, hd, hr⟩ := h
  have hnb : (s.tb.wraps && s.holdRead) = false := by
    cases hb : s.tb.wraps
    · rfl
    · obtain ⟨h1, h2⟩ := hh hb
      simp [holdRead_noTrip s h2, h1]
  have ha : appliesEntries (tickFront s).runSide.run s.tb.wraps s.holdRead = true := by
    show appliesEntries s.run _ _ = true
    simp [appliesEntries, hst, hnb]
  have hqs : s.runStart.run.queue = e :: rest := hqu
  have hdue : entryIsDue s.runStart s.tb.advance.position e = true := by
    have : s.runStart.run.state = .running := hst
    unfold comingPosition at hd
    simp [entryIsDue, this, hd]
  have key : applyDue s.map s.tb.position s.tb.advance.position s.run.queue.length s.runStart = w := by
    rw [hqu]
    simp only [List.length_cons, applyDue, hqs, hdue, if_true, ← hw]
    apply applyDue_stop
    rcases hq with hq | hq
    · exact Or.inl hq
    · right
      intro e' he'
      exact hr e' (by rw [← hq]; exact he')
  have hrun : s.runAfter = (applyDue s.map s.tb.position s.tb.advance.position s.run.queue.length s.runStart).filled s.sched := by
    unfold State.runAfter runnerTick
    rw [if_pos ha]
    rfl
  rw [hrun, key]
  rfl

end Sys2Proof.Machine
end

