-- ==== Sys2Proof/Laws/Evidence.lean ====
section
/-! SUPPORT. What putting entries into the Event Trace and offering entries to a capture can do, said once for a whole list of
entries. -/

namespace Sys2Proof.Machine

/-! ## The Event Trace -/

/-- The trace is full at 64 entries (R158). -/
theorem Trace.full_iff (t : Trace) : t.full = true ↔ 64 ≤ t.fifo.length := by
  unfold Trace.full; exact decide_eq_true_iff

/-- Putting entries in order: as many as there is room for stand at the tail, in order; the others are dropped (R158). -/
theorem putEntries_trace (es : List TraceEntry) (s : State) :
    (putEntries es s).trace = { s.trace with fifo := s.trace.fifo ++ es.take (64 - s.trace.fifo.length) } := by
  induction es generalizing s with
  | nil => simp [putEntries]
  | cons e es ih =>
    rw [putEntries, ih]
    by_cases h : s.trace.full = true
    · have h' : 64 ≤ s.trace.fifo.length := (Trace.full_iff _).mp h
      simp [putEntry, h, Nat.sub_eq_zero_of_le h']
    · have h' : s.trace.fifo.length < 64 := by rw [Trace.full_iff] at h; omega
      obtain ⟨k, hk⟩ : ∃ k, 64 - s.trace.fifo.length = k + 1 := ⟨63 - s.trace.fifo.length, by omega⟩
      have hk' : 64 - (s.trace.fifo.length + 1) = k := by omega
      simp [putEntry, h, hk, hk']

/-- Entries that all find room lose none. -/
theorem putEntries_lost_none (es : List TraceEntry) (s : State) (h : es.length ≤ 64 - s.trace.fifo.length) :
    (putEntries es s).cnt = s.cnt := by
  induction es generalizing s with
  | nil => rfl
  | cons e es ih =>
    simp only [List.length_cons] at h
    have hf : ¬ s.trace.full = true := by rw [Trace.full_iff]; omega
    rw [putEntries, ih]
    · simp [putEntry, hf]
    · simp [putEntry, hf]; omega

/-- Entries beyond the room are counted in TRACE_LOST (R158). -/
theorem putEntries_lost (es : List TraceEntry) (s : State) (h : 64 - s.trace.fifo.length < es.length) :
    (putEntries es s).cnt.live.traceLost =
      min (s.cnt.live.traceLost + (es.length - (64 - s.trace.fifo.length))) 65535 := by
  induction es generalizing s with
  | nil => simp at h
  | cons e es ih =>
    simp only [List.length_cons] at h
    rw [putEntries]
    by_cases hf : s.trace.full = true
    · have h' : 64 ≤ s.trace.fifo.length := (Trace.full_iff _).mp hf
      have hp : (putEntry s e).trace = s.trace := by simp [putEntry, hf]
      have hc : (putEntry s e).cnt.live.traceLost = min (s.cnt.live.traceLost + 1) 65535 := by
        simp [putEntry, hf, CounterBank.count, Nine.addTraceLost, saturate]
      rcases Nat.eq_zero_or_pos es.length with h0 | h0
      · rw [putEntries_lost_none _ _ (by omega), hc, List.length_cons]; omega
      · rw [ih _ (by rw [hp]; omega), hp, hc, List.length_cons]; omega
    · have h' : s.trace.fifo.length < 64 := by rw [Trace.full_iff] at hf; omega
      have hp : (putEntry s e).trace.fifo.length = s.trace.fifo.length + 1 := by simp [putEntry, hf]
      have hc : (putEntry s e).cnt = s.cnt := by simp [putEntry, hf]
      rw [ih _ (by rw [hp]; omega), hp, hc, List.length_cons]; omega

/-- TRACE_HALF is raised where the occupancy rises from 31 to 32, and by nothing else there (R158). -/
theorem putEntries_half (es : List TraceEntry) (s : State) :
    (putEntries es s).links.ml.notices.getLsbD 3 =
      (s.links.ml.notices.getLsbD 3 || decide (s.trace.fifo.length < 32 ∧ 32 ≤ s.trace.fifo.length + es.length)) := by
  induction es generalizing s with
  | nil =>
    have : ¬ (s.trace.fifo.length < 32 ∧ 32 ≤ s.trace.fifo.length) := by omega
    simp [putEntries, this]
  | cons e es ih =>
    rw [putEntries, ih, List.length_cons]
    by_cases hf : s.trace.full = true
    · have h' : 64 ≤ s.trace.fifo.length := (Trace.full_iff _).mp hf
      have h1 : ¬ s.trace.fifo.length < 32 := by omega
      simp [putEntry, hf, h1]
    · have hl : (putEntry s e).trace.fifo.length = s.trace.fifo.length + 1 := by simp [putEntry, hf]
      have hn : (putEntry s e).links.ml.notices.getLsbD 3 =
          (s.links.ml.notices.getLsbD 3 || decide (s.trace.fifo.length + 1 = 32)) := by
        simp only [putEntry, hf, Bool.false_eq_true, if_false]
        by_cases h : s.trace.fifo.length + 1 = 32
        · simp [Links.raiseIf, Links.raise, LinkState.raise, noticeBit, h]
        · simp [Links.raiseIf, h]
      rw [hl, hn, Bool.or_assoc]
      congr 1
      rw [Bool.eq_iff_iff]
      simp only [Bool.or_eq_true, decide_eq_true_eq]
      omega

/-! ## The Capture Buffer -/

/-- The capture FIFO is full at 1,024 entries (R150). -/
theorem Capture.full_iff (c : Capture) : c.full = true ↔ 1024 ≤ c.fifo.length := by
  unfold Capture.full; exact decide_eq_true_iff

/-- The kinds and channels that arm settings select (R149). -/
def ArmSettings.selects (a : ArmSettings) (e : CapEntry) : Bool :=
  match e.kind with
  | .conversion => channelIn a.mask e.channel
  | .cycle => a.cycleFlag

/-- A capture that is not CAPTURING takes nothing that is offered (R149). -/
theorem offerEntries_idle (es : List CapEntry) (s : State) (h : s.cap.state ≠ .capturing) : offerEntries es s = s := by
  induction es with
  | nil => rfl
  | cons e es ih =>
    have : s.cap.selects e = false := by unfold Capture.selects; split <;> simp [h]
    simp [offerEntries, offerEntry, this, ih]

/-- What one selected entry does to a capture below W (R149, R150). -/
theorem offerEntry_selected (e : CapEntry) (s : State) (a : ArmSettings) (harm : s.cap.arm = some a)
    (hst : s.cap.state = .capturing) (hs : a.selects e = true) :
    (offerEntry s e).cap = { s.cap with
      state := if s.cap.count + 1 = a.window then .complete else .capturing
      count := s.cap.count + 1
      loss := s.cap.loss || decide (1024 ≤ s.cap.fifo.length)
      fifo := if 1024 ≤ s.cap.fifo.length then s.cap.fifo else s.cap.fifo ++ [e] } ∧
    (offerEntry s e).cnt.live.captureLost = (if 1024 ≤ s.cap.fifo.length then min (s.cnt.live.captureLost + 1) 65535
      else s.cnt.live.captureLost) := by
  have hsel : s.cap.selects e = true := by
    unfold ArmSettings.selects at hs
    unfold Capture.selects
    rw [harm]
    cases hk : e.kind <;> simp [hk] at hs <;> simp [hst, hs]
  have hf : s.cap.full = decide (1024 ≤ s.cap.fifo.length) := rfl
  have hcp : s.cap.completes = decide (s.cap.count + 1 = a.window) := by unfold Capture.completes; rw [harm]
  unfold offerEntry
  rw [if_pos hsel]
  simp only [Capture.produce, hf, hcp, hst]
  constructor
  · by_cases h1 : s.cap.count + 1 = a.window <;> by_cases h2 : 1024 ≤ s.cap.fifo.length <;> simp [h1, h2]
  · by_cases h2 : 1024 ≤ s.cap.fifo.length <;> simp [h2, CounterBank.count, Nine.addCaptureLost, saturate]

/-- An entry that the arm settings do not select changes nothing (R149). -/
theorem offerEntry_unselected (e : CapEntry) (s : State) (a : ArmSettings) (harm : s.cap.arm = some a)
    (hs : a.selects e = false) : offerEntry s e = s := by
  have hsel : s.cap.selects e = false := by
    unfold ArmSettings.selects at hs
    unfold Capture.selects
    rw [harm]
    cases hk : e.kind <;> simp [hk] at hs <;> simp [hs]
  simp [offerEntry, hsel]

/-- A saturating count made one at a time. -/
theorem min_count (x k c : Nat) : min (min (x + 1) c + k) c = min (x + (k + 1)) c := by omega

/-- Offering entries to a capture below W: as many selected ones as W still asks for are produced, in order (R149, R150). -/
theorem offerEntries_capture (es : List CapEntry) (s : State) (a : ArmSettings) (harm : s.cap.arm = some a)
    (hst : s.cap.state = .capturing) (hc : s.cap.count < a.window) :
    let made := (es.filter a.selects).take (a.window - s.cap.count)
    let room := 1024 - s.cap.fifo.length
    (offerEntries es s).cap = { s.cap with
      state := if s.cap.count + made.length = a.window then .complete else .capturing
      count := s.cap.count + made.length
      loss := s.cap.loss || decide (room < made.length)
      fifo := s.cap.fifo ++ made.take room } ∧
    (made.length ≤ room → (offerEntries es s).cnt.live.captureLost = s.cnt.live.captureLost) ∧
    (room < made.length → (offerEntries es s).cnt.live.captureLost =
      min (s.cnt.live.captureLost + (made.length - room)) 65535) := by
  induction es generalizing s with
  | nil =>
    have h0 : ¬ s.cap.count = a.window := by omega
    simp [offerEntries, h0, ← hst]
  | cons e es ih =>
    rw [offerEntries]
    by_cases hs : a.selects e = true
    · obtain ⟨h1, h2⟩ := offerEntry_selected e s a harm hst hs
      obtain ⟨k, hk⟩ : ∃ k, a.window - s.cap.count = k + 1 := ⟨a.window - s.cap.count - 1, by omega⟩
      simp only [List.filter_cons, hs, if_true, hk, List.take_succ_cons, List.length_cons]
      by_cases hw : s.cap.count + 1 = a.window
      · have hk0 : k = 0 := by omega
        subst hk0
        rw [if_pos hw] at h1
        have hid : offerEntries es (offerEntry s e) = offerEntry s e := offerEntries_idle es _ (by rw [h1]; simp)
        rw [hid, h1, h2]
        rcases Nat.lt_or_ge s.cap.fifo.length 1024 with hl | hl
        · obtain ⟨r, hr⟩ : ∃ r, 1024 - s.cap.fifo.length = r + 1 := ⟨1023 - s.cap.fifo.length, by omega⟩
          have : ¬ 1024 ≤ s.cap.fifo.length := by omega
          simp [hw, this, hr]
        · have : 1024 - s.cap.fifo.length = 0 := by omega
          simp [hw, hl, this]
      · rw [if_neg hw] at h1
        have ih' := ih (offerEntry s e) (by rw [h1]; exact harm) (by rw [h1]) (by rw [h1]; show s.cap.count + 1 < a.window; omega)
        have hk' : a.window - (s.cap.count + 1) = k := by omega
        rw [h1] at ih'
        simp only [hk'] at ih'
        obtain ⟨i1, i2, i3⟩ := ih'
        rw [i1]
        generalize hm : (es.filter a.selects).take k = m at *
        rcases Nat.lt_or_ge s.cap.fifo.length 1024 with hl | hl
        · have hn : ¬ 1024 ≤ s.cap.fifo.length := by omega
          obtain ⟨r, hr⟩ : ∃ r, 1024 - s.cap.fifo.length = r + 1 := ⟨1023 - s.cap.fifo.length, by omega⟩
          have hr' : 1024 - (s.cap.fifo ++ [e]).length = r := by simp; omega
          simp only [hn, if_false, hr'] at i2 i3 ⊢
          simp only [h2, hn, if_false] at i2 i3
          refine ⟨?_, ?_, ?_⟩
          · simp [hr, Nat.add_assoc, Nat.add_comm 1]
          · intro h; exact i2 (by omega)
          · intro h; rw [i3 (by omega)]; congr 2; omega
        · have h0 : 1024 - s.cap.fifo.length = 0 := by omega
          simp only [hl, if_true, h0] at i2 i3 ⊢
          simp only [h2, hl, if_true] at i2 i3
          refine ⟨?_, ?_, ?_⟩
          · simp [Nat.add_assoc, Nat.add_comm 1]
          · intro h; omega
          · intro _
            rcases Nat.eq_zero_or_pos m.length with hz | hz
            · rw [i2 (Nat.le_of_eq hz), hz]
            · rw [i3 hz, Nat.sub_zero, Nat.sub_zero, min_count]
    · have hs' : a.selects e = false := by simpa using hs
      rw [offerEntry_unselected e s a harm hs']
      simpa [List.filter_cons, hs'] using ih s harm hst hc

end Sys2Proof.Machine
end

