-- ==== Sys2Proof/Laws/Memory.lean ====
section
/-! SUPPORT. The laws of the addressed stores: a read after a write, the canonical form, the bounds, runs of bytes. -/

namespace Sys2Proof.Machine

theorem Memory.above_mono {m : Memory} {lo lo' : Nat} (h : Memory.above m lo = true) (hle : lo' ≤ lo) :
    Memory.above m lo' = true := by
  cases m with
  | nil => rfl
  | cons cell m =>
    simp only [Memory.above, Bool.and_eq_true, decide_eq_true_eq] at h ⊢
    exact ⟨⟨by omega, h.1.2⟩, h.2⟩

/-- Below every listed address a store reads as 0. -/
theorem Memory.read_below {m : Memory} {lo a : Nat} (h : Memory.above m lo = true) (ha : a < lo) :
    Memory.read m a = 0 := by
  induction m generalizing lo with
  | nil => rfl
  | cons cell m ih =>
    simp only [Memory.above, Bool.and_eq_true, decide_eq_true_eq] at h
    have hne : cell.1 ≠ a := by omega
    simp only [Memory.read, if_neg hne]
    exact ih h.2 (by omega)

theorem Memory.write_above {m : Memory} {lo a : Nat} {b : Byte} (h : Memory.above m lo = true) (ha : lo ≤ a) :
    Memory.above (Memory.write m a b) lo = true := by
  induction m generalizing lo with
  | nil =>
    simp only [Memory.write]
    split
    · rfl
    · have hb : (!(b == 0)) = true := by simpa using ‹¬b = 0›
      simp only [Memory.above, Bool.and_eq_true, decide_eq_true_eq]
      exact ⟨⟨ha, hb⟩, trivial⟩
  | cons cell m ih =>
    obtain ⟨k, v⟩ := cell
    have h' := h
    simp only [Memory.above, Bool.and_eq_true, decide_eq_true_eq] at h
    simp only [Memory.write]
    split
    · split
      · exact h'
      · have hb : (!(b == 0)) = true := by simpa using ‹¬b = 0›
        simp only [Memory.above, Bool.and_eq_true, decide_eq_true_eq]
        exact ⟨⟨ha, hb⟩, ⟨by omega, h.1.2⟩, h.2⟩
    · split
      · split
        · exact Memory.above_mono h.2 (by omega)
        · have hb : (!(b == 0)) = true := by simpa using ‹¬b = 0›
          subst a
          simp only [Memory.above, Bool.and_eq_true, decide_eq_true_eq]
          exact ⟨⟨ha, hb⟩, h.2⟩
      · simp only [Memory.above, Bool.and_eq_true, decide_eq_true_eq]
        exact ⟨h.1, ih h.2 (by omega)⟩

/-- A write keeps the canonical form. -/
theorem Memory.write_wf {m : Memory} (a : Nat) (b : Byte) (h : m.wf = true) : Memory.wf (m.write a b) = true :=
  Memory.write_above h (Nat.zero_le a)

theorem Memory.read_write_above {m : Memory} {lo a : Nat} (b : Byte) (a' : Nat) (h : Memory.above m lo = true) :
    Memory.read (Memory.write m a b) a' = if a' = a then b else Memory.read m a' := by
  induction m generalizing lo with
  | nil =>
    simp only [Memory.write]
    split
    · subst b
      simp only [Memory.read, ite_self]
    · simp only [Memory.read]
      by_cases haa : a = a'
      · rw [if_pos haa, if_pos haa.symm]
      · rw [if_neg haa, if_neg (fun e => haa e.symm)]
  | cons cell m ih =>
    obtain ⟨k, v⟩ := cell
    simp only [Memory.above, Bool.and_eq_true, decide_eq_true_eq] at h
    simp only [Memory.write]
    split
    · split
      · split
        · subst a' b
          simp only [Memory.read]
          rw [if_neg (by omega)]
          exact Memory.read_below h.2 (by omega)
        · rfl
      · simp only [Memory.read]
        by_cases haa : a = a'
        · rw [if_pos haa, if_pos haa.symm]
        · rw [if_neg haa, @if_neg (a' = a) _ (fun e => haa e.symm)]
    · split
      · subst a
        split
        · split
          · subst a' b
            exact Memory.read_below h.2 (by omega)
          · simp only [Memory.read]
            rw [if_neg (by omega)]
        · simp only [Memory.read]
          by_cases hka : k = a'
          · rw [if_pos hka, if_pos hka.symm]
          · rw [if_neg hka, if_neg (fun e => hka e.symm), if_neg hka]
      · simp only [Memory.read]
        split
        · subst a'
          rw [if_neg (by omega)]
        · exact ih h.2

/-- A byte read after a write: the byte written at its address, every other byte as before. -/
theorem Memory.read_write {m : Memory} (h : m.wf = true) (a : Nat) (b : Byte) (a' : Nat) :
    Memory.read (m.write a b) a' = if a' = a then b else m.read a' :=
  Memory.read_write_above b a' h

/-- A write inside the bounds keeps the bounds. -/
theorem Memory.write_within {m : Memory} {size a : Nat} (b : Byte) (h : Memory.within m size = true) (ha : a < size) :
    Memory.within (Memory.write m a b) size = true := by
  induction m with
  | nil =>
    simp only [Memory.write]
    split <;> simp [Memory.within, ha]
  | cons cell m ih =>
    obtain ⟨k, v⟩ := cell
    have hm : Memory.within m size = true := by
      simp only [Memory.within, List.all_cons, Bool.and_eq_true] at h
      exact h.2
    have hcons : ∀ (c : Host.Cell) (m' : Memory), c.1 < size → Memory.within m' size = true →
        Memory.within (c :: m') size = true := by
      intro c m' hc hm'
      simp only [Memory.within, List.all_cons, Bool.and_eq_true, decide_eq_true_eq] at hm' ⊢
      exact ⟨hc, hm'⟩
    have hk : k < size := by
      simp only [Memory.within, List.all_cons, Bool.and_eq_true, decide_eq_true_eq] at h
      exact h.1
    simp only [Memory.write]
    split
    · split
      · exact h
      · exact hcons _ _ ha h
    · split
      · split
        · exact hm
        · exact hcons _ _ ha hm
      · exact hcons _ _ hk (ih hm)

/-- Writing a run of bytes keeps the canonical form. -/
theorem Memory.writeBytes_wf {m : Memory} (a : Nat) (bs : List Byte) (h : m.wf = true) :
    Memory.wf (m.writeBytes a bs) = true := by
  induction bs generalizing m a with
  | nil => exact h
  | cons b bs ih => exact ih (a + 1) (Memory.write_wf a b h)

/-- Writing a run of bytes inside the bounds keeps the bounds. -/
theorem Memory.writeBytes_within {m : Memory} {size a : Nat} {bs : List Byte} (h : Memory.within m size = true)
    (ha : a + bs.length ≤ size) : Memory.within (m.writeBytes a bs) size = true := by
  induction bs generalizing m a with
  | nil => exact h
  | cons b bs ih =>
    simp only [List.length_cons] at ha
    exact ih (Memory.write_within b h (by omega)) (by omega)

/-- A byte read after a run of bytes is written: the run's byte inside it, every other byte as before. -/
theorem Memory.read_writeBytes {m : Memory} (h : m.wf = true) (a : Nat) (bs : List Byte) (a' : Nat) :
    Memory.read (m.writeBytes a bs) a' =
      if a ≤ a' ∧ a' < a + bs.length then bs.getD (a' - a) 0 else m.read a' := by
  induction bs generalizing m a with
  | nil =>
    simp only [Memory.writeBytes, List.length_nil]
    rw [if_neg (by omega)]
  | cons b bs ih =>
    simp only [Memory.writeBytes, List.length_cons]
    rw [ih (Memory.write_wf a b h), Memory.read_write h]
    by_cases h1 : a + 1 ≤ a' ∧ a' < a + 1 + bs.length
    · rw [if_pos h1, if_pos (by omega)]
      obtain ⟨d, rfl⟩ : ∃ d, a' = a + 1 + d := ⟨a' - (a + 1), by omega⟩
      have e1 : a + 1 + d - (a + 1) = d := by omega
      have e2 : a + 1 + d - a = d + 1 := by omega
      rw [e1, e2, List.getD_cons_succ]
    · rw [if_neg h1]
      by_cases h2 : a' = a
      · subst h2
        rw [if_pos rfl, if_pos (by omega)]
        simp
      · rw [if_neg h2, if_neg (by omega)]

@[simp] theorem Memory.readBytes_length (m : Memory) (a n : Nat) : (m.readBytes a n).length = n := by
  induction n generalizing a with
  | zero => rfl
  | succ n ih => simp [Memory.readBytes, ih]

/-- The i-th byte of a run that is read. -/
theorem Memory.getD_readBytes (m : Memory) (a n i : Nat) (hi : i < n) :
    (m.readBytes a n).getD i 0 = m.read (a + i) := by
  induction n generalizing a i with
  | zero => omega
  | succ n ih =>
    cases i with
    | zero => simp [Memory.readBytes]
    | succ i =>
      simp only [Memory.readBytes, List.getD_cons_succ]
      rw [ih (a + 1) i (by omega)]
      congr 1
      omega

/-- Two stores that agree on a run of addresses give the same bytes there. -/
theorem Memory.readBytes_congr {m m' : Memory} {a n : Nat} (h : ∀ i, i < n → m.read (a + i) = m'.read (a + i)) :
    m.readBytes a n = m'.readBytes a n := by
  induction n generalizing a with
  | zero => rfl
  | succ n ih =>
    simp only [Memory.readBytes]
    rw [ih (fun i hi => by have := h (i + 1) (by omega); rwa [show a + (i + 1) = a + 1 + i by omega] at this)]
    have := h 0 (by omega)
    simp only [Nat.add_zero] at this
    rw [this]

/-- The stores of the state after reset are in canonical form. -/
theorem reset_stores_wf :
    State.reset.wave.wf = true ∧ State.reset.map.wf = true ∧ State.reset.slots.wf = true ∧ State.reset.sched.wf = true :=
  ⟨rfl, rfl, rfl, rfl⟩

end Sys2Proof.Machine
end

