-- ==== Sys2Proof/Laws/PerInstr.lean ====
section
/-! SUPPORT. The per-command law RequestCode: the code that a request row carries names that row and no other (R171, R181). -/

namespace Sys2Proof.Laws

/-- A code outside R181's table is UNKNOWN_REQUEST's. -/
theorem commandOf_unknown (l : Link) (code : Byte) (ps : List Byte) (h : requestCodes.contains code = false) :
    commandOf l code ps = .unknownRequest l code ps := by
  unfold commandOf
  split
  all_goals first
    | rfl
    | (rename_i hc
       have hcode : code = BitVec.ofNat 8 code.toNat := by simp
       rw [hc] at hcode
       subst hcode
       simp [requestCodes] at h)

/-- The request that a command carries, if it carries one, is that command by R181's table of request codes. -/
def RequestCode.Statement (i : Instr) : Prop :=
  wellFormed i = true → ∀ l code ps, i.request = some (l, code, ps) → commandOf l code ps = i

theorem RequestCode.unknownRequest (l code ps) : RequestCode.Statement (.unknownRequest l code ps) := by
  intro hw _ _ _ h
  cases h
  apply commandOf_unknown
  simp [wellFormed] at hw
  simpa using hw.2

theorem RequestCode.readNotices (l ps) : RequestCode.Statement (.readNotices l ps) := by
  intro _ _ _ _ h; cases h; rfl

theorem RequestCode.setAlerts (l ps) : RequestCode.Statement (.setAlerts l ps) := by
  intro _ _ _ _ h; cases h; rfl

theorem RequestCode.readTimeline (l ps) : RequestCode.Statement (.readTimeline l ps) := by
  intro _ _ _ _ h; cases h; rfl

theorem RequestCode.readPhases (l ps) : RequestCode.Statement (.readPhases l ps) := by
  intro _ _ _ _ h; cases h; rfl

theorem RequestCode.writeShape (l ps) : RequestCode.Statement (.writeShape l ps) := by
  intro _ _ _ _ h; cases h; rfl

theorem RequestCode.readShape (l ps) : RequestCode.Statement (.readShape l ps) := by
  intro _ _ _ _ h; cases h; rfl

theorem RequestCode.mapShape (l ps) : RequestCode.Statement (.mapShape l ps) := by
  intro _ _ _ _ h; cases h; rfl

theorem RequestCode.readMap (l ps) : RequestCode.Statement (.readMap l ps) := by
  intro _ _ _ _ h; cases h; rfl

theorem RequestCode.writeSlots (l ps) : RequestCode.Statement (.writeSlots l ps) := by
  intro _ _ _ _ h; cases h; rfl

theorem RequestCode.readSlots (l ps) : RequestCode.Statement (.readSlots l ps) := by
  intro _ _ _ _ h; cases h; rfl

theorem RequestCode.setSeed (l ps) : RequestCode.Statement (.setSeed l ps) := by
  intro _ _ _ _ h; cases h; rfl

theorem RequestCode.setNominal (l ps) : RequestCode.Statement (.setNominal l ps) := by
  intro _ _ _ _ h; cases h; rfl

theorem RequestCode.writeRecords (l ps) : RequestCode.Statement (.writeRecords l ps) := by
  intro _ _ _ _ h; cases h; rfl

theorem RequestCode.readRecords (l ps) : RequestCode.Statement (.readRecords l ps) := by
  intro _ _ _ _ h; cases h; rfl

theorem RequestCode.start (l ps) : RequestCode.Statement (.start l ps) := by
  intro _ _ _ _ h; cases h; rfl

theorem RequestCode.stop (l ps) : RequestCode.Statement (.stop l ps) := by
  intro _ _ _ _ h; cases h; rfl

theorem RequestCode.applyNow (l ps) : RequestCode.Statement (.applyNow l ps) := by
  intro _ _ _ _ h; cases h; rfl

theorem RequestCode.readRun (l ps) : RequestCode.Statement (.readRun l ps) := by
  intro _ _ _ _ h; cases h; rfl

theorem RequestCode.enable (l ps) : RequestCode.Statement (.enable l ps) := by
  intro _ _ _ _ h; cases h; rfl

theorem RequestCode.safe (l ps) : RequestCode.Statement (.safe l ps) := by
  intro _ _ _ _ h; cases h; rfl

theorem RequestCode.setLimits (l ps) : RequestCode.Statement (.setLimits l ps) := by
  intro _ _ _ _ h; cases h; rfl

theorem RequestCode.clearFlags (l ps) : RequestCode.Statement (.clearFlags l ps) := by
  intro _ _ _ _ h; cases h; rfl

theorem RequestCode.hold (l ps) : RequestCode.Statement (.hold l ps) := by
  intro _ _ _ _ h; cases h; rfl

theorem RequestCode.release (l ps) : RequestCode.Statement (.release l ps) := by
  intro _ _ _ _ h; cases h; rfl

theorem RequestCode.setWatch (l ps) : RequestCode.Statement (.setWatch l ps) := by
  intro _ _ _ _ h; cases h; rfl

theorem RequestCode.clearTrip (l ps) : RequestCode.Statement (.clearTrip l ps) := by
  intro _ _ _ _ h; cases h; rfl

theorem RequestCode.readGuard (l ps) : RequestCode.Statement (.readGuard l ps) := by
  intro _ _ _ _ h; cases h; rfl

theorem RequestCode.softReset (l ps) : RequestCode.Statement (.softReset l ps) := by
  intro _ _ _ _ h; cases h; rfl

theorem RequestCode.setScan (l ps) : RequestCode.Statement (.setScan l ps) := by
  intro _ _ _ _ h; cases h; rfl

theorem RequestCode.readMeasure (l ps) : RequestCode.Statement (.readMeasure l ps) := by
  intro _ _ _ _ h; cases h; rfl

theorem RequestCode.armCapture (l ps) : RequestCode.Statement (.armCapture l ps) := by
  intro _ _ _ _ h; cases h; rfl

theorem RequestCode.trigger (l ps) : RequestCode.Statement (.trigger l ps) := by
  intro _ _ _ _ h; cases h; rfl

theorem RequestCode.disarmCapture (l ps) : RequestCode.Statement (.disarmCapture l ps) := by
  intro _ _ _ _ h; cases h; rfl

theorem RequestCode.flushCapture (l ps) : RequestCode.Statement (.flushCapture l ps) := by
  intro _ _ _ _ h; cases h; rfl

theorem RequestCode.readCapture (l ps) : RequestCode.Statement (.readCapture l ps) := by
  intro _ _ _ _ h; cases h; rfl

theorem RequestCode.readTrace (l ps) : RequestCode.Statement (.readTrace l ps) := by
  intro _ _ _ _ h; cases h; rfl

theorem RequestCode.snapshot (l ps) : RequestCode.Statement (.snapshot l ps) := by
  intro _ _ _ _ h; cases h; rfl

theorem RequestCode.setAutoSnapshot (l ps) : RequestCode.Statement (.setAutoSnapshot l ps) := by
  intro _ _ _ _ h; cases h; rfl

theorem RequestCode.readSnapshot (l ps) : RequestCode.Statement (.readSnapshot l ps) := by
  intro _ _ _ _ h; cases h; rfl

theorem RequestCode.powerOn : RequestCode.Statement .powerOn := by
  intro _ _ _ _ h; cases h

theorem RequestCode.initEnd : RequestCode.Statement .initEnd := by
  intro _ _ _ _ h; cases h

theorem RequestCode.pinReset : RequestCode.Statement .pinReset := by
  intro _ _ _ _ h; cases h

theorem RequestCode.resetnRelease : RequestCode.Statement .resetnRelease := by
  intro _ _ _ _ h; cases h

theorem RequestCode.sampleTick (x) : RequestCode.Statement (.sampleTick x) := by
  intro _ _ _ _ h; cases h

theorem RequestCode.cycleBoundary (x) : RequestCode.Statement (.cycleBoundary x) := by
  intro _ _ _ _ h; cases h

theorem RequestCode.freqRampEnd (x) : RequestCode.Statement (.freqRampEnd x) := by
  intro _ _ _ _ h; cases h

theorem RequestCode.levelRampEnd (x) : RequestCode.Statement (.levelRampEnd x) := by
  intro _ _ _ _ h; cases h

theorem RequestCode.guardRampEnd (x) : RequestCode.Statement (.guardRampEnd x) := by
  intro _ _ _ _ h; cases h

theorem RequestCode.pendingLimitsInForce (x) : RequestCode.Statement (.pendingLimitsInForce x) := by
  intro _ _ _ _ h; cases h

theorem RequestCode.level (x) : RequestCode.Statement (.level x) := by
  intro _ _ _ _ h; cases h

theorem RequestCode.freq (x) : RequestCode.Statement (.freq x) := by
  intro _ _ _ _ h; cases h

theorem RequestCode.phaseJump (x) : RequestCode.Statement (.phaseJump x) := by
  intro _ _ _ _ h; cases h

theorem RequestCode.shape (x) : RequestCode.Statement (.shape x) := by
  intro _ _ _ _ h; cases h

theorem RequestCode.slotbank (x) : RequestCode.Statement (.slotbank x) := by
  intro _ _ _ _ h; cases h

theorem RequestCode.noise (x) : RequestCode.Statement (.noise x) := by
  intro _ _ _ _ h; cases h

theorem RequestCode.mark (x) : RequestCode.Statement (.mark x) := by
  intro _ _ _ _ h; cases h

theorem RequestCode.endRecord (x) : RequestCode.Statement (.endRecord x) := by
  intro _ _ _ _ h; cases h

theorem RequestCode.loopBegin (x) : RequestCode.Statement (.loopBegin x) := by
  intro _ _ _ _ h; cases h

theorem RequestCode.loopEnd (x) : RequestCode.Statement (.loopEnd x) := by
  intro _ _ _ _ h; cases h

theorem RequestCode.goto (x) : RequestCode.Statement (.goto x) := by
  intro _ _ _ _ h; cases h

theorem RequestCode.faultMarker (x) : RequestCode.Statement (.faultMarker x) := by
  intro _ _ _ _ h; cases h

theorem RequestCode.takeHold (x) : RequestCode.Statement (.takeHold x) := by
  intro _ _ _ _ h; cases h

theorem RequestCode.releaseHold (x) : RequestCode.Statement (.releaseHold x) := by
  intro _ _ _ _ h; cases h

theorem RequestCode.applyNowApplied (x) : RequestCode.Statement (.applyNowApplied x) := by
  intro _ _ _ _ h; cases h

theorem RequestCode.trip (x) : RequestCode.Statement (.trip x) := by
  intro _ _ _ _ h; cases h

theorem RequestCode.captureDone (x) : RequestCode.Statement (.captureDone x) := by
  intro _ _ _ _ h; cases h

theorem RequestCode.deferredTraceEntry (x) : RequestCode.Statement (.deferredTraceEntry x) := by
  intro _ _ _ _ h; cases h

theorem RequestCode.snapshotTaken (x) : RequestCode.Statement (.snapshotTaken x) := by
  intro _ _ _ _ h; cases h

theorem RequestCode.autoSnapshot (x) : RequestCode.Statement (.autoSnapshot x) := by
  intro _ _ _ _ h; cases h

theorem RequestCode.adcResult (x) : RequestCode.Statement (.adcResult x) := by
  intro _ _ _ _ h; cases h

theorem RequestCode.csFall (x) : RequestCode.Statement (.csFall x) := by
  intro _ _ _ _ h; cases h

theorem RequestCode.csRise (x) : RequestCode.Statement (.csRise x) := by
  intro _ _ _ _ h; cases h

theorem RequestCode.responseReady (x) : RequestCode.Statement (.responseReady x) := by
  intro _ _ _ _ h; cases h

theorem RequestCode.byteClocked (x y) : RequestCode.Statement (.byteClocked x y) := by
  intro _ _ _ _ h; cases h

end Sys2Proof.Laws
end

