-- ==== Sys2Proof/Laws/Requests.lean ====
section
/-! SUPPORT. The taking of a request on a ready link: once for all request rows. -/

namespace Sys2Proof.Machine

open Sys2Proof.Safety

/-- A request row on a ready link: clocked in, judged, answered. -/
theorem requestTaken_ready {l : Link} {s : State} (h : Ready l s) (code : Byte) (ps : List Byte) :
    requestTaken code l ps s =
      (let res := judge l { code := code, n := ps.length, params := if 200 < ps.length then [] else ps, inInit := false }
          (sendRequest code l ps s)
       { res.2 with links := res.2.links.set l ((res.2.links.get l).answered true res.1) }) := by
  obtain ⟨h1, h2, h3, h4, h5⟩ := h
  simp only [requestTaken, h3, canSend, h1, h2, h4]
  simp [takeOldest, sendRequest, LinkState.sent, LinkState.isLive, h3, h5]

/-- A request of the link's own, with at most 200 parameter bytes, comes to its own checks. -/
theorem requestOutcome_ready {l : Link} {s : State} (h : Ready l s) (code : Byte) (ps : List Byte)
    (hps : ps.length ≤ 200) (hc : requestCodes.contains code = true) (hb : codeBelongs code.toNat l = true) :
    requestOutcome code l ps s = .next
      (let res := takeByCode code.toNat l ps (sendRequest code l ps s)
       { res.2 with links := res.2.links.set l ((res.2.links.get l).answered true res.1) }) := by
  have hfit : paramsFit ps = true := by simp [paramsFit]; omega
  have hn : ¬ 200 < ps.length := by omega
  rw [requestOutcome, if_pos hfit, requestTaken_ready h]
  rw [judge, if_neg (by simp), if_neg (by simpa using hc), if_neg (by simpa using hb)]
  simp only [if_neg hn]

/-- The links after a request whose effect leaves the links alone. -/
theorem answered_links {l : Link} {s : State} (h : Ready l s) (code : Byte) (ps : List Byte) (ls : Links) (ans : Answer)
    (hl : ls = (sendRequest code l ps s).links) :
    ls.set l ((ls.get l).answered true ans) = s.links.set l (answeredLink (s.links.get l) (responseOf ans)) := by
  subst hl
  obtain ⟨h1, h2, h3, h4, h5⟩ := h
  simp [sendRequest, LinkState.sent, LinkState.answered, answeredLink, h3]

/-- A request whose effect leaves the links alone: the effect, and the answer on its link. -/
theorem requestOutcome_plain {l : Link} {s : State} (h : Ready l s) (code : Byte) (ps : List Byte)
    (hps : ps.length ≤ 200) (hc : requestCodes.contains code = true) (hb : codeBelongs code.toNat l = true)
    (res : Answer × State) (hres : takeByCode code.toNat l ps (sendRequest code l ps s) = res)
    (hl : res.2.links = (sendRequest code l ps s).links) :
    requestOutcome code l ps s =
      .next { res.2 with links := s.links.set l (answeredLink (s.links.get l) (responseOf res.1)) } := by
  rw [requestOutcome_ready h code ps hps hc hb]
  simp only [hres]
  rw [answered_links h code ps _ _ hl]

/-! ## Row by row -/

theorem exec_readTimeline_ready {l : Link} {s : State} (h : Ready l s) (ps : List Byte) (hps : ps.length ≤ 200) (res : Answer × State)
    (hres : takeReadTimeline ps (sendRequest 0x03 l ps s) = res) (hl : res.2.links = (sendRequest 0x03 l ps s).links) :
    exec (.readTimeline l ps) s =
      .next { res.2 with links := s.links.set l (answeredLink (s.links.get l) (responseOf res.1)) } :=
  requestOutcome_plain h 0x03 ps hps (by decide) (by cases l <;> decide) res hres hl

theorem exec_readPhases_ready {l : Link} {s : State} (h : Ready l s) (ps : List Byte) (hps : ps.length ≤ 200) (res : Answer × State)
    (hres : takeReadPhases ps (sendRequest 0x04 l ps s) = res) (hl : res.2.links = (sendRequest 0x04 l ps s).links) :
    exec (.readPhases l ps) s =
      .next { res.2 with links := s.links.set l (answeredLink (s.links.get l) (responseOf res.1)) } :=
  requestOutcome_plain h 0x04 ps hps (by decide) (by cases l <;> decide) res hres hl

theorem exec_writeShape_ready {s : State} (h : Ready .pl s) (ps : List Byte) (hps : ps.length ≤ 200) (res : Answer × State)
    (hres : takeWriteShape ps (sendRequest 0x10 .pl ps s) = res) (hl : res.2.links = (sendRequest 0x10 .pl ps s).links) :
    exec (.writeShape .pl ps) s =
      .next { res.2 with links := s.links.set .pl (answeredLink (s.links.get .pl) (responseOf res.1)) } :=
  requestOutcome_plain h 0x10 ps hps (by decide) (by decide) res hres hl

theorem exec_readShape_ready {s : State} (h : Ready .pl s) (ps : List Byte) (hps : ps.length ≤ 200) (res : Answer × State)
    (hres : takeReadShape ps (sendRequest 0x11 .pl ps s) = res) (hl : res.2.links = (sendRequest 0x11 .pl ps s).links) :
    exec (.readShape .pl ps) s =
      .next { res.2 with links := s.links.set .pl (answeredLink (s.links.get .pl) (responseOf res.1)) } :=
  requestOutcome_plain h 0x11 ps hps (by decide) (by decide) res hres hl

theorem exec_mapShape_ready {s : State} (h : Ready .pl s) (ps : List Byte) (hps : ps.length ≤ 200) (res : Answer × State)
    (hres : takeMapShape ps (sendRequest 0x12 .pl ps s) = res) (hl : res.2.links = (sendRequest 0x12 .pl ps s).links) :
    exec (.mapShape .pl ps) s =
      .next { res.2 with links := s.links.set .pl (answeredLink (s.links.get .pl) (responseOf res.1)) } :=
  requestOutcome_plain h 0x12 ps hps (by decide) (by decide) res hres hl

theorem exec_readMap_ready {s : State} (h : Ready .pl s) (ps : List Byte) (hps : ps.length ≤ 200) (res : Answer × State)
    (hres : takeReadMap ps (sendRequest 0x13 .pl ps s) = res) (hl : res.2.links = (sendRequest 0x13 .pl ps s).links) :
    exec (.readMap .pl ps) s =
      .next { res.2 with links := s.links.set .pl (answeredLink (s.links.get .pl) (responseOf res.1)) } :=
  requestOutcome_plain h 0x13 ps hps (by decide) (by decide) res hres hl

theorem exec_writeSlots_ready {s : State} (h : Ready .pl s) (ps : List Byte) (hps : ps.length ≤ 200) (res : Answer × State)
    (hres : takeWriteSlots ps (sendRequest 0x14 .pl ps s) = res) (hl : res.2.links = (sendRequest 0x14 .pl ps s).links) :
    exec (.writeSlots .pl ps) s =
      .next { res.2 with links := s.links.set .pl (answeredLink (s.links.get .pl) (responseOf res.1)) } :=
  requestOutcome_plain h 0x14 ps hps (by decide) (by decide) res hres hl

theorem exec_readSlots_ready {s : State} (h : Ready .pl s) (ps : List Byte) (hps : ps.length ≤ 200) (res : Answer × State)
    (hres : takeReadSlots ps (sendRequest 0x15 .pl ps s) = res) (hl : res.2.links = (sendRequest 0x15 .pl ps s).links) :
    exec (.readSlots .pl ps) s =
      .next { res.2 with links := s.links.set .pl (answeredLink (s.links.get .pl) (responseOf res.1)) } :=
  requestOutcome_plain h 0x15 ps hps (by decide) (by decide) res hres hl

theorem exec_setSeed_ready {s : State} (h : Ready .pl s) (ps : List Byte) (hps : ps.length ≤ 200) (res : Answer × State)
    (hres : takeSetSeed ps (sendRequest 0x16 .pl ps s) = res) (hl : res.2.links = (sendRequest 0x16 .pl ps s).links) :
    exec (.setSeed .pl ps) s =
      .next { res.2 with links := s.links.set .pl (answeredLink (s.links.get .pl) (responseOf res.1)) } :=
  requestOutcome_plain h 0x16 ps hps (by decide) (by decide) res hres hl

theorem exec_setNominal_ready {s : State} (h : Ready .pl s) (ps : List Byte) (hps : ps.length ≤ 200) (res : Answer × State)
    (hres : takeSetNominal ps (sendRequest 0x17 .pl ps s) = res) (hl : res.2.links = (sendRequest 0x17 .pl ps s).links) :
    exec (.setNominal .pl ps) s =
      .next { res.2 with links := s.links.set .pl (answeredLink (s.links.get .pl) (responseOf res.1)) } :=
  requestOutcome_plain h 0x17 ps hps (by decide) (by decide) res hres hl

theorem exec_writeRecords_ready {s : State} (h : Ready .pl s) (ps : List Byte) (hps : ps.length ≤ 200) (res : Answer × State)
    (hres : takeWriteRecords ps (sendRequest 0x18 .pl ps s) = res) (hl : res.2.links = (sendRequest 0x18 .pl ps s).links) :
    exec (.writeRecords .pl ps) s =
      .next { res.2 with links := s.links.set .pl (answeredLink (s.links.get .pl) (responseOf res.1)) } :=
  requestOutcome_plain h 0x18 ps hps (by decide) (by decide) res hres hl

theorem exec_readRecords_ready {s : State} (h : Ready .pl s) (ps : List Byte) (hps : ps.length ≤ 200) (res : Answer × State)
    (hres : takeReadRecords ps (sendRequest 0x19 .pl ps s) = res) (hl : res.2.links = (sendRequest 0x19 .pl ps s).links) :
    exec (.readRecords .pl ps) s =
      .next { res.2 with links := s.links.set .pl (answeredLink (s.links.get .pl) (responseOf res.1)) } :=
  requestOutcome_plain h 0x19 ps hps (by decide) (by decide) res hres hl

theorem exec_start_ready {s : State} (h : Ready .pl s) (ps : List Byte) (hps : ps.length ≤ 200) (res : Answer × State)
    (hres : takeStart ps (sendRequest 0x1A .pl ps s) = res) (hl : res.2.links = (sendRequest 0x1A .pl ps s).links) :
    exec (.start .pl ps) s =
      .next { res.2 with links := s.links.set .pl (answeredLink (s.links.get .pl) (responseOf res.1)) } :=
  requestOutcome_plain h 0x1A ps hps (by decide) (by decide) res hres hl

theorem exec_stop_ready {s : State} (h : Ready .pl s) (ps : List Byte) (hps : ps.length ≤ 200) (res : Answer × State)
    (hres : takeStop ps (sendRequest 0x1B .pl ps s) = res) (hl : res.2.links = (sendRequest 0x1B .pl ps s).links) :
    exec (.stop .pl ps) s =
      .next { res.2 with links := s.links.set .pl (answeredLink (s.links.get .pl) (responseOf res.1)) } :=
  requestOutcome_plain h 0x1B ps hps (by decide) (by decide) res hres hl

theorem exec_applyNow_ready {s : State} (h : Ready .pl s) (ps : List Byte) (hps : ps.length ≤ 200) (res : Answer × State)
    (hres : takeApplyNow ps (sendRequest 0x1C .pl ps s) = res) (hl : res.2.links = (sendRequest 0x1C .pl ps s).links) :
    exec (.applyNow .pl ps) s =
      .next { res.2 with links := s.links.set .pl (answeredLink (s.links.get .pl) (responseOf res.1)) } :=
  requestOutcome_plain h 0x1C ps hps (by decide) (by decide) res hres hl

theorem exec_readRun_ready {s : State} (h : Ready .pl s) (ps : List Byte) (hps : ps.length ≤ 200) (res : Answer × State)
    (hres : takeReadRun ps (sendRequest 0x1D .pl ps s) = res) (hl : res.2.links = (sendRequest 0x1D .pl ps s).links) :
    exec (.readRun .pl ps) s =
      .next { res.2 with links := s.links.set .pl (answeredLink (s.links.get .pl) (responseOf res.1)) } :=
  requestOutcome_plain h 0x1D ps hps (by decide) (by decide) res hres hl

theorem exec_enable_ready {s : State} (h : Ready .gl s) (ps : List Byte) (hps : ps.length ≤ 200) (res : Answer × State)
    (hres : takeEnable ps (sendRequest 0x30 .gl ps s) = res) (hl : res.2.links = (sendRequest 0x30 .gl ps s).links) :
    exec (.enable .gl ps) s =
      .next { res.2 with links := s.links.set .gl (answeredLink (s.links.get .gl) (responseOf res.1)) } :=
  requestOutcome_plain h 0x30 ps hps (by decide) (by decide) res hres hl

theorem exec_safe_ready {s : State} (h : Ready .gl s) (ps : List Byte) (hps : ps.length ≤ 200) (res : Answer × State)
    (hres : takeSafe ps (sendRequest 0x31 .gl ps s) = res) (hl : res.2.links = (sendRequest 0x31 .gl ps s).links) :
    exec (.safe .gl ps) s =
      .next { res.2 with links := s.links.set .gl (answeredLink (s.links.get .gl) (responseOf res.1)) } :=
  requestOutcome_plain h 0x31 ps hps (by decide) (by decide) res hres hl

theorem exec_setLimits_ready {s : State} (h : Ready .gl s) (ps : List Byte) (hps : ps.length ≤ 200) (res : Answer × State)
    (hres : takeSetLimits ps (sendRequest 0x32 .gl ps s) = res) (hl : res.2.links = (sendRequest 0x32 .gl ps s).links) :
    exec (.setLimits .gl ps) s =
      .next { res.2 with links := s.links.set .gl (answeredLink (s.links.get .gl) (responseOf res.1)) } :=
  requestOutcome_plain h 0x32 ps hps (by decide) (by decide) res hres hl

theorem exec_clearFlags_ready {s : State} (h : Ready .gl s) (ps : List Byte) (hps : ps.length ≤ 200) (res : Answer × State)
    (hres : takeClearFlags ps (sendRequest 0x33 .gl ps s) = res) (hl : res.2.links = (sendRequest 0x33 .gl ps s).links) :
    exec (.clearFlags .gl ps) s =
      .next { res.2 with links := s.links.set .gl (answeredLink (s.links.get .gl) (responseOf res.1)) } :=
  requestOutcome_plain h 0x33 ps hps (by decide) (by decide) res hres hl

theorem exec_hold_ready {s : State} (h : Ready .gl s) (ps : List Byte) (hps : ps.length ≤ 200) (res : Answer × State)
    (hres : takeHoldRequest ps (sendRequest 0x34 .gl ps s) = res) (hl : res.2.links = (sendRequest 0x34 .gl ps s).links) :
    exec (.hold .gl ps) s =
      .next { res.2 with links := s.links.set .gl (answeredLink (s.links.get .gl) (responseOf res.1)) } :=
  requestOutcome_plain h 0x34 ps hps (by decide) (by decide) res hres hl

theorem exec_release_ready {s : State} (h : Ready .gl s) (ps : List Byte) (hps : ps.length ≤ 200) (res : Answer × State)
    (hres : takeReleaseRequest ps (sendRequest 0x35 .gl ps s) = res) (hl : res.2.links = (sendRequest 0x35 .gl ps s).links) :
    exec (.release .gl ps) s =
      .next { res.2 with links := s.links.set .gl (answeredLink (s.links.get .gl) (responseOf res.1)) } :=
  requestOutcome_plain h 0x35 ps hps (by decide) (by decide) res hres hl

theorem exec_setWatch_ready {s : State} (h : Ready .gl s) (ps : List Byte) (hps : ps.length ≤ 200) (res : Answer × State)
    (hres : takeSetWatch ps (sendRequest 0x36 .gl ps s) = res) (hl : res.2.links = (sendRequest 0x36 .gl ps s).links) :
    exec (.setWatch .gl ps) s =
      .next { res.2 with links := s.links.set .gl (answeredLink (s.links.get .gl) (responseOf res.1)) } :=
  requestOutcome_plain h 0x36 ps hps (by decide) (by decide) res hres hl

theorem exec_clearTrip_ready {s : State} (h : Ready .gl s) (ps : List Byte) (hps : ps.length ≤ 200) (res : Answer × State)
    (hres : takeClearTrip ps (sendRequest 0x37 .gl ps s) = res) (hl : res.2.links = (sendRequest 0x37 .gl ps s).links) :
    exec (.clearTrip .gl ps) s =
      .next { res.2 with links := s.links.set .gl (answeredLink (s.links.get .gl) (responseOf res.1)) } :=
  requestOutcome_plain h 0x37 ps hps (by decide) (by decide) res hres hl

theorem exec_readGuard_ready {s : State} (h : Ready .gl s) (ps : List Byte) (hps : ps.length ≤ 200) (res : Answer × State)
    (hres : takeReadGuard ps (sendRequest 0x38 .gl ps s) = res) (hl : res.2.links = (sendRequest 0x38 .gl ps s).links) :
    exec (.readGuard .gl ps) s =
      .next { res.2 with links := s.links.set .gl (answeredLink (s.links.get .gl) (responseOf res.1)) } :=
  requestOutcome_plain h 0x38 ps hps (by decide) (by decide) res hres hl

theorem exec_setScan_ready {s : State} (h : Ready .ml s) (ps : List Byte) (hps : ps.length ≤ 200) (res : Answer × State)
    (hres : takeSetScan ps (sendRequest 0x50 .ml ps s) = res) (hl : res.2.links = (sendRequest 0x50 .ml ps s).links) :
    exec (.setScan .ml ps) s =
      .next { res.2 with links := s.links.set .ml (answeredLink (s.links.get .ml) (responseOf res.1)) } :=
  requestOutcome_plain h 0x50 ps hps (by decide) (by decide) res hres hl

theorem exec_readMeasure_ready {s : State} (h : Ready .ml s) (ps : List Byte) (hps : ps.length ≤ 200) (res : Answer × State)
    (hres : takeReadMeasure ps (sendRequest 0x51 .ml ps s) = res) (hl : res.2.links = (sendRequest 0x51 .ml ps s).links) :
    exec (.readMeasure .ml ps) s =
      .next { res.2 with links := s.links.set .ml (answeredLink (s.links.get .ml) (responseOf res.1)) } :=
  requestOutcome_plain h 0x51 ps hps (by decide) (by decide) res hres hl

theorem exec_armCapture_ready {s : State} (h : Ready .ml s) (ps : List Byte) (hps : ps.length ≤ 200) (res : Answer × State)
    (hres : takeArmCapture ps (sendRequest 0x52 .ml ps s) = res) (hl : res.2.links = (sendRequest 0x52 .ml ps s).links) :
    exec (.armCapture .ml ps) s =
      .next { res.2 with links := s.links.set .ml (answeredLink (s.links.get .ml) (responseOf res.1)) } :=
  requestOutcome_plain h 0x52 ps hps (by decide) (by decide) res hres hl

theorem exec_trigger_ready {s : State} (h : Ready .ml s) (ps : List Byte) (hps : ps.length ≤ 200) (res : Answer × State)
    (hres : takeTrigger ps (sendRequest 0x53 .ml ps s) = res) (hl : res.2.links = (sendRequest 0x53 .ml ps s).links) :
    exec (.trigger .ml ps) s =
      .next { res.2 with links := s.links.set .ml (answeredLink (s.links.get .ml) (responseOf res.1)) } :=
  requestOutcome_plain h 0x53 ps hps (by decide) (by decide) res hres hl

theorem exec_disarmCapture_ready {s : State} (h : Ready .ml s) (ps : List Byte) (hps : ps.length ≤ 200) (res : Answer × State)
    (hres : takeDisarmCapture ps (sendRequest 0x54 .ml ps s) = res) (hl : res.2.links = (sendRequest 0x54 .ml ps s).links) :
    exec (.disarmCapture .ml ps) s =
      .next { res.2 with links := s.links.set .ml (answeredLink (s.links.get .ml) (responseOf res.1)) } :=
  requestOutcome_plain h 0x54 ps hps (by decide) (by decide) res hres hl

theorem exec_flushCapture_ready {s : State} (h : Ready .ml s) (ps : List Byte) (hps : ps.length ≤ 200) (res : Answer × State)
    (hres : takeFlushCapture ps (sendRequest 0x55 .ml ps s) = res) (hl : res.2.links = (sendRequest 0x55 .ml ps s).links) :
    exec (.flushCapture .ml ps) s =
      .next { res.2 with links := s.links.set .ml (answeredLink (s.links.get .ml) (responseOf res.1)) } :=
  requestOutcome_plain h 0x55 ps hps (by decide) (by decide) res hres hl

theorem exec_readCapture_ready {s : State} (h : Ready .ml s) (ps : List Byte) (hps : ps.length ≤ 200) (res : Answer × State)
    (hres : takeReadCapture ps (sendRequest 0x56 .ml ps s) = res) (hl : res.2.links = (sendRequest 0x56 .ml ps s).links) :
    exec (.readCapture .ml ps) s =
      .next { res.2 with links := s.links.set .ml (answeredLink (s.links.get .ml) (responseOf res.1)) } :=
  requestOutcome_plain h 0x56 ps hps (by decide) (by decide) res hres hl

theorem exec_readTrace_ready {s : State} (h : Ready .ml s) (ps : List Byte) (hps : ps.length ≤ 200) (res : Answer × State)
    (hres : takeReadTrace ps (sendRequest 0x57 .ml ps s) = res) (hl : res.2.links = (sendRequest 0x57 .ml ps s).links) :
    exec (.readTrace .ml ps) s =
      .next { res.2 with links := s.links.set .ml (answeredLink (s.links.get .ml) (responseOf res.1)) } :=
  requestOutcome_plain h 0x57 ps hps (by decide) (by decide) res hres hl

theorem exec_snapshot_ready {s : State} (h : Ready .ml s) (ps : List Byte) (hps : ps.length ≤ 200) (res : Answer × State)
    (hres : takeSnapshotRequest ps (sendRequest 0x58 .ml ps s) = res) (hl : res.2.links = (sendRequest 0x58 .ml ps s).links) :
    exec (.snapshot .ml ps) s =
      .next { res.2 with links := s.links.set .ml (answeredLink (s.links.get .ml) (responseOf res.1)) } :=
  requestOutcome_plain h 0x58 ps hps (by decide) (by decide) res hres hl

theorem exec_setAutoSnapshot_ready {s : State} (h : Ready .ml s) (ps : List Byte) (hps : ps.length ≤ 200) (res : Answer × State)
    (hres : takeSetAutoSnapshot ps (sendRequest 0x59 .ml ps s) = res) (hl : res.2.links = (sendRequest 0x59 .ml ps s).links) :
    exec (.setAutoSnapshot .ml ps) s =
      .next { res.2 with links := s.links.set .ml (answeredLink (s.links.get .ml) (responseOf res.1)) } :=
  requestOutcome_plain h 0x59 ps hps (by decide) (by decide) res hres hl

theorem exec_readSnapshot_ready {s : State} (h : Ready .ml s) (ps : List Byte) (hps : ps.length ≤ 200) (res : Answer × State)
    (hres : takeReadSnapshot ps (sendRequest 0x5A .ml ps s) = res) (hl : res.2.links = (sendRequest 0x5A .ml ps s).links) :
    exec (.readSnapshot .ml ps) s =
      .next { res.2 with links := s.links.set .ml (answeredLink (s.links.get .ml) (responseOf res.1)) } :=
  requestOutcome_plain h 0x5A ps hps (by decide) (by decide) res hres hl

end Sys2Proof.Machine
end

