-- ==== Sys2Proof/Tests/Slice0.lean ====
section
/-! SUPPORT. Small tests: the well-formedness checks, one step of a command on a small state with the value that a table or a
worked example of spec/ gives, and for each statement of Obligations.lean with hypotheses a state and operands that meet them.
-/

namespace Sys2Proof.Tests

open Sys2Proof.Machine Sys2Proof.Safety

/-! ## Helpers -/

/-- The state that a command leaves. -/
def after (c : Instr) (s : State) : State :=
  match exec c s with
  | .next t => t
  | .fault _ => s
  | .refused _ => s

/-- The status byte that waits on a link. -/
def statusOn (l : Link) (s : State) : Option Byte :=
  match (s.links.get l).resp with
  | some (.formed (b :: _)) => some b
  | _ => none

/-- A state that differs from reset in one block. -/
def withRun (run : Runner) : State := { State.reset with run := run }

def withGuard (g : Guard) : State := { State.reset with guard := g }

def withPhaseA (ph : Phase) : State := { State.reset with ph := { phasesReset with a := ph } }

/-- The tick before a cycle boundary at 50,000 mHz. -/
def beforeBoundary : State := { State.reset with tb := { timebaseReset with b := 4286578688 } }

/-- A record of a kind with p1 and p2, all else 0. -/
def rec1 (k : RecKind) (p1 p2 : Nat) : Record :=
  { kind := k, mask := 7, delay := 0, angle := 0, p1 := p1, p2 := p2, suppress := false }

/-- A queue entry at index 3, due at once. -/
def dueNow (item : QueueItem) : QueueEntry := { src := 3, item := item, due := zeroPosition }

/-- RUNNING with one entry due at the coming tick. -/
def running1 (item : QueueItem) : State :=
  withRun { runnerReset with state := .running, queue := [dueNow item], execPtr := 3, fetchPtr := 4, halt := .endRecord }

/-- A stopped runner with a pending APPLY_NOW. -/
def applying (r : Record) : State := withRun { runnerReset with applyNow := some r }

/-- A link in a transaction state with CS low. -/
def inTx (l : Link) (tx : TxState) : State :=
  { State.reset with links := linksReset.set l { linkReset l with csLow := true, tx := tx } }

theorem ready_reset (l : Link) : Ready l State.reset := by cases l <;> exact ⟨rfl, rfl, rfl, rfl, rfl⟩

theorem plainTick_reset : PlainTick State.reset := ⟨rfl, rfl, rfl⟩

theorem oneDue_running1 (item : QueueItem) : OneDue (running1 item) (dueNow item) [] :=
  ⟨⟨rfl, rfl, rfl⟩, fun h => absurd (show timebaseReset.wraps = true from h) (by decide), rfl, rfl,
    show zeroPosition.le timebaseReset.advance.position = true by decide, fun _ h => by simp at h⟩

/-- With the guard and the Scanner at their reset values, a tick that is no boundary makes no trip. -/
theorem noTrip_reset (s : State) (hg : s.guard = guardReset) (hs : s.scan = scannerReset) (hw : s.tb.wraps = false) :
    NoTrip s := by
  unfold NoTrip
  rw [hg, hs, hw]
  rfl

/-- At the tick of `running1` only the runner's entries enter the trace. -/
theorem quietTrace_running1 (item : QueueItem) : QuietTrace (running1 item) :=
  ⟨noTrip_reset _ rfl rfl (show timebaseReset.wraps = false by decide), rfl, rfl⟩

theorem quietTrace_applying (r : Record) : QuietTrace (applying r) :=
  ⟨noTrip_reset _ rfl rfl (show timebaseReset.wraps = false by decide), rfl, rfl⟩

/-! ## Well-formedness: each check refuses an ill-formed term -/

theorem test_wf_long_params : wellFormed (.setSeed .pl (List.replicate 256 0)) = false := by decide +kernel

theorem test_wf_params_255 : wellFormed (.setSeed .pl (List.replicate 255 0)) = true := by decide +kernel

theorem test_wf_known_code : wellFormed (.unknownRequest .gl 0x30 []) = false := by decide

theorem test_wf_unknown_code : wellFormed (.unknownRequest .gl 0x3A []) = true := by decide

/-- No row of the opcode table has bits, so no word spells a command. -/
theorem test_no_word_spells : decodeTableWord 32 0x30 = none := by decide

/-- The table of request codes, R181: 0x1C is APPLY_NOW, 0x3A is in no row. -/
theorem test_request_codes : commandOf .pl 0x1C [1] = .applyNow .pl [1] ∧ commandOf .gl 0x3A [] = .unknownRequest .gl 0x3A [] := by
  decide

/-! ## Values of the spec's tables and worked examples -/

/-- R5's table. -/
theorem test_increments : incrementOf 40000 = 6710886 ∧ incrementOf 50000 = 8388608 ∧ incrementOf 60000 = 10066330 ∧
    incrementOf 70000 = 11744051 := by decide

/-- R16: the first tick after INIT comes to (0, 128). -/
theorem test_first_tick : (after (.sampleTick true) State.reset).tb.position = { c := 0, ang := 128 } := by decide

/-- R16: B returns to 0 at the boundary and the position is (1, 0). -/
theorem test_boundary : (after (.cycleBoundary true) beforeBoundary).tb.position = { c := 1, ang := 0 } := by decide

/-- R113's table: a RAMP_UP of 3 ticks, and a RAMP_DOWN from 16,384 over 3 ticks. -/
theorem test_guard_ramps : rampUpValue 3 1 = 10923 ∧ rampUpValue 3 2 = 21845 ∧ rampDownValue 16384 3 1 = 10923 ∧
    rampDownValue 16384 3 2 = 5461 := by decide

/-- The worked example of chapter 4: P 23,170 at L 16,384 makes A 11,585. -/
theorem test_amplitude : amplitudeOf 16384 23170 = 11585 := by decide

/-- R1: halves go away from zero, on either side of 0. -/
theorem test_halves : roundInt 5 2 = 3 ∧ roundInt (-5) 2 = -3 ∧ roundInt (-1) 4 = 0 := by decide

/-- R78: delay 0 with an angle below the chain base's goes to the next cycle. -/
theorem test_due_wrap : duePoint { c := 7, ang := 100 } 0 99 = { c := 8, ang := 99 } ∧
    duePoint { c := 7, ang := 100 } 0 100 = { c := 7, ang := 100 } := by decide

/-- R42: the shift out of bit 16 comes back in bit 0. -/
theorem test_noise_shift : noiseShift 0x10000 = 1 ∧ noiseShift 0x12000 = 0x4000 := by decide

/-- R139: floor(sqrt). -/
theorem test_sqrt : floorSqrt 1073741824 = 32768 ∧ floorSqrt 1073741823 = 32767 ∧ floorSqrt 0 = 0 := by decide

/-- R181: a record's bytes. -/
theorem test_record_bytes : decodeRecord [0x71, 0x01, 0x00, 0x00, 0x80, 0x9A, 0x59, 0x04, 0x00, 0x01] =
    { kind := .level, mask := 7, delay := 1, angle := 32768, p1 := 22938, p2 := 4, suppress := true } := by decide

/-! ## One step of a command -/

/-- R44: a seed of 0 is stored as 1, CLAMPED. -/
theorem test_set_seed_zero :
    (after (.setSeed .pl [0, 0, 0, 0]) { State.reset with lfsr := 9 }).lfsr = 1 ∧
    statusOn .pl (after (.setSeed .pl [0, 0, 0, 0]) State.reset) = some 0x01 := by decide

/-- R44: 131,072 is refused BAD_VALUE. -/
theorem test_set_seed_high : statusOn .pl (after (.setSeed .pl [0, 0, 2, 0]) State.reset) = some 0x04 := by decide

/-- R26: entry 0 is refused IN_USE, a target of 16 first BAD_VALUE. -/
theorem test_map_entry_zero : statusOn .pl (after (.mapShape .pl [0, 3]) State.reset) = some 0x03 ∧
    statusOn .pl (after (.mapShape .pl [0, 16]) State.reset) = some 0x04 := by decide

/-- R26: entry 5 becomes MAPPED to block 3. -/
theorem test_map_shape : mapEntry (after (.mapShape .pl [5, 3]) State.reset).map 5 = .mapped 3 := by decide

/-- R23: start 1,000 with count 30 is refused BAD_VALUE. -/
theorem test_write_shape_no_wrap :
    statusOn .pl (after (.writeShape .pl ([4, 0xE8, 0x03, 30] ++ List.replicate 60 1)) State.reset) = some 0x04 := by decide

/-- R37, R39: bank 0 is current after reset, bank 1 is not. -/
theorem test_write_slots : statusOn .pl (after (.writeSlots .pl [0, 0, 0, 1, 1, 0, 0]) State.reset) = some 0x03 ∧
    slotEntryAt (after (.writeSlots .pl [2, 1, 63, 1, 0x84, 0xFF, 0xFF]) State.reset).slots 2 1 63 =
      { action := .invert, noise := true, code := -1 } := by decide

/-- R103, R86: a START on cleared memory queues the END at (C + 1, 0). -/
theorem test_start : (after (.start .pl [0, 0]) State.reset).run.queue =
    [{ src := 0, item := .record (rec1 .endRecord 0 0 |> fun r => { r with mask := 0 }), due := { c := 1, ang := 0 } }] := by
  decide

/-- R103: HELD with the hold flag asserted. -/
theorem test_start_held :
    statusOn .pl (after (.start .pl [0, 0]) (withGuard { guardReset with hold := true })) = some 0x0A := by decide

/-- R98: END moves the runner to ENDED. -/
theorem test_end : (after (.endRecord true) (running1 (.record (rec1 .endRecord 0 0)))).run.state = .ended := by decide

/-- R7: a p1 above 30,000 gives 70,000 mHz. -/
theorem test_freq_clamped : (after (.freq true) (running1 (.record (rec1 .freq 30001 0)))).tb.f = 70000 := by decide

/-- R13: d = 32,768 turns a phase by 180 degrees. -/
theorem test_phase_jump :
    (after (.phaseJump true) (running1 (.record (rec1 .phaseJump 32768 0)))).tb.oa = 2147483648 := by decide

/-- R50: length 0 takes the target at once. -/
theorem test_level : (after (.level true) (running1 (.record (rec1 .level 65535 0)))).ph.b.l = 65535 := by decide

/-- R100: a SHAPE on an UNMAPPED entry faults with its index. -/
theorem test_shape_unmapped :
    let t := after (.shape true) (running1 (.record (rec1 .shape 9 0)))
    t.run.state = .faulted ∧ t.run.faultReason = .unmappedShape ∧ t.run.faultIndex = 3 := by decide

/-- RUNNING with two SHAPE records due at the coming tick: phases to entry 0, then to entry 5, which phase A has. Entry 5 is MAPPED
to block 4, and a MAP_SHAPE of entry 5 to block 3 waits. -/
def twoShapes : State :=
  { running1 (.record (rec1 .shape 0 0)) with
    map := [(5, 5)]
    ph := { phasesReset with a := { phaseReset with shape := 5 } }
    run := { runnerReset with
      state := .running, execPtr := 3, fetchPtr := 5, halt := .endRecord
      queue := [dueNow (.record (rec1 .shape 0 0)), dueNow (.record (rec1 .shape 5 0))] }
    links := linksReset.set .pl { linkReset .pl with
      csLow := true, tx := .waiting, untaken := [{ code := 0x12, n := 2, params := [5, 3], inInit := false }] } }

/-- R29, Note: taken before or after the two applications the MAP_SHAPE is refused IN_USE; between them it is made, and the
second SHAPE is resolved on the new map. -/
theorem test_map_shape_between :
    let apply := fun k s => applyStretch zeroPosition zeroPosition k s
    statusOn .pl (takeOldest .pl twoShapes) = some 0x03 ∧
    statusOn .pl (takeOldest .pl (apply 2 twoShapes)) = some 0x03 ∧
    let t := apply 1 (takeOldest .pl (apply 1 twoShapes))
    statusOn .pl t = some 0x00 ∧ mapEntry t.map 5 = .mapped 3 ∧ t.ph.a.shape = 5 ∧ t.run.queue = [] := by decide

/-- R54 and R37. -/
theorem test_noise_and_bank : (after (.noise true) (running1 (.record (rec1 .noise 255 0)))).ph.c.n = 255 ∧
    (after (.slotbank true) (running1 (.record (rec1 .slotbank 3 0)))).ph.a.bank = 3 := by decide

/-- R75: LOOP_BEGIN pushes a frame with body start x + 1. -/
theorem test_loop_begin : (after (.loopBegin true) (running1 (.record (rec1 .loopBegin 2 0)))).run.cStack =
    [{ body := 4, remaining := 2 }] := by decide

/-- R114: ENABLE in OFF with R = 0; R115: SAFE with a ramp from there. -/
theorem test_enable_safe : (after (.enable .gl [0, 0]) State.reset).guard.out = .on ∧
    (after (.safe .gl [4, 0]) (withGuard { guardReset with out := .on, g := 32768 })).guard.ramp =
      some { g0 := 32768, r := 4, k := 0 } := by decide

/-- R119: RELEASE in TRIPPED is refused TRIPPED. -/
theorem test_release_tripped :
    statusOn .gl (after (.release .gl []) (withGuard { guardReset with out := .tripped, hold := true })) = some 0x09 := by
  decide

/-- R120: a Kp of 0 is taken as 1, CLAMPED; a mask with channel 7 raises S with SCAN_CHANGED. -/
theorem test_set_watch :
    let t := after (.setWatch .gl [0x80, 0, 1, 0, 0, 1, 1]) { State.reset with scan := { scannerReset with stop := 3 } }
    t.guard.kp = 1 ∧ statusOn .gl t = some 0x01 ∧ t.scan.stop = 7 ∧ t.links.ml.notices = 0x20 := by decide

/-- R136: S below the highest watched channel is raised, CLAMPED. -/
theorem test_set_scan_watch :
    let t := after (.setScan .ml [2, 0, 0, 0, 0, 0, 0, 0, 0]) (withGuard { guardReset with watch := 0x10 })
    t.scan.stop = 4 ∧ statusOn .ml t = some 0x01 := by decide

/-- R131: the first tick commands channel 0, the next scan pointer is 1. -/
theorem test_first_command :
    let t := after (.sampleTick true) State.reset
    t.scan.outstanding = some { channel := 0, gain := 0, stamp := { c := 0, ang := 128 } } ∧ t.scan.ptr = 1 := by decide

/-- R132: the 16 bits are read as signed. -/
theorem test_adc_result :
    (after (.adcResult ⟨.latest, 0x8000⟩) (after (.sampleTick true) State.reset)).scan.result = some (-32768) := by decide

/-- R132, R143: a late result, or one of an abandoned command, is not read. -/
theorem test_adc_late :
    (after (.adcResult ⟨.ended, 5⟩) (after (.sampleTick true) State.reset)).scan.result = none := by decide

/-- R67: A, B, C in two's complement, most significant bit first; DFRAME at the first bit. -/
theorem test_dac :
    let s : State := { State.reset with frame := { a := -2, b := 1, c := 0 } }
    s.dac.take 2 = [{ dframe := true, ddata := true }, { dframe := false, ddata := true }] ∧
    (s.dac.drop 15).take 2 = [{ dframe := false, ddata := false }, { dframe := false, ddata := false }] ∧
    s.dac[31]? = some { dframe := false, ddata := true } ∧ s.dac.length = 48 := by decide

/-- R157, R158: a CLEAR_TRIP taken before a START stays ahead of it; one taken behind it may come behind the runner's entries. -/
theorem test_clear_trip_order :
    let clear := plainEntry .clearTrip 0 zeroPosition .nothing
    let start := plainEntry .start 2 zeroPosition .nothing
    let release := plainEntry .release 2 zeroPosition .nothing
    requestEntries [clear, start] [release] 1 = [clear, start, release] ∧
    requestEntries [start, clear] [release] 0 = [start, clear, release] ∧
    requestEntries [start, clear] [release] 1 = [start, release, clear] := by decide

/-- R146: neither a channel nor cycle records is BAD_VALUE. -/
theorem test_arm_nothing :
    statusOn .ml (after (.armCapture .ml [0, 0, 0, 0, 0, 0, 1, 0]) State.reset) = some 0x04 := by decide

/-- R151: TRIGGER starts a capture ARMED on REQUEST. -/
theorem test_trigger :
    (after (.trigger .ml []) (after (.csRise .ml) (after (.armCapture .ml [0, 0, 0, 0, 1, 0, 1, 0]) State.reset))).cap.state =
      .capturing := by decide

/-- R163: a snapshot takes the counts of the ticks before. -/
theorem test_snapshot :
    let s := { State.reset with cnt := { countersReset with request := true, live := { nineZero with applied := 5 } } }
    let t := after (.snapshotTaken true) s
    t.cnt.snap.applied = 5 ∧ t.cnt.live.applied = 0 ∧ t.cnt.seq = 1 ∧ t.links.ml.notices = 0x10 := by decide

/-- R171: NOT_READY in INIT, WRONG_LINK, UNKNOWN, LENGTH. -/
theorem test_link_checks :
    statusOn .gl (after (.enable .gl [0, 0]) { State.reset with inInit := true }) = some 0x08 ∧
    statusOn .pl (after (.enable .pl [0, 0]) State.reset) = some 0x06 ∧
    statusOn .ml (after (.unknownRequest .ml 0x7F []) State.reset) = some 0x05 ∧
    statusOn .gl (after (.enable .gl (List.replicate 201 0)) State.reset) = some 0x07 := by decide +kernel

/-- R175: the set is returned with the mask and emptied. -/
theorem test_read_notices :
    let s := { State.reset with links := linksReset.set .pl { linkReset .pl with notices := 0x05 } }
    let t := after (.readNotices .pl []) s
    t.links.pl.resp = some (.formed [0x00, 0x02, 0x05, 0x0F]) ∧ t.links.pl.notices = 0 := by decide

/-- R168: a byte of a request is answered 0xFF, and the request is complete at its length byte for n = 0. -/
theorem test_bytes :
    let t := after (.byteClocked .pl 0) (after (.byteClocked .pl 0x1B) (after (.csFall .pl) State.reset))
    t.links.pl.tx = .waiting ∧ t.links.pl.sdo = 0xFF := by decide

/-- R180: SOFT_RESET acts at the rising edge of CS that ends its transaction. -/
theorem test_soft_reset :
    let s := withGuard { guardReset with out := .tripped, hold := true }
    (after (.softReset .gl []) s).guard.out = .tripped ∧
    (after (.csRise .gl) (after (.softReset .gl []) s)).guard.out = .off := by decide

/-- The step takes the front of the queue. -/
theorem test_step : step { State.reset with pending := [.hold .gl []] } = exec (.hold .gl []) State.reset := by rfl

/-! ## States and operands that meet the hypotheses of the statements

One theorem for each statement with hypotheses; where the statement has several clauses over one input, each clause at a
boundary of its range. -/

/-- The bytes of a record with kind code, p1 and p2, a mask of all phases. -/
def recBytes (kind p1 p2 : Nat) : List Byte := BitVec.ofNat 8 (112 + kind) :: ([0, 0, 0, 0] ++ leBytes 2 p1 ++ leBytes 2 p2 ++ [0])

theorem witness_StepRunsFrontCommand : State.reset.pending = [] := by decide

theorem witness_WellFormedCommandsComplete :
    wellFormed .powerOn = true ∧ wellFormed (.unknownRequest .pl 0x01 []) = false := by decide

theorem witness_EventRowsAreTheirTick :
    (.trip true, [.trip]) ∈ eventRows true ∧ ({ State.reset with inInit := true } : State).works = false ∧
    beforeBoundary.works = true ∧ .cycleBoundary ∈ (after (.sampleTick true) beforeBoundary).events ∧
    .trip ∉ (after (.sampleTick true) beforeBoundary).events := by decide

theorem witness_LinkLevelChecksRefuse :
    wellFormed (.setSeed .pl (List.replicate 201 0)) = true ∧
    (Instr.setSeed .pl [0]).request = some (.pl, 0x16, [0]) ∧ (Instr.start .gl []).request = some (.gl, 0x1A, []) ∧
    (State.reset.links.get .pl).csLow = false ∧ (State.reset.links.get .pl).tx = .idle ∧
    (State.reset.links.get .pl).untaken = [] ∧ State.reset.resetLow = false ∧ State.reset.inInit = false ∧
    ({ State.reset with inInit := true } : State).inInit = true ∧
    (0x0F : Byte) ∉ requestCodes ∧ (0x16 : Byte) ∈ requestCodes ∧ (0x1A : Byte) ∈ requestCodes ∧
    (0x1A : Byte).toNat < 0x30 := by decide +kernel

theorem witness_CsEdgesAndResponse :
    (State.reset.links.get .gl).csLow = false ∧
    ((inTx .gl .waiting).links.get .gl).csLow = true ∧ ((inTx .gl .waiting).links.get .gl).softReset = false ∧
    ((inTx .gl .waiting).links.get .gl).untaken.getLast? = none ∧
    ((after (.readNotices .gl []) State.reset).links.get .gl).tx = .waiting ∧
    ((after (.readNotices .gl []) State.reset).links.get .gl).resp = some (.formed [0x00, 0x02, 0x00, 0x07]) ∧
    ((after (.readTimeline .gl []) State.reset).links.get .gl).resp = some (.atTick .timeline) := by decide

theorem witness_RequestBytesDecodeToTheirRow :
    wellFormed (.enable .gl [0, 0]) = true ∧ (Instr.enable .gl [0, 0]).request = some (.gl, 0x30, [0, 0]) ∧
    wellFormed (.enable .gl (List.replicate 201 0)) = true ∧ Ready .gl State.reset :=
  ⟨by decide, by decide, by decide +kernel, ready_reset .gl⟩

/-- A HOLD on the Program Link is refused WRONG_LINK: two bytes to clock out. -/
def respondingPl : State :=
  after (.responseReady .pl) (after (.hold .pl []) State.reset)

theorem witness_ResponseIsClockedOut :
    (respondingPl.links.get .pl).csLow = true ∧ (respondingPl.links.get .pl).tx = .responding ∧
    (respondingPl.links.get .pl).out = [0x06, 0x00] ∧ ([0xAA, 0xBB] : List Byte).length = 2 ∧
    ((inTx .pl .drained).links.get .pl).csLow = true ∧ ((inTx .pl .drained).links.get .pl).tx ≠ .responding ∧
    ((inTx .pl .drained).links.get .pl).tx ≠ .idle ∧ ((inTx .pl .receiving).links.get .pl).tx = .receiving ∧
    (State.reset.links.get .pl).csLow = false := by decide

theorem witness_NoticesReadAndMaskSet :
    Ready .gl State.reset ∧ (0x07 : Byte) &&& ~~~allNotices .gl = 0 ∧ (0x08 : Byte) &&& ~~~allNotices .gl ≠ 0 ∧
    ([1] : List Byte).length ≠ 0 ∧ ([] : List Byte).length ≠ 1 :=
  ⟨ready_reset .gl, by decide⟩

theorem witness_PowerOnAndInit :
    ({ State.reset with inInit := true } : State).inInit = true ∧ untakenCount { State.reset with inInit := true } = 0 ∧
    ({ State.reset with inInit := true, resetLow := true } : State).resetLow = true := by decide

theorem witness_QuietTickSendsZeros :
    ({ State.reset with resetLow := true } : State).resetLow = true ∧ untakenCount { State.reset with resetLow := true } = 0 := by
  decide

theorem witness_SoftResetActsAtItsCsRise :
    Ready .gl State.reset ∧
    (let s := after (.softReset .gl []) State.reset
     s.links.gl.csLow = true ∧ s.links.gl.softReset = true ∧ s.links.gl.untaken = []) ∧
    (let s := after (.byteClocked .gl 0) (after (.byteClocked .gl 0x39) (after (.csFall .gl) State.reset))
     s.links.gl.csLow = true ∧ s.links.gl.softReset = false ∧ s.links.gl.tx = .waiting ∧
     s.links.gl.untaken = [] ++ [{ code := 0x39, n := 0, params := [], inInit := false }]) ∧
    (let s := after (.byteClocked .gl 0) (after (.byteClocked .gl 0x39) (after (.csFall .gl)
       { State.reset with inInit := true }))
     s.links.gl.csLow = true ∧ s.links.gl.softReset = false ∧ s.links.gl.tx = .waiting ∧
     s.links.gl.untaken = [{ code := 0x39, n := 0, params := [], inInit := true }]) :=
  ⟨ready_reset .gl, by decide, by decide, by decide⟩

/-- R180: a SOFT_RESET cut short in WAITING is taken at the rising edge and takes effect there. -/
theorem test_soft_reset_cut :
    (after (.csRise .gl) (after (.byteClocked .gl 0) (after (.byteClocked .gl 0x39) (after (.csFall .gl)
      (withGuard { guardReset with hold := true }))))).guard.hold = false := by decide

theorem witness_RoundingIsToNearestHalvesAway : 0 < 1 ∧ 2 * ((5 : Int) - roundInt 5 2 * (2 : Nat)).natAbs = 2 := by decide

theorem witness_TickAdvancesTheTimeline :
    4294967296 ≤ beforeBoundary.tb.b.toNat + beforeBoundary.tb.inc ∧
    State.reset.tb.b.toNat + State.reset.tb.inc < 4294967296 ∧ beforeBoundary.inInit = false ∧
    beforeBoundary.resetLow = false := by decide

theorem witness_TickFrame : PlainTick State.reset := plainTick_reset

/-- A frequency ramp of two cycles, `k` steps made, the tick before a boundary. -/
def freqRamping (k : Nat) : State :=
  { State.reset with tb := { timebaseReset with b := 4286578688, ramp := some { f0 := 50000, t := 51000, r := 2, k := k } } }

theorem witness_FrequencyRampSteps :
    (∀ k, NothingApplied (freqRamping k)) ∧ (freqRamping 0).tb.ramp = some { f0 := 50000, t := 51000, r := 2, k := 0 } ∧
    4294967296 ≤ (freqRamping 1).tb.b.toNat + (freqRamping 1).tb.inc ∧
    ({ f0 := 50000, t := 51000, r := 2, k := 1 } : FreqRamp).k + 1 = 2 :=
  ⟨fun _ => ⟨⟨rfl, rfl, rfl⟩, rfl, fun _ h => by simp [freqRamping, State.reset, runnerReset] at h⟩, by decide⟩

theorem witness_FreqAndPhaseJumpApplied :
    OneDue (running1 (.record (rec1 .freq 65535 0))) (dueNow (.record (rec1 .freq 65535 0))) [] ∧
    OneDue (running1 (.record (rec1 .freq 0 1))) (dueNow (.record (rec1 .freq 0 1))) [] ∧
    OneDue (running1 (.record (rec1 .phaseJump 65535 0))) (dueNow (.record (rec1 .phaseJump 65535 0))) [] ∧
    (∀ item, QuietTrace (running1 item) ∧ (running1 item).trace.fifo.length < 64) :=
  ⟨oneDue_running1 _, oneDue_running1 _, oneDue_running1 _, fun item => ⟨quietTrace_running1 item, show 0 < 64 by decide⟩⟩

theorem block4_free : ¬ BlockCurrent State.reset 4 := by
  rintro ⟨e, -, (⟨p, h⟩ | ⟨r, h, -⟩), hm⟩
  · have : e = 0 := by rw [← h]; cases p <;> rfl
    subst this; revert hm; decide
  · simp [State.reset, runnerReset] at h

/-- Phase A on entry 5, which is MAPPED to block 4. -/
def shape4 : State := { withPhaseA { phaseReset with shape := 5 } with map := [(5, 5)] }

theorem witness_WriteShapeChecksAndStores :
    Ready .pl State.reset ∧ State.reset.wave.wf = true ∧ ¬ BlockCurrent State.reset 4 ∧
    ([4, 0xFF, 0x03, 1, 0x34, 0x12] : List Byte).length = 4 + 2 * byteAt [4, 0xFF, 0x03, 1, 0x34, 0x12] 3 ∧
    wordAt [4, 0xFF, 0x03, 1, 0x34, 0x12] 1 + 1 = 1024 ∧
    Ready .pl shape4 ∧ shape4.wave.wf = true ∧ BlockCurrent shape4 4 ∧
    ([4, 0, 0, 0] : List Byte).length = 4 + 2 * byteAt [4, 0, 0, 0] 3 ∧ ¬ 1 ≤ byteAt [4, 0, 0, 0] 3 ∧
    ¬ 4 ≤ ([4, 0, 0] : List Byte).length :=
  ⟨ready_reset .pl, by decide, block4_free, by decide, by decide, ⟨rfl, rfl, rfl, rfl, rfl⟩, by decide,
    ⟨5, by decide, Or.inl ⟨.a, by decide⟩, by decide⟩, by decide⟩

theorem entry63_free : ¬ EntryCurrent State.reset 63 := by
  rintro (⟨p, h⟩ | ⟨r, h, -⟩)
  · cases p <;> simp [State.reset, phasesReset, phaseReset, Phases.get] at h
  · simp [State.reset, runnerReset] at h

theorem witness_MapShapeChecksAndMaps :
    Ready .pl State.reset ∧ State.reset.map.wf = true ∧ ¬ EntryCurrent State.reset 63 ∧
    byteAt [63, 255] 0 = 63 ∧ byteAt [63, 255] 1 = 255 ∧ byteAt [0, 15] 0 = 0 ∧ ¬ byteAt [63, 16] 1 ≤ 15 ∧
    byteAt [63, 16] 1 ≠ 255 ∧ EntryCurrent shape4 5 ∧ Ready .pl shape4 ∧ shape4.map.wf = true :=
  ⟨ready_reset .pl, by decide, entry63_free, by decide, by decide, by decide, by decide, by decide,
    Or.inl ⟨.a, by decide⟩, ⟨rfl, rfl, rfl, rfl, rfl⟩, by decide⟩

theorem bank3_free : ¬ BankCurrent State.reset (phaseOf 2) 3 := by
  rintro (h | ⟨r, h, -⟩)
  · revert h; decide
  · simp [State.reset, runnerReset] at h

theorem witness_WriteSlotsChecksAndStores :
    Ready .pl State.reset ∧ State.reset.slots.wf = true ∧ ¬ BankCurrent State.reset (phaseOf 2) 3 ∧
    (let ps : List Byte := [2, 3, 63, 1, 0x84, 0, 0]
     4 ≤ ps.length ∧ ps.length = 4 + 3 * byteAt ps 3 ∧ byteAt ps 2 + byteAt ps 3 = 64 ∧
       ∀ i, i < 1 → byteAt ps (4 + 3 * i) % 128 ≤ 4) ∧
    (let ps : List Byte := [2, 3, 63, 1, 0x05, 0, 0]
     ps.length = 4 + 3 * byteAt ps 3 ∧ ¬ byteAt ps 4 % 128 ≤ 4) ∧
    BankCurrent State.reset (phaseOf 0) 0 ∧ ([0, 0, 0] : List Byte).length < 4 :=
  ⟨ready_reset .pl, by decide, bank3_free, by decide, by decide, Or.inl (by decide), by decide⟩

theorem witness_SetSeedStoresTheSeed :
    Ready .pl State.reset ∧ dwordAt [0, 0, 2, 0] 0 = 131072 ∧ dwordAt [0xFF, 0xFF, 1, 0] 0 = 131071 ∧
    dwordAt [1, 0, 0, 0] 0 = 1 ∧ dwordAt [0, 0, 0, 0] 0 = 0 ∧ ([0, 0, 0] : List Byte).length ≠ 4 :=
  ⟨ready_reset .pl, by decide⟩

theorem witness_StoreReadsReturnTheContents :
    Ready .pl State.reset ∧
    (let ps : List Byte := [16, 0xC0, 0x03, 64]
     ps.length = 4 ∧ byteAt ps 0 = 16 ∧ wordAt ps 1 + byteAt ps 3 = 1024) ∧
    (let ps : List Byte := [2, 3, 0, 64]
     ps.length = 4 ∧ byteAt ps 2 + byteAt ps 3 = 64) ∧
    (let ps : List Byte := [0xE8, 0x03, 24]
     ps.length = 3 ∧ wordAt ps 0 + byteAt ps 2 = 1024) ∧
    byteAt [17, 0, 0, 1] 0 = 17 ∧ byteAt [0, 0, 0, 65] 3 = 65 ∧ byteAt [0, 0, 25] 2 = 25 :=
  ⟨ready_reset .pl, by decide⟩

/-- The queue holds the entry of index 3. -/
theorem witness_WriteRecordsStoresAndFlushes :
    Ready .pl (running1 (.record (rec1 .mark 0 0))) ∧ (running1 (.record (rec1 .mark 0 0))).sched.wf = true ∧
    (let ps : List Byte := [3, 0, 1] ++ recBytes 7 1 0
     ps.length = 3 + 10 * byteAt ps 2 ∧ wordAt ps 0 ≤ 3 ∧ 3 < wordAt ps 0 + byteAt ps 2) ∧
    (let ps : List Byte := [0xFF, 3, 1] ++ recBytes 7 1 0
     ps.length = 3 + 10 * byteAt ps 2 ∧ wordAt ps 0 = 1023 ∧ wordAt ps 0 + byteAt ps 2 = 1024 ∧
       ∀ q ∈ (running1 (.record (rec1 .mark 0 0))).run.queue, q.src < wordAt ps 0 ∨ wordAt ps 0 + byteAt ps 2 ≤ q.src) ∧
    (let ps : List Byte := [0, 0, 0]
     ps.length = 3 + 10 * byteAt ps 2 ∧ ¬ 1 ≤ byteAt ps 2) ∧ ([0, 0] : List Byte).length < 3 :=
  ⟨⟨rfl, rfl, rfl, rfl, rfl⟩, by decide⟩

theorem witness_SetNominalSetsThePeaks :
    Ready .pl State.reset ∧ byteAt [7, 0xFF, 0x7F] 0 = 7 ∧ wordAt [7, 0xFF, 0x7F] 1 = 32767 ∧
    wordAt [7, 0x00, 0x80] 1 = 32768 ∧ byteAt [8, 0, 0] 0 = 8 ∧ ([7, 0] : List Byte).length ≠ 3 :=
  ⟨ready_reset .pl, by decide⟩

/-- Phase A in a level ramp of four ticks, `k` steps made. -/
def levelRamping (k : Nat) : State := withPhaseA { phaseReset with ramp := some { l0 := 32768, t := 0, r := 4, k := k } }

theorem witness_LevelsApplyAndRamp :
    OneDue (running1 (.record (rec1 .level 65535 0))) (dueNow (.record (rec1 .level 65535 0))) [] ∧
    OneDue (running1 (.record (rec1 .level 0 1))) (dueNow (.record (rec1 .level 0 1))) [] ∧
    OneDue (running1 (.record (rec1 .level 0 2))) (dueNow (.record (rec1 .level 0 2))) [] ∧
    Mask.names (rec1 .level 0 2).mask .a = true ∧ Mask.names 6 .a = false ∧
    (∀ k, NothingApplied (levelRamping k)) ∧ ((levelRamping 3).ph.get .a).ramp = some { l0 := 32768, t := 0, r := 4, k := 3 } :=
  ⟨oneDue_running1 _, oneDue_running1 _, oneDue_running1 _, by decide, by decide,
    fun _ => ⟨⟨rfl, rfl, rfl⟩, rfl, fun _ h => by simp [levelRamping, withPhaseA, State.reset, runnerReset] at h⟩, rfl⟩

theorem witness_ShapeResolvedAtItsTick :
    OneDue (running1 (.record (rec1 .shape 0 0))) (dueNow (.record (rec1 .shape 0 0))) [] ∧
    mapEntry (running1 (.record (rec1 .shape 0 0))).map 0 ≠ .unmapped ∧
    OneDue (running1 (.record (rec1 .shape 63 0))) (dueNow (.record (rec1 .shape 63 0))) [] ∧
    mapEntry (running1 (.record (rec1 .shape 63 0))).map 63 = .unmapped ∧
    NoTrip (running1 (.record (rec1 .shape 63 0))) ∧ (running1 (.record (rec1 .shape 63 0))).trace = traceReset :=
  ⟨oneDue_running1 _, by decide, oneDue_running1 _, by decide, by unfold NoTrip; decide, rfl⟩

theorem witness_SlotbankAndNoiseApplied :
    OneDue (running1 (.record (rec1 .slotbank 3 0))) (dueNow (.record (rec1 .slotbank 3 0))) [] ∧
    OneDue (running1 (.record (rec1 .noise 255 0))) (dueNow (.record (rec1 .noise 255 0))) [] :=
  ⟨oneDue_running1 _, oneDue_running1 _⟩

theorem witness_InterpolationAndAmplitudeScale :
    (((98 : Int) - 100) * (64 : Nat) = 256 * (-1) + 128 ∧ (98 : Int) < 100) ∧
    (((102 : Int) - 100) * (64 : Nat) = 256 * 0 + 128 ∧ (100 : Int) < 102) ∧ amplified (-32768) 65533 = -65533 := by decide

theorem witness_SamplesAreComputedByTheStages :
    PlainTick State.reset ∧ State.reset.guard.out = .off ∧ State.reset.guard.lo ≤ 0 ∧ 0 ≤ State.reset.guard.hi :=
  ⟨plainTick_reset, by decide⟩

/-- Limits of 0, with SUBST 1 in every slot entry of phase A that the coming tick uses. -/
def clamping : State :=
  { withGuard { guardReset with out := .on, g := 32768, lo := 0, hi := 0 } with slots := [(0, 3), (1, 1)] }

theorem witness_ClampsAreFlaggedAndCounted :
    PlainTick clamping ∧
    (let t := after (.sampleTick true) clamping
     sampleUnlimited t .a 0 1 = 1 ∧ t.guard.hi = 0 ∧ sampleUnlimited t .b 0 1 = 0) ∧
    clamping.ph.a.clamp = false ∧ (entryAfter clamping .a).noise = false :=
  ⟨⟨rfl, rfl, rfl⟩, by decide, by decide⟩

theorem witness_StartAndStop :
    Ready .pl State.reset ∧ State.reset.run.state = .idle ∧ State.reset.run.applyNow = none ∧
    State.reset.guard.hold = false ∧ State.reset.run.queue = [] ∧ 1 ≤ State.reset.run.allowance ∧
    wordAt [0xFF, 3] 0 = 1023 ∧ wordAt [0, 4] 0 = 1024 ∧ ([0] : List Byte).length ≠ 2 ∧
    Ready .pl (running1 (.record (rec1 .mark 0 0))) ∧ (running1 (.record (rec1 .mark 0 0))).run.state = .running ∧
    Ready .pl (applying (rec1 .mark 0 0)) ∧ (applying (rec1 .mark 0 0)).run.applyNow ≠ none ∧
    Ready .pl (withGuard { guardReset with hold := true }) ∧ (withGuard { guardReset with hold := true }).guard.hold = true ∧
    Ready .pl (withRun { runnerReset with state := .ended }) :=
  ⟨ready_reset .pl, by decide, by decide, by decide, by decide, by decide, by decide, by decide, by decide,
    ⟨rfl, rfl, rfl, rfl, rfl⟩, by decide, ⟨rfl, rfl, rfl, rfl, rfl⟩, by decide, ⟨rfl, rfl, rfl, rfl, rfl⟩, by decide,
    ⟨rfl, rfl, rfl, rfl, rfl⟩⟩

theorem witness_ApplyNowChecksAndWaits :
    Ready .pl State.reset ∧ State.reset.run.state = .idle ∧ State.reset.run.applyNow = none ∧
    (decodeRecord (recBytes 1 0 0)).kind = .level ∧ (decodeRecord (recBytes 2 30001 0)).kind = .freq ∧
    (decodeRecord (recBytes 2 30001 0)).p1 = 30001 ∧ (decodeRecord (recBytes 2 30000 0)).p1 = 30000 ∧
    (decodeRecord (recBytes 3 0 0)).kind = .phaseJump ∧
    (decodeRecord (recBytes 4 0 0)).kind = .shape ∧ mapEntry State.reset.map 0 ≠ .unmapped ∧
    (decodeRecord (recBytes 5 3 0)).p1 = 3 ∧ (decodeRecord (recBytes 6 255 0)).p1 = 255 ∧
    (decodeRecord (recBytes 6 256 0)).p1 = 256 ∧ (decodeRecord (recBytes 7 0 0)).kind = .mark ∧
    (recBytes 7 0 0).length = 10 ∧
    Ready .pl (applying (rec1 .level 0 0)) ∧ (applying (rec1 .level 0 0)).run.applyNow ≠ none :=
  ⟨ready_reset .pl, by decide, by decide, by decide, by decide, by decide, by decide, by decide, by decide, by decide,
    by decide, by decide, by decide, by decide, by decide, ⟨rfl, rfl, rfl, rfl, rfl⟩, by decide⟩

theorem witness_PendingApplyNowIsApplied :
    ApplyPending (applying (rec1 .shape 0 0)) (rec1 .shape 0 0) ∧
    mapEntry (applying (rec1 .shape 0 0)).map (rec1 .shape 0 0).p1 ≠ .unmapped ∧
    ApplyPending (applying (rec1 .freq 30001 0)) (rec1 .freq 30001 0) ∧ QuietTrace (applying (rec1 .freq 30001 0)) ∧
    (applying (rec1 .freq 30001 0)).trace.fifo.length < 64 :=
  ⟨⟨⟨rfl, rfl, rfl⟩, rfl, rfl⟩, by decide, ⟨⟨rfl, rfl, rfl⟩, rfl, rfl⟩, quietTrace_applying _, by decide⟩

/-- A MARK due, with a capture ARMED on MARK with the filter value 7. -/
def markDue : State :=
  { running1 (.record (rec1 .mark 7 0)) with
    cap := { captureReset with
      state := .armed
      arm := some { source := .mark, filterMatch := true, filterValue := 7, mask := 1, cycleFlag := false, window := 1 } } }

theorem witness_MarkAppliedAndTraced :
    OneDue markDue (dueNow (.record (rec1 .mark 7 0))) [] ∧ NoTrip markDue ∧ markDue.trace.deferred = [] ∧
    markDue.trace.made = [] ∧ markDue.trace.fifo.length < 64 ∧ markDue.cap.state = .armed ∧
    (markDue.cap.arm.map fun a => (a.source, a.filterMatch, a.filterValue)) = some (.mark, true, 7) :=
  ⟨⟨⟨rfl, rfl, rfl⟩, fun h => absurd (show timebaseReset.wraps = true from h) (by decide), rfl, rfl,
    show zeroPosition.le timebaseReset.advance.position = true by decide, fun _ h => by simp at h⟩, rfl, by decide⟩

theorem witness_EndAndFaultMarkerStopTheRunner :
    OneDue (running1 (.record (rec1 .endRecord 0 0))) (dueNow (.record (rec1 .endRecord 0 0))) [] ∧
    QuietTrace (running1 (.record (rec1 .endRecord 0 0))) ∧
    (running1 (.record (rec1 .endRecord 0 0))).trace.fifo.length + 2 ≤ 64 ∧
    OneDue (running1 (.marker .spin)) (dueNow (.marker .spin)) [] ∧ NoTrip (running1 (.marker .spin)) ∧
    (running1 (.marker .spin)).trace = traceReset :=
  ⟨oneDue_running1 _, quietTrace_running1 _, by decide, oneDue_running1 _, by unfold NoTrip; decide, rfl⟩

/-- RUNNING with a LOOP_END due and a frame with `n` passes remaining. -/
def loopEndDue (n : Nat) : State :=
  { running1 (.record (rec1 .loopEnd 0 0)) with
    run := { (running1 (.record (rec1 .loopEnd 0 0))).run with cStack := [{ body := 1, remaining := n }] } }

theorem witness_ControlRecordsWalk :
    OneDue (running1 (.record (rec1 .loopBegin 65535 0))) (dueNow (.record (rec1 .loopBegin 65535 0))) [] ∧
    (∀ n, OneDue (loopEndDue n) (dueNow (.record (rec1 .loopEnd 0 0))) [] ∧
      (loopEndDue n).run.cStack = [{ body := 1, remaining := n }]) ∧
    OneDue (running1 (.record (rec1 .goto 1023 0))) (dueNow (.record (rec1 .goto 1023 0))) [] ∧
    QuietTrace (running1 (.record (rec1 .loopBegin 65535 0))) ∧ (∀ n, QuietTrace (loopEndDue n)) ∧
    QuietTrace (running1 (.record (rec1 .goto 1023 0))) :=
  ⟨oneDue_running1 _,
    fun _ => ⟨⟨⟨rfl, rfl, rfl⟩, fun h => absurd (show timebaseReset.wraps = true from h) (by decide), rfl, rfl,
      show zeroPosition.le timebaseReset.advance.position = true by decide, fun _ h => by simp at h⟩, rfl⟩,
    oneDue_running1 _, quietTrace_running1 _, 
    fun _ => ⟨noTrip_reset _ rfl rfl (show timebaseReset.wraps = false by decide), rfl, rfl⟩, quietTrace_running1 _⟩

/-- RUNNING or HELD, with the hold flag as given, the tick before a boundary. -/
def holding (st : RunState) (hold : Bool) : State :=
  { beforeBoundary with run := { runnerReset with state := st }, guard := { guardReset with hold := hold } }

theorem witness_HoldTakenAndReleased :
    (∀ st hold, PlainTick (holding st hold)) ∧ (holding .running true).tb.wraps = true ∧
    (holding .running true).guard.hold = true ∧ (holding .held false).run.state = .held ∧ NoTrip (holding .held false) ∧
    QuietTrace (holding .running true) ∧ QuietTrace (holding .held false) :=
  ⟨fun _ _ => ⟨rfl, rfl, rfl⟩, by decide, by decide, by decide, rfl, ⟨rfl, rfl, rfl⟩, ⟨rfl, rfl, rfl⟩⟩

theorem witness_EnableAndSafeByOutputState :
    (∀ st, Ready .gl (withGuard { guardReset with out := st })) ∧ wordAt [0, 0] 0 = 0 ∧ wordAt [0xFF, 0xFF] 0 = 65535 ∧
    ([0] : List Byte).length ≠ 2 :=
  ⟨fun _ => ⟨rfl, rfl, rfl, rfl, rfl⟩, by decide⟩

/-- A guard ramp of two ticks, `k` steps made. -/
def guardRamping (st : OutState) (k : Nat) : State :=
  withGuard { guardReset with out := st, g := 16384, ramp := some { g0 := 16384, r := 2, k := k } }

theorem witness_GuardRampSteps :
    (∀ st k, PlainTick (guardRamping st k)) ∧ NoTrip (guardRamping .rampUp 0) ∧ NoTrip (guardRamping .rampDown 1) ∧
    (guardRamping .rampDown 1).guard.ramp = some { g0 := 16384, r := 2, k := 1 } :=
  ⟨fun _ _ => ⟨rfl, rfl, rfl⟩, rfl, rfl, rfl⟩

theorem witness_LimitsWaitForTheTick :
    Ready .gl State.reset ∧ signedAt [1, 0, 0, 0] 0 = 1 ∧ signedAt [0, 0, 0xFF, 0xFF] 2 = -1 ∧
    signedAt [0, 0x80, 0xFF, 0x7F] 0 = -32768 ∧ signedAt [0, 0x80, 0xFF, 0x7F] 2 = 32767 ∧ signedAt [0, 0, 0, 0] 0 = 0 ∧
    PlainTick State.reset ∧ State.reset.guard.pendingLimits = none ∧
    PlainTick (withGuard { guardReset with pendingLimits := some (0, 0) }) :=
  ⟨ready_reset .gl, by decide, by decide, by decide, by decide, by decide, plainTick_reset, by decide, ⟨rfl, rfl, rfl⟩⟩

theorem witness_FlagsHoldAndTripCleared :
    Ready .gl State.reset ∧ State.reset.guard.out ≠ .tripped ∧ byteAt [7] 0 = 7 ∧ byteAt [8] 0 = 8 ∧
    Ready .gl (withGuard { guardReset with out := .tripped }) :=
  ⟨ready_reset .gl, by decide, by decide, by decide, ⟨rfl, rfl, rfl, rfl, rfl⟩⟩

theorem witness_SetWatchTakesTheSettings :
    Ready .gl State.reset ∧ channelIn 0x80 7 = true ∧ (∀ i, i ≤ 7 → channelIn 0 i = false) ∧
    (let ps : List Byte := [0x80, 0xFF, 0x7F, 1, 0, 0x80, 0]
     ps.length = 7 ∧ wordAt ps 1 = 32767 ∧ byteAt ps 3 = 1 ∧ wordAt ps 4 = 32768 ∧ byteAt ps 6 = 0) :=
  ⟨ready_reset .gl, by decide⟩

/-- A watched conversion of channel 2 above Ipk is about to be handed over. -/
def overPeak : State :=
  { State.reset with
    guard := { guardReset with watch := 0x04, ipk := 20000, out := .on, g := 32768 }
    scan := { scannerReset with outstanding := some { channel := 2, gain := 0, stamp := zeroPosition }, result := some (-20001) } }

theorem witness_TripCutsTheOutput :
    PlainTick overPeak ∧ overPeak.guard.tripAt overPeak.scan overPeak.tb.wraps (comingPosition overPeak) = some (.peak, 2) ∧
    overPeak.guard.pendingLimits = none ∧ overPeak.run.state = .idle ∧ overPeak.run.applyNow = none ∧
    overPeak.trace.deferred = [] ∧ overPeak.trace.made = [] ∧ overPeak.trace.fifo.length < 64 :=
  ⟨⟨rfl, rfl, rfl⟩, by decide⟩

/-- The 32nd missing conversion in a row is about to be handed over. -/
def lostRun : State :=
  { State.reset with
    guard := { guardReset with watch := 0x01, missingRun := 31 }
    scan := { scannerReset with outstanding := some { channel := 5, gain := 0, stamp := zeroPosition } } }

/-- Channels 1 and 2 are watched; channel 2's conversion is about to be handed over and its cycle closes above Irms, while
channel 1 has no data and a conversion of 5 is below Ipk. -/
def overRms : State :=
  { beforeBoundary with
    guard := { guardReset with watch := 0x06, irms := 0 }
    scan := { scannerReset with outstanding := some { channel := 2, gain := 0, stamp := zeroPosition }, result := some 5 } }

theorem witness_TripConditions :
    (withGuard { guardReset with out := .tripped }).guard.out = .tripped ∧ State.reset.guard.watch = 0 ∧
    (overPeak.guard.out ≠ .tripped ∧ channelIn overPeak.guard.watch 2 = true ∧ overPeak.guard.ipk < (-20001 : Int).natAbs ∧
      overPeak.guard.kp ≤ min (overPeak.guard.peak.get 2 + 1) 255) ∧
    (lostRun.guard.out ≠ .tripped ∧ lostRun.scan.result = none ∧ lostRun.guard.watch ≠ 0 ∧ 31 ≤ lostRun.guard.missingRun ∧
      lostRun.scan.outstanding = some { channel := 5, gain := 0, stamp := zeroPosition }) ∧
    (overRms.guard.out ≠ .tripped ∧ channelIn overRms.guard.watch 2 = true ∧
      overRms.guard.kr ≤ rmsCounted overRms.guard overRms.scan 2 ∧
      (∀ j, j < 2 → channelIn overRms.guard.watch j = true → rmsCounted overRms.guard overRms.scan j < overRms.guard.kr)) ∧
    ((∀ cmd, overRms.scan.outstanding = some cmd → cmd.channel ≤ 7) ∧ ¬ ConversionTrips overRms.guard overRms.scan) ∧
    overRms.guard.tripAt overRms.scan true zeroPosition = some (.rms, 2) := by
  refine ⟨by decide, by decide, by decide, by decide, by decide, ⟨fun cmd h => ?_, fun h => ?_⟩, by decide⟩
  · simp only [overRms, Option.some.injEq] at h
    rw [← h]
    decide
  · rcases h with ⟨cmd, v, hc, hv, _, hk⟩ | ⟨cmd, _, hr, _⟩
    · simp only [overRms, Option.some.injEq] at hc hv
      subst hc hv
      exact absurd hk (by decide)
    · simp [overRms] at hr

theorem witness_SetScanKeepsTheWatch :
    Ready .ml State.reset ∧ State.reset.guard.watch = 0 ∧
    (let ps : List Byte := [7, 3, 3, 3, 3, 3, 3, 3, 3]
     ps.length = 9 ∧ byteAt ps 0 ≤ 7 ∧ ∀ i, i ≤ 7 → byteAt ps (i + 1) ≤ 3) ∧
    byteAt [8, 0, 0, 0, 0, 0, 0, 0, 0] 0 = 8 ∧ byteAt [0, 4, 0, 0, 0, 0, 0, 0, 0] 1 = 4 ∧
    Ready .ml (withGuard { guardReset with watch := 0x80 }) ∧
    channelIn (withGuard { guardReset with watch := 0x80 }).guard.watch 7 = true :=
  ⟨ready_reset .ml, by decide, by decide, by decide, by decide, ⟨rfl, rfl, rfl, rfl, rfl⟩, by decide⟩

theorem witness_ConversionsAreReadAndHandedOver :
    lostRun.scan.outstanding ≠ none ∧ lostRun.scan.result = none ∧ State.reset.scan.outstanding = none ∧
    overPeak.scan.result ≠ none ∧ PlainTick overPeak ∧ PlainTick overRms ∧ overPeak.tb.wraps = false ∧
    PlainTick beforeBoundary ∧ beforeBoundary.tb.wraps = true ∧
    (∀ cmd, overPeak.scan.outstanding = some cmd → cmd.channel ≤ 7) ∧
    OverHandedOver overPeak.guard overPeak.scan ∧ ¬ MissingHandedOver overPeak.scan ∧ PlainTick lostRun ∧
    MissingHandedOver lostRun.scan ∧ ¬ OverHandedOver lostRun.guard lostRun.scan ∧
    (overRms.tb.wraps = true ∧ channelIn overRms.guard.watch 2 = true ∧ rmsCounted overRms.guard overRms.scan 2 = 1) :=
  ⟨by decide, by decide, by decide, by decide, ⟨rfl, rfl, rfl⟩, ⟨rfl, rfl, rfl⟩, by decide, ⟨rfl, rfl, rfl⟩, by decide,
    fun cmd h => by simp [overPeak] at h; subst h; decide, ⟨_, _, rfl, rfl, by decide, by decide⟩,
    fun h => absurd h.2 (by decide), ⟨rfl, rfl, rfl⟩, ⟨by decide, rfl⟩, fun ⟨_, _, _, h, _⟩ => by simp [lostRun, scannerReset] at h, by decide⟩

/-- A capture in a state, armed on a source, with a window of `w`. -/
def capturing (st : CapState) (src : TriggerSource) (w : Nat) (fifo : List CapEntry) : State :=
  { overPeak with
    cap := { captureReset with
      state := st, fifo := fifo
      arm := some { source := src, filterMatch := false, filterValue := 0, mask := 0x04, cycleFlag := false, window := w } } }

theorem witness_CaptureIsArmedAndStopped :
    Ready .ml State.reset ∧ State.reset.cap.state = .disarmed ∧
    (let ps : List Byte := [4, 1, 0, 0, 0, 1, 0, 4]
     ps.length = 8 ∧ byteAt ps 0 = 4 ∧ byteAt ps 1 = 1 ∧ byteAt ps 5 = 1 ∧ wordAt ps 6 = 1024) ∧
    wordAt [0, 0, 0, 0, 1, 0, 1, 4] 6 = 1025 ∧ wordAt [0, 0, 0, 0, 1, 0, 0, 0] 6 = 0 ∧
    Ready .ml (capturing .armed .request 1 []) ∧ (capturing .armed .request 1 []).cap.state = .armed :=
  ⟨ready_reset .ml, by decide, by decide, by decide, by decide, ⟨rfl, rfl, rfl, rfl, rfl⟩, by decide⟩

theorem witness_ReadsRemoveTheOldestEntries :
    Ready .ml State.reset ∧ byteAt [24] 0 = 24 ∧ byteAt [25] 0 = 25 ∧ byteAt [8] 0 = 8 ∧ byteAt [9] 0 = 9 ∧
    byteAt [0] 0 = 0 ∧ ([] : List Byte).length ≠ 1 :=
  ⟨ready_reset .ml, by decide⟩

/-- The tick before a boundary, with a conversion of channel 2 to be handed over and data on channels 4 and 6, and a capture in a
state, armed on a source for channel 2 and the cycle records, with a window of `w`. -/
def capturingCycle (st : CapState) (src : TriggerSource) (w : Nat) : State :=
  { beforeBoundary with
    scan := { scannerReset with
      outstanding := some { channel := 2, gain := 0, stamp := zeroPosition }
      result := some (-5)
      channels := { scannerReset.channels with
        c4 := { channelReset with acc := { sum := 200, count := 2, peak := 12 } }
        c6 := { channelReset with acc := { sum := 50, count := 2, peak := 7 } } } }
    cap := { captureReset with
      state := st, trigLevel := false
      arm := some { source := src, filterMatch := false, filterValue := 0, mask := 0x04, cycleFlag := true, window := w } } }

/-- R149: the conversion comes first, then the records in channel order, and a window of 3 ends part way through them. -/
theorem test_capture_cycle :
    let t := after (.sampleTick false) (capturingCycle .armed .cycle 3)
    t.cap.fifo.map (fun e => (e.channel, e.value, e.aux)) = [(2, -5, 0), (2, 5, 5), (4, 10, 12)] ∧
    t.cap.state = .complete := by decide +kernel

theorem witness_CaptureTakesAConversion :
    (∀ st src w fifo, PlainTick (capturing st src w fifo)) ∧ (∀ st src w, PlainTick (capturingCycle st src w)) ∧
    PlainTick State.reset ∧ State.reset.cap.state = .disarmed ∧ State.reset.cap.arm = none ∧
    ¬ TriggeredAt { source := .request, filterMatch := false, filterValue := 0, mask := 0x04, cycleFlag := true, window := 3 } true
      (capturingCycle .armed .request 3) ∧
    NothingApplied (capturingCycle .armed .mark 3) ∧
    (∀ a, (capturingCycle .armed .external 3).cap.arm = some a →
      TriggeredAt a true (capturingCycle .armed .external 3) ∧ ¬ TriggeredAt a false (capturingCycle .armed .external 3)) ∧
    (∀ a, (capturing .armed .trip 3 []).cap.arm = some a → TriggeredAt a false (capturing .armed .trip 3 [])) ∧
    (∀ a, (capturingCycle .armed .cycle 3).cap.arm = some a →
      TriggeredAt a false (capturingCycle .armed .cycle 3) ∧ (capturingCycle .armed .cycle 3).cap.count < a.window ∧
      ((selectedEntries a (capturingCycle .armed .cycle 3)).length = 4 ∧ a.window = 3)) ∧
    (capturing .capturing .request 1 []).cap.state = .capturing ∧ (capturing .capturing .request 1 []).cap.stamp = none ∧
    (∀ cmd, (capturingCycle .armed .cycle 3).scan.outstanding = some cmd → cmd.channel ≤ 7) ∧
    1024 ≤ (capturing .capturing .request 2 (List.replicate 1024 (conversionEntry { channel := 2, gain := 0, stamp := zeroPosition } 0))).cap.fifo.length := by
  refine ⟨fun _ _ _ _ => ⟨rfl, rfl, rfl⟩, fun _ _ _ => ⟨rfl, rfl, rfl⟩, plainTick_reset, rfl, rfl, ?_,
    ⟨⟨rfl, rfl, rfl⟩, rfl, fun _ h => by simp [capturingCycle, beforeBoundary, State.reset, runnerReset] at h⟩, ?_, ?_, ?_, rfl, rfl,
    fun cmd h => by simp [capturingCycle] at h; subst h; decide, ?_⟩
  · rintro (⟨h, -⟩ | ⟨h, -⟩ | ⟨h, -⟩) <;> cases h
  · intro a h
    simp only [capturingCycle, Option.some.injEq] at h
    subst h
    exact ⟨Or.inl ⟨rfl, rfl, rfl⟩, by rintro (⟨-, h, -⟩ | ⟨h, -⟩ | ⟨h, -⟩) <;> cases h⟩
  · intro a h
    simp only [capturing, Option.some.injEq] at h
    subst h
    exact Or.inr (Or.inl ⟨rfl, by unfold NoTrip; decide⟩)
  · intro a h
    simp only [capturingCycle, Option.some.injEq] at h
    subst h
    exact ⟨Or.inr (Or.inr ⟨rfl, by decide⟩), by decide, by decide +kernel⟩
  · show 1024 ≤ (List.replicate 1024 _).length
    rw [List.length_replicate]

/-- A STOP entry waits for the trace. -/
def stopDeferred : State := { State.reset with trace := { traceReset with deferred := [{ type := .stop, index := 9 }] } }

/-- RUNNING after a START, with its entry waiting and `n` entries in the trace. -/
def startDeferred (n : Nat) : State :=
  { withRun { runnerReset with state := .running } with
    trace := { traceReset with
      deferred := [{ type := .start, index := 9 }]
      fifo := List.replicate n (plainEntry .stop 0 zeroPosition .nothing) } }

theorem witness_DeferredEntriesEnterTheTrace :
    NothingApplied stopDeferred ∧ NoTrip stopDeferred ∧ stopDeferred.trace.made = [] ∧ stopDeferred.trace.deferred ≠ [] ∧
    (∀ n, NothingApplied (startDeferred n) ∧ NoTrip (startDeferred n) ∧ (startDeferred n).trace.made = [] ∧
      (startDeferred n).run.state = .running ∧ (startDeferred n).guard.hold = false ∧
      (startDeferred n).trace.fifo.length = n ∧ (startDeferred n).trace.deferred.length = 1) ∧
    NothingApplied State.reset ∧ State.reset.trace.deferred = [] :=
  ⟨⟨⟨rfl, rfl, rfl⟩, rfl, fun _ h => by simp [stopDeferred, State.reset, runnerReset] at h⟩, rfl, by decide, by decide,
    fun n => ⟨⟨⟨rfl, rfl, rfl⟩, rfl, fun _ h => by simp [startDeferred, withRun, runnerReset] at h⟩,
      noTrip_reset _ rfl rfl (show timebaseReset.wraps = false by decide), rfl, rfl, rfl,
      by simp [startDeferred], rfl⟩,
    ⟨⟨rfl, rfl, rfl⟩, rfl, fun _ h => by simp [State.reset, runnerReset] at h⟩, by decide⟩

/-- An interval of K and a boundary count, the tick before a boundary. -/
def counting (k n : Nat) : State := { beforeBoundary with cnt := { countersReset with interval := k, boundary := n } }

theorem witness_SnapshotsRequestedAndTaken :
    Ready .ml State.reset ∧ wordAt [0xFF, 0xFF] 0 = 65535 ∧ (∀ k n, PlainTick (counting k n)) ∧
    (counting 1 0).cnt.boundary + 1 = (counting 1 0).cnt.interval ∧ (counting 1 0).tb.wraps = true ∧
    (counting 0 0).cnt.interval = 0 ∧ (counting 0 0).cnt.request = false ∧
    PlainTick { State.reset with cnt := { countersReset with request := true } } :=
  ⟨ready_reset .ml, by decide, fun _ _ => ⟨rfl, rfl, rfl⟩, by decide, by decide, by decide, by decide, ⟨rfl, rfl, rfl⟩⟩

theorem witness_ReportsAreFormedAtTheTick :
    Ready .gl State.reset ∧ ([0] : List Byte).length ≠ 0 ∧
    (let s := after (.readGuard .gl []) State.reset
     s.inInit = false ∧ s.resetLow = false ∧ untakenCount s = 0 ∧ (s.links.get .gl).tx = .waiting ∧
       (s.links.get .gl).resp = some (.atTick .guard)) :=
  ⟨ready_reset .gl, by decide, by decide⟩

/-! The invariants hold at reset, and the step from reset answers a next state. -/

theorem witness_steps : step { State.reset with pending := [.sampleTick true] } = exec (.sampleTick true) State.reset := by rfl

theorem witness_StepKeepsTheStores : StoresOk State.reset := by unfold StoresOk; decide

theorem witness_StepKeepsTimebaseAndNoise : TimebaseOk State.reset.tb ∧ State.reset.lfsr ≠ 0 :=
  ⟨⟨⟨by decide, by decide⟩, by decide, fun _ h => by simp [State.reset, timebaseReset] at h⟩, by decide⟩

theorem witness_StepKeepsLevelsAndShapes : LevelsOk State.reset ∧ ShapesMapped State.reset := by
  refine ⟨⟨fun p => ?_, ?_, ?_⟩, fun p => ?_, ?_⟩
  · cases p <;> exact ⟨by decide, by decide, by decide, fun _ h => by simp [State.reset, phasesReset, phaseReset, Phases.get] at h⟩
  · intro e h; simp [State.reset, runnerReset] at h
  · intro r h; simp [State.reset, runnerReset] at h
  · cases p <;> decide
  · intro r h; simp [State.reset, runnerReset] at h

theorem witness_StepKeepsGuardAndScan : GuardOk State.reset.guard ∧ ScanOk State.reset := by
  refine ⟨⟨⟨rfl, rfl⟩, by unfold LimitsOk; decide, fun _ h => by simp [State.reset, guardReset] at h, by decide, by decide, by decide,
    by decide, by decide, by decide, by decide, fun i => ?_, by decide⟩, by decide, by decide, by decide, fun i => ?_⟩
  · rcases i with _ | _ | _ | _ | _ | _ | _ | _ <;> exact ⟨show 0 ≤ 255 by decide, show 0 ≤ 255 by decide⟩
  · rcases i with _ | _ | _ | _ | _ | _ | _ | _ <;> exact (show 0 ≤ 3 by decide)

theorem witness_StepKeepsTheEvidenceBounds : EvidenceOk State.reset := by unfold EvidenceOk NineOk; decide

theorem witness_StepKeepsTheWalk : WalkOk State.reset.run :=
  ⟨⟨rfl, rfl, rfl⟩, by decide, by decide, ⟨by decide, by decide⟩, ⟨by decide, by decide⟩, by decide, by decide, by decide,
    by decide, by decide⟩

end Sys2Proof.Tests
end

