-- ==== Sys2Proof/Proofs/Rounding.lean ====
section
/-! PROOFS. The arithmetic of R1: rounding to the nearest integer, the root bit by bit, and the values that a ramp passes. -/

namespace Sys2Proof.Machine

/-! ## Rounding -/

/-- The quotient of R1 stands within half a divisor above and strictly below half a divisor under the exact one. -/
theorem roundNat_bounds (n : Nat) {d : Nat} (hd : 0 < d) :
    2 * (roundNat n d * d) ≤ d + 2 * n ∧ d + 2 * n < 2 * (roundNat n d * d) + 2 * d := by
  have hdiv : 2 * d * roundNat n d + (d + 2 * n) % (2 * d) = d + 2 * n := Nat.div_add_mod _ _
  have hmod : (d + 2 * n) % (2 * d) < 2 * d := Nat.mod_lt _ (by omega)
  have hcomm : 2 * d * roundNat n d = 2 * (roundNat n d * d) := by ring
  omega

/-- A quotient of at most `m` rounds to at most `m`. -/
theorem roundNat_le {n d m : Nat} (hd : 0 < d) (h : n ≤ m * d) : roundNat n d ≤ m := by
  have hb := (roundNat_bounds n hd).1
  by_contra hm
  have hmul : (m + 1) * d ≤ roundNat n d * d := Nat.mul_le_mul_right d (by omega)
  rw [Nat.add_mul] at hmul
  omega

theorem roundInt_natCast (n d : Nat) : roundInt (n : Int) d = (roundNat n d : Int) := by
  rw [roundInt, if_neg (by omega), Int.natAbs_natCast]

theorem roundInt_neg_natCast (n d : Nat) (hn : 0 < n) : roundInt (-(n : Int)) d = -(roundNat n d : Int) := by
  rw [roundInt, if_pos (by omega), Int.natAbs_neg, Int.natAbs_natCast]

/-- A natural number's distance from its rounded multiple of `d` is at most half of `d`, and at exactly half the multiple is
the larger one. -/
theorem roundNat_nearest (n : Nat) {d : Nat} (hd : 0 < d) :
    2 * ((n : Int) - (roundNat n d : Int) * d).natAbs ≤ d ∧
    (2 * ((n : Int) - (roundNat n d : Int) * d).natAbs = d → n < roundNat n d * d) := by
  obtain ⟨hlo, hhi⟩ := roundNat_bounds n hd
  generalize roundNat n d = q at *
  have hcast : (q : Int) * d = ((q * d : Nat) : Int) := by push_cast; ring
  rw [hcast]
  generalize q * d = m at *
  omega

/-- `roundInt` is the nearest integer to the exact quotient, halves away from zero (R1). -/
theorem roundInt_nearest (n : Int) {d : Nat} (hd : 0 < d) :
    2 * (n - roundInt n d * d).natAbs ≤ d ∧
    (2 * (n - roundInt n d * d).natAbs = d → n.natAbs < (roundInt n d * d).natAbs) := by
  by_cases hn : n < 0
  · obtain ⟨m, rfl⟩ : ∃ m : Nat, n = -(m : Int) := ⟨n.natAbs, by omega⟩
    rw [roundInt_neg_natCast m d (by omega)]
    have hneg : -(m : Int) - -(roundNat m d : Int) * d = -((m : Int) - (roundNat m d : Int) * d) := by ring
    have habs : (-(roundNat m d : Int) * d).natAbs = roundNat m d * d := by simp [Int.natAbs_mul]
    rw [hneg, habs, Int.natAbs_neg, Int.natAbs_neg, Int.natAbs_natCast]
    exact roundNat_nearest m hd
  · obtain ⟨m, rfl⟩ : ∃ m : Nat, n = (m : Int) := ⟨n.toNat, by omega⟩
    have habs : ((roundNat m d : Int) * d).natAbs = roundNat m d * d := by simp [Int.natAbs_mul]
    rw [roundInt_natCast, habs, Int.natAbs_natCast]
    exact roundNat_nearest m hd

/-! ## The square root -/

/-- Each bit keeps the root between the value reached and the value with all the bits still to come. -/
theorem sqrtFrom_spec (b n r : Nat) (hlo : r * r ≤ n) (hhi : n < (r + 2 ^ b) * (r + 2 ^ b)) :
    sqrtFrom b n r * sqrtFrom b n r ≤ n ∧ n < (sqrtFrom b n r + 1) * (sqrtFrom b n r + 1) := by
  induction b generalizing r with
  | zero => exact ⟨hlo, hhi⟩
  | succ b ih =>
    unfold sqrtFrom
    split
    case isTrue h =>
      refine ih _ h ?_
      rwa [Nat.add_assoc, ← Nat.two_mul, ← Nat.pow_succ']
    case isFalse h => exact ih _ hlo (by omega)

/-- The root of a number of 64 bits is the greatest one whose square is not above it (R1). -/
theorem floorSqrt_spec {n : Nat} (h : n < 18446744073709551616) :
    floorSqrt n * floorSqrt n ≤ n ∧ n < (floorSqrt n + 1) * (floorSqrt n + 1) :=
  sqrtFrom_spec 32 n 0 (by omega) (by simpa using h)

/-- Settles O14: the bounds of the rounded quotient, and the invariant of the bit-by-bit root. -/
theorem roundingIsToNearestHalvesAway : Obligations.RoundingIsToNearestHalvesAway := by
  exact ⟨fun n d hd => roundInt_nearest n hd, fun n d _ => roundInt_natCast n d, fun n hn => floorSqrt_spec hn,
    fun n d hd => ⟨Nat.div_add_mod' n d, Nat.mod_lt n hd⟩⟩

/-! ## The values that a ramp passes -/

/-- A step of a ramp that is not beyond its last leaves a value between the ramp's two ends (R9, R51). -/
theorem rampValue_between {x0 t r k lo hi : Nat} (hr : 0 < r) (hk : k ≤ r) (h0 : lo ≤ x0 ∧ x0 ≤ hi)
    (ht : lo ≤ t ∧ t ≤ hi) : lo ≤ rampValue x0 t r k ∧ rampValue x0 t r k ≤ hi := by
  unfold rampValue
  by_cases hup : x0 ≤ t
  · obtain ⟨δ, rfl⟩ : ∃ δ, t = x0 + δ := ⟨t - x0, by omega⟩
    have hn : ((x0 + δ : Nat) - (x0 : Int)) * (k : Int) = ((δ * k : Nat) : Int) := by push_cast; ring
    have hle : roundNat (δ * k) r ≤ δ := roundNat_le hr (Nat.mul_le_mul_left δ hk)
    rw [hn, roundInt_natCast]
    omega
  · obtain ⟨δ, rfl⟩ : ∃ δ, x0 = t + δ := ⟨x0 - t, by omega⟩
    have hle : roundNat (δ * k) r ≤ δ := roundNat_le hr (Nat.mul_le_mul_left δ hk)
    by_cases h0k : δ * k = 0
    · have hn : ((t : Int) - (t + δ : Nat)) * (k : Int) = ((0 : Nat) : Int) := by
        have : (δ : Int) * k = 0 := by exact_mod_cast h0k
        push_cast; linarith
      have hz : roundNat 0 r = 0 := Nat.le_zero.mp (roundNat_le hr (by simp))
      rw [hn, roundInt_natCast, hz]
      omega
    · have hn : ((t : Int) - (t + δ : Nat)) * (k : Int) = -((δ * k : Nat) : Int) := by push_cast; ring
      rw [hn, roundInt_neg_natCast _ _ (by omega)]
      omega

end Sys2Proof.Machine
end

