-- ==== Sys2Proof/Proofs/Steps.lean ====
section
/-! PROOFS. What one step can do, said once: which blocks the taking of a request changes, what a command leaves, and with
that the one induction over a step's parts that an invariant needs. -/

namespace Sys2Proof.Machine

/-! ## The taking of a request -/

/-- What the own checks and the effect of a request can leave: one constructor for each group of blocks that some request
changes. A seed is never 0 (R44). -/
inductive TakeEffect (s : State) : State → Prop
  | unchanged : TakeEffect s s
  | links (ls : Links) : TakeEffect s { s with links := ls }
  | wave (m : Memory) : TakeEffect s { s with wave := m }
  | map (m : Memory) : TakeEffect s { s with map := m }
  | slots (m : Memory) : TakeEffect s { s with slots := m }
  | seed (r : BitVec 17) (hr : r ≠ 0) : TakeEffect s { s with lfsr := r }
  | phases (ph : Phases) : TakeEffect s { s with ph := ph }
  | records (m : Memory) (run : Runner) : TakeEffect s { s with sched := m, run := run }
  | runner (run : Runner) (trace : Trace) : TakeEffect s { s with run := run, trace := trace }
  | guard (g : Guard) (trace : Trace) : TakeEffect s { s with guard := g, trace := trace }
  | watch (g : Guard) (sc : Scanner) (ls : Links) : TakeEffect s { s with guard := g, scan := sc, links := ls }
  | scan (sc : Scanner) : TakeEffect s { s with scan := sc }
  | capture (cap : Capture) : TakeEffect s { s with cap := cap }
  | trace (trace : Trace) : TakeEffect s { s with trace := trace }
  | counters (cnt : CounterBank) : TakeEffect s { s with cnt := cnt }

namespace TakeEffect

variable {s : State}

/-- A request checked for its length alone. -/
theorem ite_status {c : Prop} [Decidable c] {st : Status} {res : Answer × State} (h : TakeEffect s res.2) :
    TakeEffect s (if c then refuse s st else res).2 := by
  split
  · exact .unchanged
  · exact h

/-- A report or a read that its length check lets through leaves the state as it is. -/
theorem ite_read {c : Prop} [Decidable c] {st : Status} {ans : Answer} :
    TakeEffect s (if c then (ans, s) else refuse s st).2 := by
  split <;> exact .unchanged

/-! What no request touches. -/

variable {t : State}

theorem tb (h : TakeEffect s t) : t.tb = s.tb := by cases h <;> rfl
theorem events (h : TakeEffect s t) : t.events = s.events := by cases h <;> rfl

/-- Only a seed changes the noise register, and no seed is 0 (R44). -/
theorem lfsr_ne_zero (h : TakeEffect s t) (hs : s.lfsr ≠ 0) : t.lfsr ≠ 0 := by
  cases h
  case seed r hr => exact hr
  all_goals exact hs

end TakeEffect

section Effects
open TakeEffect

variable (l : Link) (ps : List Byte) (s : State)

theorem takeReadNotices_effect : TakeEffect s (takeReadNotices l ps s).2 := ite_status (.links _)
theorem takeSetAlerts_effect : TakeEffect s (takeSetAlerts l ps s).2 := ite_status (ite_status (.links _))
theorem takeReadTimeline_effect : TakeEffect s (takeReadTimeline ps s).2 := ite_read
theorem takeReadPhases_effect : TakeEffect s (takeReadPhases ps s).2 := ite_read
theorem takeWriteShape_effect : TakeEffect s (takeWriteShape ps s).2 :=
  ite_status (ite_status (ite_status (.wave _)))
theorem takeReadShape_effect : TakeEffect s (takeReadShape ps s).2 := ite_status (ite_status .unchanged)
theorem takeMapShape_effect : TakeEffect s (takeMapShape ps s).2 :=
  ite_status (ite_status (ite_status (ite_status (.map _))))
theorem takeReadMap_effect : TakeEffect s (takeReadMap ps s).2 := ite_read
theorem takeWriteSlots_effect : TakeEffect s (takeWriteSlots ps s).2 :=
  ite_status (ite_status (ite_status (ite_status (.slots _))))
theorem takeReadSlots_effect : TakeEffect s (takeReadSlots ps s).2 := ite_status (ite_status .unchanged)

/-- A seed of 0 is stored as 1, and any other one is below 2^17 and so not 0 as the register holds it (R44). -/
theorem takeSetSeed_effect : TakeEffect s (takeSetSeed ps s).2 := by
  refine ite_status ?_
  by_cases hbig : 131071 < dwordAt ps 0
  · rw [if_pos hbig]; exact .unchanged
  · rw [if_neg hbig]
    by_cases h0 : dwordAt ps 0 = 0
    · rw [if_pos h0]; exact .seed 1 (by decide)
    · rw [if_neg h0]
      refine .seed _ fun h => h0 ?_
      have := congrArg BitVec.toNat h
      simpa [Nat.mod_eq_of_lt (show dwordAt ps 0 < 131072 by omega)] using this

theorem takeSetNominal_effect : TakeEffect s (takeSetNominal ps s).2 := ite_status (ite_status (.phases _))
theorem takeWriteRecords_effect : TakeEffect s (takeWriteRecords ps s).2 := ite_status (ite_status (.records _ _))
theorem takeReadRecords_effect : TakeEffect s (takeReadRecords ps s).2 := ite_status (ite_status .unchanged)
theorem takeStart_effect : TakeEffect s (takeStart ps s).2 :=
  ite_status (ite_status (ite_status (ite_status (.runner _ _))))
theorem takeStop_effect : TakeEffect s (takeStop ps s).2 := by
  refine ite_status ?_
  split
  · exact .unchanged
  · exact .runner _ _
theorem takeApplyNow_effect : TakeEffect s (takeApplyNow ps s).2 :=
  ite_status (ite_status (ite_status (.runner _ s.trace)))
theorem takeReadRun_effect : TakeEffect s (takeReadRun ps s).2 := ite_read
theorem takeEnable_effect : TakeEffect s (takeEnable ps s).2 := by
  refine ite_status ?_
  split
  case h_1 => split <;> exact .guard _ s.trace
  all_goals exact .unchanged
theorem takeSafe_effect : TakeEffect s (takeSafe ps s).2 := by
  refine ite_status ?_
  split
  case h_1 | h_2 => exact .unchanged
  all_goals exact .guard _ s.trace
theorem takeSetLimits_effect : TakeEffect s (takeSetLimits ps s).2 := ite_status (ite_status (.guard _ s.trace))
theorem takeClearFlags_effect : TakeEffect s (takeClearFlags ps s).2 := ite_status (ite_status (.phases _))
theorem takeHoldRequest_effect : TakeEffect s (takeHoldRequest ps s).2 := ite_status (.guard _ s.trace)
theorem takeReleaseRequest_effect : TakeEffect s (takeReleaseRequest ps s).2 :=
  ite_status (ite_status (.guard _ s.trace))
theorem takeSetWatch_effect : TakeEffect s (takeSetWatch ps s).2 := ite_status (.watch _ _ _)
theorem takeClearTrip_effect : TakeEffect s (takeClearTrip ps s).2 := by
  refine ite_status ?_
  split
  · exact .guard _ _
  · exact .unchanged
theorem takeReadGuard_effect : TakeEffect s (takeReadGuard ps s).2 := ite_read
theorem takeSoftReset_effect : TakeEffect s (takeSoftReset ps s).2 := ite_status (.links _)
theorem takeSetScan_effect : TakeEffect s (takeSetScan ps s).2 := ite_status (ite_status (.scan _))
theorem takeReadMeasure_effect : TakeEffect s (takeReadMeasure ps s).2 := ite_read
theorem takeArmCapture_effect : TakeEffect s (takeArmCapture ps s).2 :=
  ite_status (ite_status (ite_status (ite_status (.capture _))))
theorem takeTrigger_effect : TakeEffect s (takeTrigger ps s).2 := ite_status (.capture _)
theorem takeDisarmCapture_effect : TakeEffect s (takeDisarmCapture ps s).2 := ite_status (.capture _)
theorem takeFlushCapture_effect : TakeEffect s (takeFlushCapture ps s).2 := ite_status (.capture _)
theorem takeReadCapture_effect : TakeEffect s (takeReadCapture ps s).2 := ite_status (ite_status (.capture _))
theorem takeReadTrace_effect : TakeEffect s (takeReadTrace ps s).2 := ite_status (ite_status (.trace _))
theorem takeSnapshotRequest_effect : TakeEffect s (takeSnapshotRequest ps s).2 := ite_status (.counters _)
theorem takeSetAutoSnapshot_effect : TakeEffect s (takeSetAutoSnapshot ps s).2 := ite_status (.counters _)
theorem takeReadSnapshot_effect : TakeEffect s (takeReadSnapshot ps s).2 := ite_read

end Effects

/-- What the taking of a request of any code can leave, row by row of the table of request codes (R181). -/
theorem takeByCode_effect (code : Nat) (l : Link) (ps : List Byte) (s : State) :
    TakeEffect s (takeByCode code l ps s).2 := by
  unfold takeByCode
  split
  · exact takeReadNotices_effect l ps s
  · exact takeSetAlerts_effect l ps s
  · exact takeReadTimeline_effect ps s
  · exact takeReadPhases_effect ps s
  · exact takeWriteShape_effect ps s
  · exact takeReadShape_effect ps s
  · exact takeMapShape_effect ps s
  · exact takeReadMap_effect ps s
  · exact takeWriteSlots_effect ps s
  · exact takeReadSlots_effect ps s
  · exact takeSetSeed_effect ps s
  · exact takeSetNominal_effect ps s
  · exact takeWriteRecords_effect ps s
  · exact takeReadRecords_effect ps s
  · exact takeStart_effect ps s
  · exact takeStop_effect ps s
  · exact takeApplyNow_effect ps s
  · exact takeReadRun_effect ps s
  · exact takeEnable_effect ps s
  · exact takeSafe_effect ps s
  · exact takeSetLimits_effect ps s
  · exact takeClearFlags_effect ps s
  · exact takeHoldRequest_effect ps s
  · exact takeReleaseRequest_effect ps s
  · exact takeSetWatch_effect ps s
  · exact takeClearTrip_effect ps s
  · exact takeReadGuard_effect ps s
  · exact takeSoftReset_effect ps s
  · exact takeSetScan_effect ps s
  · exact takeReadMeasure_effect ps s
  · exact takeArmCapture_effect ps s
  · exact takeTrigger_effect ps s
  · exact takeDisarmCapture_effect ps s
  · exact takeFlushCapture_effect ps s
  · exact takeReadCapture_effect ps s
  · exact takeReadTrace_effect ps s
  · exact takeSnapshotRequest_effect ps s
  · exact takeSetAutoSnapshot_effect ps s
  · exact takeReadSnapshot_effect ps s
  · exact .unchanged

/-- What the link-level checks let through is the request's own taking; the rest changes nothing (R171). -/
theorem judge_cases (l : Link) (r : Request) (s : State) :
    (judge l r s).2 = s ∨ judge l r s = takeByCode r.code.toNat l r.params s := by
  unfold judge
  split
  · exact .inl rfl
  · split
    · exact .inl rfl
    · split
      · exact .inl rfl
      · split
        · exact .inl rfl
        · exact .inr rfl

/-- The oldest untaken request taken: nothing where there is none, and otherwise its judgement, then the answer on its
link. -/
theorem takeOldest_cases (l : Link) (s : State) :
    takeOldest l s = s ∨ ∃ r ls, takeOldest l s = { (judge l r s).2 with links := ls } := by
  unfold takeOldest
  split
  · exact .inl rfl
  · exact .inr ⟨_, _, rfl⟩

theorem judge_effect (l : Link) (r : Request) (s : State) : TakeEffect s (judge l r s).2 := by
  rcases judge_cases l r s with h | h
  · rw [h]; exact .unchanged
  · rw [h]; exact takeByCode_effect _ l _ s

@[simp] theorem takeOldest_tb (l : Link) (s : State) : (takeOldest l s).tb = s.tb := by
  rcases takeOldest_cases l s with h | ⟨r, ls, h⟩
  · rw [h]
  · rw [h]; exact (judge_effect l r s).tb

@[simp] theorem takeOldest_events (l : Link) (s : State) : (takeOldest l s).events = s.events := by
  rcases takeOldest_cases l s with h | ⟨r, ls, h⟩
  · rw [h]
  · rw [h]; exact (judge_effect l r s).events

theorem takeOldest_lfsr_ne_zero (l : Link) {s : State} (hs : s.lfsr ≠ 0) : (takeOldest l s).lfsr ≠ 0 := by
  rcases takeOldest_cases l s with h | ⟨r, ls, h⟩
  · rwa [h]
  · rw [h]; exact (judge_effect l r s).lfsr_ne_zero hs

@[simp] theorem takeAllBut_tb (late : Nat) (s : State) : (takeAllBut late s).tb = s.tb :=
  takeWaiting_keeps (fun t => t.tb = s.tb) (fun _ _ h => h) (fun l t h => (takeOldest_tb l t).trans h) late _ s rfl

/-! ## Commands -/

/-- What a command that completes can leave: a start-up or reset act, a tick, an edge of CS that ends a transaction, a
request taken, an ADC result, a change of the links alone, or nothing. -/
inductive ExecEffect (s : State) : State → Prop
  | powerOn : ExecEffect s (powerOn s)
  | initEnd : ExecEffect s (initEnd s)
  | pinReset : ExecEffect s (pinReset s)
  | release : ExecEffect s (resetnRelease s)
  | tick (x : Bool) : ExecEffect s (tick x s)
  | nothing : ExecEffect s s
  | adc (a : Answered) (v : Word16) : ExecEffect s { s with scan := s.scan.readResult a v }
  | csRise (l : Link) : ExecEffect s (csRise l s)
  | links (ls : Links) : ExecEffect s { s with links := ls }
  | request (code : Byte) (l : Link) (ps : List Byte) : ExecEffect s (requestTaken code l ps s)

namespace ExecEffect

variable {s t : State}

/-- The row of an event is its tick or nothing. -/
theorem ofEventTick {hit : TickEvent → Bool} {x : Bool}
    (h : (.next (eventTick hit x s) : Host.Outcome State Fault Refusal) = .next t) : ExecEffect s t := by
  cases h
  rcases eventTick_cases hit x s with h | h
  · rw [h]; exact .tick x
  · rw [h]; exact .nothing

/-- A request row that completes is its request taken. -/
theorem ofRequest {code : Byte} {l : Link} {ps : List Byte} (h : requestOutcome code l ps s = .next t) :
    ExecEffect s t := by
  unfold requestOutcome at h
  split at h
  · cases h; exact .request code l ps
  · cases h

/-- An edge of CS is one only where CS is low. -/
theorem ofCsRise {l : Link} (h : execCsRise l s = .next t) : ExecEffect s t := by
  unfold execCsRise at h
  split at h
  · cases h; exact .csRise l
  · cases h; exact .nothing

/-- UNKNOWN_REQUEST with a code of the table is refused. -/
theorem ofUnknown {l : Link} {code : Byte} {ps : List Byte} (h : execUnknownRequest l code ps s = .next t) :
    ExecEffect s t := by
  unfold execUnknownRequest at h
  split at h
  · cases h
  · exact ofRequest h

end ExecEffect

open ExecEffect in
/-- What any command that completes leaves. -/
theorem exec_effect {c : Instr} {s t : State} (h : exec c s = .next t) : ExecEffect s t := by
  cases c with
  | powerOn => cases h; exact .powerOn
  | initEnd => cases h; exact .initEnd
  | pinReset => cases h; exact .pinReset
  | resetnRelease => cases h; exact .release
  | sampleTick x => cases h; exact .tick x
  | adcResult v => cases h; exact .adc v.answered v.bits
  | csFall l => cases h; exact .links _
  | csRise l => exact ofCsRise h
  | responseReady l => cases h; exact .links _
  | byteClocked l b => cases h; exact .links _
  | unknownRequest l code ps => exact ofUnknown h
  | cycleBoundary | freqRampEnd | levelRampEnd | guardRampEnd | pendingLimitsInForce | level | freq | phaseJump | shape
  | slotbank | noise | mark | endRecord | loopBegin | loopEnd | goto | faultMarker | takeHold | releaseHold
  | applyNowApplied | trip | captureDone | deferredTraceEntry | snapshotTaken | autoSnapshot => exact ofEventTick h
  | readNotices | setAlerts | readTimeline | readPhases | writeShape | readShape | mapShape | readMap | writeSlots
  | readSlots | setSeed | setNominal | writeRecords | readRecords | start | stop | applyNow | readRun | enable | safe
  | setLimits | clearFlags | hold | release | setWatch | clearTrip | readGuard | softReset | setScan | readMeasure
  | armCapture | trigger | disarmCapture | flushCapture | readCapture | readTrace | snapshot | setAutoSnapshot
  | readSnapshot => exact ofRequest h

/-! ## Invariants -/

/-- Two states agree in all the blocks; the pins, the links, the last frame, the tick's events, the running number and the
queue of commands may differ. -/
def SameBlocks (s t : State) : Prop :=
  t = { s with inInit := t.inInit, resetLow := t.resetLow, frame := t.frame, links := t.links, events := t.events,
               free := t.free, pending := t.pending }

theorem SameBlocks.tb {s t : State} (h : SameBlocks s t) : t.tb = s.tb := by rw [h]
theorem SameBlocks.lfsr {s t : State} (h : SameBlocks s t) : t.lfsr = s.lfsr := by rw [h]

/-- What makes a predicate on the blocks one that every step keeps: it looks at the blocks alone, and the resets, an ADC
result, the taking of a request and the work of a tick each keep it. -/
structure StepInvariant (P : State → Prop) : Prop where
  blocks : ∀ {s t}, SameBlocks s t → P s → P t
  reset : ∀ {s}, P s → P (resetBlocks s)
  power : ∀ {s}, P s → P (powerOn s)
  adc : ∀ {s} a v, P s → P { s with scan := s.scan.readResult a v }
  take : ∀ {s} code l ps, P s → P (takeByCode code l ps s).2
  work : ∀ {s} late x, P s → P (workTick late x s)

namespace StepInvariant

variable {P : State → Prop} {s t : State}

theorem takeOldest (hP : StepInvariant P) (l : Link) (s : State) (h : P s) : P (takeOldest l s) := by
  rcases takeOldest_cases l s with he | ⟨r, ls, he⟩
  · rwa [he]
  · rw [he]
    refine hP.blocks (s := (judge l r s).2) rfl ?_
    rcases judge_cases l r s with hj | hj
    · rwa [hj]
    · rw [hj]; exact hP.take _ l _ h

theorem takeAllBut (hP : StepInvariant P) (late : Nat) (h : P s) : P (takeAllBut late s) :=
  takeWaiting_keeps P (fun _ _ h => hP.blocks rfl h) hP.takeOldest late _ s h

theorem quietTick (hP : StepInvariant P) (h : P s) : P (quietTick s) :=
  hP.blocks (s := s) (t := Machine.quietTick s) rfl h

theorem tick (hP : StepInvariant P) (x : Bool) (h : P s) : P (tick x s) := by
  unfold Machine.tick
  split
  · exact hP.work _ x (hP.takeAllBut _ h)
  · exact hP.quietTick (hP.takeAllBut 0 h)

theorem initEnd (hP : StepInvariant P) (h : P s) : P (initEnd s) := by
  unfold Machine.initEnd
  split
  · exact hP.blocks rfl (hP.reset (hP.quietTick (hP.takeAllBut 0 h)))
  · exact h

theorem takeLink (hP : StepInvariant P) (l : Link) (k : Nat) (h : P s) : P (takeLink l k s) := by
  induction k generalizing s with
  | zero => exact h
  | succ k ih => exact ih (hP.takeOldest l s h)

theorem csRise (hP : StepInvariant P) (l : Link) (h : P s) : P (csRise l s) := by
  have h1 : P (takeBeforeRise l s) := by
    unfold takeBeforeRise
    split
    · exact hP.takeLink l _ h
    · exact h
  unfold Machine.csRise
  dsimp only
  split
  · exact hP.blocks rfl (hP.reset h1)
  · exact hP.blocks rfl h1

theorem requestTaken (hP : StepInvariant P) (code : Byte) (l : Link) (ps : List Byte) (h : P s) :
    P (requestTaken code l ps s) := by
  unfold Machine.requestTaken
  split
  · split
    · exact hP.takeOldest l s h
    · exact h
  · split
    · exact hP.takeOldest l _ (hP.blocks rfl h)
    · exact h

/-- Every command that completes keeps it. -/
theorem exec (hP : StepInvariant P) {c : Instr} (h : P s) (hx : exec c s = .next t) : P t := by
  cases exec_effect hx with
  | powerOn => exact hP.power h
  | initEnd => exact hP.initEnd h
  | pinReset => exact hP.blocks rfl (hP.reset h)
  | release => exact hP.blocks rfl h
  | tick x => exact hP.tick x h
  | nothing => exact h
  | adc a v => exact hP.adc a v h
  | csRise l => exact hP.csRise l h
  | links ls => exact hP.blocks rfl h
  | request code l ps => exact hP.requestTaken code l ps h

/-- Every step keeps it. -/
theorem step (hP : StepInvariant P) (h : P s) (hx : step s = .next t) : P t := by
  unfold Machine.step at hx
  split at hx
  · cases hx; exact h
  · rename_i c rest _
    exact hP.exec (hP.blocks (s := s) (t := { s with pending := rest }) rfl h) hx

end StepInvariant

end Sys2Proof.Machine
end

