-- ==== Sys2Proof/Proofs/TickWork.lean ====
section
/-! PROOFS. What the work of a tick keeps, stage by stage, also where requests are taken among the runner's applications. -/

namespace Sys2Proof.Machine

/-! ## The runner's part -/

/-- What makes a predicate on the runner's part one that the runner's work at a tick keeps: each of the acts of R93 to R100,
R106, R108 and R109 keeps it. -/
structure RunInvariant (Q : RunSide → Prop) : Prop where
  renewed : ∀ {w}, Q w → Q w.renewed
  filled : ∀ {w} sched, Q w → Q (w.filled sched)
  markerFault : ∀ {w} pos reason i, Q w → Q (enterFaulted w pos reason i .faultMarker)
  unmapped : ∀ {w} pos i, Q w → Q (enterFaulted w pos .unmappedShape i .unmappedShape)
  control : ∀ {w} e r pos, Q w → Q (applyControl w e r pos)
  ended : ∀ {w} e r pos late, Q w → Q (applyEnd w e r pos late)
  timed : ∀ {w} e r pos late, Q w → Q (applyTimed w e r pos late)
  taken : ∀ {w} pos, Q w → Q (takeTheHold w pos)
  released : ∀ {w} sched pos, Q w → Q (releaseTheHold sched w pos)
  pending : ∀ {w} map pos r, Q w → Q (applyPending map w pos r)

namespace RunInvariant

variable {Q : RunSide → Prop} {w : RunSide}

theorem applyEntry (hQ : RunInvariant Q) (map : Memory) (prev pos : Position) (e : QueueEntry) (h : Q w) :
    Q (applyEntry map prev pos w e) := by
  unfold Machine.applyEntry
  split
  case h_1 reason _ => exact hQ.markerFault pos reason e.src h
  case h_2 r _ =>
    dsimp only
    split
    case h_1 | h_2 | h_3 => exact hQ.control e r pos h
    case h_4 => exact hQ.ended e r pos _ h
    case h_5 => exact hQ.markerFault pos _ e.src h
    case h_6 =>
      split
      · exact hQ.unmapped pos e.src h
      · exact hQ.timed e r pos _ h
    all_goals exact hQ.timed e r pos _ h

theorem applyDue (hQ : RunInvariant Q) (map : Memory) (prev pos : Position) (k : Nat) (h : Q w) :
    Q (applyDue map prev pos k w) := by
  induction k generalizing w with
  | zero => exact h
  | succ k ih =>
    unfold Machine.applyDue
    split
    · exact h
    · split
      · exact ih (hQ.applyEntry map prev pos _ h)
      · exact h

theorem otherWork (hQ : RunInvariant Q) (sched map : Memory) (pos : Position) (hold : Bool) (h : Q w) :
    Q (otherWork sched map pos hold w) := by
  have hpending : Q (match w.run.applyNow with
      | none => w
      | some r => applyPending map w pos r) := by
    split
    · exact h
    · exact hQ.pending map pos _ h
  unfold Machine.otherWork
  split
  case h_1 => exact hQ.taken pos h
  case h_2 =>
    split
    · exact h
    · exact hQ.released sched pos h
  all_goals exact hpending

theorem runnerTick (hQ : RunInvariant Q) (sched map : Memory) (prev pos : Position) (boundary hold : Bool) (h : Q w) :
    Q (runnerTick sched map prev pos boundary hold w) := by
  unfold Machine.runnerTick
  split
  · exact hQ.filled sched (hQ.applyDue map prev pos _ (hQ.renewed h))
  · exact hQ.otherWork sched map pos hold (hQ.renewed h)

/-- What the front half of a tick leaves and the runner's acts keep, the runner's whole work leaves. -/
theorem runAfter (hQ : RunInvariant Q) {s : State} (h : Q (tickFront s).runSide) : Q s.runAfter :=
  hQ.runnerTick _ _ _ _ _ _ h

/-- The same where requests are taken among the applications, if their taking keeps it too. -/
theorem runTick (hQ : RunInvariant Q) (htake : ∀ s : State, Q s.runSide → Q (takeOldest .pl s).runSide) (late : Nat)
    {s : State} (prev pos : Position) (boundary hold : Bool) (h : Q s.runSide) :
    Q (runTick late s prev pos boundary hold).runSide :=
  runTick_keeps (fun s => Q s.runSide) prev pos boundary hold (fun _ _ h => h) htake
    (fun k s h => hQ.applyDue s.map prev pos k h) (fun s h => hQ.renewed (w := s.runSide) h) (fun s h => hQ.filled s.sched h)
    (fun s h => hQ.otherWork s.sched s.map pos hold h) late s h

end RunInvariant

/-! ## The whole tick -/

/-- The state after the runner's work at the coming tick, with `late` requests for the tables taken during it. -/
def State.afterRun (late : Nat) (s : State) : State :=
  runTick late (tickFront s) s.tb.position s.tb.advance.position s.tb.wraps
    (holdSeen s.guard.hold ((tickFront s).events.contains .trip) s.free)

theorem tickMiddle_afterRun (late : Nat) (s : State) : tickMiddle late s = synthesize (s.afterRun late) := rfl

/-- The stages after the runner's work leave the Timebase alone. -/
theorem workTick_tb_afterRun (late : Nat) (x : Bool) (s : State) : (workTick late x s).tb = (s.afterRun late).tb := by
  simp [workTick, tickMiddle_afterRun]

/-- After the samples the noise register stays. -/
theorem workTick_lfsr_afterRun (late : Nat) (x : Bool) (s : State) :
    (workTick late x s).lfsr = (synthesize (s.afterRun late)).lfsr := by
  simp [workTick, tickMiddle_afterRun]

end Sys2Proof.Machine
end

