-- ==== Sys2Proof/Proofs/TimebaseNoise.lean ====
section
/-! PROOFS. Every step keeps the Timebase in range and the noise register off 0 (R5, R9, R42). -/

namespace Sys2Proof.Machine

open Sys2Proof.Safety

/-! ## The Timebase -/

theorem timebaseReset_ok : TimebaseOk timebaseReset :=
  ⟨⟨by decide, by decide⟩, by decide, fun _ h => by cases h⟩

/-- A frequency in range, written with its increment, meets the invariant with any ramp that does (R5). -/
theorem timebaseOk_setFreq {tb : Timebase} {f : Nat} {ramp : Option FreqRamp} (hf : FreqInRange f)
    (hr : ∀ rp, ramp = some rp → FreqRampOk rp) : TimebaseOk { tb.setFreq f with ramp := ramp } :=
  ⟨hf, rfl, hr⟩

/-- A frequency ramp's step stays between its two ends, which are in range (R9). -/
theorem timebaseOk_rampStep {tb : Timebase} (h : TimebaseOk tb) : TimebaseOk tb.rampStep := by
  unfold Timebase.rampStep
  split
  · exact h
  · rename_i rp hrp
    have ⟨_, _, hramp⟩ := h
    obtain ⟨hf0, ht, hk⟩ := hramp rp hrp
    split
    · exact timebaseOk_setFreq ht fun _ h => by cases h
    · refine timebaseOk_setFreq (rampValue_between (by omega) (by omega) hf0 ht) fun rp' h' => ?_
      cases h'
      exact ⟨hf0, ht, show rp.k + 1 < rp.r by omega⟩

theorem timebaseOk_advance {tb : Timebase} (h : TimebaseOk tb) : TimebaseOk tb.advance := by
  unfold Timebase.advance
  dsimp only
  split
  · exact timebaseOk_rampStep h
  · exact h

theorem freqTarget_inRange (p1 : Nat) : FreqInRange (freqTarget p1) := by
  unfold FreqInRange freqTarget
  omega

/-- FREQ starts from a frequency in range and aims at one; PHASE_JUMP touches the offsets alone (R6 to R8, R13). -/
theorem timebaseOk_changeTimebase {tb : Timebase} (h : TimebaseOk tb) (r : Record) : TimebaseOk (r.changeTimebase tb) := by
  have ⟨hf, hinc, _⟩ := h
  unfold Record.changeTimebase
  split
  case h_1 =>
    unfold Timebase.applyFreq
    split
    · exact timebaseOk_setFreq (freqTarget_inRange _) fun _ h => by cases h
    · refine ⟨hf, hinc, fun rp hrp => ?_⟩
      cases hrp
      exact ⟨hf, freqTarget_inRange _, show 0 < r.p2 by omega⟩
  case h_2 => exact h
  case h_3 => exact h

/-- Of the runner's acts only the application of a record touches the Timebase. -/
theorem timebaseOk_runInvariant : RunInvariant (fun w => TimebaseOk w.tb) where
  renewed h := h
  filled _ h := h
  markerFault _ _ _ h := h
  unmapped _ _ h := h
  control _ _ _ h := h
  ended _ _ _ _ h := h
  timed _ r _ _ h := timebaseOk_changeTimebase h r
  taken _ h := h
  released _ _ h := h
  pending _ _ r h := timebaseOk_changeTimebase h r

theorem timebaseOk_stepInvariant : StepInvariant (fun s => TimebaseOk s.tb) where
  blocks {s t} hst h := by
    rwa [hst.tb]
  reset _ := timebaseReset_ok
  power _ := timebaseReset_ok
  adc _ _ h := h
  take {s} code l ps h := by rwa [(takeByCode_effect code l ps s).tb]
  work {s} late x h := by
    rw [workTick_tb_afterRun]
    refine timebaseOk_runInvariant.runTick (fun s h => ?_) late _ _ _ _ (timebaseOk_advance h)
    show TimebaseOk (takeOldest .pl s).tb
    rwa [takeOldest_tb]

/-! ## The noise register -/

/-- A shift of a register that is not 0 leaves one that is not 0: where all the bits shifted stay 0, bit 16 alone was set,
and it is fed back (R42). -/
theorem noiseShift_ne_zero {r : BitVec 17} (h : r ≠ 0) : noiseShift r ≠ 0 := by
  intro hz
  obtain ⟨hshift, hfeed⟩ := BitVec.or_eq_zero_iff.mp hz
  have hlow : ∀ i, i < 16 → r.getLsbD i = false := by
    intro i hi
    have hbit := congrArg (fun b => BitVec.getLsbD b (i + 1)) hshift
    rw [BitVec.getLsbD_eq_getElem (show i < 17 by omega)]
    simpa [show i + 1 < 17 by omega] using hbit
  have hxor : (r.getLsbD 16 ^^ r.getLsbD 13) = false := by
    by_contra hne
    rw [Bool.not_eq_false] at hne
    rw [if_pos hne] at hfeed
    exact absurd hfeed (by decide)
  have htop : r.getLsbD 16 = false := by rwa [hlow 13 (by omega), Bool.xor_false] at hxor
  refine h (BitVec.eq_of_getLsbD_eq fun i hi => ?_)
  have hcase : i < 16 ∨ i = 16 := by omega
  rcases hcase with hi' | rfl
  · simpa using hlow i hi'
  · simpa using htop

theorem noiseShifts_ne_zero (k : Nat) {r : BitVec 17} (h : r ≠ 0) : noiseShifts k r ≠ 0 := by
  induction k generalizing r with
  | zero => exact h
  | succ k ih => exact ih (noiseShift_ne_zero h)

theorem drawFor_ne_zero (e : SlotEntry) {r : BitVec 17} (h : r ≠ 0) : drawFor e r ≠ 0 := by
  unfold drawFor
  split
  · exact noiseShifts_ne_zero 8 h
  · exact h

theorem synthesize_lfsr_ne_zero {s : State} (h : s.lfsr ≠ 0) : (synthesize s).lfsr ≠ 0 :=
  drawFor_ne_zero _ (drawFor_ne_zero _ (drawFor_ne_zero _ h))

theorem lfsrReset_ne_zero : lfsrReset ≠ 0 := by decide

/-- The runner's work takes requests but draws no noise. -/
theorem afterRun_lfsr_ne_zero (late : Nat) {s : State} (h : s.lfsr ≠ 0) : (s.afterRun late).lfsr ≠ 0 :=
  runTick_keeps (fun t => t.lfsr ≠ 0) _ _ _ _ (fun _ _ h => h) (fun _ h => takeOldest_lfsr_ne_zero .pl h)
    (fun _ _ h => h) (fun _ h => h) (fun _ h => h) (fun _ h => h) late _ h

theorem lfsr_stepInvariant : StepInvariant (fun s => s.lfsr ≠ 0) where
  blocks {s t} hst h := by
    rwa [hst.lfsr]
  reset _ := lfsrReset_ne_zero
  power _ := lfsrReset_ne_zero
  adc _ _ h := h
  take code l ps h := (takeByCode_effect code l ps _).lfsr_ne_zero h
  work {s} late x h := by
    rw [workTick_lfsr_afterRun]
    exact synthesize_lfsr_ne_zero (afterRun_lfsr_ne_zero late h)

/-- Settles O56: both predicates are kept by every part of a step. -/
theorem stepKeepsTimebaseAndNoise : Obligations.StepKeepsTimebaseAndNoise :=
  ⟨fun _ _ h hx => timebaseOk_stepInvariant.step h hx, fun _ _ h hx => lfsr_stepInvariant.step h hx⟩

end Sys2Proof.Machine
end

