-- ==== Sys2Proof/Proofs/TickEvents.lean ====
section
/-! PROOFS. The events of a tick: which of them the front half alone brings about, and the rows that are events (log 2). -/

namespace Sys2Proof.Machine

open Sys2Proof.Safety

/-! ## Rows that are events -/

/-- The row of an event that does not come about changes nothing. -/
theorem eventTick_miss (hit : TickEvent → Bool) (x : Bool) (s : State)
    (h : s.works = false ∨ (tick x s).events.any hit = false) : eventTick hit x s = s := by
  rcases h with h | h <;> simp [eventTick, h]

/-- A row is the tick recognised by exactly the events listed with it. -/
def IsRowOf (x : Bool) (s : State) (row : Instr × List TickEvent) : Prop :=
  ∃ hit, exec row.1 s = .next (eventTick hit x s) ∧ ∀ e, hit e = true ↔ e ∈ row.2

theorem isRowOf_isEvent {x : Bool} {s : State} {row : Instr} {e : TickEvent}
    (h : exec row s = .next (eventTick (isEvent e) x s)) : IsRowOf x s (row, [e]) :=
  ⟨isEvent e, h, fun _ => by simp [isEvent]⟩

/-- Every event row, with its own events. SHAPE alone has two of them (R29, R100). -/
theorem eventRows_isRowOf (x : Bool) (s : State) : ∀ row ∈ eventRows x, IsRowOf x s row := by
  unfold eventRows
  iterate 8 refine List.forall_mem_cons.mpr ⟨isRowOf_isEvent rfl, ?_⟩
  refine List.forall_mem_cons.mpr ⟨⟨isShapeDue, rfl, fun _ => by simp [isShapeDue]⟩, ?_⟩
  iterate 16 refine List.forall_mem_cons.mpr ⟨isRowOf_isEvent rfl, ?_⟩
  exact List.forall_mem_nil _

/-- A tick of a part that does not work has no event. -/
theorem tick_events_quiet {s : State} (x : Bool) (h : s.works = false) : (tick x s).events = [] := by
  rw [tick, if_neg (by simp [h])]
  rfl

/-- Settles O3: a row's recogniser finds its own events among those of the tick, or does not. -/
theorem eventRowsAreTheirTick : Obligations.EventRowsAreTheirTick := by
  intro x s
  refine ⟨tick x s, rfl, tick_events_quiet x, fun row own hrow => ?_⟩
  obtain ⟨hit, hexec, hhit⟩ := eventRows_isRowOf x s _ hrow
  dsimp only at hexec
  refine ⟨fun hw ⟨e, hown, he⟩ => ?_, fun hno => ?_⟩
  · rw [hexec, eventTick_hit hit x s hw (List.any_eq_true.mpr ⟨e, he, (hhit e).mpr hown⟩)]
  · rw [hexec, eventTick_miss hit x s]
    refine hno.imp_right fun hnone => List.any_eq_false.mpr fun e he hh => ?_
    exact hnone e ((hhit e).mp hh) he

/-! ## Events of the front half -/

/-- The events that only the Timebase, the Counter Bank and the guard bring about: all of them in the front half of a tick. -/
def TickEvent.ofFront : TickEvent → Bool
  | .cycleBoundary | .freqRampEnd | .guardRampEnd | .limitsInForce | .trip | .snapshotTaken | .autoSnapshot => true
  | _ => false

/-- The runner's part holds of the front half's events exactly those of a list. -/
def FrontEvents (es : List TickEvent) (w : RunSide) : Prop := ∀ e, e.ofFront = true → (e ∈ w.events ↔ e ∈ es)

/-- Events of other kinds noted behind those that stand leave the front half's as they are. -/
theorem FrontEvents.append {es more : List TickEvent} {w w' : RunSide} (h : FrontEvents es w)
    (hw : w'.events = w.events ++ more) (hmore : ∀ e ∈ more, e.ofFront = false) : FrontEvents es w' := by
  intro e he
  have hnot : e ∉ more := fun hm => by simp [hmore e hm] at he
  rw [hw, List.mem_append, or_iff_left hnot]
  exact h e he

theorem extraEvents_ofFront (r : Record) : ∀ e ∈ r.extraEvents, e.ofFront = false := by
  intro e he
  rcases List.mem_append.mp he with he | he <;> split at he <;> simp_all [TickEvent.ofFront]

/-- No act of the runner notes an event of the front half. -/
theorem frontEvents_runInvariant (es : List TickEvent) : RunInvariant (FrontEvents es) where
  renewed h := h
  filled _ h := h
  markerFault _ _ _ h := h.append rfl (by simp [TickEvent.ofFront])
  unmapped _ _ h := h.append rfl (by simp [TickEvent.ofFront])
  control _ _ _ h := h.append rfl (by simp [TickEvent.ofFront])
  ended _ _ _ _ h := h.append rfl (by simp [TickEvent.ofFront])
  timed {w} _ r _ _ h := by
    refine h.append (more := .applied r.kind :: r.extraEvents) (by simp [applyTimed]) fun e he => ?_
    rcases List.mem_cons.mp he with rfl | he
    · rfl
    · exact extraEvents_ofFront r e he
  taken _ h := h.append rfl (by simp [TickEvent.ofFront])
  released _ _ h := h.append rfl (by simp [TickEvent.ofFront])
  pending {w} _ _ r h := by
    refine h.append (more := .applyNow :: r.extraEvents) (by simp [applyPending]) fun e he => ?_
    rcases List.mem_cons.mp he with rfl | he
    · rfl
    · exact extraEvents_ofFront r e he

/-- A capture notes its completion and no other event. -/
theorem mem_offerEntries_events {e : TickEvent} (he : e ≠ .captureDone) (es : List CapEntry) (s : State) :
    e ∈ (offerEntries es s).events ↔ e ∈ s.events := by
  induction es generalizing s with
  | nil => rfl
  | cons c es ih =>
    rw [offerEntries, ih, offerEntry]
    split
    · dsimp only
      split
      · simp [he]
      · rfl
    · rfl

theorem mem_traceTick_events {e : TickEvent} (he : e ≠ .deferredEntry) (s : State) (pos : Position) :
    e ∈ (traceTick s pos).events ↔ e ∈ s.events := by
  rw [traceTick, putEntries_events]
  dsimp only
  split
  · rfl
  · simp [he]

/-- Up to the capture a tick holds, of the front half's events, those of its front half, whatever requests are taken during
it. -/
theorem mem_captureTick_events (late : Nat) (x : Bool) (s : State) (conv : List CapEntry) (pos : Position) {e : TickEvent}
    (he : e.ofFront = true) :
    e ∈ (captureTick (tickMiddle late s) conv s.tb.wraps x pos).events ↔ e ∈ (tickFront s).events := by
  have hrun : FrontEvents (tickFront s).events (s.afterRun late).runSide :=
    (frontEvents_runInvariant _).runTick (fun s h => by rwa [FrontEvents, State.runSide_events, takeOldest_events])
      late _ _ _ _ (fun _ _ => Iff.rfl)
  have hcap : e ≠ .captureDone := fun h => by simp [h, TickEvent.ofFront] at he
  rw [captureTick, mem_offerEntries_events hcap]
  dsimp only
  rw [tickMiddle_afterRun, synthesize_events]
  exact hrun e he

/-- The same at the end of a tick. -/
theorem mem_workTick_events (late : Nat) (x : Bool) (s : State) {e : TickEvent} (he : e.ofFront = true) :
    e ∈ (workTick late x s).events ↔ e ∈ (tickFront s).events := by
  have hdef : e ≠ .deferredEntry := fun h => by simp [h, TickEvent.ofFront] at he
  rw [workTick, respondTick_events, mem_traceTick_events hdef, mem_captureTick_events late x s _ _ he]

/-- A tick's front half is at a cycle boundary where the advance wraps (R3). -/
theorem mem_tickFront_cycleBoundary (s : State) : .cycleBoundary ∈ (tickFront s).events ↔ s.tb.wraps = true := by
  rw [tickFront_events]
  split <;> simp [Guard.eventsAt, CounterBank.eventsAt]

/-- A frequency ramp ends at a boundary at which its step is the last (R9). -/
theorem mem_tickFront_freqRampEnd (s : State) :
    .freqRampEnd ∈ (tickFront s).events ↔ s.tb.wraps = true ∧ s.tb.rampEnds = true := by
  rw [tickFront_events]
  split <;> simp [Guard.eventsAt, CounterBank.eventsAt]

end Sys2Proof.Machine
end

