-- ==== Sys2Proof/Proofs/Timeline.lean ====
section
/-! PROOFS. The advance of B and C and the frequency ramp's steps at a tick (R3, R9). -/

namespace Sys2Proof.Machine

open Sys2Proof.Safety

/-! ## The advance -/

theorem Timebase.wraps_iff (tb : Timebase) : tb.wraps = true ↔ 4294967296 ≤ tb.b.toNat + tb.inc := by
  simp [Timebase.wraps]

/-- Away from a boundary the advance moves B alone (R3). -/
theorem Timebase.advance_inside {tb : Timebase} (h : tb.b.toNat + tb.inc < 4294967296) :
    tb.advance = { tb with b := tb.b + BitVec.ofNat 32 tb.inc } := by
  have hw : ¬ tb.wraps = true := by rw [tb.wraps_iff]; omega
  rw [Timebase.advance, if_neg hw]

/-- At a boundary the advance increments C and makes the ramp's step (R3, R9). -/
theorem Timebase.advance_boundary {tb : Timebase} (h : 4294967296 ≤ tb.b.toNat + tb.inc) :
    tb.advance = Timebase.rampStep { tb with b := tb.b + BitVec.ofNat 32 tb.inc, c := tb.c + 1 } := by
  rw [Timebase.advance, if_pos (tb.wraps_iff.mpr h)]

/-! ## Every working tick -/

/-- A working tick, whatever requests wait at it. -/
theorem tick_works {s : State} (x : Bool) (h : s.works = true) :
    tick x s = workTick (leftLate s) x (takeAllBut (leftLate s) s) := by
  rw [tick, if_pos h]

/-- No record applied at a tick moves B or C: they stand where the advance has brought them (R3, R4). -/
theorem workTick_timeline (late : Nat) (x : Bool) (s : State) :
    (workTick late x s).tb.b = s.tb.advance.b ∧ (workTick late x s).tb.c = s.tb.advance.c := by
  have hQ : RunInvariant (fun w => w.tb.b = s.tb.advance.b ∧ w.tb.c = s.tb.advance.c) :=
    { renewed := id, filled := fun _ => id, markerFault := fun _ _ _ => id, unmapped := fun _ _ => id
      control := fun _ _ _ => id, ended := fun _ _ _ _ => id, taken := fun _ => id, released := fun _ _ => id
      timed := fun _ r _ _ h => ⟨(r.changeTimebase_b _).trans h.1, (r.changeTimebase_c _).trans h.2⟩
      pending := fun _ _ r h => ⟨(r.changeTimebase_b _).trans h.1, (r.changeTimebase_c _).trans h.2⟩ }
  rw [workTick_tb_afterRun]
  refine hQ.runTick (fun t h => ?_) late _ _ _ _ ⟨rfl, rfl⟩
  rwa [State.runSide_tb, takeOldest_tb]

/-- A working tick is a cycle boundary exactly where the advance wraps (R3). -/
theorem mem_tick_cycleBoundary {s : State} (x : Bool) (h : s.works = true) :
    .cycleBoundary ∈ (tick x s).events ↔ s.tb.wraps = true := by
  rw [tick_works x h, mem_workTick_events _ x _ rfl, mem_tickFront_cycleBoundary, takeAllBut_tb]

/-- Whether an event comes about at a tick decides what its row is. -/
theorem eventTick_isEvent {s : State} (e : TickEvent) (x : Bool) (hw : s.works = true) :
    eventTick (isEvent e) x s = if e ∈ (tick x s).events then tick x s else s := by
  split
  · rename_i h
    exact eventTick_hit _ x s hw (List.any_eq_true.mpr ⟨e, h, by simp [isEvent]⟩)
  · rename_i h
    refine eventTick_miss _ x s (.inr (List.any_eq_false.mpr fun e' he' hh => h ?_))
    have : e' = e := by simpa [isEvent] using hh
    exact this ▸ he'

/-- Settles O15: the advance of B and C, with the boundary's event. -/
theorem tickAdvancesTheTimeline : Obligations.TickAdvancesTheTimeline := by
  intro x s hinit hreset
  have hw : s.works = true := by simp [State.works, hinit, hreset]
  obtain ⟨hb, hc⟩ := workTick_timeline (leftLate s) x (takeAllBut (leftLate s) s)
  rw [← tick_works x hw, takeAllBut_tb] at hb hc
  rw [Timebase.advance_b] at hb
  rw [Timebase.advance_c] at hc
  have hrow : exec (.cycleBoundary x) s = .next (if s.tb.wraps = true then tick x s else s) := by
    show Host.Outcome.next _ = _
    rw [eventTick_isEvent _ x hw]
    simp only [mem_tick_cycleBoundary x hw]
  refine ⟨tick x s, rfl, hb, fun hle => ?_, fun hlt => ?_⟩
  · have hwrap := s.tb.wraps_iff.mpr hle
    exact ⟨by rw [hc, if_pos hwrap], by rw [hrow, if_pos hwrap]⟩
  · have hwrap : ¬ s.tb.wraps = true := by rw [s.tb.wraps_iff]; omega
    exact ⟨by rw [hc, if_neg hwrap], by rw [hrow, if_neg hwrap]⟩

/-! ## A tick that applies nothing -/

/-- Where no record and no APPLY_NOW is applied, the runner leaves the Timebase to its advance and the phases to their ramps,
also where it takes or releases the hold (R93). -/
theorem runAfter_of_nothingApplied {s : State} (h : NothingApplied s) :
    s.runAfter.tb = s.tb.advance ∧ s.runAfter.ph = s.ph.each Phase.rampStep := by
  obtain ⟨_, hnow, hhead⟩ := h
  unfold State.runAfter runnerTick
  split
  · rw [applyDue_stop _ _ _ _ _ (.inr hhead)]
    exact ⟨rfl, rfl⟩
  · have hnow' : (tickFront s).runSide.renewed.run.applyNow = none := hnow
    unfold otherWork
    rw [hnow']
    split
    case h_2 => split <;> exact ⟨rfl, rfl⟩
    all_goals exact ⟨rfl, rfl⟩

/-- Settles O17: a ramp's step, its last step, and no step away from a boundary. -/
theorem frequencyRampSteps : Obligations.FrequencyRampSteps := by
  intro x s rp hnothing hramp
  have hplain := hnothing.1
  have htb : (workTick 0 x s).tb = s.tb.advance := by
    rw [workTick_tb, (runAfter_of_nothingApplied hnothing).1]
  have hrow : exec (.freqRampEnd x) s =
      .next (if s.tb.wraps = true ∧ s.tb.rampEnds = true then workTick 0 x s else s) := by
    show Host.Outcome.next _ = _
    rw [eventTick_isEvent _ x (plainTick_works hplain), tick_working x s (plainTick_works hplain) hplain.2.2]
    simp only [mem_workTick_events 0 x s (e := .freqRampEnd) rfl, mem_tickFront_freqRampEnd]
  have hends : s.tb.rampEnds = true ↔ rp.k + 1 = rp.r := by simp [Timebase.rampEnds, hramp]
  simp only [hends, s.tb.wraps_iff] at hrow
  refine ⟨workTick 0 x s, exec_sampleTick_plain x s hplain, fun hlt => ?_, fun hle hk => ?_, fun hle hk => ?_⟩
  · exact ⟨by rw [htb, Timebase.advance_inside hlt], by rw [hrow, if_neg (by omega)]⟩
  · refine ⟨?_, by rw [hrow, if_neg (by omega)]⟩
    rw [htb, Timebase.advance_boundary hle, Timebase.rampStep]
    simp only [hramp, if_neg hk]
    rfl
  · refine ⟨?_, by rw [hrow, if_pos ⟨hle, hk⟩]⟩
    rw [htb, Timebase.advance_boundary hle, Timebase.rampStep]
    simp only [hramp, if_pos hk]
    rfl

end Sys2Proof.Machine
end

