-- ==== Sys2Proof/Proofs/TickFrame.lean ====
section
/-! PROOFS. What a tick with no request to take leaves alone: the links but for notices raised and responses that become
ready, and the settings of every block. -/

namespace Sys2Proof.Machine

open Sys2Proof.Safety

/-! ## Links with notices raised -/

/-- Links that differ from others in notices added alone. -/
def Links.Raised (ls ls' : Links) : Prop :=
  ∀ l, ∃ m, ls'.get l = { ls.get l with notices := (ls.get l).notices ||| m }

namespace Links.Raised

theorem refl (ls : Links) : Raised ls ls := fun l => ⟨0, by simp⟩

theorem trans {a b c : Links} (h : Raised a b) (h' : Raised b c) : Raised a c := by
  intro l
  obtain ⟨m, hm⟩ := h l
  obtain ⟨m', hm'⟩ := h' l
  exact ⟨m ||| m', by rw [hm', hm, BitVec.or_assoc]⟩

theorem raise {ls ls' : Links} (h : Raised ls ls') (n : Notice) : Raised ls (ls'.raise n) := by
  intro l
  obtain ⟨m, hm⟩ := h l
  exact ⟨m ||| noticeBit l n, by rw [get_raise, hm, LinkState.raise, BitVec.or_assoc]⟩

theorem raiseIf {ls ls' : Links} (h : Raised ls ls') (c : Bool) (n : Notice) : Raised ls (ls'.raiseIf c n) := by
  cases c
  · exact h
  · exact h.raise n

end Links.Raised

/-! ## The stages of a tick -/

open Links (Raised)

theorem tickFront_raised (s : State) : Raised s.links (tickFront s).links :=
  ((Raised.refl s.links).raiseIf _ _).raiseIf _ _

theorem synthPhase_raised {ls : Links} {s : State} (h : Raised ls s.links) (p : PhaseId) :
    Raised ls (synthPhase s p).links := h.raiseIf _ _

theorem offerEntries_raised {ls : Links} (es : List CapEntry) {s : State} (h : Raised ls s.links) :
    Raised ls (offerEntries es s).links := by
  induction es generalizing s with
  | nil => exact h
  | cons e es ih =>
    refine ih (s := offerEntry s e) ?_
    unfold offerEntry
    split
    · exact ((h.raiseIf _ _).raiseIf _ _).raiseIf _ _
    · exact h

theorem putEntries_raised {ls : Links} (es : List TraceEntry) {s : State} (h : Raised ls s.links) :
    Raised ls (putEntries es s).links := by
  induction es generalizing s with
  | nil => exact h
  | cons e es ih =>
    refine ih (s := putEntry s e) ?_
    unfold putEntry
    split
    · exact h
    · exact h.raiseIf _ _

theorem Record.changePhases_p (r : Record) (ph : Phases) (p : PhaseId) :
    ((r.changePhases ph).get p).p = (ph.get p).p := by
  unfold Record.changePhases
  split
  case h_5 => rfl
  all_goals rw [Phases.get_onMask]; split <;> simp

/-- What the runner's acts leave of its part: each nominal peak, the interval K, and the links but for notices. -/
def RunSide.Keeps (w w' : RunSide) : Prop :=
  (∀ p, (w'.ph.get p).p = (w.ph.get p).p) ∧ w'.cnt.interval = w.cnt.interval ∧ Raised w.links w'.links

theorem RunSide.Keeps.raise {w w' w'' : RunSide} {n : Notice} (h : w.Keeps w') (hph : w''.ph = w'.ph)
    (hk : w''.cnt.interval = w'.cnt.interval) (hl : w''.links = w'.links.raise n) : w.Keeps w'' := by
  obtain ⟨hpeak, hinterval, hlinks⟩ := h
  rw [RunSide.Keeps, hph, hk, hl]
  exact ⟨hpeak, hinterval, hlinks.raise n⟩

theorem keeps_runInvariant (w : RunSide) : RunInvariant w.Keeps where
  renewed h := h
  filled _ h := h
  markerFault _ _ _ h := h.raise rfl rfl rfl
  unmapped _ _ h := h.raise rfl rfl rfl
  control _ _ _ h := h
  ended _ _ _ _ h := h.raise rfl rfl rfl
  timed _ r _ _ h := ⟨fun p => (r.changePhases_p _ p).trans (h.1 p), h.2⟩
  taken _ h := h.raise rfl rfl rfl
  released _ _ h := h
  pending {w'} map pos r h := by
    refine ⟨fun p => ?_, h.2⟩
    show ((if r.meetsUnmapped map then w'.ph else r.changePhases w'.ph).get p).p = _
    split
    · exact h.1 p
    · exact (r.changePhases_p _ p).trans (h.1 p)

theorem runAfter_keeps (s : State) : (tickFront s).runSide.Keeps s.runAfter :=
  (keeps_runInvariant _).runAfter ⟨fun _ => rfl, rfl, Raised.refl _⟩

/-! ## The end of a tick -/

/-- A tick's state just before the responses of its links become ready. -/
def State.beforeResponses (x : Bool) (s : State) : State :=
  traceTick (captureTick (tickMiddle 0 s) (conversionOffer s.scan) s.tb.wraps x s.tb.advance.position)
    s.tb.advance.position

theorem workTick_eq_respondTick (x : Bool) (s : State) : workTick 0 x s = respondTick (s.beforeResponses x) := rfl

/-- Up to the responses a tick only raises notices on the links. -/
theorem beforeResponses_raised (x : Bool) (s : State) : Raised s.links (s.beforeResponses x).links := by
  obtain ⟨_, _, hacts⟩ := runAfter_keeps s
  have hrun : Raised s.links s.runAfter.links := (tickFront_raised s).trans hacts
  have hmid : Raised s.links (tickMiddle 0 s).links := by
    rw [tickMiddle_eq]
    exact synthPhase_raised (synthPhase_raised (synthPhase_raised hrun .a) .b) .c
  refine putEntries_raised _ ?_
  exact offerEntries_raised (s := { tickMiddle 0 s with cap := _ }) _ hmid

theorem respondTick_link (s : State) (l : Link) : (respondTick s).links.get l = (s.links.get l).atTick s := by
  cases l <;> rfl

/-- At the end of a tick a link stays as it is, or the response that its transaction waits for is ready (R169). -/
theorem LinkState.atTick_cases (lk : LinkState) (s : State) :
    ((lk.tx ≠ .waiting ∨ lk.resp = none) ∧ lk.atTick s = lk) ∨
    ∃ r, lk.tx = .waiting ∧ lk.resp = some r ∧ lk.atTick s = lk.respond (formResponse s r) := by
  unfold LinkState.atTick
  split
  case h_1 h => exact .inl ⟨.inr h, rfl⟩
  case h_2 r h =>
    split
    case isTrue ht => exact .inr ⟨r, ht, h, rfl⟩
    case isFalse ht => exact .inl ⟨.inl ht, rfl⟩

/-- What a response that becomes ready leaves of its link. -/
theorem LinkState.atTick_frame (lk : LinkState) (s : State) :
    (lk.atTick s).csLow = lk.csLow ∧ (lk.atTick s).rx = lk.rx ∧ (lk.atTick s).untaken = lk.untaken ∧
    (lk.atTick s).sdo = lk.sdo ∧ (lk.atTick s).softReset = lk.softReset ∧ (lk.atTick s).enable = lk.enable ∧
    (lk.atTick s).notices = lk.notices := by
  rcases lk.atTick_cases s with ⟨_, h⟩ | ⟨r, _, _, h⟩ <;> rw [h] <;> exact ⟨rfl, rfl, rfl, rfl, rfl, rfl, rfl⟩

/-! ## Eight channels -/

theorem Eight.get_map {α β : Type} (e : Eight α) (f : α → β) (i : Nat) :
    (e.mapIdx (fun _ x => f x)).get i = f (e.get i) := by
  unfold Eight.get
  split <;> rfl

/-- A value put in a channel's place is not seen through a function that gives the same of both. -/
theorem Eight.get_set_of_eq {α β : Type} (e : Eight α) (c : Nat) (x : α) (f : α → β) (h : f x = f (e.get c))
    (i : Nat) : f ((e.set c x).get i) = f (e.get i) := by
  have hmap : (e.set c x).mapIdx (fun _ y => f y) = e.mapIdx (fun _ y => f y) := by
    unfold Eight.get at h
    unfold Eight.set
    split <;> simp_all [Eight.mapIdx]
  rw [← Eight.get_map _ f, hmap, Eight.get_map]

/-! ## Settings of the scanner, the guard and the capture -/

/-- Hand-over and closing keep the stop channel and every gain. -/
theorem Scanner.handOver_settings (sc : Scanner) :
    sc.handOver.stop = sc.stop ∧ ∀ i, (sc.handOver.channels.get i).gain = (sc.channels.get i).gain := by
  unfold Scanner.handOver
  split
  · exact ⟨rfl, fun _ => rfl⟩
  · split <;> exact ⟨rfl, fun i => Eight.get_set_of_eq sc.channels _ _ Channel.gain (by rfl) i⟩

theorem Scanner.closed_settings (sc : Scanner) (boundary : Bool) (pos : Position) :
    (sc.closed boundary pos).stop = sc.stop ∧
    ∀ i, ((sc.closed boundary pos).channels.get i).gain = (sc.channels.get i).gain := by
  obtain ⟨hstop, hgain⟩ := sc.handOver_settings
  unfold Scanner.closed
  split
  · refine ⟨hstop, fun i => ?_⟩
    rw [Scanner.closeAll, Eight.get_map]
    exact hgain i
  · exact ⟨hstop, hgain⟩

/-- The settings of SET_WATCH (R120). -/
def Guard.SameWatch (g g' : Guard) : Prop :=
  g'.watch = g.watch ∧ g'.ipk = g.ipk ∧ g'.kp = g.kp ∧ g'.irms = g.irms ∧ g'.kr = g.kr

theorem Guard.SameWatch.trans {a b c : Guard} (h : a.SameWatch b) (h' : b.SameWatch c) : a.SameWatch c := by
  obtain ⟨h1, h2, h3, h4, h5⟩ := h
  obtain ⟨k1, k2, k3, k4, k5⟩ := h'
  exact ⟨k1.trans h1, k2.trans h2, k3.trans h3, k4.trans h4, k5.trans h5⟩

theorem Guard.examined_sameWatch (g : Guard) (sc : Scanner) (boundary : Bool) (pos : Position) :
    g.SameWatch (g.examined sc boundary pos) := by
  have hex : g.SameWatch (g.examine sc) := by
    unfold Guard.examine
    split
    · exact ⟨rfl, rfl, rfl, rfl, rfl⟩
    · split <;> exact ⟨rfl, rfl, rfl, rfl, rfl⟩
  unfold Guard.examined
  split
  · exact hex.trans ⟨rfl, rfl, rfl, rfl, rfl⟩
  · exact hex

theorem Guard.rampStep_sameWatch (g : Guard) : g.SameWatch g.rampStep := by
  unfold Guard.rampStep
  split
  · exact ⟨rfl, rfl, rfl, rfl, rfl⟩
  · split
    case h_1 | h_2 => split <;> exact ⟨rfl, rfl, rfl, rfl, rfl⟩
    all_goals exact ⟨rfl, rfl, rfl, rfl, rfl⟩

theorem Guard.limitsStep_sameWatch (g : Guard) : g.SameWatch g.limitsStep := by
  unfold Guard.limitsStep
  split <;> exact ⟨rfl, rfl, rfl, rfl, rfl⟩

/-- Examination, trip, ramp and limits leave the settings of the watch (R120 to R125). -/
theorem Guard.atTick_sameWatch (g : Guard) (sc : Scanner) (boundary : Bool) (pos : Position) :
    g.SameWatch (g.atTick sc boundary pos) := by
  unfold Guard.atTick
  refine Guard.SameWatch.trans ?_ (Guard.limitsStep_sameWatch _)
  split
  · exact (g.examined_sameWatch sc boundary pos).trans ⟨rfl, rfl, rfl, rfl, rfl⟩
  · exact (g.examined_sameWatch sc boundary pos).trans (Guard.rampStep_sameWatch _)

theorem offerEntries_arm (es : List CapEntry) (s : State) : (offerEntries es s).cap.arm = s.cap.arm := by
  induction es generalizing s with
  | nil => rfl
  | cons e es ih =>
    rw [offerEntries, ih, offerEntry]
    split <;> rfl

theorem workTick_arm (x : Bool) (s : State) : (workTick 0 x s).cap.arm = s.cap.arm := by
  rw [workTick_eq_respondTick, respondTick_cap, State.beforeResponses, traceTick_cap, captureTick, offerEntries_arm]
  simp [Capture.atTick]

theorem tickFront_interval (s : State) : (tickFront s).cnt.interval = s.cnt.interval := by
  show (s.cnt.atTick _ _).interval = _
  unfold CounterBank.atTick
  dsimp only
  split <;> rfl

theorem workTick_peak (x : Bool) (s : State) (p : PhaseId) : ((workTick 0 x s).ph.get p).p = (s.ph.get p).p := by
  obtain ⟨hset, _⟩ := sameSettings_workTick x s p
  obtain ⟨hpeak, _⟩ := runAfter_keeps s
  rw [hset, hpeak p]
  simp

/-- What a tick leaves of a link: its pins, bytes, requests and mask; a notice that stood still stands. -/
theorem workTick_link_frame (x : Bool) (s : State) (l : Link) :
    ((workTick 0 x s).links.get l).csLow = (s.links.get l).csLow ∧
    ((workTick 0 x s).links.get l).rx = (s.links.get l).rx ∧
    ((workTick 0 x s).links.get l).untaken = (s.links.get l).untaken ∧
    ((workTick 0 x s).links.get l).sdo = (s.links.get l).sdo ∧
    ((workTick 0 x s).links.get l).softReset = (s.links.get l).softReset ∧
    ((workTick 0 x s).links.get l).enable = (s.links.get l).enable ∧
    ((workTick 0 x s).links.get l).notices ||| (s.links.get l).notices = ((workTick 0 x s).links.get l).notices := by
  obtain ⟨m, hm⟩ := beforeResponses_raised x s l
  rw [workTick_eq_respondTick, respondTick_link]
  obtain ⟨h1, h2, h3, h4, h5, h6, h7⟩ := ((s.beforeResponses x).links.get l).atTick_frame (s.beforeResponses x)
  rw [h1, h2, h3, h4, h5, h6, h7, hm]
  refine ⟨rfl, rfl, rfl, rfl, rfl, rfl, ?_⟩
  rw [BitVec.or_assoc, BitVec.or_comm m, ← BitVec.or_assoc, BitVec.or_self]

/-- Settles O16: the frame of each block's part of a tick. -/
theorem tickFrame : Obligations.TickFrame := by
  intro x s h
  have ⟨hinit, hreset, _⟩ := h
  obtain ⟨hwatch, hipk, hkp, hirms, hkr⟩ := s.guard.atTick_sameWatch s.scan s.tb.wraps s.tb.advance.position
  obtain ⟨hstop, hgain⟩ := s.scan.closed_settings s.tb.wraps s.tb.advance.position
  have hinterval : (workTick 0 x s).cnt.interval = s.cnt.interval := by
    obtain ⟨_, hrun, _⟩ := runAfter_keeps s
    rw [workTick_cnt_interval, hrun]
    exact tickFront_interval s
  refine ⟨workTick 0 x s, exec_sampleTick_plain x s h, ?_⟩
  rw [workTick_guard, workTick_scan]
  exact ⟨by simp [hinit], by simp [hreset], workTick_pending x s, workTick_wave x s, workTick_map x s,
    workTick_slots x s, workTick_sched x s, workTick_peak x s, hwatch, hipk, hkp, hirms, hkr, hstop, hgain,
    workTick_arm x s, hinterval, workTick_link_frame x s⟩

end Sys2Proof.Machine
end

