-- ==== Sys2Proof/Proofs/RecordTicks.lean ====
section
/-! PROOFS. A tick at which one timed record or a pending APPLY_NOW is applied: the runner, the counts, the trace, the
Timebase and the phases' settings (R95, R96, R106, R157). -/

namespace Sys2Proof.Machine

open Sys2Proof.Safety

/-! ## The trace at a tick without a trip -/

/-- With no trip and nothing formed between ticks, the entries that the runner makes are what enters the trace, as far as
there is room (R157, R158). -/
theorem workTick_fifo_noTrip {s : State} (x : Bool) (hnt : NoTrip s) (hd : s.runAfter.trace.deferred = []) :
    (workTick 0 x s).trace.fifo =
      s.runAfter.trace.fifo ++ s.runAfter.trace.made.take (64 - s.runAfter.trace.fifo.length) := by
  rw [workTick, respondTick_trace]
  generalize hu : captureTick (tickMiddle 0 s) _ s.tb.wraps x s.tb.advance.position = u
  have htrace : u.trace = s.runAfter.trace := by rw [← hu, captureTick_trace, tickMiddle_trace]
  have htrip : u.events.contains .trip = false := by
    have hfront := tickFront_trip s
    rw [show s.guard.tripAt s.scan s.tb.wraps s.tb.advance.position = none from hnt] at hfront
    rw [Bool.eq_false_iff, Ne, List.contains_iff_mem, ← hu, mem_captureTick_events 0 x s _ _ rfl,
      ← List.contains_iff_mem, hfront]
    decide
  have hentries : tickEntries u s.tb.advance.position = s.runAfter.trace.made := by
    rw [tickEntries, htrip, runnerEntries, deferredEntries, htrace, hd]
    simp
  rw [traceTick, putEntries_trace, hentries, htrace]

theorem Trace.makeRecord_made (t : Trace) (r : Record) (i : Nat) (d st : Position) (l : Bool) :
    (t.makeRecord r i d st l).made = t.made ++ (if r.suppress then [] else [recordEntry r i d st l]) := by
  unfold Trace.makeRecord
  split <;> simp

/-- The RECORD entry of the claims is the one that the runner makes at the tick's position. -/
theorem recordTraced_eq (s : State) (r : Record) (i : Nat) (due : Position) (late : Bool) :
    recordTraced s r i due late =
      if r.suppress then [] else [recordEntry r i due s.tb.advance.position late] := by
  rw [recordTraced, recordEntry, Record.isClamped, freqClamped, ← Bool.decide_and]
  rfl

/-- A tick whose one entry is a record's. -/
theorem workTick_fifo_record {s : State} (x : Bool) (hq : QuietTrace s) (hroom : s.trace.fifo.length < 64) {r : Record}
    {i : Nat} {due : Position} {late : Bool}
    (hmade : s.runAfter.trace = s.trace.makeRecord r i due s.tb.advance.position late) :
    (workTick 0 x s).trace.fifo = s.trace.fifo ++ recordTraced s r i due late := by
  obtain ⟨hnt, hdef, hnone⟩ := hq
  rw [workTick_fifo_noTrip x hnt (by rw [hmade, Trace.makeRecord_deferred, hdef]), hmade, Trace.makeRecord_fifo,
    Trace.makeRecord_made, hnone, List.nil_append, recordTraced_eq, List.take_of_length_le]
  split
  · exact Nat.zero_le _
  · rw [List.length_singleton]; omega

/-! ## One timed record -/

/-- A record that is applied as a timed one other than END: a SHAPE unless its entry is UNMAPPED (R72 to R74, R100). -/
def Record.appliesTimed (r : Record) (map : Memory) : Bool :=
  match r.kind with
  | .level | .freq | .phaseJump | .slotbank | .noise | .mark => true
  | .shape => !r.meetsUnmapped map
  | _ => false

theorem applyEntry_timed {map : Memory} {e : QueueEntry} {r : Record} (hi : e.item = .record r)
    (hr : r.appliesTimed map = true) (prev pos : Position) (w : RunSide) :
    applyEntry map prev pos w e = applyTimed w e r pos (e.due.le prev) := by
  unfold Record.appliesTimed at hr
  unfold applyEntry
  rw [hi]
  dsimp only
  split at hr
  case h_7 hk => rw [hk]; exact if_neg (by simpa using hr)
  case h_8 => cases hr
  all_goals rename_i hk; rw [hk]

section OneDue

variable {s : State} {e : QueueEntry} {rest : List QueueEntry} {r : Record}

/-- The runner's part after a tick that applies one timed record. -/
theorem runAfter_oneTimed (h : OneDue s e rest) (hi : e.item = .record r) (hr : r.appliesTimed s.map = true) :
    s.runAfter =
      { applyTimed s.runStart e r s.tb.advance.position (e.due.le s.tb.position) with
        run := fill s.sched { s.run with allowance := 8, queue := rest, execPtr := e.src + 1, cBase := e.due } } := by
  have ⟨_, _, _, hqueue, _⟩ := h
  have hrun : (applyTimed s.runStart e r s.tb.advance.position (e.due.le s.tb.position)).run =
      { s.run with allowance := 8, queue := rest, execPtr := e.src + 1, cBase := e.due } := by
    simp [applyTimed, State.runStart, hqueue]
  rw [oneDue_runAfter h _ (applyEntry_timed hi hr _ _ _).symm (.inr (by rw [hrun])), hrun]

/-- The claims' account of the runner, the counts and the trace after such a tick. -/
theorem timedApplied_workTick (x : Bool) (h : OneDue s e rest) (hi : e.item = .record r)
    (hr : r.appliesTimed s.map = true) : TimedApplied s e rest r (workTick 0 x s) := by
  have hafter := runAfter_oneTimed h hi hr
  have ⟨_, _, hstate, _⟩ := h
  have hcnt : s.runAfter.cnt = (tickFront s).cnt.count (fun n => n.addApplied.addLate (e.due.le s.tb.position)) := by
    rw [hafter]; rfl
  refine ⟨fun hq hroom => workTick_fifo_record x hq hroom (by rw [hafter]; rfl), ?_⟩
  rw [workTick_run, workTick_live_applied, workTick_live_late, hcnt, hafter]
  refine ⟨by simpa using hstate, by simp, by simp, by simp, by simp, fill_queue _ _, ?_, ?_⟩
  · rw [CounterBank.count, Nine.addLate, ← tickFront_applied]
    split <;> rfl
  · rw [CounterBank.count, Nine.addLate, ← tickFront_late]
    split <;> rfl

/-- The Timebase after such a tick: the record acts on what the advance leaves. -/
theorem workTick_tb_oneTimed (x : Bool) (h : OneDue s e rest) (hi : e.item = .record r)
    (hr : r.appliesTimed s.map = true) : (workTick 0 x s).tb = r.changeTimebase s.tb.advance := by
  rw [workTick_tb, runAfter_oneTimed h hi hr]
  rfl

/-- The phases' settings after such a tick: the record acts on what the ramps leave. -/
theorem sameSettings_oneTimed (x : Bool) (h : OneDue s e rest) (hi : e.item = .record r)
    (hr : r.appliesTimed s.map = true) (p : PhaseId) :
    SameSettings ((workTick 0 x s).ph.get p) ((r.changePhases (s.ph.each Phase.rampStep)).get p) := by
  have hset := sameSettings_workTick x s p
  rwa [runAfter_oneTimed h hi hr] at hset

/-- The row of the record's kind is that tick. -/
theorem eventTick_oneTimed (x : Bool) (h : OneDue s e rest) (hi : e.item = .record r) (hr : r.appliesTimed s.map = true)
    {hit : TickEvent → Bool} (hhit : hit (.applied r.kind) = true) : eventTick hit x s = workTick 0 x s := by
  refine eventTick_plain hit x s h.1 (List.any_eq_true.mpr ⟨.applied r.kind, ?_, hhit⟩)
  rw [runAfter_oneTimed h hi hr]
  simp [applyTimed]

end OneDue

/-! ## FREQ and PHASE_JUMP -/

/-- An offset turned by d steps of 65,536 (R13). -/
theorem turned_eq (o : Word32) (d : Nat) : turned o d = o + BitVec.ofNat 32 d * 65536 := by
  rw [turned, Nat.mul_comm, BitVec.ofNat_mul]
  rfl

/-- A PHASE_JUMP turns the offsets of the masked phases (R13). -/
theorem Timebase.applyJump_offset (tb : Timebase) (m : Mask) (d : Nat) (p : PhaseId) :
    (tb.applyJump m d).offset p = if Mask.names m p then tb.offset p + BitVec.ofNat 32 d * 65536 else tb.offset p := by
  rw [← turned_eq]
  cases p <;> rfl

theorem Timebase.advance_offset (tb : Timebase) (p : PhaseId) : tb.advance.offset p = tb.offset p := by
  cases p <;> simp [Timebase.offset]

/-- Settles O18: both kinds are timed records, which act on the Timebase alone. -/
theorem freqAndPhaseJumpApplied : Obligations.FreqAndPhaseJumpApplied := by
  intro x s e rest r h hi
  refine ⟨fun hk => ?_, fun hk => ?_⟩
  · have hr : r.appliesTimed s.map = true := by simp [Record.appliesTimed, hk]
    have hrow : exec (.freq x) s = .next (workTick 0 x s) :=
      congrArg Host.Outcome.next (eventTick_oneTimed x h hi hr (by simp [isApplied, hk]))
    have htb : (workTick 0 x s).tb = s.tb.advance.applyFreq r.p1 r.p2 := by
      rw [workTick_tb_oneTimed x h hi hr, Record.changeTimebase, hk]
    refine ⟨workTick 0 x s, hrow, exec_sampleTick_plain x s h.1, timedApplied_workTick x h hi hr, fun h0 => ?_,
      fun h0 => ?_, fun p => ?_⟩
    · rw [htb, Timebase.applyFreq, if_pos h0]; rfl
    · rw [htb, Timebase.applyFreq, if_neg h0]; rfl
    · simpa [Record.changePhases, hk, rampStepped_eq] using sameSettings_oneTimed x h hi hr p
  · have hr : r.appliesTimed s.map = true := by simp [Record.appliesTimed, hk]
    have hrow : exec (.phaseJump x) s = .next (workTick 0 x s) :=
      congrArg Host.Outcome.next (eventTick_oneTimed x h hi hr (by simp [isApplied, hk]))
    have htb : (workTick 0 x s).tb = s.tb.advance.applyJump r.mask r.p1 := by
      rw [workTick_tb_oneTimed x h hi hr, Record.changeTimebase, hk]
    refine ⟨workTick 0 x s, hrow, exec_sampleTick_plain x s h.1, timedApplied_workTick x h hi hr, fun p => ?_, ?_⟩
    · rw [htb, Timebase.applyJump_offset, Timebase.advance_offset]
    · rw [htb]
      refine ⟨rfl, rfl, rfl, rfl, rfl, fun p => ?_⟩
      simpa [Record.changePhases, hk, rampStepped_eq] using sameSettings_oneTimed x h hi hr p

/-! ## APPLY_NOW -/

/-- The runner's part after a tick that applies a pending APPLY_NOW, which a stopped runner alone can hold (R105, R106). -/
theorem runAfter_applyPending {s : State} {r : Record} (h : ApplyPending s r) :
    s.runAfter = applyPending s.map s.runStart s.tb.advance.position r := by
  obtain ⟨_, hstop, hnow⟩ := h
  have hnow' : s.runStart.run.applyNow = some r := hnow
  have hother : otherWork s.sched s.map s.tb.advance.position s.holdRead s.runStart =
      applyPending s.map s.runStart s.tb.advance.position r := by
    unfold otherWork
    rw [hnow', show s.runStart.run.state = s.run.state from rfl]
    cases hs : s.run.state
    case running => simp [Runner.stopped, hs] at hstop
    case held => simp [Runner.stopped, hs] at hstop
    all_goals rfl
  have hnotRunning : s.run.state ≠ .running := fun hs => by simp [Runner.stopped, hs] at hstop
  have happ : ¬ appliesEntries (tickFront s).runSide.run s.tb.wraps s.holdRead = true := by
    show ¬ appliesEntries s.run _ _ = true
    simp [appliesEntries, hnotRunning]
  rw [State.runAfter, runnerTick, if_neg happ]
  exact hother

/-- Settles O34: the pending record's own act, with the row's event. -/
theorem pendingApplyNowIsApplied : Obligations.PendingApplyNowIsApplied := by
  intro x s r h hmapped
  have hafter := runAfter_applyPending h
  have hum : r.meetsUnmapped s.map = false := by
    by_cases hk : r.kind = .shape
    · simp [Record.meetsUnmapped, hmapped hk]
    · simp [Record.meetsUnmapped, hk]
  have hrow : exec (.applyNowApplied x) s = .next (workTick 0 x s) := by
    refine congrArg Host.Outcome.next (eventTick_plain _ x s h.1 ?_)
    refine List.any_eq_true.mpr ⟨.applyNow, ?_, by simp [isEvent]⟩
    rw [hafter]
    simp [applyPending]
  have hcnt : s.runAfter.cnt = (tickFront s).cnt.count Nine.addApplied := by rw [hafter]; rfl
  refine ⟨workTick 0 x s, hrow, exec_sampleTick_plain x s h.1, ?_, ?_, ?_, fun hq hroom => ?_, ?_, fun p => ?_⟩
  · rw [workTick_run, hafter]; rfl
  · rw [workTick_live_applied, hcnt, ← tickFront_applied]; rfl
  · rw [workTick_live_late, hcnt, ← tickFront_late]; rfl
  · exact workTick_fifo_record x hq hroom (by rw [hafter]; rfl)
  · rw [workTick_tb, hafter]; rfl
  · have hph : s.runAfter.ph = r.changePhases (s.ph.each Phase.rampStep) := by
      rw [hafter]
      exact if_neg (by simp [hum])
    rw [← hph]
    exact sameSettings_workTick x s p

end Sys2Proof.Machine
end

