-- ==== Sys2Proof/Proofs/StartUp.lean ====
section
/-! PROOFS. Power-on, INIT, the pin reset, the ticks at which no block works, and the invariants after reset (R16, R17, R178,
R179). -/

namespace Sys2Proof.Machine

open Sys2Proof.Safety

/-! ## Quiet ticks -/

/-- A link that waits for no response stays as it is at a tick's end. -/
theorem LinkState.atTick_of_no_response {lk : LinkState} (s : State) (h : lk.tx ≠ .waiting ∨ lk.resp = none) :
    lk.atTick s = lk := by
  rcases lk.atTick_cases s with ⟨_, he⟩ | ⟨r, ht, hr, _⟩
  · exact he
  · rcases h with h | h
    · exact absurd ht h
    · rw [h] at hr; cases hr

/-- The links after a quiet tick: each at the end of a tick that has sent zeros (R68, R169). -/
theorem quietTick_link (s : State) (l : Link) :
    (quietTick s).links.get l = (s.links.get l).atTick { s with frame := frameZero, events := [] } :=
  respondTick_link _ l

/-- A quiet tick changes the frame, the events and the links. -/
theorem quietTick_eq (s : State) :
    quietTick s = { s with frame := frameZero, events := [], links := (quietTick s).links } := rfl

/-- Every frame is sent as R67 says. -/
theorem frameIsSent (s : State) : FrameIsSent s := ⟨Frame.sent_length _, fun i hi => Frame.sent_get _ i hi⟩

/-- Settles O12: such a tick is a quiet tick, before which no request is taken. -/
theorem quietTickSendsZeros : Obligations.QuietTickSendsZeros := by
  intro x s hquiet hnone
  have hw : ¬ s.works = true := by rcases hquiet with h | h <;> simp [State.works, h]
  have htick : tick x s = quietTick s := by rw [tick, if_neg hw, takeAll_none s hnone]
  refine ⟨(quietTick s).links, tick x s, rfl, ?_, frameIsSent _, fun l => ?_⟩
  · rw [htick]; exact quietTick_eq s
  · obtain ⟨_, _, _, _, _, henable, hnotices⟩ :=
      (s.links.get l).atTick_frame { s with frame := frameZero, events := [] }
    rw [quietTick_link]
    exact ⟨hnotices, henable, LinkState.atTick_of_no_response _⟩

/-! ## Power-on and INIT -/

/-- INIT ends only where RESETN is released, at a quiet tick behind which every block is reset (R178). -/
theorem initEnd_eq {s : State} (hinit : s.inInit = true) (hreset : s.resetLow = false) (hnone : untakenCount s = 0) :
    initEnd s = { State.reset with
      wave := s.wave, map := s.map, slots := s.slots, sched := s.sched, links := (quietTick s).links, free := s.free
      pending := s.pending } := by
  rw [initEnd, if_pos (by simp [hinit, hreset]), takeAll_none s hnone, quietTick_eq]
  simp only [resetBlocks, hreset]
  rfl

/-- Settles O10: power-on by definition, the end of INIT by its quiet tick. -/
theorem powerOnAndInit : Obligations.PowerOnAndInit := by
  refine ⟨fun s => ⟨(powerOn s).links, rfl, fun l => by cases l <;> rfl⟩,
    fun s hinit => ⟨fun hreset => ?_, fun hreset hnone => ?_⟩⟩
  · show Host.Outcome.next (initEnd s) = _
    rw [initEnd, if_neg (by simp [hreset])]
  · refine ⟨(quietTick s).links, congrArg Host.Outcome.next (initEnd_eq hinit hreset hnone), fun l => ?_⟩
    obtain ⟨hcs, _, _, _, _, henable, hnotices⟩ :=
      (s.links.get l).atTick_frame { s with frame := frameZero, events := [] }
    rw [quietTick_link]
    exact ⟨hnotices, henable, hcs, LinkState.atTick_of_no_response _⟩

/-- Settles O11: the reset's definition, link by link. -/
theorem pinResetAndRelease : Obligations.PinResetAndRelease :=
  fun s => ⟨⟨(pinReset s).links, rfl, fun l => by cases l <;> rfl⟩, rfl⟩

/-! ## The state after reset -/

theorem eightOf_get {α : Type} (x : α) (i : Nat) : (eightOf x).get i = x := by
  unfold Eight.get
  split <;> rfl

theorem reset_storesOk : StoresOk State.reset := ⟨rfl, rfl, rfl, rfl, rfl, rfl, rfl, rfl⟩

theorem reset_phase (p : PhaseId) : State.reset.ph.get p = phaseReset := by cases p <;> rfl

theorem reset_levelsOk : LevelsOk State.reset := by
  refine ⟨fun p => ?_, fun e he => (List.not_mem_nil he).elim, fun r hr => nomatch hr⟩
  rw [reset_phase]
  exact ⟨by decide, by decide, by decide, fun rp hrp => nomatch hrp⟩

theorem reset_shapesMapped : ShapesMapped State.reset := by
  refine ⟨fun p => ?_, fun r hr => nomatch hr⟩
  rw [reset_phase]
  decide

theorem reset_guardOk : GuardOk State.reset.guard := by
  refine ⟨⟨rfl, rfl⟩, ⟨by decide, by decide, by decide, by decide⟩, fun p hp => (nomatch hp), by decide, by decide, by decide,
    by decide, by decide, by decide, by decide, fun i => ?_, by decide⟩
  show (eightOf 0).get i ≤ 255 ∧ (eightOf 0).get i ≤ 255
  rw [eightOf_get]
  exact ⟨by decide, by decide⟩

theorem reset_scanOk : ScanOk State.reset := by
  refine ⟨by decide, by decide, fun i hi _ => hi, fun i => ?_⟩
  show ((eightOf channelReset).get i).gain ≤ 3
  rw [eightOf_get]
  decide

theorem nineZero_ok : NineOk nineZero := by unfold NineOk; decide

theorem reset_evidenceOk : EvidenceOk State.reset := ⟨by decide, by decide, rfl, nineZero_ok, nineZero_ok⟩

theorem stackOk_nil : StackOk [] := ⟨by decide, fun fr hfr => (List.not_mem_nil hfr).elim⟩

theorem reset_walkOk : WalkOk State.reset.run :=
  ⟨⟨rfl, rfl, rfl⟩, by decide, fun _ => rfl, stackOk_nil, stackOk_nil, fun _ => ⟨rfl, rfl⟩, by decide, by decide, by decide,
    by decide⟩

/-- Settles O54: each invariant at the reset values. -/
theorem resetMeetsEveryInvariant : Obligations.ResetMeetsEveryInvariant :=
  ⟨reset_storesOk, timebaseReset_ok, lfsrReset_ne_zero, reset_levelsOk, reset_shapesMapped, reset_guardOk, reset_scanOk,
    reset_evidenceOk, reset_walkOk⟩

end Sys2Proof.Machine
end

