-- ==== Sys2Proof/Proofs/Reports.lean ====
section
/-! PROOFS. The five reports as of one tick: their layouts, field by field, and the tick that forms them (R15, R107, R128, R141,
R169, R177, R181). -/

namespace Sys2Proof.Machine

open Sys2Proof.Safety

/-! ## Encodings -/

@[simp] theorem leBytes_length (k n : Nat) : (leBytes k n).length = k := by
  induction k generalizing n with
  | zero => rfl
  | succ k ih => simp [leBytes, ih]

@[simp] theorem leInt16_length (x : Int) : (leInt16 x).length = 2 := leBytes_length 2 _

@[simp] theorem positionBytes_length (p : Position) : (positionBytes p).length = 6 := by simp [positionBytes]

theorem positionData_eq (p : Position) : positionData p = positionBytes p := rfl

/-- The pattern of a signed value is that of its 16-bit two's complement. -/
theorem pattern16_eq (v : Int) : pattern16 v = (BitVec.ofInt 16 v).toNat := by
  rw [BitVec.toNat_ofInt]
  rfl

theorem encodings : Encodings := by
  refine ⟨rfl, rfl, rfl, rfl, rfl, rfl, rfl, rfl, fun n => ⟨rfl, rfl, ?_⟩, fun v => ?_, rfl, rfl⟩
  · simp [leBytes, Nat.div_div_eq_div_mul]
  · rw [leInt16, pattern16_eq]

/-! ## Layouts -/

/-- READ_TIMELINE's bytes are its fields in R181's order. -/
theorem timelineBytes_eq (tb : Timebase) : timelineBytes tb = timelineData tb := by
  have hang : (BitVec.ofNat 16 (tb.b.toNat / 65536)).toNat = tb.b.toNat / 65536 := by
    have := tb.b.isLt
    rw [BitVec.toNat_ofNat]
    omega
  unfold timelineBytes timelineData positionBytes Timebase.position
  rw [hang]
  cases tb.ramp <;> simp only [List.append_assoc]

theorem timelineData_length (tb : Timebase) : (timelineData tb).length = 28 := by simp [timelineData]

theorem phaseBytes_eq (ph : Phase) : phaseBytes ph = phaseData ph := by
  unfold phaseBytes phaseData
  cases ph.ramp <;> simp [flagByte]

theorem phaseData_length (ph : Phase) : (phaseData ph).length = 23 := by simp [phaseData]

theorem runBytes_eq (run : Runner) (hold : Bool) : runBytes run hold = runData run hold := by
  unfold runBytes runData headDue topRemaining
  cases run.queue <;> cases run.cStack <;> cases run.applyNow <;> rfl

theorem runData_length (run : Runner) (hold : Bool) : (runData run hold).length = 27 := by
  simp [runData, positionData_eq]

/-- The eight channels in order, by number. -/
theorem flatMap_channels {α : Type} (e : Eight α) (f : α → List Byte) :
    e.toList.flatMap f = [0, 1, 2, 3, 4, 5, 6, 7].flatMap (fun i => f (e.get i)) := rfl

/-- Eight parts of `k` bytes each. -/
theorem flatMap_channels_length (f : Nat → List Byte) (k : Nat) (h : ∀ i, (f i).length = k) :
    ([0, 1, 2, 3, 4, 5, 6, 7].flatMap f).length = 8 * k := by
  simp [h]
  omega

theorem guardBytes_eq (g : Guard) (ph : Phases) : guardBytes g ph = guardData g ph := by
  unfold guardBytes guardData
  rw [flatMap_channels, flatMap_channels]
  unfold Guard.stepsRemaining
  cases g.ramp <;> simp [positionData_eq, Guard.tripOut]

theorem guardData_length (g : Guard) (ph : Phases) : (guardData g ph).length = 44 := by
  have hcounts (e : Eight Nat) := flatMap_channels_length (fun i => leBytes 1 (e.get i)) 1 (fun _ => leBytes_length 1 _)
  unfold guardData
  simp only [List.length_append, hcounts]
  simp [positionData_eq]

theorem measureBytes_eq (sc : Scanner) : measureBytes sc = measureData sc := by
  unfold measureBytes measureData
  rw [flatMap_channels, flatMap_channels, flatMap_channels]
  refine congrArg₂ (· ++ ·) (congrArg₂ (· ++ ·) rfl (List.flatMap_congr fun i _ => ?_)) (List.flatMap_congr fun i _ => ?_)
  · unfold cycleRecordBytes
    dsimp only
    cases (sc.channels.get i).cycleRec.data <;> rfl
  · unfold latestBytes
    dsimp only
    cases (sc.channels.get i).latest <;> rfl

theorem measureData_length (sc : Scanner) : (measureData sc).length = 178 := by
  unfold measureData
  dsimp only
  rw [List.length_append, List.length_append, List.length_append, List.length_append,
    flatMap_channels_length _ 1 (fun _ => leBytes_length 1 _), flatMap_channels_length _ 11 (fun i => by simp),
    flatMap_channels_length _ 10 (fun i => by simp [positionData_eq])]
  simp

/-! ## The requests -/

/-- A request for a report on a link of its own: taken at once with no parameter byte, refused for its length with any (R15,
R107, R128, R141, R177). -/
theorem requestOutcome_report {l : Link} {s : State} (h : Ready l s) {code : Byte} {r : AsOf}
    (hc : requestCodes.contains code = true) (hb : codeBelongs code.toNat l = true)
    (htake : ∀ ps t, takeByCode code.toNat l ps t = if ps.length = 0 then (.report r, t) else refuse t .length)
    (ps : List Byte) (hps : ps.length ≤ 200) :
    requestOutcome code l ps s = .next (if ps.length = 0 then withLink s l (answeredLink (s.links.get l) (.atTick r))
      else onlyAnswered s l .length []) := by
  by_cases h0 : ps.length = 0
  · have hres := (htake ps (sendRequest code l ps s)).trans (if_pos h0)
    rw [requestOutcome_plain h code ps hps hc hb _ hres rfl, if_pos h0]
    rfl
  · have hres := (htake ps (sendRequest code l ps s)).trans (if_neg h0)
    rw [requestOutcome_plain h code ps hps hc hb _ hres rfl, if_neg h0]
    rfl

/-- What such a row does, with no parameter byte and with some. -/
theorem report_taken {l : Link} {s : State} (h : Ready l s) {code : Byte} {r : AsOf} {row : List Byte → Instr}
    (hrow : ∀ ps, exec (row ps) s = requestOutcome code l ps s) (hc : requestCodes.contains code = true)
    (hb : codeBelongs code.toNat l = true)
    (htake : ∀ ps t, takeByCode code.toNat l ps t = if ps.length = 0 then (.report r, t) else refuse t .length) :
    exec (row []) s = .next (withLink s l (answeredLink (s.links.get l) (.atTick r))) ∧
    ∀ ps : List Byte, ps.length ≤ 200 → ps.length ≠ 0 → exec (row ps) s = .next (onlyAnswered s l .length []) := by
  refine ⟨?_, fun ps hps h0 => ?_⟩
  · rw [hrow, requestOutcome_report h hc hb htake [] (by decide)]
    rfl
  · rw [hrow, requestOutcome_report h hc hb htake ps hps, if_neg h0]

/-! ## The tick that forms a report -/

/-- A report that waits on a link is formed at the tick from what the tick leaves, and the link begins to respond (R169). -/
theorem workTick_report {s : State} {l : Link} {r : AsOf} (x : Bool) (hw : (s.links.get l).tx = .waiting)
    (hr : (s.links.get l).resp = some (.atTick r)) :
    ((workTick 0 x s).links.get l).tx = .responding ∧ ((workTick 0 x s).links.get l).resp = none ∧
    ((workTick 0 x s).links.get l).out = responseBytes .ok (reportBytes (workTick 0 x s) r) := by
  obtain ⟨m, hm⟩ := beforeResponses_raised x s l
  have hlink : (workTick 0 x s).links.get l =
      ((s.beforeResponses x).links.get l).respond (responseBytes .ok (reportBytes (s.beforeResponses x) r)) := by
    rw [workTick_eq_respondTick, respondTick_link]
    have htx : ((s.beforeResponses x).links.get l).tx = .waiting := by rw [hm]; exact hw
    have hresp : ((s.beforeResponses x).links.get l).resp = some (.atTick r) := by rw [hm]; exact hr
    rw [LinkState.atTick, hresp]
    exact if_pos htx
  have hreport : reportBytes (s.beforeResponses x) r = reportBytes (workTick 0 x s) r := by cases r <;> rfl
  rw [hlink, hreport]
  exact ⟨rfl, rfl, rfl⟩

/-- Settles O53: the encodings and layouts, the taking, and the tick. -/
theorem reportsAreFormedAtTheTick : Obligations.ReportsAreFormedAtTheTick := by
  refine ⟨encodings, fun l s h => ?_, fun x l r s hplain hw hr => ?_⟩
  · have htl := report_taken h (code := 0x03) (r := .timeline) (row := .readTimeline l) (fun _ => rfl) (by decide)
      (by cases l <;> decide) (fun _ _ => rfl)
    have hph := report_taken h (code := 0x04) (r := .phases) (row := .readPhases l) (fun _ => rfl) (by decide)
      (by cases l <;> decide) (fun _ _ => rfl)
    have hrun (hl : l = .pl) := report_taken h (code := 0x1D) (r := .run) (row := .readRun l) (fun _ => rfl) (by decide)
      (by rw [hl]; decide) (fun _ _ => rfl)
    have hguard (hl : l = .gl) := report_taken h (code := 0x38) (r := .guard) (row := .readGuard l) (fun _ => rfl)
      (by decide) (by rw [hl]; decide) (fun _ _ => rfl)
    have hmeas (hl : l = .ml) := report_taken h (code := 0x51) (r := .measure) (row := .readMeasure l) (fun _ => rfl)
      (by decide) (by rw [hl]; decide) (fun _ _ => rfl)
    exact ⟨htl.1, hph.1, fun hl => (hrun hl).1, fun hl => (hguard hl).1, fun hl => (hmeas hl).1, fun ps hps h0 =>
      ⟨htl.2 ps hps h0, hph.2 ps hps h0, fun hl => (hrun hl).2 ps hps h0, fun hl => (hguard hl).2 ps hps h0,
        fun hl => (hmeas hl).2 ps hps h0⟩⟩
  · obtain ⟨htx, hresp, hout⟩ := workTick_report x hw hr
    refine ⟨workTick 0 x s, reportBytes (workTick 0 x s) r, exec_sampleTick_plain x s hplain, htx, hresp, hout,
      ?_, ?_, ?_, ?_, ?_⟩
    · rintro rfl
      rw [reportBytes, timelineBytes_eq]
      exact ⟨timelineData_length _, rfl⟩
    · rintro rfl
      rw [reportBytes, phasesBytes, phaseBytes_eq, phaseBytes_eq, phaseBytes_eq]
      exact ⟨by simp [phaseData_length], rfl⟩
    · rintro rfl
      rw [reportBytes, runBytes_eq]
      exact ⟨runData_length _ _, rfl⟩
    · rintro rfl
      rw [reportBytes, guardBytes_eq]
      exact ⟨guardData_length _ _, rfl⟩
    · rintro rfl
      rw [reportBytes, measureBytes_eq]
      exact ⟨measureData_length _, rfl⟩

end Sys2Proof.Machine
end

