-- ==== Sys2Proof/Proofs/TableChanges.lean ====
section
/-! PROOFS. What one step can do to the four stores, the runner's waiting records and the phases' settings, said once: a
chain of elementary changes, each with the bounds and conditions under which a request or the runner makes it. -/

namespace Sys2Proof.Machine

open Sys2Proof.Safety

/-! ## Records that wait -/

/-- What the fetcher places: a fault marker, or a record decoded from bytes (R88). -/
def QueueEntry.Fetched (e : QueueEntry) : Prop := ∀ r, e.item = .record r → ∃ bs, r = decodeRecord bs

/-- A record waits in the queue or as a pending APPLY_NOW. -/
def Runner.Waits (run : Runner) (r : Record) : Prop :=
  (∃ e ∈ run.queue, e.item = .record r) ∨ run.applyNow = some r

/-- A later runner holds no record but those that waited before and those fetched since; no APPLY_NOW has become pending. -/
structure Runner.LeadsTo (run run' : Runner) : Prop where
  queue : ∀ e ∈ run'.queue, e ∈ run.queue ∨ e.Fetched
  applyNow : ∀ r, run'.applyNow = some r → run.applyNow = some r

namespace Runner.LeadsTo

variable {run run' run'' : Runner}

theorem refl (run : Runner) : run.LeadsTo run := ⟨fun _ he => .inl he, fun _ h => h⟩

theorem trans (h : run.LeadsTo run') (h' : run'.LeadsTo run'') : run.LeadsTo run'' where
  queue e he := (h'.queue e he).elim (h.queue e) .inr
  applyNow r hr := h.applyNow r (h'.applyNow r hr)

/-- A flush, or any other change that empties the queue (R101). -/
theorem of_empty (hq : run'.queue = []) (hnow : run'.applyNow = run.applyNow) : run.LeadsTo run' where
  queue e he := by rw [hq] at he; cases he
  applyNow r hr := hnow ▸ hr

/-- The head of the queue taken off (R94). -/
theorem of_tail (hq : run'.queue = run.queue.tail) (hnow : run'.applyNow = run.applyNow) : run.LeadsTo run' where
  queue e he := by rw [hq] at he; exact .inl (List.mem_of_mem_tail he)
  applyNow r hr := hnow ▸ hr

theorem fetchOne (sched : Memory) (run : Runner) : run.LeadsTo (fetchOne sched run) where
  applyNow r hr := by rwa [fetchOne_applyNow] at hr
  queue e he := by
    have hplaced : ∀ x : QueueEntry, x.Fetched → e ∈ run.queue ++ [x] → e ∈ run.queue ∨ e.Fetched := by
      intro x hx hmem
      rcases List.mem_append.mp hmem with hmem | hmem
      · exact .inl hmem
      · exact .inr (List.mem_singleton.mp hmem ▸ hx)
    have hrecord : ∀ src due, QueueEntry.Fetched ⟨src, .record (recordAt sched run.fetchPtr), due⟩ :=
      fun _ _ _ hr => ⟨_, (QueueItem.record.inj hr).symm⟩
    unfold Machine.fetchOne at he
    split at he
    · exact hplaced _ (fun _ hr => QueueItem.noConfusion hr) he
    · unfold placeRecord at he
      split at he <;> exact hplaced _ (hrecord _ _) he

/-- A fill fetches and does nothing else (R90). -/
theorem fill (sched : Memory) (run : Runner) : run.LeadsTo (fill sched run) := by
  suffices h : ∀ k (run : Runner), run.LeadsTo (fillUpTo sched k run) from h _ run
  intro k
  induction k with
  | zero => exact refl
  | succ k ih =>
    intro run
    unfold fillUpTo
    split
    · exact (fetchOne sched run).trans (ih _)
    · exact refl run

end Runner.LeadsTo

/-! ## Elementary changes -/

theorem sameSettings_refl (x : Phase) : SameSettings x x := ⟨rfl, rfl, rfl, rfl, rfl, rfl, rfl⟩

/-- Two states agree in the stores, the runner and the phases' settings. -/
structure SameTables (s t : State) : Prop where
  wave : t.wave = s.wave
  map : t.map = s.map
  slots : t.slots = s.slots
  sched : t.sched = s.sched
  run : t.run = s.run
  settings : ∀ p, SameSettings (t.ph.get p) (s.ph.get p)

/-- A change of other blocks alone. -/
theorem SameTables.of_update {s t : State}
    (h : t = { t with wave := s.wave, map := s.map, slots := s.slots, sched := s.sched, run := s.run, ph := s.ph }) :
    SameTables s t := by
  rw [h]
  exact ⟨rfl, rfl, rfl, rfl, rfl, fun _ => sameSettings_refl _⟩

/-- One elementary change of the stores, the runner or the phases' settings, whatever other blocks change with it. -/
inductive TableChange (s t : State) : Prop
  | same (h : SameTables s t)
  | wave (a : Nat) (bs : List Byte) (hin : a + bs.length ≤ 32768)
      (h : SameTables { s with wave := s.wave.writeBytes a bs } t)
  | map (e : Nat) (b : Byte) (hin : e < 64) (hfree : entryCurrent s e = false)
      (h : SameTables { s with map := s.map.write e b } t)
  | slots (a : Nat) (bs : List Byte) (hin : a + bs.length ≤ 2304)
      (h : SameTables { s with slots := s.slots.writeBytes a bs } t)
  | sched (a : Nat) (bs : List Byte) (hin : a + bs.length ≤ 10240) (hrun : s.run.LeadsTo t.run)
      (h : SameTables { s with sched := s.sched.writeBytes a bs, run := t.run } t)
  | runner (hrun : s.run.LeadsTo t.run) (h : SameTables { s with run := t.run } t)
  | applyNow (bs : List Byte) (hmapped : (decodeRecord bs).meetsUnmapped s.map = false)
      (h : SameTables { s with run := { s.run with applyNow := some (decodeRecord bs) } } t)
  | peak (m : Mask) (n : Nat) (hn : n ≤ 32767) (h : SameTables { s with ph := s.ph.onMask m (fun p => p.setPeak n) } t)
  | ramps (h : SameTables { s with ph := s.ph.each Phase.rampStep } t)
  | record (r : Record) (hwaits : s.run.Waits r) (hmapped : r.meetsUnmapped s.map = false)
      (hrun : s.run.LeadsTo t.run) (h : SameTables { s with ph := r.changePhases s.ph, run := t.run } t)
  | reset (h : SameTables { s with ph := phasesReset, run := runnerReset } t)
  | power (h : SameTables
      { s with wave := [], map := [], slots := [], sched := [], ph := phasesReset, run := runnerReset } t)

namespace TableChange

variable {s t : State}

theorem unchanged : TableChange s s := .same (.of_update rfl)

/-- A request refused by a check changes nothing; one that passes it goes on. -/
theorem ite_status {c : Prop} [Decidable c] {st : Status} {res : Answer × State} (h : ¬ c → TableChange s res.2) :
    TableChange s (if c then refuse s st else res).2 := by
  split
  · exact unchanged
  · exact h ‹_›

theorem ite_read {c : Prop} [Decidable c] {st : Status} {ans : Answer} :
    TableChange s (if c then (ans, s) else refuse s st).2 := by
  split <;> exact unchanged

end TableChange

/-! ## Requests -/

section Requests
open TableChange

variable (ps : List Byte) (s : State)

/-- The bytes carried stay inside the block and so inside the store (R23). -/
theorem takeWriteShape_change : TableChange s (takeWriteShape ps s).2 := by
  refine ite_status fun hlen => ite_status fun hval => ite_status fun _ => ?_
  refine .wave (sampleAddress (byteAt ps 0) (wordAt ps 1)) (ps.drop 4) ?_ (.of_update rfl)
  rw [List.length_drop, sampleAddress, Config.blockSamples]
  omega

theorem takeMapShape_change : TableChange s (takeMapShape ps s).2 := by
  refine ite_status fun _ => ite_status fun hval => ite_status fun _ => ite_status fun hfree => ?_
  exact .map (byteAt ps 0) _ (by omega) (by simpa using hfree) (.of_update rfl)

/-- The bytes carried stay inside the bank and so inside the tables (R39). -/
theorem takeWriteSlots_change : TableChange s (takeWriteSlots ps s).2 := by
  refine ite_status fun hlen => ite_status fun hval => ite_status fun _ => ite_status fun _ => ?_
  refine .slots (slotAddress (byteAt ps 0) (byteAt ps 1) (byteAt ps 2)) (ps.drop 4) ?_ (.of_update rfl)
  rw [List.length_drop, slotAddress, Config.bankSlots]
  omega

theorem takeSetNominal_change : TableChange s (takeSetNominal ps s).2 :=
  ite_status fun _ => ite_status fun hval => .peak _ (wordAt ps 1) (by omega) (.of_update rfl)

/-- The bytes carried stay inside the memory, and a queue that they cover is fetched again (R83, R84). -/
theorem takeWriteRecords_change : TableChange s (takeWriteRecords ps s).2 := by
  refine ite_status fun hlen => ite_status fun hval => ?_
  refine .sched (recordAddress (wordAt ps 0)) (ps.drop 3) ?_ ?_ (.of_update rfl)
  · rw [List.length_drop, recordAddress]
    omega
  · show s.run.LeadsTo (afterRewrite _ s.run _ _)
    unfold afterRewrite
    split
    · have hflush : s.run.LeadsTo (flush s.run) := .of_empty rfl rfl
      exact hflush.trans (.fill _ _)
    · exact .refl _

theorem takeStart_change : TableChange s (takeStart ps s).2 := by
  refine ite_status fun _ => ite_status fun _ => ite_status fun _ => ite_status fun _ => ?_
  have hstarted : s.run.LeadsTo (s.run.started (wordAt ps 0) { c := s.tb.c + 1, ang := 0 }) :=
    ⟨fun _ he => .inl he, fun _ hr => hr⟩
  exact .runner (hstarted.trans (.fill s.sched _)) (.of_update rfl)

theorem takeStop_change : TableChange s (takeStop ps s).2 := by
  refine ite_status fun _ => ?_
  split
  · exact unchanged
  · refine .runner ⟨fun e he => ?_, fun r hr => ?_⟩ (.of_update rfl)
    · dsimp only at he
      split at he
      · cases he
      · exact .inl he
    · dsimp only at hr
      split at hr <;> exact hr

/-- An APPLY_NOW that is accepted names no UNMAPPED entry (R30, R105). -/
theorem takeApplyNow_change : TableChange s (takeApplyNow ps s).2 := by
  refine ite_status fun _ => ite_status fun _ => ite_status fun hacc => ?_
  refine .applyNow ps ?_ (.of_update rfl)
  by_cases hk : (decodeRecord ps).kind = .shape
  · have hshape : (decodeRecord ps).p1 ≤ 63 ∧ (decodeRecord ps).meetsUnmapped s.map = false := by
      simpa [applyNowAccepts, hk] using hacc
    exact hshape.2
  · simp [Record.meetsUnmapped, hk]

theorem takeClearFlags_change : TableChange s (takeClearFlags ps s).2 := by
  refine ite_status fun _ => ite_status fun _ => .same ⟨rfl, rfl, rfl, rfl, rfl, fun p => ?_⟩
  rw [Phases.get_onMask]
  split <;> exact sameSettings_refl _

end Requests

open TableChange in
/-- What the taking of a request of any code does to the tables, row by row of the table of request codes (R181). -/
theorem takeByCode_change (code : Nat) (l : Link) (ps : List Byte) (s : State) :
    TableChange s (takeByCode code l ps s).2 := by
  unfold takeByCode
  split
  case h_5 => exact takeWriteShape_change ps s
  case h_7 => exact takeMapShape_change ps s
  case h_9 => exact takeWriteSlots_change ps s
  case h_12 => exact takeSetNominal_change ps s
  case h_13 => exact takeWriteRecords_change ps s
  case h_15 => exact takeStart_change ps s
  case h_16 => exact takeStop_change ps s
  case h_17 => exact takeApplyNow_change ps s
  case h_22 => exact takeClearFlags_change ps s
  -- Reports and reads of whole blocks, behind their length check.
  case h_3 | h_4 | h_8 | h_18 | h_27 | h_30 | h_39 => exact ite_read
  -- Requests with a length check alone that act on other blocks.
  case h_1 | h_23 | h_25 | h_28 | h_32 | h_33 | h_34 | h_37 | h_38 => exact ite_status fun _ => .same (.of_update rfl)
  -- Requests with one more check that act on other blocks, and reads of a range.
  case h_2 | h_6 | h_10 | h_14 | h_21 | h_24 | h_29 | h_35 | h_36 =>
    exact ite_status fun _ => ite_status fun _ => .same (.of_update rfl)
  -- ARM_CAPTURE, SET_SEED, ENABLE, SAFE and CLEAR_TRIP: other blocks, each with a case split of its own.
  case h_31 => exact ite_status fun _ => ite_status fun _ => ite_status fun _ => ite_status fun _ => .same (.of_update rfl)
  case h_11 =>
    refine ite_status fun _ => ite_status fun _ => ?_
    split <;> exact .same (.of_update rfl)
  case h_19 =>
    refine ite_status fun _ => ?_
    split
    case h_1 => split <;> exact .same (.of_update rfl)
    all_goals exact unchanged
  case h_20 =>
    refine ite_status fun _ => ?_
    split <;> exact .same (.of_update rfl)
  case h_26 =>
    refine ite_status fun _ => ?_
    split <;> exact .same (.of_update rfl)
  case h_40 => exact unchanged

/-! ## The runner's acts at a tick -/

section Acts
open TableChange

variable {s : State}

theorem applyTimed_change {e : QueueEntry} {r : Record} (he : e ∈ s.run.queue) (hi : e.item = .record r)
    (hmapped : r.meetsUnmapped s.map = false) (pos : Position) (late : Bool) :
    TableChange s (s.withRunSide (applyTimed s.runSide e r pos late)) :=
  .record r (.inl ⟨e, he, hi⟩) hmapped (.of_tail rfl rfl) (.of_update rfl)

/-- An entry that faults, a control record and an END leave the phases; a timed record is applied where it meets no UNMAPPED
entry (R94 to R100). -/
theorem applyEntry_change {e : QueueEntry} (he : e ∈ s.run.queue) (prev pos : Position) :
    TableChange s (s.withRunSide (applyEntry s.map prev pos s.runSide e)) := by
  have hfault : ∀ reason i ev, TableChange s (s.withRunSide (enterFaulted s.runSide pos reason i ev)) :=
    fun _ _ _ => .runner (.of_empty rfl rfl) (.of_update rfl)
  unfold applyEntry
  split
  case h_1 reason _ => exact hfault _ _ _
  case h_2 r hi =>
    have hother : r.kind ≠ .shape → r.meetsUnmapped s.map = false := fun hk => by simp [Record.meetsUnmapped, hk]
    dsimp only
    split
    case h_1 | h_2 | h_3 => exact .runner (.of_tail rfl rfl) (.of_update rfl)
    case h_4 => exact .runner (.of_empty rfl rfl) (.of_update rfl)
    case h_5 => exact hfault _ _ _
    case h_6 =>
      split
      · exact hfault _ _ _
      · rename_i hm
        exact applyTimed_change he hi (by simpa using hm) pos _
    all_goals rename_i hk; exact applyTimed_change he hi (hother (by rw [hk]; decide)) pos _

theorem applyPending_change {r : Record} (hr : s.run.applyNow = some r) (pos : Position) :
    TableChange s (s.withRunSide (applyPending s.map s.runSide pos r)) := by
  have hrun : s.run.LeadsTo { s.run with applyNow := none } := ⟨fun _ he => .inl he, fun _ h => nomatch h⟩
  have hph : (applyPending s.map s.runSide pos r).ph = if r.meetsUnmapped s.map then s.ph else r.changePhases s.ph := rfl
  by_cases hm : r.meetsUnmapped s.map = true
  · refine .runner hrun ⟨rfl, rfl, rfl, rfl, rfl, fun p => ?_⟩
    rw [State.withRunSide_ph, hph, if_pos hm]
    exact sameSettings_refl _
  · refine .record r (.inr hr) (by simpa using hm) hrun ⟨rfl, rfl, rfl, rfl, rfl, fun p => ?_⟩
    rw [State.withRunSide_ph, hph, if_neg hm]
    exact sameSettings_refl _

/-- The hold taken or released, or a pending APPLY_NOW applied (R93). -/
theorem otherWork_change (pos : Position) (hold : Bool) :
    TableChange s (s.withRunSide (otherWork s.sched s.map pos hold s.runSide)) := by
  have hpending : TableChange s (s.withRunSide (match s.runSide.run.applyNow with
      | none => s.runSide
      | some r => applyPending s.map s.runSide pos r)) := by
    split
    · exact .same (.of_update rfl)
    · exact applyPending_change ‹_› pos
  unfold otherWork
  split
  case h_1 => exact .runner (.of_empty rfl rfl) (.of_update rfl)
  case h_2 =>
    split
    · exact .same (.of_update rfl)
    · refine .runner (Runner.LeadsTo.trans ?_ (.fill s.sched _)) (.of_update rfl)
      exact ⟨fun _ he => .inl he, fun _ h => h⟩
  all_goals exact hpending

end Acts

/-! ## Every step -/

/-- A chain of elementary changes. -/
abbrev TableChanges : State → State → Prop := Relation.ReflTransGen TableChange

namespace TableChanges

variable {s t : State}

theorem takeOldest (l : Link) (h : TableChanges s t) : TableChanges s (takeOldest l t) := by
  rcases takeOldest_cases l t with he | ⟨r, ls, he⟩
  · rwa [he]
  · rw [he]
    refine Relation.ReflTransGen.tail (b := (judge l r t).2) ?_ (.same (.of_update rfl))
    rcases judge_cases l r t with hj | hj
    · rwa [hj]
    · rw [hj]; exact h.tail (takeByCode_change _ l _ t)

theorem applyStretch (prev pos : Position) (k : Nat) (h : TableChanges s t) :
    TableChanges s (applyStretch prev pos k t) := by
  induction k generalizing t with
  | zero => exact h
  | succ k ih =>
    unfold Machine.applyStretch applyDue
    split
    · exact h
    · rename_i e es hq
      have he : e ∈ t.run.queue := (show t.run.queue = e :: es from hq) ▸ List.mem_cons_self
      split
      · exact ih (h.tail (applyEntry_change he prev pos))
      · exact h

/-- The runner's work at a tick, whatever requests are taken during it. -/
theorem runTick (late : Nat) (prev pos : Position) (boundary hold : Bool) (h : TableChanges s t) :
    TableChanges s (runTick late t prev pos boundary hold) :=
  runTick_keeps (TableChanges s) prev pos boundary hold (fun _ _ h => h.tail (.same (.of_update rfl)))
    (fun _ h => h.takeOldest .pl) (fun k _ h => h.applyStretch prev pos k)
    (fun _ h => h.tail (.runner ⟨fun _ he => .inl he, fun _ hr => hr⟩ (.of_update rfl)))
    (fun t h => h.tail (.runner (.fill t.sched t.run) (.of_update rfl))) (fun _ h => h.tail (otherWork_change pos hold))
    late t h

end TableChanges

/-- After the runner's work a tick moves no store and no setting. -/
theorem sameTables_workTick (late : Nat) (x : Bool) (s : State) : SameTables (s.afterRun late) (workTick late x s) := by
  refine ⟨?_, ?_, ?_, ?_, ?_, fun p => ?_⟩
  case refine_6 =>
    have hph : (workTick late x s).ph = (synthesize (s.afterRun late)).ph := by simp [workTick, tickMiddle_afterRun]
    rw [hph]
    exact sameSettings_synthesize _ p
  all_goals simp [workTick, tickMiddle_afterRun]

theorem tableChanges_stepInvariant (s : State) : StepInvariant (TableChanges s) where
  blocks hst h := h.tail (.same (by rw [hst]; exact .of_update rfl))
  reset h := h.tail (.reset (.of_update rfl))
  power h := h.tail (.power (.of_update rfl))
  adc _ _ h := h.tail (.same (.of_update rfl))
  take code l ps h := h.tail (takeByCode_change code l ps _)
  work {t} late x h := by
    have hfront : TableChanges s (tickFront t) := h.tail (.ramps (.of_update rfl))
    exact (hfront.runTick late _ _ _ _).tail (.same (sameTables_workTick late x t))

/-- Every step is a chain of elementary changes of the tables. -/
theorem step_tableChanges {s t : State} (hx : step s = .next t) : TableChanges s t :=
  (tableChanges_stepInvariant s).step .refl hx

/-- What every elementary change keeps, every step keeps. -/
theorem step_keeps {P : State → Prop} (hP : ∀ s t, TableChange s t → P s → P t) {s t : State} (h : P s)
    (hx : step s = .next t) : P t := by
  have hchanges := step_tableChanges hx
  clear hx
  induction hchanges with
  | refl => exact h
  | tail _ hc ih => exact hP _ _ hc ih

end Sys2Proof.Machine
end

