-- ==== Sys2Proof/Proofs/TableInvariants.lean ====
section
/-! PROOFS. Every step keeps the stores canonical and within their sizes, the levels in range with their amplitudes, and the
shapes on FIXED or MAPPED entries (R18, R20, R26, R30, R32, R47, R70). -/

namespace Sys2Proof.Machine

open Sys2Proof.Safety

/-! ## The stores -/

theorem storesOk_of_same {s t : State} (hsame : SameTables s t) (h : StoresOk s) : StoresOk t := by
  unfold StoresOk
  rw [hsame.wave, hsame.map, hsame.slots, hsame.sched]
  exact h

/-- A change writes into one store at most, inside its size, or clears all four. -/
theorem storesOk_change {s t : State} (hc : TableChange s t) (h : StoresOk s) : StoresOk t := by
  obtain ⟨hwave, hwaveIn, hmap, hmapIn, hslots, hslotsIn, hsched, hschedIn⟩ := h
  cases hc with
  | wave a bs hin hsame =>
    exact storesOk_of_same hsame ⟨Memory.writeBytes_wf a bs hwave, Memory.writeBytes_within hwaveIn hin, hmap, hmapIn,
      hslots, hslotsIn, hsched, hschedIn⟩
  | map e b hin _ hsame =>
    exact storesOk_of_same hsame ⟨hwave, hwaveIn, Memory.write_wf e b hmap, Memory.write_within b hmapIn hin,
      hslots, hslotsIn, hsched, hschedIn⟩
  | slots a bs hin hsame =>
    exact storesOk_of_same hsame ⟨hwave, hwaveIn, hmap, hmapIn, Memory.writeBytes_wf a bs hslots,
      Memory.writeBytes_within hslotsIn hin, hsched, hschedIn⟩
  | sched a bs hin _ hsame =>
    exact storesOk_of_same hsame ⟨hwave, hwaveIn, hmap, hmapIn, hslots, hslotsIn, Memory.writeBytes_wf a bs hsched,
      Memory.writeBytes_within hschedIn hin⟩
  | power hsame => exact storesOk_of_same hsame ⟨rfl, rfl, rfl, rfl, rfl, rfl, rfl, rfl⟩
  | same hsame | runner _ hsame | applyNow _ _ hsame | peak _ _ _ hsame | ramps hsame | record _ _ _ _ hsame
  | reset hsame =>
    exact storesOk_of_same hsame ⟨hwave, hwaveIn, hmap, hmapIn, hslots, hslotsIn, hsched, hschedIn⟩

/-- Settles O55: no elementary change of a step leaves a store's canonical form or its size. -/
theorem stepKeepsTheStores : Obligations.StepKeepsTheStores :=
  fun _ _ h hx => step_keeps (P := StoresOk) (fun _ _ => storesOk_change) h hx

/-! ## Records -/

theorem wordAt_lt (bs : List Byte) (i : Nat) : wordAt bs i < 65536 := by
  unfold wordAt byteAt
  have := (bs.getD i 0).isLt
  have := (bs.getD (i + 1) 0).isLt
  omega

/-- The fields of a record are two bytes each (R71). -/
theorem recordOk_decodeRecord (bs : List Byte) : RecordOk (decodeRecord bs) :=
  ⟨wordAt_lt bs 1, wordAt_lt bs 3, wordAt_lt bs 5, wordAt_lt bs 7⟩

theorem waitingRecordsOk_iff (run : Runner) : WaitingRecordsOk run ↔ ∀ r, run.Waits r → RecordOk r :=
  ⟨fun h r hw => hw.elim (fun ⟨e, he, hi⟩ => h.1 e he r hi) (h.2 r),
   fun h => ⟨fun e he r hi => h r (.inl ⟨e, he, hi⟩), fun r hr => h r (.inr hr)⟩⟩

theorem waitingRecordsOk_leadsTo {run run' : Runner} (hrun : run.LeadsTo run') (h : WaitingRecordsOk run) :
    WaitingRecordsOk run' := by
  obtain ⟨hqueue, hnow⟩ := h
  refine ⟨fun e he r hi => ?_, fun r hr => hnow r (hrun.applyNow r hr)⟩
  rcases hrun.queue e he with hold | hfetched
  · exact hqueue e hold r hi
  · obtain ⟨bs, rfl⟩ := hfetched r hi
    exact recordOk_decodeRecord bs

theorem waitingRecordsOk_reset : WaitingRecordsOk runnerReset := reset_levelsOk.2

/-! ## Levels -/

theorem levelOk_of_sameSettings {x y : Phase} (hset : SameSettings x y) (h : LevelOk y) : LevelOk x := by
  obtain ⟨hp, hl, hramp, ha, _⟩ := hset
  unfold LevelOk
  rw [hp, hl, hramp, ha]
  exact h

/-- A level in range, written with its amplitude, meets the invariant with any ramp that does (R47). -/
theorem levelOk_setLevel {x : Phase} {l : Nat} {ramp : Option LevelRamp} (hl : l ≤ 65535) (hp : x.p ≤ 32767)
    (hramp : ∀ rp, ramp = some rp → LevelRampOk rp) : LevelOk { x.setLevel l with ramp := ramp } :=
  ⟨hl, hp, rfl, hramp⟩

/-- A step of a level ramp between two levels in range, its first one included, leaves a level in range (R50, R51). -/
theorem levelOk_rampStep_of_ramp {x : Phase} {rp : LevelRamp} (hx : x.ramp = some rp) (hp : x.p ≤ 32767)
    (hl0 : rp.l0 ≤ 65535) (ht : rp.t ≤ 65535) (hk : rp.k < rp.r) : LevelOk x.rampStep := by
  unfold Phase.rampStep
  rw [hx]
  dsimp only
  split
  · exact levelOk_setLevel ht hp fun _ h => nomatch h
  · have hvalue := rampValue_between (k := rp.k + 1) (by omega) hk ⟨Nat.zero_le _, hl0⟩ ⟨Nat.zero_le _, ht⟩
    refine levelOk_setLevel hvalue.2 hp fun rp' h' => ?_
    cases h'
    exact ⟨hl0, ht, show 1 ≤ rp.k + 1 by omega, show rp.k + 1 < rp.r by omega⟩

theorem levelOk_rampStep {x : Phase} (h : LevelOk x) : LevelOk x.rampStep := by
  have ⟨_, hp, _, hramp⟩ := h
  cases hx : x.ramp with
  | none =>
    unfold Phase.rampStep
    rw [hx]
    exact h
  | some rp =>
    obtain ⟨hl0, ht, _, hk⟩ := hramp rp hx
    exact levelOk_rampStep_of_ramp hx hp hl0 ht hk

/-- A LEVEL takes its target at once, or begins a ramp to it from the level that holds (R50). -/
theorem levelOk_applyLevel {x : Phase} {l : Nat} (r : Nat) (h : LevelOk x) (hl : l ≤ 65535) :
    LevelOk (x.applyLevel l r) := by
  obtain ⟨hx, hp, _, _⟩ := h
  unfold Phase.applyLevel
  split
  · exact levelOk_setLevel hl hp fun _ h => nomatch h
  · exact levelOk_rampStep_of_ramp rfl hp hx hl (Nat.pos_of_ne_zero ‹_›)

theorem levelOk_onMask {ph : Phases} {m : Mask} {f : Phase → Phase} (hf : ∀ x, LevelOk x → LevelOk (f x))
    (h : ∀ p, LevelOk (ph.get p)) (p : PhaseId) : LevelOk ((ph.onMask m f).get p) := by
  rw [Phases.get_onMask]
  split
  · exact hf _ (h p)
  · exact h p

/-- Of the records only LEVEL touches a level (R72). -/
theorem levelOk_changePhases {ph : Phases} {r : Record} (hr : RecordOk r) (h : ∀ p, LevelOk (ph.get p)) (p : PhaseId) :
    LevelOk ((r.changePhases ph).get p) := by
  have ⟨_, _, hp1, _⟩ := hr
  unfold Record.changePhases
  split
  case h_1 => exact levelOk_onMask (fun x hx => levelOk_applyLevel _ hx (by omega)) h p
  case h_5 => exact h p
  case h_2 | h_3 | h_4 =>
    refine levelOk_onMask ?_ h p
    exact fun _ hx => hx

theorem levelsOk_of_same {s t : State} (hsame : SameTables s t) (h : LevelsOk s) : LevelsOk t := by
  obtain ⟨hlevels, hwaiting⟩ := h
  exact ⟨fun p => levelOk_of_sameSettings (hsame.settings p) (hlevels p), hsame.run ▸ hwaiting⟩

theorem levelsOk_change {s t : State} (hc : TableChange s t) (h : LevelsOk s) : LevelsOk t := by
  have ⟨hlevels, hwaiting⟩ := h
  cases hc with
  | same hsame | wave _ _ _ hsame | map _ _ _ _ hsame | slots _ _ _ hsame => exact levelsOk_of_same hsame h
  | sched _ _ _ hrun hsame | runner hrun hsame =>
    exact levelsOk_of_same hsame ⟨hlevels, waitingRecordsOk_leadsTo hrun hwaiting⟩
  | applyNow bs _ hsame =>
    refine levelsOk_of_same hsame ⟨hlevels, hwaiting.1, fun r hr => ?_⟩
    cases hr
    exact recordOk_decodeRecord bs
  | peak m n hn hsame =>
    exact levelsOk_of_same hsame ⟨levelOk_onMask (fun _ ⟨hl, _, _, hramp⟩ => ⟨hl, hn, rfl, hramp⟩) hlevels, hwaiting⟩
  | ramps hsame =>
    refine levelsOk_of_same hsame ⟨fun p => ?_, hwaiting⟩
    rw [Phases.get_each]
    exact levelOk_rampStep (hlevels p)
  | record r hwaits _ hrun hsame =>
    have hr := (waitingRecordsOk_iff _).mp hwaiting r hwaits
    exact levelsOk_of_same hsame ⟨levelOk_changePhases hr hlevels, waitingRecordsOk_leadsTo hrun hwaiting⟩
  | reset hsame | power hsame => exact levelsOk_of_same hsame reset_levelsOk

/-! ## Shapes -/

/-- A byte read after a write at another address, whatever the store's form. -/
theorem Memory.read_write_ne (m : Memory) {a a' : Nat} (b : Byte) (hne : a' ≠ a) : (m.write a b).read a' = m.read a' := by
  have hcons : ∀ m' : Memory, Memory.read ((a, b) :: m') a' = Memory.read m' a' := fun _ => if_neg (Ne.symm hne)
  induction m with
  | nil =>
    unfold Memory.write
    split
    · rfl
    · exact hcons _
  | cons cell m ih =>
    obtain ⟨k, v⟩ := cell
    unfold Memory.write
    split
    · split
      · rfl
      · exact hcons _
    · split
      case isTrue hk =>
        have hskip : Memory.read ((k, v) :: m) a' = Memory.read m a' := if_neg (fun h => hne (h.symm.trans hk.symm))
        rw [hskip]
        split
        · rfl
        · exact hcons _
      case isFalse => rw [Memory.read, Memory.read, ih]

/-- A write to one entry of the Shape Map leaves the others (R26). -/
theorem mapEntry_write_ne (map : Memory) {e e' : Nat} (b : Byte) (hne : e' ≠ e) :
    mapEntry (map.write e b) e' = mapEntry map e' := by
  unfold mapEntry
  rw [Memory.read_write_ne map b hne]

theorem PhaseId.exists_iff {P : PhaseId → Prop} : (∃ p, P p) ↔ P .a ∨ P .b ∨ P .c := by
  refine ⟨fun ⟨p, hp⟩ => ?_, fun h => ?_⟩
  · cases p
    · exact .inl hp
    · exact .inr (.inl hp)
    · exact .inr (.inr hp)
  · rcases h with h | h | h <;> exact ⟨_, h⟩

theorem pendingNames_iff (now : Option Record) (k : RecKind) (x : Nat) :
    pendingNames now k x = true ↔ ∃ r, now = some r ∧ r.kind = k ∧ r.p1 = x := by
  unfold pendingNames
  cases now <;> simp

/-- The requests' flag for a current entry is R21's condition. -/
theorem entryCurrent_iff (s : State) (e : Nat) : entryCurrent s e = true ↔ EntryCurrent s e := by
  rw [entryCurrent, EntryCurrent, Bool.or_eq_true, pendingNames_iff, PhaseId.exists_iff]
  simp [Phases.get, or_assoc]

theorem shapesMapped_of_same {s t : State} (hsame : SameTables s t) (h : ShapesMapped s) : ShapesMapped t := by
  unfold ShapesMapped
  rw [hsame.map, hsame.run]
  refine ⟨fun p => ?_, h.2⟩
  obtain ⟨_, _, _, _, hshape, _⟩ := hsame.settings p
  rw [hshape]
  exact h.1 p

/-- A runner that leads to another has no APPLY_NOW pending but the one it had. -/
theorem shapesMapped_leadsTo {s : State} {run : Runner} (hrun : s.run.LeadsTo run) (h : ShapesMapped s) :
    ShapesMapped { s with run := run } :=
  ⟨h.1, fun r hr => h.2 r (hrun.applyNow r hr)⟩

theorem shapesMapped_onMask {s : State} {m : Mask} {f : Phase → Phase}
    (hf : ∀ x : Phase, mapEntry s.map x.shape ≠ .unmapped → mapEntry s.map (f x).shape ≠ .unmapped)
    (h : ShapesMapped s) : ShapesMapped { s with ph := s.ph.onMask m f } := by
  refine ⟨fun p => ?_, h.2⟩
  rw [Phases.get_onMask]
  split
  · exact hf _ (h.1 p)
  · exact h.1 p

/-- A SHAPE that is applied names no UNMAPPED entry, and no other record touches a shape (R29, R72). -/
theorem shapesMapped_changePhases {s : State} {r : Record} (hr : r.meetsUnmapped s.map = false) (h : ShapesMapped s) :
    ShapesMapped { s with ph := r.changePhases s.ph } := by
  unfold Record.changePhases
  split
  case h_1 => exact shapesMapped_onMask (fun x hx => by rwa [Phase.applyLevel_shape]) h
  case h_2 hk => exact shapesMapped_onMask (fun _ _ => by simpa [Record.meetsUnmapped, hk] using hr) h
  case h_3 | h_4 => exact shapesMapped_onMask (fun _ hx => hx) h
  case h_5 => exact h

/-- An entry that is not current is named by no phase and by no pending APPLY_NOW, so that its unmapping meets neither
(R21, R26). -/
theorem shapesMapped_write {s : State} {e : Nat} (b : Byte) (hfree : entryCurrent s e = false) (h : ShapesMapped s) :
    ShapesMapped { s with map := s.map.write e b } := by
  have hnot : ¬ EntryCurrent s e := by rw [← entryCurrent_iff, hfree]; decide
  refine ⟨fun p => ?_, fun r hr hk => ?_⟩
  · rw [mapEntry_write_ne _ _ fun he => hnot (.inl ⟨p, he⟩)]
    exact h.1 p
  · rw [mapEntry_write_ne _ _ fun he => hnot (.inr ⟨r, hr, hk, he⟩)]
    exact h.2 r hr hk

theorem shapesMapped_reset (map : Memory) (s : State) :
    ShapesMapped { s with map := map, ph := phasesReset, run := runnerReset } :=
  ⟨fun p => by cases p <;> exact MapEntry.noConfusion, fun _ h => nomatch h⟩

theorem shapesMapped_change {s t : State} (hc : TableChange s t) (h : ShapesMapped s) : ShapesMapped t := by
  cases hc with
  | same hsame | wave _ _ _ hsame | slots _ _ _ hsame => exact shapesMapped_of_same hsame h
  | map e b _ hfree hsame => exact shapesMapped_of_same hsame (shapesMapped_write b hfree h)
  | sched _ _ _ hrun hsame | runner hrun hsame => exact shapesMapped_of_same hsame (shapesMapped_leadsTo hrun h)
  | applyNow bs hmapped hsame =>
    refine shapesMapped_of_same hsame ⟨h.1, fun r hr hk => ?_⟩
    cases hr
    simpa [Record.meetsUnmapped, hk] using hmapped
  | peak m n _ hsame => exact shapesMapped_of_same hsame (shapesMapped_onMask (fun _ hx => hx) h)
  | ramps hsame =>
    refine shapesMapped_of_same hsame ⟨fun p => ?_, h.2⟩
    rw [Phases.get_each, Phase.rampStep_shape]
    exact h.1 p
  | record r _ hmapped hrun hsame =>
    have hph := shapesMapped_changePhases hmapped h
    exact shapesMapped_of_same hsame (shapesMapped_leadsTo (s := { s with ph := _ }) hrun hph)
  | reset hsame => exact shapesMapped_of_same hsame (shapesMapped_reset s.map s)
  | power hsame => exact shapesMapped_of_same hsame (shapesMapped_reset [] s)

/-- Settles O57: each elementary change keeps the levels, and each keeps the shapes. -/
theorem stepKeepsLevelsAndShapes : Obligations.StepKeepsLevelsAndShapes :=
  ⟨fun _ _ h hx => step_keeps (P := LevelsOk) (fun _ _ => levelsOk_change) h hx,
   fun _ _ h hx => step_keeps (P := ShapesMapped) (fun _ _ => shapesMapped_change) h hx⟩

end Sys2Proof.Machine
end

