-- ==== Sys2Proof/Proofs/StoreRequests.lean ====
section
/-! PROOFS. WRITE_SHAPE, MAP_SHAPE, APPLY_NOW and the four reads of the stores on a ready link: the checks in order, what an
accepted one leaves, and the bytes that a read returns (R23, R25, R26, R28, R41, R85, R105). -/

namespace Sys2Proof.Machine

open Sys2Proof.Safety

/-! ## Refusals and reads on a ready link -/

section Ready

variable {l : Link} {s : State} {code : Byte} {ps : List Byte}

/-- A request that its own checks refuse changes nothing but its link (R171). -/
theorem requestOutcome_refused (h : Ready l s) (hps : ps.length ≤ 200) (hc : requestCodes.contains code = true)
    (hb : codeBelongs code.toNat l = true) {st : Status}
    (hres : takeByCode code.toNat l ps (sendRequest code l ps s) = refuse (sendRequest code l ps s) st) :
    requestOutcome code l ps s = .next (onlyAnswered s l st []) :=
  requestOutcome_plain h code ps hps hc hb _ hres rfl

/-- A read that is answered at once changes nothing but its link (R169). -/
theorem requestOutcome_read (h : Ready l s) (hps : ps.length ≤ 200) (hc : requestCodes.contains code = true)
    (hb : codeBelongs code.toNat l = true) {data : List Byte}
    (hres : takeByCode code.toNat l ps (sendRequest code l ps s) = (.data data, sendRequest code l ps s)) :
    requestOutcome code l ps s = .next (onlyAnswered s l .ok data) :=
  requestOutcome_plain h code ps hps hc hb _ hres rfl

end Ready

/-! ## Stores -/

/-- The bytes that a request carries behind its first `n` stand one by one from the base on (R23, R39, R83). -/
theorem Memory.read_writeBytes_drop {m : Memory} (h : m.wf = true) (base : Nat) (ps : List Byte) {n k : Nat}
    (hk : n + k < ps.length) : (m.writeBytes base (ps.drop n)).read (base + k) = ps.getD (n + k) 0 := by
  rw [Memory.read_writeBytes h, if_pos (by rw [List.length_drop]; omega), Nat.add_sub_cancel_left]
  simp [List.getD_eq_getElem?_getD]

/-- Outside the run that is written every byte stays. -/
theorem Memory.read_writeBytes_outside {m : Memory} (h : m.wf = true) {base a : Nat} {bs : List Byte}
    (ha : a < base ∨ base + bs.length ≤ a) : (m.writeBytes base bs).read a = m.read a := by
  rw [Memory.read_writeBytes h, if_neg (by omega)]

/-- A run of bytes that is read, address by address. -/
theorem Memory.readBytes_eq_map (m : Memory) (a n : Nat) :
    m.readBytes a n = (List.range n).map (fun i => m.read (a + i)) := by
  induction n generalizing a with
  | zero => rfl
  | succ n ih =>
    rw [Memory.readBytes, ih, List.range_succ_eq_map, List.map_cons, List.map_map]
    refine congrArg₂ List.cons rfl (List.map_congr_left fun i _ => ?_)
    rw [Function.comp_apply, Nat.succ_eq_add_one, Nat.add_right_comm, Nat.add_assoc]

theorem leNat_readBytes_two (m : Memory) (a : Nat) :
    leNat (m.readBytes a 2) = (m.read a).toNat + 256 * (m.read (a + 1)).toNat := by
  simp [Memory.readBytes, leNat]

/-! ## WRITE_SHAPE -/

theorem blockCurrent_iff (s : State) (block : Nat) : blockCurrent s block = true ↔ BlockCurrent s block := by
  rw [blockCurrent, BlockCurrent, List.any_eq_true]
  simp [entryNumbers, entryCurrent_iff]

/-- A sample of a RAM block is its two bytes, low byte first (R18). -/
theorem sampleAt_ram {wave : Memory} {block : Nat} (hb : block ≤ 15) (i : Nat) :
    sampleAt wave block i = signed16 ((wave.read (sampleAddress block i)).toNat +
      256 * (wave.read (sampleAddress block i + 1)).toNat) := by
  rw [sampleAt, if_pos (by omega), leNat_readBytes_two]

/-- The samples that a WRITE_SHAPE carries stand in the block from the start sample on (R23). -/
theorem sampleAt_writeBytes {wave : Memory} (hwf : wave.wf = true) {block : Nat} (hb : block ≤ 15) (start : Nat)
    (ps : List Byte) {i : Nat} (hi : 4 + 2 * i + 1 < ps.length) :
    sampleAt (wave.writeBytes (sampleAddress block start) (ps.drop 4)) block (start + i) = signedAt ps (4 + 2 * i) := by
  have haddr : sampleAddress block (start + i) = sampleAddress block start + 2 * i := by
    unfold sampleAddress
    omega
  rw [sampleAt_ram hb, haddr, Nat.add_assoc, Memory.read_writeBytes_drop hwf _ ps (by omega),
    Memory.read_writeBytes_drop hwf _ ps (by omega)]
  rfl

/-- Settles O19: each refusal by the check that fails first, the acceptance by the laws of the store. -/
theorem writeShapeChecksAndStores : Obligations.WriteShapeChecksAndStores := by
  intro ps s h hwf hps
  dsimp only
  have refused {st : Status} (hres : takeWriteShape ps (sendRequest 0x10 .pl ps s) = refuse _ st) :
      exec (.writeShape .pl ps) s = .next (onlyAnswered s .pl st []) :=
    requestOutcome_refused h hps (by decide) (by decide) hres
  refine ⟨fun hlen => ?_, fun hlen hval => ?_, fun hlen hval hcur => ?_, fun hlen hval hcur => ?_⟩
  · exact refused (if_pos (by omega))
  · exact refused ((if_neg (by omega)).trans (if_pos (by omega)))
  · exact refused ((if_neg (by omega)).trans ((if_neg (by omega)).trans (if_pos ((blockCurrent_iff s _).mpr hcur))))
  · have hres : takeWriteShape ps (sendRequest 0x10 .pl ps s) = (.status .ok, { sendRequest 0x10 .pl ps s with
        wave := s.wave.writeBytes (sampleAddress (byteAt ps 0) (wordAt ps 1)) (ps.drop 4) }) :=
      (if_neg (by omega)).trans ((if_neg (by omega)).trans (if_neg fun hb => hcur ((blockCurrent_iff s _).mp hb)))
    refine ⟨_, exec_writeShape_ready h ps hps _ hres rfl, Memory.writeBytes_wf _ _ hwf, fun i hi => ?_, fun a ha => ?_⟩
    · exact sampleAt_writeBytes hwf hval.1 _ ps (by omega)
    · exact Memory.read_writeBytes_outside hwf (by rw [List.length_drop]; omega)

/-! ## MAP_SHAPE -/

/-- What an entry other than entry 0 is after MAP_SHAPE stores its target (R20, R26). -/
theorem mapEntry_write_same {map : Memory} (hwf : map.wf = true) {e target : Nat} (he : e ≠ 0)
    (ht : target ≤ 15 ∨ target = 255) :
    mapEntry (map.write e (if target = 255 then 0 else BitVec.ofNat 8 (target + 1))) e =
      if target = 255 then .unmapped else .mapped target := by
  rw [mapEntry, if_neg he, Memory.read_write hwf, if_pos rfl]
  by_cases h255 : target = 255
  · simp [h255]
  · have hnat : (BitVec.ofNat 8 (target + 1)).toNat = target + 1 := by
      rw [BitVec.toNat_ofNat]
      omega
    have hne : BitVec.ofNat 8 (target + 1) ≠ 0 := fun hz => by simp [hz] at hnat
    rw [if_neg h255, if_neg hne, if_neg h255, hnat, Nat.add_sub_cancel]

/-- Settles O20: each refusal by the check that fails first, the acceptance by one write to the map. -/
theorem mapShapeChecksAndMaps : Obligations.MapShapeChecksAndMaps := by
  intro ps s h hwf hps
  dsimp only
  have refused {st : Status} (hres : takeMapShape ps (sendRequest 0x12 .pl ps s) = refuse _ st) :
      exec (.mapShape .pl ps) s = .next (onlyAnswered s .pl st []) :=
    requestOutcome_refused h hps (by decide) (by decide) hres
  refine ⟨fun hlen => ?_, fun hlen hval => ?_, fun hlen hval hcur => ?_, fun hlen hval h0 hcur => ?_⟩
  · exact refused (if_pos hlen)
  · exact refused ((if_neg (by omega)).trans (if_pos (by omega)))
  · refine refused ((if_neg (by omega)).trans ((if_neg (by omega)).trans ?_))
    by_cases h0 : byteAt ps 0 = 0
    · exact if_pos h0
    · exact (if_neg h0).trans (if_pos ((entryCurrent_iff s _).mpr (hcur.resolve_left h0)))
  · have hres : takeMapShape ps (sendRequest 0x12 .pl ps s) = (.status .ok, { sendRequest 0x12 .pl ps s with
        map := s.map.write (byteAt ps 0) (if byteAt ps 1 = 255 then 0 else BitVec.ofNat 8 (byteAt ps 1 + 1)) }) :=
      (if_neg (by omega)).trans ((if_neg (by omega)).trans ((if_neg h0).trans
        (if_neg fun hc => hcur ((entryCurrent_iff s _).mp hc))))
    exact ⟨_, exec_mapShape_ready h ps hps _ hres rfl, Memory.write_wf _ _ hwf, mapEntry_write_same hwf h0 hval.2,
      fun e he => mapEntry_write_ne _ _ he⟩

/-! ## APPLY_NOW -/

theorem Runner.stopped_iff (run : Runner) :
    run.stopped = true ↔ run.state = .idle ∨ run.state = .ended ∨ run.state = .faulted := by
  unfold Runner.stopped
  cases run.state <;> simp

/-- R105's conditions on the record, kind by kind. -/
theorem applyNowAccepts_iff (map : Memory) (r : Record) : applyNowAccepts map r = true ↔
    r.kind = .level ∨ r.kind = .freq ∨ r.kind = .phaseJump ∨
      (r.kind = .shape ∧ r.p1 ≤ 63 ∧ mapEntry map r.p1 ≠ .unmapped) ∨ (r.kind = .slotbank ∧ r.p1 ≤ 3) ∨
      (r.kind = .noise ∧ r.p1 ≤ 255) := by
  unfold applyNowAccepts Record.meetsUnmapped
  cases r.kind <;> simp

theorem Record.isClamped_iff (r : Record) : r.isClamped = true ↔ r.kind = .freq ∧ 30000 < r.p1 := by
  simp [Record.isClamped, freqClamped]

/-- Settles O33: each refusal by the check that fails first, the acceptance by definition. -/
theorem applyNowChecksAndWaits : Obligations.ApplyNowChecksAndWaits := by
  intro ps s h hps
  dsimp only
  rw [← Runner.stopped_iff, ← applyNowAccepts_iff]
  have refused {st : Status} (hres : takeApplyNow ps (sendRequest 0x1C .pl ps s) = refuse _ st) :
      exec (.applyNow .pl ps) s = .next (onlyAnswered s .pl st []) :=
    requestOutcome_refused h hps (by decide) (by decide) hres
  have hbusy : (!s.run.stopped || s.run.applyNow.isSome) = true ↔ ¬ (s.run.stopped = true ∧ s.run.applyNow = none) := by
    cases s.run.stopped <;> cases s.run.applyNow <;> simp
  refine ⟨fun hlen => ?_, fun hlen hb => ?_, fun hlen hst hnow hacc => ?_, fun hlen hst hnow hacc => ?_⟩
  · exact refused (if_pos hlen)
  · exact refused ((if_neg (by omega)).trans (if_pos (hbusy.mpr hb)))
  · have hfree := fun hb => hbusy.mp hb ⟨hst, hnow⟩
    exact refused ((if_neg (by omega)).trans ((if_neg hfree).trans (if_pos (by simpa using hacc))))
  · have hfree := fun hb => hbusy.mp hb ⟨hst, hnow⟩
    have hclamp := if_congr (decodeRecord ps).isClamped_iff (rfl : Status.clamped = .clamped) (rfl : Status.ok = .ok)
    have hres : takeApplyNow ps (sendRequest 0x1C .pl ps s) = _ :=
      (if_neg (by omega)).trans ((if_neg hfree).trans (if_neg (by simpa using hacc)))
    rw [← hclamp]
    exact exec_applyNow_ready h ps hps _ hres rfl

/-! ## READ_SHAPE, READ_SLOTS and READ_RECORDS -/

/-- The bytes of consecutive samples, sample by sample (R25). -/
theorem sampleBytes_eq (wave : Memory) (block start count : Nat) : sampleBytes wave block start count =
    (List.range count).flatMap (fun i => leInt16 (sampleAt wave block (start + i))) := by
  induction count generalizing start with
  | zero => rfl
  | succ n ih =>
    rw [sampleBytes, ih, List.range_succ_eq_map, List.flatMap_cons, List.flatMap_map]
    refine congrArg₂ (· ++ ·) rfl (List.flatMap_congr fun i _ => ?_)
    rw [Nat.succ_eq_add_one, Nat.add_right_comm, Nat.add_assoc]

/-! ## READ_MAP -/

/-- Parts of `k` bytes each, one behind the other. -/
theorem length_flatMap_range {f : Nat → List Byte} {k : Nat} (hf : ∀ i, (f i).length = k) (n : Nat) :
    ((List.range n).flatMap f).length = k * n := by
  simp [List.length_flatMap, hf, Nat.mul_comm]

theorem getD_flatMap_range {f : Nat → List Byte} {k : Nat} (hf : ∀ i, (f i).length = k) {n e j : Nat} (he : e < n)
    (hj : j < k) : ((List.range n).flatMap f).getD (k * e + j) 0 = (f e).getD j 0 := by
  induction n with
  | zero => omega
  | succ n ih =>
    rw [List.range_succ, List.flatMap_append, List.flatMap_singleton]
    have hlen := length_flatMap_range hf n
    by_cases hen : e = n
    · rw [hen, List.getD_append_right _ _ _ _ (by omega), hlen, Nat.add_sub_cancel_left]
    · have hmul : k * (e + 1) ≤ k * n := Nat.mul_le_mul_left k (by omega)
      rw [Nat.mul_succ] at hmul
      rw [List.getD_append _ _ _ _ (by omega)]
      exact ih (by omega)

/-- Flags summed as powers of two are the bits of the sum. -/
theorem foldl_two_pow (f : Nat → Bool) (n : Nat) :
    (List.range n).foldl (fun acc b => acc + (if f b then 2 ^ b else 0)) 0 < 2 ^ n ∧
    ∀ b, b < n → ((List.range n).foldl (fun acc b => acc + (if f b then 2 ^ b else 0)) 0).testBit b = f b := by
  induction n with
  | zero => exact ⟨Nat.one_pos, fun b hb => by omega⟩
  | succ n ih =>
    obtain ⟨hlt, hbits⟩ := ih
    rw [List.range_succ, List.foldl_append, List.foldl_cons, List.foldl_nil]
    generalize (List.range n).foldl _ 0 = sum at *
    have htop : sum.testBit n = false := Nat.testBit_lt_two_pow hlt
    rw [Nat.pow_succ]
    cases hn : f n with
    | false =>
      rw [if_neg Bool.false_ne_true, Nat.add_zero]
      refine ⟨by omega, fun b hb => ?_⟩
      rcases Nat.lt_succ_iff_lt_or_eq.mp hb with hb | rfl
      · exact hbits b hb
      · rw [htop, hn]
    | true =>
      rw [if_pos rfl, Nat.add_comm]
      refine ⟨by omega, fun b hb => ?_⟩
      rcases Nat.lt_succ_iff_lt_or_eq.mp hb with hb | rfl
      · rw [Nat.testBit_two_pow_add_gt hb, hbits b hb]
      · rw [Nat.testBit_two_pow_add_eq, htop, hn]; rfl

/-- The word of current blocks holds bit b for block b (R28). -/
theorem currentBlocks_testBit (s : State) {b : Nat} (hb : b < 16) :
    (currentBlocks s).testBit b = true ↔ BlockCurrent s b := by
  rw [← blockCurrent_iff, ← (foldl_two_pow (blockCurrent s) 16).2 b hb]
  rfl

theorem currentBlocks_lt (s : State) : currentBlocks s < 65536 := (foldl_two_pow (blockCurrent s) 16).1

/-- A word of two bytes read back at its place. -/
theorem wordAt_append_leBytes (bs : List Byte) {n : Nat} (hn : n < 65536) :
    wordAt (bs ++ leBytes 2 n) bs.length = n := by
  unfold wordAt byteAt
  rw [List.getD_append_right _ _ _ _ (Nat.le_refl _), List.getD_append_right _ _ _ _ (by omega), Nat.sub_self,
    Nat.add_sub_cancel_left]
  simp [leBytes]
  omega

theorem MapEntry.code_le (entry : MapEntry) : entry.code ≤ 2 := by cases entry <;> simp [MapEntry.code]

/-- An entry's first byte: the state in bits 0..1 and the current flag in bit 7 (R28, R181). -/
theorem mapEntryBytes_first (s : State) (e : Nat) :
    ((mapEntryBytes s e).getD 0 0).toNat % 128 = (mapEntry s.map e).code ∧
    (128 ≤ ((mapEntryBytes s e).getD 0 0).toNat ↔ EntryCurrent s e) := by
  have hcode := (mapEntry s.map e).code_le
  have hbyte : ((mapEntryBytes s e).getD 0 0).toNat =
      ((mapEntry s.map e).code + if entryCurrent s e then 128 else 0) % 256 := BitVec.toNat_ofNat _ _
  rw [hbyte, ← entryCurrent_iff]
  cases entryCurrent s e <;> simp <;> omega

theorem mapEntriesBytes_length (s : State) : (entryNumbers.flatMap (mapEntryBytes s)).length = 128 :=
  length_flatMap_range (f := mapEntryBytes s) (k := 2) (fun _ => rfl) 64

/-- The entries' part of READ_MAP's data, entry by entry (R28). -/
theorem mapBytes_getD (s : State) {e j : Nat} (he : e < 64) (hj : j < 2) :
    (mapBytes s).getD (2 * e + j) 0 = (mapEntryBytes s e).getD j 0 := by
  rw [mapBytes, List.getD_append _ _ _ _ (by rw [mapEntriesBytes_length]; omega)]
  exact getD_flatMap_range (f := mapEntryBytes s) (fun _ => rfl) he hj

theorem mapBytes_length (s : State) : (mapBytes s).length = 130 := by
  rw [mapBytes, List.length_append, mapEntriesBytes_length, leBytes_length]

/-- The last word of READ_MAP's data is the word of current blocks (R28). -/
theorem mapBytes_blocks (s : State) : wordAt (mapBytes s) 128 = currentBlocks s := by
  have hword := wordAt_append_leBytes (entryNumbers.flatMap (mapEntryBytes s)) (currentBlocks_lt s)
  rwa [mapEntriesBytes_length] at hword

/-- Settles O23: each refusal by its check, each read by the layout of its bytes. -/
theorem storeReadsReturnTheContents : Obligations.StoreReadsReturnTheContents := by
  intro ps s h hps
  refine ⟨fun hlen => ⟨?_, ?_⟩, fun hlen => ?_, fun hlen => ?_, fun hlen => ⟨fun hin => ?_, fun hin => ?_⟩,
    fun hlen => ⟨fun hin => ?_, fun hin => ?_⟩, fun hlen => ⟨fun hin => ?_, fun hin => ?_⟩, fun hlen => ?_⟩
  · exact requestOutcome_refused (code := 0x11) h hps (by decide) (by decide) (if_pos hlen)
  · exact requestOutcome_refused (code := 0x15) h hps (by decide) (by decide) (if_pos hlen)
  · exact requestOutcome_refused (code := 0x13) h hps (by decide) (by decide) (if_neg hlen)
  · exact requestOutcome_refused (code := 0x19) h hps (by decide) (by decide) (if_pos hlen)
  · rw [← sampleBytes_eq]
    exact requestOutcome_read (code := 0x11) h hps (by decide) (by decide)
      ((if_neg (by omega)).trans (if_neg (by omega)))
  · exact requestOutcome_refused (code := 0x11) h hps (by decide) (by decide)
      ((if_neg (by omega)).trans (if_pos (by omega)))
  · rw [← Memory.readBytes_eq_map]
    exact requestOutcome_read (code := 0x15) h hps (by decide) (by decide)
      ((if_neg (by omega)).trans (if_neg (by omega)))
  · exact requestOutcome_refused (code := 0x15) h hps (by decide) (by decide)
      ((if_neg (by omega)).trans (if_pos (by omega)))
  · rw [← Memory.readBytes_eq_map]
    exact requestOutcome_read (code := 0x19) h hps (by decide) (by decide)
      ((if_neg (by omega)).trans (if_neg (by omega)))
  · exact requestOutcome_refused (code := 0x19) h hps (by decide) (by decide)
      ((if_neg (by omega)).trans (if_pos (by omega)))
  · refine ⟨mapBytes s, requestOutcome_read (code := 0x13) h hps (by decide) (by decide) (if_pos hlen),
      mapBytes_length s, fun e he => ⟨mapBytes_getD s he (by decide), ?_⟩, fun b hb => ?_⟩
    · unfold byteAt
      rw [show 2 * e = 2 * e + 0 from rfl, mapBytes_getD s he (by decide)]
      exact mapEntryBytes_first s e
    · rw [mapBytes_blocks]
      exact currentBlocks_testBit s hb

end Sys2Proof.Machine
end

