-- ==== Sys2Proof/Proofs/ShapeTicks.lean ====
section
/-! PROOFS. A tick at which a SHAPE falls due: applied where its entry is FIXED or MAPPED, a fault where it is UNMAPPED (R29,
R100, R101). -/

namespace Sys2Proof.Machine

open Sys2Proof.Safety
open Links (Raised)

/-! ## Notices of the runner's work -/

/-- Behind the runner's work a tick only raises notices on the links, up to their responses. -/
theorem beforeResponses_raised_runAfter (x : Bool) (s : State) : Raised s.runAfter.links (s.beforeResponses x).links := by
  have hmid : Raised s.runAfter.links (tickMiddle 0 s).links := by
    rw [tickMiddle_eq]
    exact synthPhase_raised (synthPhase_raised (synthPhase_raised (.refl _) .a) .b) .c
  refine putEntries_raised _ ?_
  exact offerEntries_raised (s := { tickMiddle 0 s with cap := _ }) _ hmid

/-- A notice that the runner's work leaves raised is raised after the tick. -/
theorem workTick_notice {s : State} (x : Bool) {l : Link} {i : Nat}
    (h : (s.runAfter.links.get l).notices.getLsbD i = true) :
    ((workTick 0 x s).links.get l).notices.getLsbD i = true := by
  obtain ⟨m, hm⟩ := beforeResponses_raised_runAfter x s l
  obtain ⟨_, _, _, _, _, _, hnotices⟩ := ((s.beforeResponses x).links.get l).atTick_frame (s.beforeResponses x)
  rw [workTick_eq_respondTick, respondTick_link, hnotices, hm, BitVec.getLsbD_or, h, Bool.true_or]

/-! ## A SHAPE on an UNMAPPED entry -/

section Unmapped

variable {s : State} {e : QueueEntry} {rest : List QueueEntry} {r : Record}

theorem meetsUnmapped_iff (r : Record) (map : Memory) :
    r.meetsUnmapped map = true ↔ r.kind = .shape ∧ mapEntry map r.p1 = .unmapped := by
  simp [Record.meetsUnmapped]

/-- The runner's part after a tick whose one due record is a SHAPE on an UNMAPPED entry: FAULTED, nothing applied (R100). -/
theorem runAfter_unmappedShape (h : OneDue s e rest) (hi : e.item = .record r) (hr : r.meetsUnmapped s.map = true) :
    s.runAfter = enterFaulted s.runStart s.tb.advance.position .unmappedShape e.src .unmappedShape := by
  have ⟨hk, _⟩ := (meetsUnmapped_iff r s.map).mp hr
  have happly : applyEntry s.map s.tb.position s.tb.advance.position s.runStart e =
      enterFaulted s.runStart s.tb.advance.position .unmappedShape e.src .unmappedShape := by
    unfold applyEntry
    rw [hi]
    dsimp only
    rw [hk]
    exact if_pos hr
  have hstate : (enterFaulted s.runStart s.tb.advance.position .unmappedShape e.src .unmappedShape).run.state ≠
      .running := RunState.noConfusion
  rw [oneDue_runAfter h _ happly.symm (.inl hstate), fill_not_running _ _ hstate]

/-- The trace after such a tick, where nothing else enters it (R157). -/
theorem workTick_fifo_unmappedShape (x : Bool) (h : OneDue s e rest) (hi : e.item = .record r)
    (hr : r.meetsUnmapped s.map = true) (hq : QuietTrace s) (hroom : s.trace.fifo.length < 64) :
    (workTick 0 x s).trace.fifo =
      s.trace.fifo ++ [eventEntry s .fault e.src (.fault .unmappedShape e.src)] := by
  obtain ⟨hnt, hdef, hnone⟩ := hq
  have htrace : s.runAfter.trace =
      s.trace.make (eventEntry s .fault e.src (.fault .unmappedShape e.src)) := by
    rw [runAfter_unmappedShape h hi hr]
    rfl
  rw [workTick_fifo_noTrip x hnt (by rw [htrace]; exact hdef), htrace, Trace.make_fifo, Trace.make_made, hnone,
    List.nil_append, List.take_of_length_le]
  rw [List.length_singleton]
  omega

end Unmapped

/-- Settles O27: by the entry that the record names, a timed record or a fault. -/
theorem shapeResolvedAtItsTick : Obligations.ShapeResolvedAtItsTick := by
  intro x s e rest r h hi hk
  by_cases hmap : mapEntry s.map r.p1 = .unmapped
  · have hr := (meetsUnmapped_iff r s.map).mpr ⟨hk, hmap⟩
    have hafter := runAfter_unmappedShape h hi hr
    have hrow : exec (.shape x) s = .next (workTick 0 x s) := by
      refine congrArg Host.Outcome.next (eventTick_plain isShapeDue x s h.1 ?_)
      refine List.any_eq_true.mpr ⟨.unmappedShape, ?_, rfl⟩
      rw [hafter]
      exact List.mem_append_right _ List.mem_cons_self
    have hnotice : ∀ l i, (noticeBit l .runFaulted).getLsbD i = true →
        ((workTick 0 x s).links.get l).notices.getLsbD i = true := by
      intro l i hbit
      refine workTick_notice x ?_
      rw [hafter, enterFaulted, Links.get_raise, LinkState.raise_notices, BitVec.getLsbD_or, hbit, Bool.or_true]
    refine ⟨workTick 0 x s, hrow, exec_sampleTick_plain x s h.1, fun hne => absurd hmap hne, fun _ =>
      ⟨⟨?_, fun p => ?_⟩, ?_, ?_, ?_, hnotice .pl 1 rfl, hnotice .gl 2 rfl, fun hnt hdef hmade hroom =>
        workTick_fifo_unmappedShape x h hi hr ⟨hnt, hdef, hmade⟩ hroom⟩⟩
    · rw [workTick_tb, hafter]; rfl
    · rw [rampStepped_eq]
      simpa [hafter, enterFaulted, State.runStart] using sameSettings_workTick x s p
    · rw [workTick_run, hafter]; rfl
    · rw [workTick_live_applied, hafter, ← tickFront_applied]; rfl
    · rw [workTick_live_late, hafter, ← tickFront_late]; rfl
  · have hr : r.appliesTimed s.map = true := by simp [Record.appliesTimed, Record.meetsUnmapped, hk, hmap]
    have hrow : exec (.shape x) s = .next (workTick 0 x s) :=
      congrArg Host.Outcome.next (eventTick_oneTimed x h hi hr (by simp [isShapeDue, hk]))
    refine ⟨workTick 0 x s, hrow, exec_sampleTick_plain x s h.1,
      fun _ => ⟨timedApplied_workTick x h hi hr, ?_, fun p => ?_⟩, fun hun => absurd hun hmap⟩
    · rw [workTick_tb_oneTimed x h hi hr, Record.changeTimebase, hk]
    · simpa [Record.changePhases, hk, rampStepped_eq] using sameSettings_oneTimed x h hi hr p

end Sys2Proof.Machine
end

