-- ==== Sys2Proof/Proofs/SlotsAndSeed.lean ====
section
/-! PROOFS. WRITE_SLOTS and SET_SEED on a ready link, and the ticks at which a SLOTBANK or a NOISE is applied (R33, R37, R39,
R44, R54). -/

namespace Sys2Proof.Machine

open Sys2Proof.Safety

/-! ## Slot entries -/

/-- The requests' flag for a current bank is R37's condition. -/
theorem bankCurrent_iff (s : State) (p : PhaseId) (bank : Nat) : bankCurrent s p bank = true ↔ BankCurrent s p bank := by
  unfold bankCurrent BankCurrent
  cases s.run.applyNow <;> simp [and_assoc]

/-- R39's check of the carried entries, entry by entry: each first byte is one of R181's. -/
theorem slotEntriesValid_iff (bs : List Byte) :
    slotEntriesValid bs = true ↔ ∀ i, 3 * i + 2 < bs.length → byteAt bs (3 * i) % 128 ≤ 4 := by
  induction bs using slotEntriesValid.induct with
  | case1 b0 b1 b2 rest ih =>
    rw [slotEntriesValid, Bool.and_eq_true, ih, slotByteValid, decide_eq_true_eq]
    refine ⟨fun ⟨hfirst, hrest⟩ i hi => ?_, fun hall => ⟨hall 0 (by simp), fun i hi => ?_⟩⟩
    · cases i with
      | zero => exact hfirst
      | succ i => exact hrest i (by simp at hi; omega)
    · exact hall (i + 1) (by simp; omega)
  | case2 bs hshort =>
    have hlen : bs.length < 3 := by
      rcases bs with _ | ⟨b0, _ | ⟨b1, _ | ⟨b2, rest⟩⟩⟩
      case cons.cons.cons => exact (hshort b0 b1 b2 rest rfl).elim
      all_goals simp
    exact iff_of_true (slotEntriesValid.eq_2 bs hshort) fun i hi => by omega

/-- A carried first byte that R39 lets through gives its action in the low seven bits and its noise flag in the top one (R33,
R181). -/
theorem decodeSlot_valid {b0 : Byte} (hb : b0.toNat % 128 ≤ 4) (code : Nat) :
    decodeSlot b0 code =
      { action := actionOf (b0.toNat % 128), noise := decide (128 ≤ b0.toNat), code := signed16 code } := by
  have hact : b0.toNat % 8 = b0.toNat % 128 := by omega
  have hnoise : b0.getLsbD 7 = decide (128 ≤ b0.toNat) := BitVec.msb_eq_decide b0
  rw [decodeSlot, hact, hnoise]

/-- The entries that a WRITE_SLOTS carries stand in the bank from the first slot on (R39). -/
theorem slotEntryAt_writeBytes {slots : Memory} (hwf : slots.wf = true) (phase bank first : Nat) (ps : List Byte) {i : Nat}
    (hi : 4 + 3 * i + 2 < ps.length) (hb : byteAt ps (4 + 3 * i) % 128 ≤ 4) :
    slotEntryAt (slots.writeBytes (slotAddress phase bank first) (ps.drop 4)) phase bank (first + i) =
      { action := actionOf (byteAt ps (4 + 3 * i) % 128), noise := decide (128 ≤ byteAt ps (4 + 3 * i)),
        code := signedAt ps (5 + 3 * i) } := by
  have haddr : slotAddress phase bank (first + i) = slotAddress phase bank first + 3 * i := by
    unfold slotAddress
    omega
  have hread : ∀ j, j < 3 → (slots.writeBytes (slotAddress phase bank first) (ps.drop 4)).read
      (slotAddress phase bank first + 3 * i + j) = ps.getD (4 + 3 * i + j) 0 := fun j hj => by
    rw [Nat.add_assoc, Memory.read_writeBytes_drop hwf _ ps (by omega), Nat.add_assoc]
  have hfirst := hread 0 (by omega)
  rw [Nat.add_zero, Nat.add_zero] at hfirst
  rw [slotEntryAt, haddr, leNat_readBytes_two, hfirst, hread 1 (by omega), Nat.add_assoc _ 1 1, hread 2 (by omega),
    decodeSlot_valid hb, show 5 + 3 * i = 4 + 3 * i + 1 by omega]
  rfl

/-- Settles O21: each refusal by the check that fails first, the acceptance by the laws of the store. -/
theorem writeSlotsChecksAndStores : Obligations.WriteSlotsChecksAndStores := by
  intro ps s h hwf hps
  dsimp only
  have refused {st : Status} (hres : takeWriteSlots ps (sendRequest 0x14 .pl ps s) = refuse _ st) :
      exec (.writeSlots .pl ps) s = .next (onlyAnswered s .pl st []) :=
    requestOutcome_refused h hps (by decide) (by decide) hres
  have hvalid (hlen : ps.length = 4 + 3 * byteAt ps 3) : (!slotEntriesValid (ps.drop 4)) = true ↔
      ¬ ∀ i, i < byteAt ps 3 → byteAt ps (4 + 3 * i) % 128 ≤ 4 := by
    rw [Bool.not_eq_true', Bool.eq_false_iff, Ne, slotEntriesValid_iff, List.length_drop]
    refine not_congr (forall_congr' fun i => imp_congr (by omega) ?_)
    simp [byteAt, List.getD_eq_getElem?_getD]
  refine ⟨fun hlen => ?_, fun hlen hval => ?_, fun hlen hval hent hcur => ?_, fun hlen hval hent hcur => ?_⟩
  · exact refused (if_pos (by omega))
  · refine refused ((if_neg (by omega)).trans ?_)
    by_cases hv : byteAt ps 0 ≤ 2 ∧ byteAt ps 1 ≤ 3 ∧ byteAt ps 2 ≤ 63 ∧ 1 ≤ byteAt ps 3 ∧ byteAt ps 3 ≤ 64 ∧
        byteAt ps 2 + byteAt ps 3 ≤ 64
    · exact (if_neg (by omega)).trans (if_pos ((hvalid hlen.2).mpr fun hent => hval ⟨hv, hent⟩))
    · exact if_pos (by omega)
  · exact refused ((if_neg (by omega)).trans ((if_neg (by omega)).trans
      ((if_neg fun hb => (hvalid hlen.2).mp hb hent).trans (if_pos ((bankCurrent_iff s _ _).mpr hcur)))))
  · have hres : takeWriteSlots ps (sendRequest 0x14 .pl ps s) = (.status .ok, { sendRequest 0x14 .pl ps s with
        slots := s.slots.writeBytes (slotAddress (byteAt ps 0) (byteAt ps 1) (byteAt ps 2)) (ps.drop 4) }) :=
      (if_neg (by omega)).trans ((if_neg (by omega)).trans ((if_neg fun hb => (hvalid hlen.2).mp hb hent).trans
        (if_neg fun hb => hcur ((bankCurrent_iff s _ _).mp hb))))
    refine ⟨_, exec_writeSlots_ready h ps hps _ hres rfl, Memory.writeBytes_wf _ _ hwf, fun i hi => ?_, fun a ha => ?_⟩
    · exact slotEntryAt_writeBytes hwf _ _ _ ps (by omega) (hent i hi)
    · exact Memory.read_writeBytes_outside hwf (by rw [List.length_drop]; omega)

/-! ## SET_SEED -/

/-- Settles O22: R44's branches in order. -/
theorem setSeedStoresTheSeed : Obligations.SetSeedStoresTheSeed := by
  intro ps s h hps
  have refused {st : Status} (hres : takeSetSeed ps (sendRequest 0x16 .pl ps s) = refuse _ st) :
      exec (.setSeed .pl ps) s = .next (onlyAnswered s .pl st []) :=
    requestOutcome_refused h hps (by decide) (by decide) hres
  refine ⟨fun hlen => ?_, fun hlen hbig => ?_, fun hlen hlo hhi => ?_, fun hlen hzero => ?_⟩
  · exact refused (if_pos hlen)
  · exact refused ((if_neg (by omega)).trans (if_pos hbig))
  · exact exec_setSeed_ready h ps hps
      (.status .ok, { sendRequest 0x16 .pl ps s with lfsr := BitVec.ofNat 17 (dwordAt ps 0) })
      ((if_neg (by omega)).trans ((if_neg (by omega)).trans (if_neg (by omega)))) rfl
  · exact exec_setSeed_ready h ps hps (.status .clamped, { sendRequest 0x16 .pl ps s with lfsr := 1 })
      ((if_neg (by omega)).trans ((if_neg (by omega)).trans (if_pos hzero))) rfl

/-! ## SLOTBANK and NOISE -/

/-- A due record that acts on the masked phases alone: the row of its kind is the tick, and each masked phase's settings change
as the record says (R72, R95). -/
theorem oneTimed_onPhases {x : Bool} {s : State} {e : QueueEntry} {rest : List QueueEntry} {r : Record} {row : Instr}
    (h : OneDue s e rest) (hi : e.item = .record r) (hr : r.appliesTimed s.map = true)
    (hrow : exec row s = .next (eventTick (isApplied r.kind) x s)) (f : Phase → Phase)
    (hph : ∀ ph, r.changePhases ph = ph.onMask r.mask f) (htb : ∀ tb, r.changeTimebase tb = tb) :
    ∃ t, exec row s = .next t ∧ exec (.sampleTick x) s = .next t ∧ TimedApplied s e rest r t ∧ t.tb = s.tb.advance ∧
      ∀ p, SameSettings (t.ph.get p) (if Mask.names r.mask p then f (rampStepped s p) else rampStepped s p) := by
  rw [eventTick_oneTimed x h hi hr (by simp [isApplied])] at hrow
  refine ⟨workTick 0 x s, hrow, exec_sampleTick_plain x s h.1, timedApplied_workTick x h hi hr, ?_, fun p => ?_⟩
  · rw [workTick_tb_oneTimed x h hi hr, htb]
  · rw [rampStepped_eq, ← Phases.get_each s.ph Phase.rampStep, ← Phases.get_onMask _ r.mask f, ← hph]
    exact sameSettings_oneTimed x h hi hr p

/-- Settles O28: both kinds are timed records that act on the masked phases alone. -/
theorem slotbankAndNoiseApplied : Obligations.SlotbankAndNoiseApplied := by
  intro x s e rest r h hi
  refine ⟨fun hk => ?_, fun hk => ?_⟩
  · exact oneTimed_onPhases h hi (by rw [Record.appliesTimed, hk]) (by rw [hk]; rfl) (fun q => { q with bank := r.p1 })
      (fun ph => by rw [Record.changePhases, hk]) (fun tb => by rw [Record.changeTimebase, hk])
  · exact oneTimed_onPhases h hi (by rw [Record.appliesTimed, hk]) (by rw [hk]; rfl) (fun q => { q with n := r.p1 })
      (fun ph => by rw [Record.changePhases, hk]) (fun tb => by rw [Record.changeTimebase, hk])

end Sys2Proof.Machine
end

