-- ==== Sys2Proof/Proofs/Samples.lean ====
section
/-! PROOFS. The samples of a tick: what each phase's stages read, the three samples in turn with the noise draws between them,
and the codes that they leave (R43, R55 to R67). -/

namespace Sys2Proof.Machine

open Sys2Proof.Safety

/-! ## The code of a sample -/

/-- The first six stages are the claims' s4 (R56 to R61). -/
theorem sampleBeforeLimit_eq (s : State) (p : PhaseId) (drawn : BitVec 17) :
    sampleBeforeLimit s p drawn = sampleUnlimited s p (s.ph.get p).held drawn := rfl

theorem forced_eq (out : OutState) (code : Int) :
    forced out code = if out = .off ∨ out = .tripped then 0 else code := by
  cases out <;> simp [forced]

/-- All eight stages are the claims' code (R56 to R64). -/
theorem forced_limited_eq (s : State) (p : PhaseId) (drawn : BitVec 17) :
    forced s.guard.out (limited (sampleBeforeLimit s p drawn) s.guard.lo s.guard.hi) =
      sampleCode s p (s.ph.get p).held drawn := by
  rw [forced_eq]
  rfl

theorem sampleCode_forced {t : State} (hout : t.guard.out = .off ∨ t.guard.out = .tripped) (p : PhaseId) (held : Int)
    (drawn : BitVec 17) : sampleCode t p held drawn = 0 := if_pos hout

/-- The limit stage brings a sample within the limits, and a forced 0 lies within them too (R62, R64). -/
theorem sampleCode_within {t : State} (hlo : t.guard.lo ≤ 0) (hhi : 0 ≤ t.guard.hi) (p : PhaseId) (held : Int)
    (drawn : BitVec 17) : t.guard.lo ≤ sampleCode t p held drawn ∧ sampleCode t p held drawn ≤ t.guard.hi := by
  unfold sampleCode
  dsimp only
  split_ifs <;> omega

/-! ## What the stages read -/

/-- Two states agree in all that the stages of a sample read but the Held codes. -/
structure SameStages (s t : State) : Prop extends SameTables s t where
  tb : t.tb = s.tb
  guard : t.guard = s.guard

namespace SameStages

variable {s t : State}

theorem entryAfter (h : SameStages s t) (p : PhaseId) : entryAfter t p = entryAfter s p := by
  obtain ⟨_, _, _, _, _, hbank, _⟩ := h.settings p
  rw [Safety.entryAfter, h.slots, h.tb, hbank]
  rfl

theorem sampleCode (h : SameStages s t) (p : PhaseId) (held : Int) (drawn : BitVec 17) :
    sampleCode t p held drawn = sampleCode s p held drawn := by
  obtain ⟨_, _, _, ha, hshape, _, hn⟩ := h.settings p
  unfold Safety.sampleCode sampleUnlimited
  rw [h.entryAfter, h.tb, h.guard, h.map, h.wave, ha, hshape, hn]

/-- A phase's sample leaves what the other samples read. -/
theorem synthPhase (h : SameStages s t) (p : PhaseId) : SameStages (synthPhase s p) t where
  wave := h.wave
  map := h.map
  slots := h.slots
  sched := h.sched
  run := h.run
  tb := h.tb
  guard := h.guard
  settings q := by
    cases p <;> cases q <;> exact h.settings _

end SameStages

/-! ## One sample -/

/-- What a phase's sample makes of the noise register, the frame and the contexts, in terms of the state that the whole tick
leaves (R43, R65, R66). -/
structure SampleMade (t : State) (p : PhaseId) (s s' : State) : Prop where
  lfsr : s'.lfsr = if (entryAfter t p).noise then noiseDraw s.lfsr else s.lfsr
  frame : s'.frame = s.frame.set p (sampleCode t p (s.ph.get p).held s'.lfsr)
  last : (s'.ph.get p).last = sampleCode t p (s.ph.get p).held s'.lfsr
  held : (s'.ph.get p).held =
    if (entryAfter t p).action = .hold then (s.ph.get p).held else sampleCode t p (s.ph.get p).held s'.lfsr
  others : ∀ q, q ≠ p → s'.ph.get q = s.ph.get q

theorem synthPhase_sampleMade {s t : State} (h : SameStages s t) (p : PhaseId) : SampleMade t p s (synthPhase s p) := by
  have hcode : forced s.guard.out (limited (sampleBeforeLimit s p (synthPhase s p).lfsr) s.guard.lo s.guard.hi) =
      sampleCode t p (s.ph.get p).held (synthPhase s p).lfsr := by
    rw [forced_limited_eq, h.sampleCode]
  have hph : ∃ clamped, (synthPhase s p).ph.get p = (s.ph.get p).afterSample (entryFor s p)
      (sampleCode t p (s.ph.get p).held (synthPhase s p).lfsr) clamped := by
    rw [← hcode]
    exact ⟨_, Phases.get_set _ _ _⟩
  obtain ⟨clamped, hph⟩ := hph
  refine ⟨?_, ?_, ?_, ?_, fun q hq => Phases.get_set_ne _ _ _ _ hq⟩
  · rw [h.entryAfter]; rfl
  · rw [← hcode]; rfl
  · rw [hph]; rfl
  · rw [hph, h.entryAfter]; rfl

/-! ## The samples of a tick -/

/-- The state of the coming plain tick when its samples begin. -/
def State.beforeSamples (s : State) : State := (tickFront s).withRunSide s.runAfter

theorem sameStages_workTick (x : Bool) (s : State) : SameStages s.beforeSamples (workTick 0 x s) where
  wave := workTick_wave x s
  map := workTick_map x s
  slots := workTick_slots x s
  sched := workTick_sched x s
  run := workTick_run x s
  tb := workTick_tb x s
  guard := workTick_guard x s
  settings := sameSettings_workTick x s

/-- The samples of a tick, one behind the other: A, then B, then C (R43, R55). -/
theorem workTick_samplesMade (x : Bool) (s : State) : ∃ sA sB, SampleMade (workTick 0 x s) .a s.beforeSamples sA ∧
    SampleMade (workTick 0 x s) .b sA sB ∧ SampleMade (workTick 0 x s) .c sB (workTick 0 x s) := by
  have hA := sameStages_workTick x s
  have hB := hA.synthPhase .a
  have hC := hB.synthPhase .b
  refine ⟨_, _, synthPhase_sampleMade hA .a, synthPhase_sampleMade hB .b, ?_⟩
  obtain ⟨hlfsr, hframe, hlast, hheld, hothers⟩ := synthPhase_sampleMade hC .c
  have hmiddle : tickMiddle 0 s = synthPhase (synthPhase (synthPhase s.beforeSamples .a) .b) .c := tickMiddle_eq s
  rw [← hmiddle, ← workTick_lfsr x s] at hlfsr hframe hlast hheld
  exact ⟨hlfsr, by rw [workTick_frame]; exact hframe, by rw [workTick_ph]; exact hlast, by rw [workTick_ph]; exact hheld,
    fun q hq => by rw [workTick_ph, hmiddle]; exact hothers q hq⟩

theorem Record.changePhases_held (r : Record) (ph : Phases) (p : PhaseId) :
    ((r.changePhases ph).get p).held = (ph.get p).held := by
  unfold Record.changePhases
  split
  case h_5 => rfl
  all_goals rw [Phases.get_onMask]; split <;> simp

/-- No act of the runner's touches a Held code. -/
theorem held_runInvariant (held : PhaseId → Int) : RunInvariant (fun w => ∀ p, (w.ph.get p).held = held p) where
  renewed h := h
  filled _ h := h
  markerFault _ _ _ h := h
  unmapped _ _ h := h
  control _ _ _ h := h
  ended _ _ _ _ h := h
  timed _ r _ _ h p := (r.changePhases_held _ p).trans (h p)
  taken _ h := h
  released _ _ h := h
  pending {w} map pos r h p := by
    show ((if r.meetsUnmapped map then w.ph else r.changePhases w.ph).get p).held = _
    split
    · exact h p
    · exact (r.changePhases_held _ p).trans (h p)

/-- When the samples begin, the Held codes are those of the tick before. -/
theorem beforeSamples_held (s : State) (p : PhaseId) : (s.beforeSamples.ph.get p).held = (s.ph.get p).held :=
  (held_runInvariant fun p => (s.ph.get p).held).runAfter (s := s) (fun q => by simp [State.runSide]) p

/-- Settles O30: the three samples in turn, each of the state that the tick leaves. -/
theorem samplesAreComputedByTheStages : Obligations.SamplesAreComputedByTheStages := by
  intro x s h
  refine ⟨workTick 0 x s, exec_sampleTick_plain x s h, ?_⟩
  obtain ⟨sA, sB, hA, hB, hC⟩ := workTick_samplesMade x s
  generalize workTick 0 x s = t at hA hB hC
  intro rA rB rC
  have hrA : sA.lfsr = rA := hA.lfsr
  have hrB : sB.lfsr = rB := hB.lfsr.trans (by rw [hrA])
  have hrC : t.lfsr = rC := hC.lfsr.trans (by rw [hrB])
  have heldA : (s.beforeSamples.ph.get .a).held = s.ph.a.held := beforeSamples_held s .a
  have heldB : (sA.ph.get .b).held = s.ph.b.held := by rw [hA.others .b (by decide)]; exact beforeSamples_held s .b
  have heldC : (sB.ph.get .c).held = s.ph.c.held := by
    rw [hB.others .c (by decide), hA.others .c (by decide)]; exact beforeSamples_held s .c
  have hphA : t.ph.a = sA.ph.get .a := (hC.others .a (by decide)).trans (hB.others .a (by decide))
  have hphB : t.ph.b = sB.ph.get .b := hC.others .b (by decide)
  have hframe : t.frame = ⟨sampleCode t .a s.ph.a.held rA, sampleCode t .b s.ph.b.held rB,
      sampleCode t .c s.ph.c.held rC⟩ := by
    rw [hC.frame, hB.frame, hA.frame, hrA, hrB, hrC, heldA, heldB, heldC]
    rfl
  rw [hphA, hphB, hframe]
  refine ⟨hrC, rfl, frameIsSent t, ?_, ?_, ?_, ?_, ?_, ?_, fun hout => ?_, fun hlo hhi => ?_⟩
  · rw [hA.last, heldA, hrA]
  · rw [hB.last, heldB, hrB]
  · rw [← heldC, ← hrC]; exact hC.last
  · rw [hA.held, heldA, hrA]
  · rw [hB.held, heldB, hrB]
  · rw [← heldC, ← hrC]; exact hC.held
  · simp only [sampleCode_forced hout]
  · exact ⟨sampleCode_within hlo hhi _ _ _, sampleCode_within hlo hhi _ _ _, sampleCode_within hlo hhi _ _ _⟩

end Sys2Proof.Machine
end

