-- ==== Sys2Proof/Proofs/Levels.lean ====
section
/-! PROOFS. SET_NOMINAL on a ready link, and the ticks at which a LEVEL is applied or a level ramp makes its step (R47, R48, R50,
R51). -/

namespace Sys2Proof.Machine

open Sys2Proof.Safety

/-! ## SET_NOMINAL -/

/-- A mask byte names the phases of its lowest three bits. -/
theorem names_ofNat (m : Nat) (p : PhaseId) : Mask.names (BitVec.ofNat 3 m) p = m.testBit p.number := by
  cases p <;> exact BitVec.getLsbD_ofNat 3 m _

/-- Settles O25: R48's branches in order. -/
theorem setNominalSetsThePeaks : Obligations.SetNominalSetsThePeaks := by
  intro ps s h hps
  have refused {st : Status} (hres : takeSetNominal ps (sendRequest 0x17 .pl ps s) = refuse _ st) :
      exec (.setNominal .pl ps) s = .next (onlyAnswered s .pl st []) :=
    requestOutcome_refused h hps (by decide) (by decide) hres
  refine ⟨fun hlen => ?_, fun hlen hval => ?_, fun hlen hmask hpeak => ?_⟩
  · exact refused (if_pos hlen)
  · exact refused ((if_neg (by omega)).trans (if_pos hval))
  · have hres : takeSetNominal ps (sendRequest 0x17 .pl ps s) = (.status .ok, { sendRequest 0x17 .pl ps s with
        ph := s.ph.onMask (BitVec.ofNat 3 (byteAt ps 0)) (fun q => q.setPeak (wordAt ps 1)) }) :=
      (if_neg (by omega)).trans (if_neg (by omega))
    refine ⟨_, exec_setNominal_ready h ps hps _ hres rfl, fun p => ?_⟩
    rw [Phases.get_onMask, names_ofNat, Phase.setPeak]

/-! ## LEVEL -/

/-- A LEVEL of length 0 or 1 takes its target at once (R50). -/
theorem Phase.applyLevel_of_le_one (ph : Phase) (t : Nat) {r : Nat} (hr : r ≤ 1) :
    ph.applyLevel t r = { ph with l := t, a := amplitudeOf t ph.p, ramp := none } := by
  obtain rfl | rfl : r = 0 ∨ r = 1 := by omega
  all_goals rfl

/-- A longer LEVEL begins a ramp from the level that holds, and makes its first step (R50, R51). -/
theorem Phase.applyLevel_of_two_le (ph : Phase) (t : Nat) {r : Nat} (hr : 2 ≤ r) :
    ph.applyLevel t r = { ph with
      l := rampValue ph.l t r 1, a := amplitudeOf (rampValue ph.l t r 1) ph.p
      ramp := some { l0 := ph.l, t := t, r := r, k := 1 } } := by
  have hlast : ¬ 0 + 1 = r := by omega
  rw [applyLevel, if_neg (by omega)]
  exact if_neg hlast

theorem rampStepped_p (s : State) (p : PhaseId) : (rampStepped s p).p = (s.ph.get p).p := by
  rw [rampStepped_eq, Phase.rampStep_p]

/-! ## The end of a level ramp -/

theorem Phase.rampEnds_iff (ph : Phase) : ph.rampEnds = true ↔ ∃ rp, ph.ramp = some rp ∧ rp.k + 1 = rp.r := by
  unfold rampEnds
  split
  case h_1 h => simp [h]
  case h_2 rp h => simp [h]

/-- A tick's front half notes the end of a level ramp where the next step of some phase's is its last (R51). -/
theorem mem_tickFront_levelRampEnd (s : State) :
    .levelRampEnd ∈ (tickFront s).events ↔ ∃ p rp, (s.ph.get p).ramp = some rp ∧ rp.k + 1 = rp.r := by
  simp only [← Phase.rampEnds_iff, PhaseId.exists_iff, Phases.get]
  rw [tickFront_events]
  split
  case isTrue h => simpa [or_assoc] using h
  case isFalse h => simpa [Guard.eventsAt, CounterBank.eventsAt, and_assoc] using h

/-- Behind the runner's work a tick notes the completion of a capture and deferred entries, and no other event. -/
theorem mem_workTick_events_runAfter (x : Bool) (s : State) {e : TickEvent} (hdone : e ≠ .captureDone)
    (hdeferred : e ≠ .deferredEntry) : e ∈ (workTick 0 x s).events ↔ e ∈ s.runAfter.events := by
  rw [workTick, respondTick_events, mem_traceTick_events hdeferred, captureTick, mem_offerEntries_events hdone]
  dsimp only
  rw [tickMiddle_events]

/-- Where nothing is applied, the runner notes at most that it takes or releases the hold (R93). -/
theorem runAfter_events_of_nothingApplied {s : State} (h : NothingApplied s) :
    ∃ more, s.runAfter.events = (tickFront s).events ++ more ∧ ∀ e ∈ more, e = .takeHold ∨ e = .releaseHold := by
  obtain ⟨_, hnow, hhead⟩ := h
  unfold State.runAfter runnerTick
  split
  · rw [applyDue_stop _ _ _ _ _ (.inr hhead)]
    exact ⟨[], (List.append_nil _).symm, List.forall_mem_nil _⟩
  · have hnow' : (tickFront s).runSide.renewed.run.applyNow = none := hnow
    unfold otherWork
    rw [hnow']
    split
    case h_1 => exact ⟨[.takeHold], rfl, by simp⟩
    case h_2 =>
      split
      · exact ⟨[], (List.append_nil _).symm, List.forall_mem_nil _⟩
      · exact ⟨[.releaseHold], rfl, by simp⟩
    all_goals exact ⟨[], (List.append_nil _).symm, List.forall_mem_nil _⟩

/-- A tick that applies nothing is the row LEVEL_RAMP_END exactly where the front half ends a level ramp (R51). -/
theorem exec_levelRampEnd_of_nothingApplied (x : Bool) {s : State} (h : NothingApplied s) :
    exec (.levelRampEnd x) s = .next (if .levelRampEnd ∈ (tickFront s).events then workTick 0 x s else s) := by
  have hplain := h.1
  obtain ⟨more, hmore, hhold⟩ := runAfter_events_of_nothingApplied h
  have hnot : TickEvent.levelRampEnd ∉ more := fun hm => by simpa using hhold _ hm
  have hmem : .levelRampEnd ∈ (workTick 0 x s).events ↔ .levelRampEnd ∈ (tickFront s).events := by
    rw [mem_workTick_events_runAfter x s (by decide) (by decide), hmore, List.mem_append, or_iff_left hnot]
  show Host.Outcome.next _ = _
  rw [eventTick_isEvent _ x (plainTick_works hplain), tick_working x s (plainTick_works hplain) hplain.2.2]
  exact congrArg Host.Outcome.next (if_congr hmem rfl rfl)

/-- Settles O26: LEVEL is a timed record that acts on the masked phases alone; without one, the front half's ramp steps stand. -/
theorem levelsApplyAndRamp : Obligations.LevelsApplyAndRamp := by
  refine ⟨fun x s e rest r h hi hk => ?_, fun x s h => ?_⟩
  · obtain ⟨t, hrow, htick, happlied, htb, hset⟩ := oneTimed_onPhases (x := x) (row := .level x) h hi
      (by rw [Record.appliesTimed, hk]) (by rw [hk]; rfl) (fun q => q.applyLevel r.p1 r.p2)
      (fun ph => by rw [Record.changePhases, hk]) (fun tb => by rw [Record.changeTimebase, hk])
    refine ⟨t, hrow, htick, happlied, htb, fun p => ?_⟩
    have hp := hset p
    rw [← rampStepped_p]
    refine ⟨fun hm => ?_, fun hm hr => ?_, fun hm hr => ?_⟩
    · rwa [if_neg (by simp [hm])] at hp
    · rwa [if_pos hm, Phase.applyLevel_of_le_one _ _ hr] at hp
    · rwa [if_pos hm, Phase.applyLevel_of_two_le _ _ hr] at hp
  · have hrow := exec_levelRampEnd_of_nothingApplied x h
    refine ⟨workTick 0 x s, exec_sampleTick_plain x s h.1, fun p => ?_, fun hend => ?_, fun hnone => ?_⟩
    · rw [rampStepped_eq, ← Phases.get_each s.ph Phase.rampStep, ← (runAfter_of_nothingApplied h).2]
      exact sameSettings_workTick x s p
    · rw [hrow, if_pos ((mem_tickFront_levelRampEnd s).mpr hend)]
    · rw [hrow, if_neg fun hmem => ?_]
      obtain ⟨p, rp, hramp, hk⟩ := (mem_tickFront_levelRampEnd s).mp hmem
      exact hnone p rp hramp hk

end Sys2Proof.Machine
end

