-- ==== Sys2Proof/Proofs/Interpolation.lean ====
section
/-! PROOFS. The arithmetic of stages 2 and 3 of a sample: the interpolation between two samples and the scale by A (R57, R58). -/

namespace Sys2Proof.Machine

/-! ## Rounding of a product -/

/-- Rounding away from zero treats both signs alike (R1). -/
theorem roundInt_neg (n : Int) {d : Nat} (hd : 0 < d) : roundInt (-n) d = -roundInt n d := by
  have hzero : roundNat 0 d = 0 := Nat.le_zero.mp (roundNat_le hd (Nat.zero_le _))
  unfold roundInt
  rw [Int.natAbs_neg]
  rcases lt_trichotomy n 0 with hn | rfl | hn
  · rw [if_neg (by omega), if_pos hn, neg_neg]
  · rw [if_neg (by omega), Int.natAbs_zero, hzero]
    rfl
  · rw [if_pos (by omega), if_neg (by omega)]

/-- A part `f` of `d` of a difference rounds to a value between 0 and the difference. -/
theorem roundInt_part_between (δ : Int) {f d : Nat} (hd : 0 < d) (hf : f ≤ d) :
    min 0 δ ≤ roundInt (δ * f) d ∧ roundInt (δ * f) d ≤ max 0 δ := by
  have hle : roundNat (δ * f).natAbs d ≤ δ.natAbs :=
    roundNat_le hd (by rw [Int.natAbs_mul, Int.natAbs_natCast]; exact Nat.mul_le_mul_left _ hf)
  unfold roundInt
  split
  case isTrue hneg =>
    have hδ : δ < 0 := neg_of_mul_neg_left hneg (Int.natCast_nonneg f)
    omega
  case isFalse hpos =>
    rcases lt_or_ge δ 0 with hδ | hδ
    · have hzero : δ * f = 0 := le_antisymm (mul_nonpos_of_nonpos_of_nonneg hδ.le (Int.natCast_nonneg f)) (not_lt.mp hpos)
      have hround : roundNat (δ * f).natAbs d = 0 := by
        rw [hzero]
        exact Nat.le_zero.mp (roundNat_le hd (Nat.zero_le _))
      omega
    · omega

/-- Halves round away from zero (R1), at the divisor of R57. -/
theorem roundInt_half (k : Int) : roundInt (256 * k + 128) 256 = if k < 0 then k else k + 1 := by
  unfold roundInt roundNat
  split_ifs <;> omega

/-! ## Interpolation -/

theorem interpolate_between (a b : Int) {f : Nat} (hf : f < 256) :
    min a b ≤ interpolate a b f ∧ interpolate a b f ≤ max a b := by
  obtain ⟨hlo, hhi⟩ := roundInt_part_between (b - a) (d := 256) (by decide) hf.le
  unfold interpolate
  omega

theorem interpolate_zero (a b : Int) : interpolate a b 0 = a := by
  rw [interpolate, Int.natCast_zero, mul_zero]
  exact add_zero a

theorem interpolate_self (a : Int) (f : Nat) : interpolate a a f = a := by
  rw [interpolate, sub_self, zero_mul]
  exact add_zero a

/-- A half goes downward on a downward slope and upward on an upward one (R57). -/
theorem interpolate_half {a b k : Int} {f : Nat} (h : (b - a) * f = 256 * k + 128) :
    (b < a → interpolate a b f = a + k) ∧ (a < b → interpolate a b f = a + k + 1) := by
  rw [interpolate, h, roundInt_half]
  refine ⟨fun hdown => ?_, fun hup => ?_⟩
  · have hle : (b - a) * f ≤ 0 := mul_nonpos_of_nonpos_of_nonneg (by omega) (Int.natCast_nonneg f)
    rw [if_pos (by omega)]
  · have hge : 0 ≤ (b - a) * f := mul_nonneg (by omega) (Int.natCast_nonneg f)
    rw [if_neg (by omega), add_assoc]

/-! ## The scale by A -/

/-- A scaled sample stays within the amplitude's range; the lower end is reached by -32,768 at 65,533 alone (R58). -/
theorem amplified_bounds {w : Int} {amp : Nat} (hlo : -32768 ≤ w) (hhi : w ≤ 32767) (hamp : amp ≤ 65533) :
    -65533 ≤ amplified w amp ∧ amplified w amp < 65533 ∧ (amplified w amp = -65533 → w = -32768 ∧ amp = 65533) := by
  have hhigh : w * amp ≤ 32767 * 65533 := by nlinarith
  rcases hlo.eq_or_lt with rfl | hlo
  · unfold amplified roundInt roundNat
    split <;> omega
  · have hlow : -32767 * 65533 ≤ w * amp := by nlinarith
    unfold amplified roundInt roundNat
    generalize w * (amp : Int) = n at *
    split <;> omega

theorem amplified_full (w : Int) : amplified w 32768 = w := by
  unfold amplified roundInt roundNat
  split_ifs <;> omega

theorem amplified_zero (w : Int) : amplified w 0 = 0 := by
  rw [amplified, Int.natCast_zero, mul_zero]
  rfl

theorem amplified_neg (w : Int) (amp : Nat) : amplified (-w) amp = -amplified w amp := by
  rw [amplified, neg_mul, roundInt_neg _ (by decide)]
  rfl

/-- Settles O29: stages 2 and 3 by definition, their ranges by the bounds of a rounded quotient. -/
theorem interpolationAndAmplitudeScale : Obligations.InterpolationAndAmplitudeScale := by
  refine ⟨fun s p drawn => ⟨rfl, rfl⟩, fun a b f ha ha' hb hb' hf => ?_, by decide, fun w amp hlo hhi hamp => ?_⟩
  · obtain ⟨hmin, hmax⟩ := interpolate_between a b hf
    exact ⟨rfl, by omega, by omega, hmin, hmax, interpolate_zero a b, interpolate_self a f, fun k h => interpolate_half h⟩
  · obtain ⟨hbelow, habove, hend⟩ := amplified_bounds hlo hhi hamp
    exact ⟨rfl, hbelow, habove, hend, by decide, amplified_full w, amplified_zero w, amplified_neg w amp⟩

end Sys2Proof.Machine
end

