-- ==== Sys2Proof/Proofs/Trips.lean ====
section
/-! PROOFS. A tick at which a trip comes about: the guard, the frame, the notices and the trace (R64, R124, R126, R157). -/

namespace Sys2Proof.Machine

open Sys2Proof.Safety
open Links (Raised)

/-! ## The guard -/

/-- Examination leaves the limits, in force and pending (R121 to R123). -/
theorem Guard.examined_limits (g : Guard) (sc : Scanner) (boundary : Bool) (pos : Position) :
    (g.examined sc boundary pos).lo = g.lo ∧ (g.examined sc boundary pos).hi = g.hi ∧
    (g.examined sc boundary pos).pendingLimits = g.pendingLimits := by
  have hex : (g.examine sc).lo = g.lo ∧ (g.examine sc).hi = g.hi ∧ (g.examine sc).pendingLimits = g.pendingLimits := by
    unfold Guard.examine
    split
    · exact ⟨rfl, rfl, rfl⟩
    · split <;> exact ⟨rfl, rfl, rfl⟩
  unfold Guard.examined
  split <;> exact hex

/-- Limits come into force where a pair is pending, and nothing else of the guard moves (R116). -/
theorem Guard.limitsStep_spec (g : Guard) :
    ∃ lo hi pending, g.limitsStep = { g with lo := lo, hi := hi, pendingLimits := pending } ∧
      (g.pendingLimits = none → lo = g.lo ∧ hi = g.hi) ∧ (∀ l h, g.pendingLimits = some (l, h) → lo = l ∧ hi = h) := by
  unfold Guard.limitsStep
  split
  case h_1 hnone => exact ⟨g.lo, g.hi, g.pendingLimits, rfl, fun _ => ⟨rfl, rfl⟩, fun _ _ h => by simp [hnone] at h⟩
  case h_2 lo hi hsome =>
    refine ⟨lo, hi, none, rfl, fun h => by simp [hsome] at h, fun l u h => ?_⟩
    rw [hsome] at h
    cases h
    exact ⟨rfl, rfl⟩

section Trip

variable {s : State} {cause : TripCause} {channel : Nat}

/-- The guard after a tick at which it trips: the trip on the examined guard, then limits that come into force (R116, R124). -/
theorem Guard.atTick_of_trip {g : Guard} {sc : Scanner} {boundary : Bool} {pos : Position}
    (h : g.tripAt sc boundary pos = some (cause, channel)) :
    ∃ lo hi pending, g.atTick sc boundary pos =
        { (g.examined sc boundary pos).trip cause channel pos with lo := lo, hi := hi, pendingLimits := pending } ∧
      (g.pendingLimits = none → lo = g.lo ∧ hi = g.hi) ∧ (∀ l u, g.pendingLimits = some (l, u) → lo = l ∧ hi = u) := by
  have hat : g.atTick sc boundary pos = ((g.examined sc boundary pos).trip cause channel pos).limitsStep := by
    rw [Guard.atTick, h]
  obtain ⟨hlo, hhi, hpending⟩ := g.examined_limits sc boundary pos
  rw [hat, ← hlo, ← hhi, ← hpending]
  exact Guard.limitsStep_spec _

/-! ## The frame -/

/-- In OFF and TRIPPED a tick sends three zeros (R64). -/
theorem workTick_frame_forced (x : Bool) (hplain : PlainTick s)
    (hout : (workTick 0 x s).guard.out = .off ∨ (workTick 0 x s).guard.out = .tripped) :
    (workTick 0 x s).frame = { a := 0, b := 0, c := 0 } := by
  obtain ⟨t, ht, _, _, _, _, _, _, _, _, _, hforced, _⟩ := samplesAreComputedByTheStages x s hplain
  rw [exec_sampleTick_plain x s hplain] at ht
  cases ht
  exact hforced hout

/-! ## Notices -/

/-- A notice that stood still stands where notices were only raised. -/
theorem Links.Raised.notice {ls ls' : Links} (h : Raised ls ls') {l : Link} {i : Nat}
    (hi : (ls.get l).notices.getLsbD i = true) : (ls'.get l).notices.getLsbD i = true := by
  obtain ⟨m, hm⟩ := h l
  rw [hm, BitVec.getLsbD_or, hi, Bool.true_or]

/-- A notice that the front half of a tick leaves raised is raised after the tick. -/
theorem workTick_notice_of_front (x : Bool) {l : Link} {i : Nat}
    (h : ((tickFront s).links.get l).notices.getLsbD i = true) :
    ((workTick 0 x s).links.get l).notices.getLsbD i = true := by
  obtain ⟨_, _, hraised⟩ := runAfter_keeps s
  exact workTick_notice x (hraised.notice h)

/-- A trip raises its notice on the links that have it (R124). -/
theorem workTick_tripped_notice (x : Bool) (htrip : s.guard.tripAt s.scan s.tb.wraps (comingPosition s) = some (cause, channel))
    {l : Link} {i : Nat} (hbit : (noticeBit l .tripped).getLsbD i = true) :
    ((workTick 0 x s).links.get l).notices.getLsbD i = true := by
  refine workTick_notice_of_front x ?_
  have hfront : (tickFront s).links = (s.links.raiseIf (s.cnt.takes s.tb.wraps) .snapshotReady).raiseIf
      (s.guard.tripAt s.scan s.tb.wraps (comingPosition s)).isSome .tripped := rfl
  rw [hfront, htrip, Option.isSome_some, Links.raiseIf_true, Links.get_raise, LinkState.raise_notices, BitVec.getLsbD_or,
    hbit, Bool.or_true]

/-! ## The trace -/

/-- A stopped runner with nothing to apply does nothing at a tick (R93). -/
theorem runAfter_of_idle (hidle : s.run.state = .idle) (hnow : s.run.applyNow = none) : s.runAfter = s.runStart := by
  have happ : ¬ appliesEntries (tickFront s).runSide.run s.tb.wraps s.holdRead = true := by
    show ¬ appliesEntries s.run _ _ = true
    simp [appliesEntries, hidle]
  have hother : otherWork s.sched s.map s.tb.advance.position s.holdRead s.runStart = s.runStart := by
    unfold otherWork
    rw [show s.runStart.run.state = .idle from hidle, show s.runStart.run.applyNow = none from hnow]
  rw [State.runAfter, runnerTick, if_neg happ]
  exact hother

/-- With nothing else to put into it, the trace takes the TRIP entry of a tick's trip, as far as there is room (R157, R158). -/
theorem workTick_fifo_trip (x : Bool) (htrip : s.guard.tripAt s.scan s.tb.wraps (comingPosition s) = some (cause, channel))
    (hdeferred : s.runAfter.trace.deferred = []) (hmade : s.runAfter.trace.made = []) :
    (workTick 0 x s).trace.fifo = s.runAfter.trace.fifo ++
      [tripEntry (workTick 0 x s).guard (comingPosition s)].take (64 - s.runAfter.trace.fifo.length) := by
  rw [workTick, respondTick_trace, respondTick_guard, traceTick_guard]
  generalize hu : captureTick (tickMiddle 0 s) _ s.tb.wraps x s.tb.advance.position = u
  have htrace : u.trace = s.runAfter.trace := by rw [← hu, captureTick_trace, tickMiddle_trace]
  have hevent : u.events.contains .trip = true := by
    rw [List.contains_iff_mem, ← hu, mem_captureTick_events 0 x s _ _ rfl, ← List.contains_iff_mem, tickFront_trip]
    exact Option.isSome_of_eq_some htrip
  have hentries : tickEntries u s.tb.advance.position = [tripEntry u.guard (comingPosition s)] := by
    rw [tickEntries, if_pos hevent, runnerEntries, deferredEntries, htrace, hdeferred, hmade]
    simp [insertAt, comingPosition]
  rw [traceTick, putEntries_trace, hentries, htrace]

/-! ## The row -/

/-- A tick at which a trip comes about is the row TRIP (R124). -/
theorem exec_trip_of_trip (x : Bool) (hplain : PlainTick s)
    (htrip : s.guard.tripAt s.scan s.tb.wraps (comingPosition s) = some (cause, channel)) :
    exec (.trip x) s = .next (workTick 0 x s) := by
  show Host.Outcome.next _ = _
  rw [eventTick_isEvent _ x (plainTick_works hplain), tick_working x s (plainTick_works hplain) hplain.2.2, if_pos ?_]
  rw [mem_workTick_events 0 x s rfl, ← List.contains_iff_mem, tickFront_trip]
  exact Option.isSome_of_eq_some htrip

end Trip

/-- Settles O44: the guard's trip, and what follows from it in the frame, on the links and in the trace. -/
theorem tripCutsTheOutput : Obligations.TripCutsTheOutput := by
  intro x s cause channel hplain htrip
  have hwatch := s.guard.atTick_sameWatch s.scan s.tb.wraps (comingPosition s)
  obtain ⟨lo, hi, pending, hat, hkept, hforce⟩ := Guard.atTick_of_trip htrip
  rw [hat] at hwatch
  obtain ⟨hmask, hipk, hkp, hirms, hkr⟩ := hwatch
  have hguard := (workTick_guard x s).trans hat
  have hframe := workTick_frame_forced x hplain (.inr (by rw [hguard]; rfl))
  have hpl : (workTick 0 x s).links.pl.notices.getLsbD 3 = true := workTick_tripped_notice (l := .pl) x htrip rfl
  have hgl : (workTick 0 x s).links.gl.notices.getLsbD 0 = true := workTick_tripped_notice (l := .gl) x htrip rfl
  have hfifo := workTick_fifo_trip x htrip
  refine ⟨workTick 0 x s, exec_trip_of_trip x hplain htrip, exec_sampleTick_plain x s hplain, ?_⟩
  rw [hguard] at hfifo ⊢
  refine ⟨rfl, rfl, rfl, rfl, rfl, rfl, rfl, rfl, hframe, hpl, hgl, hkept, hforce, hmask, hipk, hkp, hirms, hkr,
    fun hidle hnow hdeferred hmade hroom => ?_⟩
  rw [runAfter_of_idle hidle hnow] at hfifo
  rw [hfifo hdeferred hmade]
  refine congrArg (s.trace.fifo ++ ·) (List.take_of_length_le ?_)
  show 1 ≤ 64 - s.trace.fifo.length
  omega

end Sys2Proof.Machine
end

