-- ==== Sys2Proof/Proofs/Clamps.lean ====
section
/-! PROOFS. The limit stage of a tick's samples: clamp flags, clamp counters and CLAMPED_FIRST (R62, R63). -/

namespace Sys2Proof.Machine

open Sys2Proof.Safety
open Links (Raised)

/-! ## The clamp counters -/

/-- A phase's clamp counter. -/
def Nine.clampOf (n : Nine) : PhaseId → Nat
  | .a => n.clampA
  | .b => n.clampB
  | .c => n.clampC

theorem Nine.clampOf_addClamp (n : Nine) (p : PhaseId) : (n.addClamp p).clampOf p = min (n.clampOf p + 1) 65535 := by
  cases p <;> rfl

theorem Nine.clampOf_addClamp_ne (n : Nine) {p q : PhaseId} (h : q ≠ p) : (n.addClamp p).clampOf q = n.clampOf q := by
  cases p <;> cases q <;> simp [clampOf, addClamp] at h ⊢

theorem Nine.clampOf_addApplied (n : Nine) (p : PhaseId) : n.addApplied.clampOf p = n.clampOf p := by
  cases p <;> rfl

theorem Nine.clampOf_addLate (n : Nine) (late : Bool) (p : PhaseId) : (n.addLate late).clampOf p = n.clampOf p := by
  unfold Nine.addLate
  split <;> cases p <;> rfl

/-- What the clamp counters hold when a tick's own counting begins (R163). -/
theorem tickFront_clampOf (s : State) (p : PhaseId) :
    (tickFront s).cnt.live.clampOf p = (countedFrom s).clampOf p := by
  have hlive : (s.cnt.atTick s.tb.wraps s.tb.advance.position).live = countedFrom s := by
    unfold CounterBank.atTick countedFrom
    split <;> rfl
  rw [← hlive]
  cases p <;> rfl

/-! ## The limit stage -/

/-- The limit stage changes a sample exactly where it lies outside the limits (R62). -/
theorem limited_ne_iff (s4 lo hi : Int) : limited s4 lo hi ≠ s4 ↔ s4 < lo ∨ hi < s4 := by
  unfold limited
  split_ifs <;> omega

theorem SameStages.sampleClamped {s t : State} (h : SameStages s t) (p : PhaseId) (held : Int) (drawn : BitVec 17) :
    sampleClamped t p held drawn ↔ sampleClamped s p held drawn := by
  obtain ⟨_, _, _, ha, hshape, _, hn⟩ := h.settings p
  unfold Safety.sampleClamped sampleUnlimited
  rw [h.entryAfter, h.tb, h.guard, h.map, h.wave, ha, hshape, hn]

/-- What a state holds of a phase whose clamp flag and clamp counter stood at the values given, by whether its sample was
clamped (R62, R63). -/
structure ClampNoted (clamped : Prop) (p : PhaseId) (was : Bool) (n : Nat) (t : State) : Prop where
  flag : clamped → (t.ph.get p).clamp = true
  count : clamped → t.cnt.live.clampOf p = min (n + 1) 65535
  first : clamped → was = false → t.links.gl.notices.getLsbD 1 = true
  within : ¬ clamped → (t.ph.get p).clamp = was ∧ t.cnt.live.clampOf p = n

/-- A phase's clamp flag and clamp counter stay, and CLAMPED_FIRST is not taken back. -/
structure ClampKept (p : PhaseId) (s t : State) : Prop where
  flag : (t.ph.get p).clamp = (s.ph.get p).clamp
  count : t.cnt.live.clampOf p = s.cnt.live.clampOf p
  notice : s.links.gl.notices.getLsbD 1 = true → t.links.gl.notices.getLsbD 1 = true

theorem ClampKept.trans {p : PhaseId} {s t u : State} (h : ClampKept p s t) (h' : ClampKept p t u) : ClampKept p s u :=
  ⟨h'.flag.trans h.flag, h'.count.trans h.count, fun hn => h'.notice (h.notice hn)⟩

theorem ClampNoted.kept {clamped : Prop} {p : PhaseId} {was : Bool} {n : Nat} {s t : State}
    (h : ClampNoted clamped p was n s) (hk : ClampKept p s t) : ClampNoted clamped p was n t where
  flag hc := hk.flag.trans (h.flag hc)
  count hc := hk.count.trans (h.count hc)
  first hc hclear := hk.notice (h.first hc hclear)
  within hc := (h.within hc).imp hk.flag.trans hk.count.trans

/-! ## One sample -/

/-- Whether the limit stage changes the sample that a phase makes of a state (R62). -/
def State.clampsSample (s : State) (p : PhaseId) : Bool :=
  decide (limited (sampleBeforeLimit s p (synthPhase s p).lfsr) s.guard.lo s.guard.hi ≠
    sampleBeforeLimit s p (synthPhase s p).lfsr)

theorem State.clampsSample_iff (s : State) (p : PhaseId) :
    s.clampsSample p = true ↔ sampleClamped s p (s.ph.get p).held (synthPhase s p).lfsr := by
  rw [clampsSample, decide_eq_true_iff, limited_ne_iff]
  rfl

theorem synthPhase_clamp (s : State) (p : PhaseId) :
    ((synthPhase s p).ph.get p).clamp = ((s.ph.get p).clamp || s.clampsSample p) :=
  congrArg Phase.clamp (Phases.get_set s.ph p _)

theorem synthPhase_cnt (s : State) (p : PhaseId) :
    (synthPhase s p).cnt = if s.clampsSample p then s.cnt.count (fun n => n.addClamp p) else s.cnt := rfl

theorem synthPhase_links (s : State) (p : PhaseId) :
    (synthPhase s p).links = s.links.raiseIf (s.clampsSample p && !(s.ph.get p).clamp) .clampedFirst := rfl

/-- A phase's sample notes its clamp (R62, R63). -/
theorem synthPhase_clampNoted (s : State) (p : PhaseId) :
    ClampNoted (sampleClamped s p (s.ph.get p).held (synthPhase s p).lfsr) p (s.ph.get p).clamp (s.cnt.live.clampOf p)
      (synthPhase s p) where
  flag hc := by rw [synthPhase_clamp, (s.clampsSample_iff p).mpr hc, Bool.or_true]
  count hc := by
    rw [synthPhase_cnt, if_pos ((s.clampsSample_iff p).mpr hc)]
    exact Nine.clampOf_addClamp _ p
  first hc hclear := by
    rw [synthPhase_links, (s.clampsSample_iff p).mpr hc, hclear]
    exact (BitVec.getLsbD_or).trans (Bool.or_true _)
  within hc := by
    have hno : s.clampsSample p = false := by rwa [Bool.eq_false_iff, Ne, s.clampsSample_iff p]
    rw [synthPhase_clamp, synthPhase_cnt, hno, Bool.or_false]
    exact ⟨rfl, rfl⟩

/-- Another phase's sample leaves a phase's clamp flag and clamp counter. -/
theorem synthPhase_clampKept (s : State) {p q : PhaseId} (h : q ≠ p) : ClampKept q s (synthPhase s p) where
  flag := congrArg Phase.clamp (Phases.get_set_ne s.ph p q _ h)
  count := by
    rw [synthPhase_cnt]
    split
    · exact Nine.clampOf_addClamp_ne _ h
    · rfl
  notice := (synthPhase_raised (.refl s.links) p).notice (l := .gl)

/-! ## The samples of a tick -/

/-- A phase whose sample is still to come at a tick of `s` has the flag and the Held code of before, and what its counter
starts from. -/
structure Unsampled (s : State) (p : PhaseId) (u : State) : Prop where
  flag : (u.ph.get p).clamp = (s.ph.get p).clamp
  held : (u.ph.get p).held = (s.ph.get p).held
  count : u.cnt.live.clampOf p = (countedFrom s).clampOf p

theorem Unsampled.synthPhase {s u : State} {p q : PhaseId} (h : Unsampled s q u) (hne : q ≠ p) :
    Unsampled s q (synthPhase u p) where
  flag := (synthPhase_clampKept u hne).flag.trans h.flag
  held := (congrArg Phase.held (Phases.get_set_ne u.ph p q _ hne)).trans h.held
  count := (synthPhase_clampKept u hne).count.trans h.count

theorem Record.changePhases_clamp (r : Record) (ph : Phases) (p : PhaseId) :
    ((r.changePhases ph).get p).clamp = (ph.get p).clamp := by
  unfold Record.changePhases
  split
  case h_5 => rfl
  all_goals rw [Phases.get_onMask]; split <;> simp

/-- No act of the runner's touches a clamp flag or a clamp counter. -/
theorem clamp_runInvariant (flag : PhaseId → Bool) (count : PhaseId → Nat) :
    RunInvariant (fun w => ∀ p, (w.ph.get p).clamp = flag p ∧ w.cnt.live.clampOf p = count p) where
  renewed h := h
  filled _ h := h
  markerFault _ _ _ h := h
  unmapped _ _ h := h
  control _ _ _ h p := (h p).imp_right (Nine.clampOf_addApplied _ p).trans
  ended _ _ _ late h p :=
    (h p).imp_right ((Nine.clampOf_addLate _ late p).trans (Nine.clampOf_addApplied _ p)).trans
  timed _ r _ late h p := (h p).imp (r.changePhases_clamp _ p).trans
    ((Nine.clampOf_addLate _ late p).trans (Nine.clampOf_addApplied _ p)).trans
  taken _ h := h
  released _ _ h := h
  pending {w} map pos r h p := by
    refine ⟨?_, (Nine.clampOf_addApplied _ p).trans (h p).2⟩
    show ((if r.meetsUnmapped map then w.ph else r.changePhases w.ph).get p).clamp = _
    split
    · exact (h p).1
    · exact (r.changePhases_clamp _ p).trans (h p).1

theorem beforeSamples_unsampled (s : State) (p : PhaseId) : Unsampled s p s.beforeSamples := by
  have hafter := (clamp_runInvariant (fun p => (s.ph.get p).clamp) (fun p => (countedFrom s).clampOf p)).runAfter (s := s)
    (fun q => ⟨by simp [State.runSide], tickFront_clampOf s q⟩) p
  exact ⟨hafter.1, beforeSamples_held s p, hafter.2⟩

/-- Behind the samples a tick leaves the clamp flags and clamp counters. -/
theorem workTick_clampKept (x : Bool) (s : State) (p : PhaseId) : ClampKept p (tickMiddle 0 s) (workTick 0 x s) where
  flag := by rw [workTick_ph]
  count := by cases p <;> simp [Nine.clampOf, workTick]
  notice h := by
    have hraised : Raised (tickMiddle 0 s).links (s.beforeResponses x).links :=
      putEntries_raised _ (offerEntries_raised (s := { tickMiddle 0 s with cap := _ }) _ (.refl _))
    obtain ⟨_, _, _, _, _, _, hnotices⟩ := ((s.beforeResponses x).links.get .gl).atTick_frame (s.beforeResponses x)
    rw [workTick_eq_respondTick]
    exact (congrArg (·.getLsbD 1) hnotices).trans (hraised.notice (l := .gl) h)

/-- A phase's sample of a tick notes its clamp, in terms of the state that the tick leaves. -/
theorem workTick_clampNoted {x : Bool} {s u : State} {p : PhaseId} (hstages : SameStages u (workTick 0 x s))
    (hu : Unsampled s p u) (hkept : ClampKept p (synthPhase u p) (workTick 0 x s)) {r : BitVec 17}
    (hr : (synthPhase u p).lfsr = r) :
    ClampNoted (sampleClamped (workTick 0 x s) p (s.ph.get p).held r) p (s.ph.get p).clamp ((countedFrom s).clampOf p)
      (workTick 0 x s) := by
  have hnoted := (synthPhase_clampNoted u p).kept hkept
  rwa [hu.flag, hu.count, hu.held, hr, ← propext (hstages.sampleClamped p _ r)] at hnoted

/-- Settles O31: the three samples in turn, each of which notes its own clamp. -/
theorem clampsAreFlaggedAndCounted : Obligations.ClampsAreFlaggedAndCounted := by
  intro x s h
  refine ⟨workTick 0 x s, exec_sampleTick_plain x s h, ?_⟩
  intro rA rB rC
  have hA := sameStages_workTick x s
  have hB := hA.synthPhase .a
  have hC := hB.synthPhase .b
  have hrA : (synthPhase s.beforeSamples .a).lfsr = rA := (synthPhase_sampleMade hA .a).lfsr
  have hrB : (synthPhase (synthPhase s.beforeSamples .a) .b).lfsr = rB := by
    rw [(synthPhase_sampleMade hB .b).lfsr, hrA]
  have hrC : (synthPhase (synthPhase (synthPhase s.beforeSamples .a) .b) .c).lfsr = rC := by
    rw [(synthPhase_sampleMade hC .c).lfsr, hrB]
  have hrest (p) : ClampKept p (synthPhase (synthPhase (synthPhase s.beforeSamples .a) .b) .c) (workTick 0 x s) := by
    have hmiddle := workTick_clampKept x s p
    rwa [tickMiddle_eq] at hmiddle
  have notedA := workTick_clampNoted hA (beforeSamples_unsampled s .a) (((synthPhase_clampKept _ (by decide)).trans
    (synthPhase_clampKept _ (by decide))).trans (hrest .a)) hrA
  have notedB := workTick_clampNoted hB ((beforeSamples_unsampled s .b).synthPhase (by decide))
    ((synthPhase_clampKept _ (by decide)).trans (hrest .b)) hrB
  have notedC := workTick_clampNoted hC (((beforeSamples_unsampled s .c).synthPhase (by decide)).synthPhase (by decide))
    (hrest .c) hrC
  exact ⟨fun hc => ⟨notedA.flag hc, notedA.count hc, notedA.first hc⟩,
    fun hc => ⟨notedB.flag hc, notedB.count hc, notedB.first hc⟩,
    fun hc => ⟨notedC.flag hc, notedC.count hc, notedC.first hc⟩, notedA.within, notedB.within, notedC.within⟩

end Sys2Proof.Machine
end

