-- ==== Sys2Proof/Proofs/Walk.lean ====
section
/-! PROOFS. Every step keeps fetch side and committed side in agreement through the queue: an entry walked at the head, an
entry placed at the tail, and the runner's other acts (R75, R78, R79, R87 to R92, R97 to R104). -/

namespace Sys2Proof.Machine

open Sys2Proof.Safety

/-! ## One entry of a walk -/

/-- A record that a walk with this pointer and this loop stack goes over: it is fetched from the memory, is not refused, and
a loop record finds the stack that it asks for (R92). -/
def Record.Walkable (r : Record) (ptr : Nat) (st : List LoopFrame) : Prop :=
  ptr < 1024 ∧ r.isBad = false ∧ (r.kind = .loopBegin → st.length < 4) ∧ (r.kind = .loopEnd → st ≠ [])

section Walks

variable {run run' : Runner} {es more : List QueueEntry} {ptr : Nat} {st : List LoopFrame} {base : Position}
  {e : QueueEntry} {r : Record}

theorem queueWalks_nil :
    QueueWalks run [] ptr st base ↔ ptr = run.fetchPtr ∧ st = run.fStack ∧ base = run.fBase := Iff.rfl

/-- With nothing queued the two sides stand at the same place. -/
theorem queueWalks_self : QueueWalks run [] run.fetchPtr run.fStack run.fBase := ⟨rfl, rfl, rfl⟩

theorem queueWalks_marker {reason : FaultReason} (hi : e.item = .marker reason) :
    QueueWalks run (e :: es) ptr st base ↔
      e.src = ptr ∧ es = [] ∧ run.halt = .fault ∧ e.due = base ∧ QueueWalks run [] ptr st base := by
  rw [queueWalks_nil, QueueWalks, hi]

theorem queueWalks_control (hi : e.item = .record r) (hc : r.isControl = true) :
    QueueWalks run (e :: es) ptr st base ↔
      e.src = ptr ∧ r.Walkable ptr st ∧ e.due = base ∧
        QueueWalks run es (walkControl r ptr st).2 (walkControl r ptr st).1 base := by
  rw [QueueWalks, hi]
  simp only [hc, if_true, Record.Walkable]
  tauto

/-- No timed record asks anything of the loop stack. -/
theorem walkable_timed_iff (hc : r.isControl = false) : r.Walkable ptr st ↔ ptr < 1024 ∧ r.isBad = false := by
  have hb : r.kind ≠ .loopBegin := fun hk => by simp [Record.isControl, hk] at hc
  have he : r.kind ≠ .loopEnd := fun hk => by simp [Record.isControl, hk] at hc
  simp [Record.Walkable, hb, he]

theorem queueWalks_timed (hi : e.item = .record r) (hc : r.isControl = false) :
    QueueWalks run (e :: es) ptr st base ↔
      e.src = ptr ∧ r.Walkable ptr st ∧ e.due = duePoint base r.delay r.angle ∧
        (r.kind = .endRecord → es = [] ∧ run.halt = .endRecord) ∧
        QueueWalks run es (ptr + 1) st (duePoint base r.delay r.angle) := by
  rw [QueueWalks, hi, walkable_timed_iff hc]
  simp [hc, and_assoc]

/-- A walk goes on behind its end: entries that lead from the fetch side on can stand behind those that lead to it. A halted
fetcher lets none be put there (R88, R90). -/
theorem queueWalks_append (hhalt : run.halt = .none ∨ (more = [] ∧ run'.halt = run.halt))
    (hmore : QueueWalks run' more run.fetchPtr run.fStack run.fBase) (h : QueueWalks run es ptr st base) :
    QueueWalks run' (es ++ more) ptr st base := by
  induction es generalizing ptr st base with
  | nil =>
    obtain ⟨rfl, rfl, rfl⟩ := queueWalks_nil.mp h
    exact hmore
  | cons e es ih =>
    rw [List.cons_append]
    cases hi : e.item with
    | marker reason =>
      obtain ⟨hsrc, rfl, hfault, hdue, rfl, rfl, rfl⟩ := (queueWalks_marker hi).mp h
      obtain ⟨rfl, hsame⟩ := hhalt.resolve_left (by rw [hfault]; decide)
      exact (queueWalks_marker hi).mpr ⟨hsrc, rfl, hsame.trans hfault, hdue, hmore⟩
    | record r =>
      cases hc : r.isControl with
      | true =>
        obtain ⟨hsrc, hwalk, hdue, hrest⟩ := (queueWalks_control hi hc).mp h
        exact (queueWalks_control hi hc).mpr ⟨hsrc, hwalk, hdue, ih hrest⟩
      | false =>
        obtain ⟨hsrc, hwalk, hdue, hend, hrest⟩ := (queueWalks_timed hi hc).mp h
        refine (queueWalks_timed hi hc).mpr ⟨hsrc, hwalk, hdue, fun hk => ?_, ih hrest⟩
        obtain ⟨rfl, hended⟩ := hend hk
        obtain ⟨rfl, hsame⟩ := hhalt.resolve_left (by rw [hended]; decide)
        exact ⟨rfl, hsame.trans hended⟩

/-- A walk looks at the fetch side and the halt alone. -/
theorem queueWalks_congr (hptr : run'.fetchPtr = run.fetchPtr) (hst : run'.fStack = run.fStack)
    (hbase : run'.fBase = run.fBase) (hhalt : run'.halt = run.halt) (h : QueueWalks run es ptr st base) :
    QueueWalks run' es ptr st base := by
  have happ := queueWalks_append (run' := run') (more := []) (.inr ⟨rfl, hhalt⟩) ⟨hptr.symm, hst.symm, hbase.symm⟩ h
  rwa [List.append_nil] at happ

end Walks

/-! ## Loop stacks -/

/-- A control record that is walkable keeps the loop stack within its four frames and goes on inside the memory, or at its end
(R75, R76). -/
theorem walkControl_ok {r : Record} {ptr : Nat} {st : List LoopFrame} (hc : r.isControl = true) (hw : r.Walkable ptr st)
    (hst : StackOk st) : StackOk (walkControl r ptr st).1 ∧ (walkControl r ptr st).2 ≤ 1024 := by
  obtain ⟨hptr, hbad, hbegin, hend⟩ := hw
  obtain ⟨hlen, hbody⟩ := hst
  unfold walkControl
  split
  case h_1 hk =>
    have hroom := hbegin hk
    refine ⟨⟨by simp only [List.length_cons]; omega, ?_⟩, hptr⟩
    exact List.forall_mem_cons.mpr ⟨⟨Nat.le_add_left 1 ptr, hptr⟩, hbody⟩
  case h_2 hk =>
    cases st with
    | nil => exact absurd rfl (hend hk)
    | cons top rest =>
      obtain ⟨⟨htop1, htop⟩, hrest⟩ := List.forall_mem_cons.mp hbody
      dsimp only
      split
      · exact ⟨⟨Nat.le_of_succ_le hlen, hrest⟩, hptr⟩
      · exact ⟨⟨hlen, List.forall_mem_cons.mpr ⟨⟨htop1, htop⟩, hrest⟩⟩, htop⟩
  case h_3 hk =>
    have hp1 : r.p1 ≤ 1023 := by simpa [Record.isBad, hk] using hbad
    exact ⟨⟨hlen, hbody⟩, show r.p1 ≤ 1024 by omega⟩
  case h_4 hb he hg =>
    exfalso
    unfold Record.isControl at hc
    split at hc
    · exact hb ‹_›
    · exact he ‹_›
    · exact hg ‹_›
    · cases hc

/-! ## Fetching -/

/-- What the fetcher finds no fault with is walkable on the fetch side, and a control record below the spin limit (R92). -/
theorem walkable_of_fetchFault_none {sched : Memory} {run : Runner} (h : fetchFault sched run = none) :
    (recordAt sched run.fetchPtr).Walkable run.fetchPtr run.fStack ∧
      ((recordAt sched run.fetchPtr).isControl = true → run.spin < 255) := by
  unfold fetchFault at h
  split at h
  · cases h
  · rename_i hptr
    dsimp only at h
    split at h <;> [cases h; rename_i hbad]
    split at h <;> [cases h; rename_i hspin]
    split at h <;> [cases h; rename_i hbegin]
    split at h <;> [cases h; rename_i hend]
    exact ⟨⟨Nat.lt_of_not_le hptr, by simpa using hbad, fun hk => show _ < Config.loopFrames by simpa [hk] using hbegin,
      fun hk => by simpa [hk] using hend⟩, fun hc => by simpa [hc] using hspin⟩

theorem canFetch_iff (run : Runner) : canFetch run = true ↔
    run.state = .running ∧ run.halt = .none ∧ run.queue.length < 4 ∧ 0 < run.allowance := by
  simp only [canFetch, Bool.and_eq_true, decide_eq_true_eq, and_assoc]
  exact Iff.rfl

/-- A fetch leaves the invariant: a marker halts the fetcher where it stands, a record is walked on the fetch side as it will
be on the committed side (R78, R79, R88, R91). -/
theorem walkOk_fetchOne (sched : Memory) {run : Runner} (hcan : canFetch run = true) (h : WalkOk run) :
    WalkOk (fetchOne sched run) := by
  obtain ⟨hwalk, _, _, hcst, hfst, _, hexec, hfetch, hspin, hallow⟩ := h
  obtain ⟨hstate, hhalt, hroom, _⟩ := (canFetch_iff run).mp hcan
  have hlen (x : QueueEntry) : (run.queue ++ [x]).length ≤ 4 := by rw [List.length_append]; exact hroom
  have hallow' : run.allowance - 1 ≤ 8 := by omega
  have hnotIdle : ∀ {q : Prop}, run.state = .idle → q := fun hidle => absurd (hstate.symm.trans hidle) (by decide)
  unfold fetchOne
  split
  · refine ⟨queueWalks_append (.inl hhalt) ?_ hwalk, hlen _, fun hne => absurd hstate hne, hcst, hfst, hnotIdle, hexec,
      hfetch, hspin, hallow'⟩
    exact (queueWalks_marker rfl).mpr ⟨rfl, rfl, rfl, rfl, queueWalks_self⟩
  · obtain ⟨hw, hspin'⟩ := walkable_of_fetchFault_none ‹_›
    unfold placeRecord
    split
    · rename_i hc
      obtain ⟨hstack, hptr⟩ := walkControl_ok hc hw hfst
      refine ⟨queueWalks_append (.inl hhalt) ?_ hwalk, hlen _, fun hne => absurd hstate hne, hcst, hstack, hnotIdle, hexec,
        hptr, hspin' hc, hallow'⟩
      exact (queueWalks_control rfl hc).mpr ⟨rfl, hw, rfl, queueWalks_self⟩
    · rename_i hc
      refine ⟨queueWalks_append (.inl hhalt) ?_ hwalk, hlen _, fun hne => absurd hstate hne, hcst, hfst, hnotIdle, hexec,
        hw.1, Nat.zero_le _, hallow'⟩
      exact (queueWalks_timed rfl (by simpa using hc)).mpr ⟨rfl, hw, rfl, fun hk => ⟨rfl, if_pos hk⟩, queueWalks_self⟩

theorem walkOk_fill (sched : Memory) {run : Runner} (h : WalkOk run) : WalkOk (fill sched run) := by
  suffices hk : ∀ k (run : Runner), WalkOk run → WalkOk (fillUpTo sched k run) from hk _ run h
  intro k
  induction k with
  | zero => exact fun _ h => h
  | succ k ih =>
    intro run h
    unfold fillUpTo
    split
    · exact ih _ (walkOk_fetchOne sched ‹_› h)
    · exact h

/-! ## An empty queue -/

/-- With an empty queue the invariant asks that the two sides stand at the same place. -/
theorem walkOk_of_empty {run : Runner} (hqueue : run.queue = []) (hptr : run.execPtr = run.fetchPtr)
    (hstack : run.cStack = run.fStack) (hbase : run.cBase = run.fBase) (hst : StackOk run.cStack)
    (hidle : run.state = .idle → run.cStack = []) (hexec : run.execPtr ≤ 1024) (hspin : run.spin ≤ 255)
    (hallow : run.allowance ≤ 8) : WalkOk run := by
  refine ⟨?_, by simp [hqueue], fun _ => hqueue, hst, hstack ▸ hst, fun h => ⟨hidle h, hstack ▸ hidle h⟩, hexec,
    hptr ▸ hexec, hspin, hallow⟩
  rw [hqueue]
  exact ⟨hptr, hstack, hbase⟩

/-- A flush brings the fetch side back to a committed side that is in order (R101). -/
theorem walkOk_flush {run : Runner} (hst : StackOk run.cStack) (hidle : run.state = .idle → run.cStack = [])
    (hexec : run.execPtr ≤ 1024) (hallow : run.allowance ≤ 8) : WalkOk (flush run) :=
  walkOk_of_empty rfl rfl rfl rfl hst hidle hexec (Nat.zero_le _) hallow

/-- Outside RUNNING nothing is queued, and the two sides stand at the same place. -/
theorem walkOk_sides_agree {run : Runner} (h : WalkOk run) (hstate : run.state ≠ .running) :
    run.queue = [] ∧ run.execPtr = run.fetchPtr ∧ run.cStack = run.fStack ∧ run.cBase = run.fBase := by
  obtain ⟨hwalk, _, hempty, _⟩ := h
  have hqueue := hempty hstate
  rw [hqueue] at hwalk
  exact ⟨hqueue, hwalk⟩

/-- The fetch allowance and a pending APPLY_NOW are no part of the walk. -/
theorem walkOk_update {run : Runner} (h : WalkOk run) (now : Option Record) {k : Nat} (hk : k ≤ 8) :
    WalkOk { run with applyNow := now, allowance := k } := by
  obtain ⟨hwalk, hlen, hempty, hcst, hfst, hidle, hexec, hfetch, hspin, _⟩ := h
  exact ⟨queueWalks_congr (run := run) rfl rfl rfl rfl hwalk, hlen, hempty, hcst, hfst, hidle, hexec, hfetch, hspin, hk⟩

/-! ## Entries applied -/

/-- What the application of an entry can leave of the runner: FAULTED, a control record walked, ENDED, or a timed record's step
(R95 to R100). -/
inductive Runner.Applied (run : Runner) (e : QueueEntry) : Runner → Prop
  | faulted (reason : FaultReason) :
      Applied run e (flush { run with state := .faulted, faultReason := reason, faultIndex := e.src })
  | control (r : Record) (hi : e.item = .record r) (hc : r.isControl = true) :
      Applied run e { run with
        queue := run.queue.tail, cStack := (walkControl r e.src run.cStack).1
        execPtr := (walkControl r e.src run.cStack).2 }
  | ended (r : Record) (hi : e.item = .record r) (hc : r.isControl = false) :
      Applied run e (flush { run with state := .ended, execPtr := e.src + 1, cBase := e.due })
  | timed (r : Record) (hi : e.item = .record r) (hc : r.isControl = false) :
      Applied run e { run with queue := run.queue.tail, execPtr := e.src + 1, cBase := e.due }

theorem applyEntry_applied (map : Memory) (prev pos : Position) (w : RunSide) (e : QueueEntry) :
    w.run.Applied e (applyEntry map prev pos w e).run := by
  unfold applyEntry
  split
  case h_1 reason _ => exact .faulted reason
  case h_2 r hi =>
    dsimp only
    split
    case h_1 hk | h_2 hk | h_3 hk => exact .control r hi (by rw [Record.isControl, hk])
    case h_4 hk => exact .ended r hi (by rw [Record.isControl, hk])
    case h_5 => exact .faulted .badRecord
    case h_6 hk =>
      split
      · exact .faulted .unmappedShape
      · exact .timed r hi (by rw [Record.isControl, hk])
    all_goals rename_i hk; exact .timed r hi (by rw [Record.isControl, hk])

section Applied

variable {run run' : Runner} {e : QueueEntry} {es : List QueueEntry}

/-- The head taken off the queue: what was behind it leads from where it has brought the committed side. -/
theorem walkOk_tail (h : WalkOk run) (hq : run.queue = e :: es) {ptr : Nat} {st : List LoopFrame} {base : Position}
    (hrest : QueueWalks run es ptr st base) (hst : StackOk st) (hptr : ptr ≤ 1024) :
    WalkOk { run with queue := run.queue.tail, execPtr := ptr, cStack := st, cBase := base } := by
  obtain ⟨_, hlen, hempty, _, hfst, _, _, hfetch, hspin, hallow⟩ := h
  have hstate : run.state = .running := by
    by_contra hne
    rw [hempty hne] at hq
    cases hq
  rw [hq] at hlen
  rw [hq, List.tail_cons]
  exact ⟨queueWalks_congr (run := run) rfl rfl rfl rfl hrest, Nat.le_of_succ_le hlen, fun hne => absurd hstate hne, hst, hfst,
    fun hidle => absurd (hstate.symm.trans hidle) (by decide), hptr, hfetch, hspin, hallow⟩

/-- The application of the head of the queue keeps the two sides in agreement: the committed side makes the step that the fetch
side has made for it, or the queue is flushed (R95 to R101). -/
theorem walkOk_applied (h : WalkOk run) (hq : run.queue = e :: es) (ha : run.Applied e run') : WalkOk run' := by
  have ⟨hwalk, _, _, hcst, _, _, hexec, _, _, hallow⟩ := h
  rw [hq] at hwalk
  cases ha with
  | faulted reason => exact walkOk_flush hcst RunState.noConfusion hexec hallow
  | control r hi hc =>
    obtain ⟨hsrc, hw, _, hrest⟩ := (queueWalks_control hi hc).mp hwalk
    rw [← hsrc] at hw hrest
    obtain ⟨hstack, hptr⟩ := walkControl_ok hc hw hcst
    exact walkOk_tail h hq hrest hstack hptr
  | ended r hi hc =>
    obtain ⟨hsrc, ⟨hptr, _⟩, _⟩ := (queueWalks_timed hi hc).mp hwalk
    exact walkOk_flush hcst RunState.noConfusion (hsrc ▸ hptr) hallow
  | timed r hi hc =>
    obtain ⟨hsrc, ⟨hptr, _⟩, hdue, _, hrest⟩ := (queueWalks_timed hi hc).mp hwalk
    rw [← hsrc, ← hdue] at hrest
    exact walkOk_tail h hq hrest hcst (hsrc ▸ hptr)

end Applied

/-! ## The runner's work at a tick -/

theorem walkOk_applyDue (map : Memory) (prev pos : Position) (k : Nat) {w : RunSide} (h : WalkOk w.run) :
    WalkOk (applyDue map prev pos k w).run := by
  induction k generalizing w with
  | zero => exact h
  | succ k ih =>
    unfold applyDue
    split
    · exact h
    · split
      · exact ih (walkOk_applied h ‹_› (applyEntry_applied map prev pos w _))
      · exact h

/-- A runner that is HELD has nothing queued, so that both chain bases move together (R109). -/
theorem walkOk_released (sched : Memory) (pos : Position) {run : Runner} (h : WalkOk run) (hheld : run.state = .held) :
    WalkOk (fill sched { run with state := .running, cBase := pos, fBase := pos }) := by
  obtain ⟨hqueue, hptr, hstack, _⟩ := walkOk_sides_agree h (by rw [hheld]; decide)
  obtain ⟨_, _, _, hcst, _, _, hexec, _, hspin, hallow⟩ := h
  exact walkOk_fill sched (walkOk_of_empty hqueue hptr hstack rfl hcst RunState.noConfusion hexec hspin hallow)

/-- The hold taken or released, or a pending APPLY_NOW applied (R93). -/
theorem walkOk_otherWork (sched map : Memory) (pos : Position) (hold : Bool) {w : RunSide} (h : WalkOk w.run) :
    WalkOk (otherWork sched map pos hold w).run := by
  have ⟨_, _, _, hcst, _, _, hexec, _, _, hallow⟩ := h
  have hpending : WalkOk (match w.run.applyNow with
      | none => w
      | some r => applyPending map w pos r).run := by
    split
    · exact h
    · exact walkOk_update h none hallow
  unfold otherWork
  split
  case h_1 => exact walkOk_flush hcst RunState.noConfusion hexec hallow
  case h_2 hheld =>
    split
    · exact h
    · exact walkOk_released sched pos h hheld
  all_goals exact hpending

/-! ## Requests -/

section Requests

variable (ps : List Byte) {s : State}

/-- A request refused by a check leaves the runner; one that passes it goes on. -/
theorem walkOk_ite_status {c : Prop} [Decidable c] {st : Status} {res : Answer × State} (h : WalkOk s.run)
    (hres : ¬ c → WalkOk res.2.run) : WalkOk (if c then refuse s st else res).2.run := by
  split
  · exact h
  · exact hres ‹_›

/-- A report or a read that its length check lets through leaves the runner. -/
theorem walkOk_ite_read {c : Prop} [Decidable c] {st : Status} {ans : Answer} (h : WalkOk s.run) :
    WalkOk (if c then (ans, s) else refuse s st).2.run := by
  split <;> exact h

theorem walkOk_takeWriteRecords (h : WalkOk s.run) : WalkOk (takeWriteRecords ps s).2.run := by
  refine walkOk_ite_status h fun _ => walkOk_ite_status h fun _ => ?_
  have ⟨_, _, _, hcst, _, hidle, hexec, _, _, hallow⟩ := h
  show WalkOk (afterRewrite _ s.run _ _)
  unfold afterRewrite
  split
  · exact walkOk_fill _ (walkOk_flush hcst (fun hi => (hidle hi).1) hexec hallow)
  · exact h

theorem walkOk_takeStart (h : WalkOk s.run) : WalkOk (takeStart ps s).2.run := by
  refine walkOk_ite_status h fun _ => walkOk_ite_status h fun hindex => walkOk_ite_status h fun hbusy =>
    walkOk_ite_status h fun _ => walkOk_fill _ ?_
  have hstate : s.run.state ≠ .running := fun hrun => by simp [Runner.stopped, hrun] at hbusy
  obtain ⟨hqueue, _⟩ := walkOk_sides_agree h hstate
  obtain ⟨_, _, _, _, _, _, _, _, _, hallow⟩ := h
  exact walkOk_of_empty hqueue rfl rfl rfl stackOk_nil RunState.noConfusion (show wordAt ps 0 ≤ 1024 by omega)
    (Nat.zero_le _) hallow

theorem walkOk_takeStop (h : WalkOk s.run) : WalkOk (takeStop ps s).2.run := by
  refine walkOk_ite_status h fun _ => ?_
  have ⟨_, _, _, _, _, _, hexec, _, hspin, hallow⟩ := h
  split
  · exact h
  · dsimp only
    split
    · exact walkOk_of_empty rfl rfl rfl rfl stackOk_nil (fun _ => rfl) hexec (Nat.zero_le _) hallow
    · obtain ⟨hqueue, hptr, _, hbase⟩ := walkOk_sides_agree h ‹_›
      exact walkOk_of_empty hqueue hptr rfl hbase stackOk_nil (fun _ => rfl) hexec hspin hallow

theorem walkOk_takeApplyNow (h : WalkOk s.run) : WalkOk (takeApplyNow ps s).2.run := by
  have ⟨_, _, _, _, _, _, _, _, _, hallow⟩ := h
  exact walkOk_ite_status h fun _ => walkOk_ite_status h fun _ => walkOk_ite_status h fun _ =>
    walkOk_update h _ hallow

end Requests

/-- The taking of a request of any code, row by row of the table of request codes: four of them act on the runner (R181). -/
theorem walkOk_takeByCode (code : Nat) (l : Link) (ps : List Byte) {s : State} (h : WalkOk s.run) :
    WalkOk (takeByCode code l ps s).2.run := by
  unfold takeByCode
  split
  case h_13 => exact walkOk_takeWriteRecords ps h
  case h_15 => exact walkOk_takeStart ps h
  case h_16 => exact walkOk_takeStop ps h
  case h_17 => exact walkOk_takeApplyNow ps h
  case h_40 => exact h
  -- Reports and reads of whole blocks, behind their length check.
  case h_3 | h_4 | h_8 | h_18 | h_27 | h_30 | h_39 => exact walkOk_ite_read h
  -- Requests for other blocks, by the number of their checks.
  case h_1 | h_23 | h_25 | h_28 | h_32 | h_33 | h_34 | h_37 | h_38 => exact walkOk_ite_status h fun _ => h
  case h_2 | h_6 | h_10 | h_12 | h_14 | h_21 | h_22 | h_24 | h_29 | h_35 | h_36 =>
    exact walkOk_ite_status h fun _ => walkOk_ite_status h fun _ => h
  case h_5 => exact walkOk_ite_status h fun _ => walkOk_ite_status h fun _ => walkOk_ite_status h fun _ => h
  case h_7 | h_9 | h_31 =>
    exact walkOk_ite_status h fun _ => walkOk_ite_status h fun _ => walkOk_ite_status h fun _ =>
      walkOk_ite_status h fun _ => h
  -- SET_SEED, ENABLE, SAFE and CLEAR_TRIP, each with a case split of its own.
  case h_11 =>
    refine walkOk_ite_status h fun _ => walkOk_ite_status h fun _ => ?_
    split <;> exact h
  case h_19 =>
    refine walkOk_ite_status h fun _ => ?_
    split
    case h_1 => split <;> exact h
    all_goals exact h
  case h_20 | h_26 =>
    refine walkOk_ite_status h fun _ => ?_
    split <;> exact h

/-! ## Every step -/

theorem walkOk_takeOldest (l : Link) {s : State} (h : WalkOk s.run) : WalkOk (takeOldest l s).run := by
  rcases takeOldest_cases l s with he | ⟨r, ls, he⟩
  · rwa [he]
  · rw [he]
    rcases judge_cases l r s with hj | hj
    · rwa [hj]
    · rw [hj]; exact walkOk_takeByCode _ l _ h

/-- The runner's whole work at a tick, whatever requests are taken during it. -/
theorem walkOk_afterRun (late : Nat) {s : State} (h : WalkOk s.run) : WalkOk (s.afterRun late).run :=
  runTick_keeps (fun t => WalkOk t.run) _ _ _ _ (fun _ _ h => h) (fun _ h => walkOk_takeOldest .pl h)
    (fun k t h => walkOk_applyDue t.map _ _ k (w := t.runSide) h)
    (fun t h => walkOk_update h t.run.applyNow (Nat.le_refl 8)) (fun t h => walkOk_fill t.sched h)
    (fun t h => walkOk_otherWork t.sched t.map _ _ (w := t.runSide) h) late (tickFront s) h

theorem walkOk_stepInvariant : StepInvariant (fun s => WalkOk s.run) where
  blocks {s t} hst h := by
    rwa [show t.run = s.run by rw [hst]]
  reset _ := reset_walkOk
  power _ := reset_walkOk
  adc _ _ h := h
  take code l ps h := walkOk_takeByCode code l ps h
  work {s} late x h := by
    rw [(sameTables_workTick late x s).run]
    exact walkOk_afterRun late h

/-- Settles O60: each part of a step keeps the two sides of the walk in agreement. -/
theorem stepKeepsTheWalk : Obligations.StepKeepsTheWalk :=
  fun _ _ h hx => walkOk_stepInvariant.step h hx

end Sys2Proof.Machine
end

