-- ==== Sys2Proof/Proofs/RunnerRequests.lean ====
section
/-! PROOFS. WRITE_RECORDS, START and STOP on a ready link: the checks in order, the records stored, and the first fetch of a
runner that starts (R78, R79, R83, R84, R90 to R92, R101 to R104). -/

namespace Sys2Proof.Machine

open Sys2Proof.Safety

/-! ## WRITE_RECORDS -/

theorem coversQueued_iff (run : Runner) (first count : Nat) :
    coversQueued run first count = true ↔ ∃ q ∈ run.queue, first ≤ q.src ∧ q.src < first + count := by
  simp [coversQueued]

/-- A queue that is not covered stays, with all of the runner (R84). -/
theorem afterRewrite_of_uncovered (sched : Memory) {run : Runner} {first count : Nat}
    (h : ∀ q ∈ run.queue, q.src < first ∨ first + count ≤ q.src) : afterRewrite sched run first count = run := by
  refine if_neg fun hc => ?_
  obtain ⟨q, hq, hlo, hhi⟩ := (coversQueued_iff _ _ _).mp hc
  have := h q hq
  omega

/-- Settles O24: each refusal by the check that fails first, the acceptance by the laws of the store. -/
theorem writeRecordsStoresAndFlushes : Obligations.WriteRecordsStoresAndFlushes := by
  intro ps s h hwf hps
  dsimp only
  have refused {st : Status} (hres : takeWriteRecords ps (sendRequest 0x18 .pl ps s) = refuse _ st) :
      exec (.writeRecords .pl ps) s = .next (onlyAnswered s .pl st []) :=
    requestOutcome_refused h hps (by decide) (by decide) hres
  refine ⟨fun hlen => ?_, fun hlen hval => ?_, fun hlen hval => ?_⟩
  · exact refused (if_pos (by omega))
  · exact refused ((if_neg (by omega)).trans (if_pos (by omega)))
  · have hres : takeWriteRecords ps (sendRequest 0x18 .pl ps s) = (.status .ok, { sendRequest 0x18 .pl ps s with
        sched := s.sched.writeBytes (recordAddress (wordAt ps 0)) (ps.drop 3)
        run := afterRewrite (s.sched.writeBytes (recordAddress (wordAt ps 0)) (ps.drop 3)) s.run (wordAt ps 0)
          (byteAt ps 2) }) :=
      (if_neg (by omega)).trans (if_neg (by omega))
    refine ⟨_, _, exec_writeRecords_ready h ps hps _ hres rfl, Memory.writeBytes_wf _ _ hwf, fun i hi => ?_,
      fun a ha => ?_, fun hout => afterRewrite_of_uncovered _ hout,
      fun hcov => if_pos ((coversQueued_iff _ _ _).mpr hcov)⟩
    · exact Memory.read_writeBytes_drop hwf _ ps (by omega)
    · exact Memory.read_writeBytes_outside hwf (by rw [List.length_drop]; omega)

/-! ## The first fetch -/

/-- A fill that can fetch begins with one fetch, and what that places comes first (R90). -/
theorem fill_queue_of_canFetch (sched : Memory) {run : Runner} (h : canFetch run = true) :
    ∃ more, (fill sched run).queue = (fetchOne sched run).queue ++ more := by
  rw [show fill sched run = fillUpTo sched 3 (fetchOne sched run) from if_pos h]
  exact fillUpTo_queue sched 3 _

/-- The fault that the first fetch after START can meet: with no loop open and no control record behind it, a refused record or
a LOOP_END (R77, R92). -/
theorem fetchFault_started (sched : Memory) (run : Runner) {index : Nat} (hindex : index ≤ 1023) (base : Position) :
    fetchFault sched (run.started index base) =
      if (recordAt sched index).isBad then some .badRecord
      else if (recordAt sched index).kind = .loopEnd then some .loopUnbalanced else none := by
  have hptr : ¬ Config.records ≤ index := by rw [Config.records]; omega
  simp only [fetchFault, Bool.and_eq_true, decide_eq_true_eq]
  simp [Runner.started, hptr, Config.loopFrames]

/-- From a chain base at angle 0 no angle is behind (R78). -/
theorem duePoint_of_cycle_start (c : Word32) (d a : Nat) :
    duePoint { c := c, ang := 0 } d a = { c := c + BitVec.ofNat 32 d, ang := BitVec.ofNat 16 a } :=
  if_neg fun h => Nat.not_lt_zero a h.2

theorem fetchOne_queue_of_fault {sched : Memory} {run : Runner} {reason : FaultReason}
    (h : fetchFault sched run = some reason) :
    (fetchOne sched run).queue = run.queue ++ [{ src := run.fetchPtr, item := .marker reason, due := run.fBase }] := by
  rw [fetchOne, h]
  rfl

theorem fetchOne_queue_of_no_fault {sched : Memory} {run : Runner} {r : Record} (h : fetchFault sched run = none)
    (hr : recordAt sched run.fetchPtr = r) :
    (fetchOne sched run).queue = run.queue ++ [{
      src := run.fetchPtr, item := .record r
      due := if r.isControl then run.fBase else duePoint run.fBase r.delay r.angle }] := by
  rw [fetchOne, h, hr]
  dsimp only
  unfold placeRecord
  split <;> rfl

/-- What the first fetch after START places: the record at the index, timed records due from (c, 0) on, or a marker (R78, R79,
R91, R92). -/
theorem fetchOne_started_queue (sched : Memory) (run : Runner) {index : Nat} (hindex : index ≤ 1023) (c : Word32)
    {r : Record} (hr : recordAt sched index = r) :
    (fetchOne sched (run.started index { c := c, ang := 0 })).queue = run.queue ++ [{
      src := index
      item := if r.isBad then .marker .badRecord else if r.kind = .loopEnd then .marker .loopUnbalanced else .record r
      due := if r.isBad = true ∨ r.isControl = true then { c := c, ang := 0 }
             else { c := c + BitVec.ofNat 32 r.delay, ang := BitVec.ofNat 16 r.angle } }] := by
  have hfault := fetchFault_started sched run hindex { c := c, ang := 0 }
  rw [hr] at hfault
  by_cases hbad : r.isBad = true
  · rw [if_pos hbad] at hfault
    rw [fetchOne_queue_of_fault hfault, if_pos hbad, if_pos (.inl hbad)]
    rfl
  · rw [if_neg hbad] at hfault
    rw [if_neg hbad]
    simp only [or_iff_right hbad]
    by_cases hend : r.kind = .loopEnd
    · have hc : r.isControl = true := by rw [Record.isControl, hend]
      rw [if_pos hend] at hfault
      rw [fetchOne_queue_of_fault hfault, if_pos hend, if_pos hc]
      rfl
    · rw [if_neg hend] at hfault
      rw [fetchOne_queue_of_no_fault hfault hr, if_neg hend, ← duePoint_of_cycle_start]
      rfl

/-! ## START and STOP -/

/-- START and APPLY_NOW are refused BUSY but for a stopped runner with no APPLY_NOW pending (R103, R105). -/
theorem Runner.busy_iff (run : Runner) :
    (!run.stopped || run.applyNow.isSome) = true ↔ ¬ (run.stopped = true ∧ run.applyNow = none) := by
  cases run.stopped <;> cases run.applyNow <;> simp

/-- A START that passes every check (R103). -/
theorem exec_start_accepted {ps : List Byte} {s : State} (h : Ready .pl s) (hlen : ps.length = 2)
    (hindex : wordAt ps 0 ≤ 1023) (hstopped : s.run.stopped = true) (hnow : s.run.applyNow = none)
    (hhold : s.guard.hold = false) :
    exec (.start .pl ps) s = .next { s with
      run := fill s.sched (s.run.started (wordAt ps 0) { c := s.tb.c + 1, ang := 0 })
      trace := s.trace.defer .start (wordAt ps 0), links := answeredOn s .pl .ok [] } := by
  have hfree : ¬ (!s.run.stopped || s.run.applyNow.isSome) = true := fun hb =>
    (Runner.busy_iff _).mp hb ⟨hstopped, hnow⟩
  have hres : takeStart ps (sendRequest 0x1A .pl ps s) = (.status .ok, { sendRequest 0x1A .pl ps s with
      run := fill s.sched (s.run.started (wordAt ps 0) { c := s.tb.c + 1, ang := 0 })
      trace := s.trace.defer .start (wordAt ps 0) }) :=
    (if_neg (by omega)).trans ((if_neg (by omega)).trans ((if_neg hfree).trans
      (if_neg (Bool.eq_false_iff.mp hhold))))
  exact exec_start_ready h ps (by omega) _ hres rfl

/-- A STOP of a runner that is not IDLE (R104). -/
theorem exec_stop_accepted {ps : List Byte} {s : State} (h : Ready .pl s) (hlen : ps.length = 0)
    (hidle : s.run.state ≠ .idle) :
    exec (.stop .pl ps) s = .next { s with
      run := { (if s.run.state = .running then flush s.run else s.run) with state := .idle, cStack := [], fStack := [] }
      trace := s.trace.defer .stop s.run.execPtr, links := answeredOn s .pl .ok [] } := by
  have hres : takeStop ps (sendRequest 0x1B .pl ps s) = (.status .ok, { sendRequest 0x1B .pl ps s with
      run := { (if s.run.state = .running then flush s.run else s.run) with state := .idle, cStack := [], fStack := [] }
      trace := s.trace.defer .stop s.run.execPtr }) :=
    (if_neg (by omega)).trans (if_neg hidle)
  exact exec_stop_ready h ps (by omega) _ hres rfl

/-- Settles O32: each refusal by the check that fails first, START's head entry by its first fetch, STOP state by state. -/
theorem startAndStop : Obligations.StartAndStop := by
  refine ⟨fun ps s h hps => ?_, fun ps s h hps => ?_⟩
  · dsimp only
    rw [← Runner.stopped_iff]
    have refused {st : Status} (hres : takeStart ps (sendRequest 0x1A .pl ps s) = refuse _ st) :
        exec (.start .pl ps) s = .next (onlyAnswered s .pl st []) :=
      requestOutcome_refused h hps (by decide) (by decide) hres
    refine ⟨fun hlen => ?_, fun hlen hidx => ?_, fun hlen hidx hb => ?_, fun hlen hidx hst hnow hhold => ?_,
      fun hlen hidx hst hnow hhold => ?_⟩
    · exact refused (if_pos hlen)
    · exact refused ((if_neg (by omega)).trans (if_pos hidx))
    · exact refused ((if_neg (by omega)).trans ((if_neg (by omega)).trans (if_pos ((Runner.busy_iff _).mpr hb))))
    · exact refused ((if_neg (by omega)).trans ((if_neg (by omega)).trans
        ((if_neg fun hb => (Runner.busy_iff s.run).mp hb ⟨hst, hnow⟩).trans (if_pos hhold))))
    · refine ⟨_, exec_start_accepted h hlen hidx hst hnow hhold, rfl, fun hqueue hallow => ?_⟩
      have hcan : canFetch (s.run.started (wordAt ps 0) { c := s.tb.c + 1, ang := 0 }) = true :=
        (canFetch_iff _).mpr ⟨rfl, rfl, by simp [Runner.started, hqueue], hallow⟩
      obtain ⟨more, hmore⟩ := fill_queue_of_canFetch s.sched hcan
      rw [hmore, fetchOne_started_queue s.sched s.run hidx _ rfl, hqueue]
      rfl
  · have refused {st : Status} (hres : takeStop ps (sendRequest 0x1B .pl ps s) = refuse _ st) :
        exec (.stop .pl ps) s = .next (onlyAnswered s .pl st []) :=
      requestOutcome_refused h hps (by decide) (by decide) hres
    refine ⟨fun hlen => ?_, fun hlen hidle => ?_, fun hlen hidle => ?_⟩
    · exact refused (if_pos hlen)
    · exact exec_stop_ready h ps hps (.status .ok, sendRequest 0x1B .pl ps s)
        ((if_neg (by omega)).trans (if_pos hidle)) rfl
    · refine ⟨_, exec_stop_accepted h hlen hidle, fun hrun => ?_, fun hrun => ?_⟩
      · rw [if_pos hrun]; rfl
      · rw [if_neg hrun]

end Sys2Proof.Machine
end

