-- ==== Sys2Proof/Proofs/MarkAndControl.lean ====
section
/-! PROOFS. A tick at which one MARK or one control record is applied: the trace and the capture that the marker triggers, the
committed side's walk (R74 to R76, R82, R95, R97, R147, R157). -/

namespace Sys2Proof.Machine

open Sys2Proof.Safety

/-! ## MARK -/

/-- What a capture takes leaves its stamp. -/
theorem offerEntries_stamp (es : List CapEntry) (s : State) : (offerEntries es s).cap.stamp = s.cap.stamp := by
  induction es generalizing s with
  | nil => rfl
  | cons e es ih =>
    rw [offerEntries, ih, offerEntry]
    split <;> rfl

/-- The stamp after a tick is the one that the trigger leaves, on the events up to the runner's work (R147). -/
theorem workTick_stamp (x : Bool) (s : State) : (workTick 0 x s).cap.stamp =
    (s.cap.atTick s.tb.wraps x s.runAfter.events s.tb.advance.position).stamp := by
  rw [workTick_eq_respondTick, respondTick_cap, State.beforeResponses, traceTick_cap, captureTick, offerEntries_stamp]
  simp

/-- A capture ARMED on MARK takes its stamp at the application of a MARK that passes its filter (R147). -/
theorem workTick_stamp_of_marked (x : Bool) {s : State} {a : ArmSettings} {m : Nat} (hstate : s.cap.state = .armed)
    (harm : s.cap.arm = some a) (hsource : a.source = .mark) (hfilter : a.filterMatch = false ∨ a.filterValue = m)
    (hmarked : .marked m ∈ s.runAfter.events) : (workTick 0 x s).cap.stamp = some (comingPosition s) := by
  have hon : a.marksOn (.marked m) = true := by simpa [ArmSettings.marksOn, ArmSettings.accepts] using hfilter
  have htrig : s.cap.triggered s.tb.wraps x s.runAfter.events = true := by
    have hoccurs : a.occurs s.tb.wraps (x && !s.cap.trigLevel) s.runAfter.events = true := by
      rw [ArmSettings.occurs, hsource]
      exact List.any_eq_true.mpr ⟨_, hmarked, hon⟩
    rw [Capture.triggered, harm]
    simp [hstate, hoccurs]
  rw [workTick_stamp, Capture.atTick, htrig]
  rfl

/-- Settles O35: MARK is a timed record that changes nothing and notes its marker. -/
theorem markAppliedAndTraced : Obligations.MarkAppliedAndTraced := by
  intro x s e rest r h hi hk
  have hr : r.appliesTimed s.map = true := by rw [Record.appliesTimed, hk]
  have hrow : exec (.mark x) s = .next (workTick 0 x s) :=
    congrArg Host.Outcome.next (eventTick_oneTimed x h hi hr (by simp [isApplied, hk]))
  have htimed := timedApplied_workTick x h hi hr
  have hmarked : .marked r.p1 ∈ s.runAfter.events := by
    rw [runAfter_oneTimed h hi hr]
    simp [applyTimed, Record.extraEvents, hk]
  refine ⟨workTick 0 x s, hrow, exec_sampleTick_plain x s h.1, htimed, ⟨?_, fun p => ?_⟩, fun hnt hdef hmade hroom => ?_,
    fun a hstate harm hsource hfilter => workTick_stamp_of_marked x hstate harm hsource hfilter hmarked⟩
  · rw [workTick_tb_oneTimed x h hi hr, Record.changeTimebase, hk]
  · simpa [Record.changePhases, hk, rampStepped_eq] using sameSettings_oneTimed x h hi hr p
  · rw [htimed.1 ⟨hnt, hdef, hmade⟩ hroom, recordTraced, hk]
    simp [RecKind.code]

/-! ## Control records -/

/-- A control record is applied as one, whichever of the three kinds it has (R97). -/
theorem applyEntry_control {map : Memory} {e : QueueEntry} {r : Record} (hi : e.item = .record r)
    (hc : r.isControl = true) (prev pos : Position) (w : RunSide) :
    applyEntry map prev pos w e = applyControl w e r pos := by
  unfold Record.isControl at hc
  unfold applyEntry
  rw [hi]
  dsimp only
  split at hc
  case h_4 => cases hc
  all_goals rename_i hk; rw [hk]

theorem walkControl_loopBegin {r : Record} (hk : r.kind = .loopBegin) (x : Nat) (st : List LoopFrame) :
    walkControl r x st = ({ body := x + 1, remaining := r.p1 } :: st, x + 1) := by
  rw [walkControl.eq_def, hk]

theorem walkControl_loopEnd {r : Record} (hk : r.kind = .loopEnd) (x : Nat) (top : LoopFrame) (below : List LoopFrame) :
    walkControl r x (top :: below) =
      if top.remaining = 0 then (below, x + 1)
      else ({ body := top.body, remaining := top.remaining - 1 } :: below, top.body) := by
  rw [walkControl.eq_def, hk]

theorem walkControl_goto {r : Record} (hk : r.kind = .goto) (x : Nat) (st : List LoopFrame) :
    walkControl r x st = (st, r.p1) := by
  rw [walkControl.eq_def, hk]

/-- The claims' account of a tick whose one due record is a control record: RUNNING with the chain base as it stood, the rest
of the queue still ahead, one more APPLIED and no more LATE, a RECORD entry that is not late (R97, R157). -/
def ControlApplied (x : Bool) (s : State) (e : QueueEntry) (rest : List QueueEntry) (r : Record) (t : State) : Prop :=
  exec (.sampleTick x) s = .next t ∧ OnlyAdvanced s t ∧ t.run.state = .running ∧ t.run.cBase = s.run.cBase ∧
  (∃ more, t.run.queue = rest ++ more) ∧
  t.cnt.live.applied = min ((countedFrom s).applied + 1) 65535 ∧ t.cnt.live.late = (countedFrom s).late ∧
  (QuietTrace s → s.trace.fifo.length < 64 → t.trace.fifo = s.trace.fifo ++ recordTraced s r e.src e.due false)

section OneControl

variable {s : State} {e : QueueEntry} {rest : List QueueEntry} {r : Record}

/-- The runner's part after a tick that applies one control record. -/
theorem runAfter_oneControl (h : OneDue s e rest) (hi : e.item = .record r) (hc : r.isControl = true) :
    s.runAfter =
      { applyControl s.runStart e r s.tb.advance.position with
        run := fill s.sched { s.run with
          allowance := 8, queue := rest, cStack := (walkControl r e.src s.run.cStack).1
          execPtr := (walkControl r e.src s.run.cStack).2 } } := by
  have ⟨_, _, _, hqueue, _⟩ := h
  have hrun : (applyControl s.runStart e r s.tb.advance.position).run =
      { s.run with
        allowance := 8, queue := rest, cStack := (walkControl r e.src s.run.cStack).1
        execPtr := (walkControl r e.src s.run.cStack).2 } := by
    simp [applyControl, State.runStart, hqueue]
  rw [oneDue_runAfter h _ (applyEntry_control hi hc _ _ _).symm (.inr (by rw [hrun])), hrun]

/-- A tick that applies one control record is the row of its kind, and the committed side stands where the walk has brought it
(R97). -/
theorem oneControl_tick {row : Instr} (x : Bool) (h : OneDue s e rest) (hi : e.item = .record r) (hc : r.isControl = true)
    (hrow : exec row s = .next (eventTick (isApplied r.kind) x s)) :
    ∃ t, exec row s = .next t ∧ ControlApplied x s e rest r t ∧
      (t.run.cStack, t.run.execPtr) = walkControl r e.src s.run.cStack := by
  have hafter := runAfter_oneControl h hi hc
  have ⟨hplain, _, hstate, _⟩ := h
  have hnoted : eventTick (isApplied r.kind) x s = workTick 0 x s := by
    refine eventTick_plain _ x s hplain (List.any_eq_true.mpr ⟨.applied r.kind, ?_, by simp [isApplied]⟩)
    rw [hafter]
    exact List.mem_append_right _ List.mem_cons_self
  refine ⟨workTick 0 x s, by rw [hrow, hnoted], ⟨exec_sampleTick_plain x s hplain, ⟨?_, fun p => ?_⟩, ?_⟩, ?_⟩
  · rw [workTick_tb, hafter]; rfl
  · rw [rampStepped_eq]
    simpa [hafter, applyControl, State.runStart] using sameSettings_workTick x s p
  · rw [workTick_run, workTick_live_applied, workTick_live_late]
    refine ⟨?_, ?_, ?_, ?_, ?_, fun hq hroom => workTick_fifo_record x hq hroom (by rw [hafter]; rfl)⟩
    · rw [hafter]; simpa using hstate
    · rw [hafter]; simp
    · rw [hafter]; exact fill_queue _ _
    · rw [hafter, ← tickFront_applied]; rfl
    · rw [hafter, ← tickFront_late]; rfl
  · rw [workTick_run, hafter]
    simp

end OneControl

/-- Settles O37: the three kinds walk the committed side as R75 and R76 say. -/
theorem controlRecordsWalk : Obligations.ControlRecordsWalk := by
  intro x s e rest r h hi
  refine ⟨fun hk => ?_, fun hk top below hstack => ?_, fun hk => ?_⟩
  · obtain ⟨t, hrow, happlied, hwalk⟩ :=
      oneControl_tick (row := .loopBegin x) x h hi (by rw [Record.isControl, hk]) (by rw [hk]; rfl)
    obtain ⟨hst, hptr⟩ := Prod.mk.inj (hwalk.trans (walkControl_loopBegin hk _ _))
    exact ⟨t, hrow, happlied, hptr, hst⟩
  · obtain ⟨t, hrow, happlied, hwalk⟩ :=
      oneControl_tick (row := .loopEnd x) x h hi (by rw [Record.isControl, hk]) (by rw [hk]; rfl)
    rw [hstack, walkControl_loopEnd hk] at hwalk
    refine ⟨t, hrow, happlied, fun h0 => ?_, fun h0 => ?_⟩
    · obtain ⟨hst, hptr⟩ := Prod.mk.inj (hwalk.trans (if_pos h0))
      exact ⟨hptr, hst⟩
    · obtain ⟨hst, hptr⟩ := Prod.mk.inj (hwalk.trans (if_neg h0))
      exact ⟨hptr, hst⟩
  · obtain ⟨t, hrow, happlied, hwalk⟩ :=
      oneControl_tick (row := .goto x) x h hi (by rw [Record.isControl, hk]) (by rw [hk]; rfl)
    obtain ⟨hst, hptr⟩ := Prod.mk.inj (hwalk.trans (walkControl_goto hk _ _))
    exact ⟨t, hrow, happlied, hptr, hst⟩

end Sys2Proof.Machine
end

