-- ==== Sys2Proof/Proofs/StopAndHold.lean ====
section
/-! PROOFS. The ticks at which END or a fault marker stops the runner, and those at which the hold is taken or released: the
runner's part after them, and what the whole tick shows of it (R98, R99, R101, R108, R109, R157). -/

namespace Sys2Proof.Machine

open Sys2Proof.Safety

/-! ## What a tick shows of the runner's work -/

section RunnerWork

variable {s : State}

/-- Where the runner touches neither the Timebase nor the phases, the tick leaves them to their own advance. -/
theorem onlyAdvanced_workTick (x : Bool) (htb : s.runAfter.tb = s.tb.advance)
    (hph : s.runAfter.ph = s.ph.each Phase.rampStep) : OnlyAdvanced s (workTick 0 x s) := by
  refine ⟨(workTick_tb x s).trans htb, fun p => ?_⟩
  rw [rampStepped_eq, ← Phases.get_each s.ph Phase.rampStep, ← hph]
  exact sameSettings_workTick x s p

/-- The row of an event that the runner's work notes is the whole tick (log 2). -/
theorem exec_row_of_runAfter {row : Instr} {hit : TickEvent → Bool} {x : Bool} (hplain : PlainTick s)
    (hrow : exec row s = .next (eventTick hit x s)) {e : TickEvent} (he : e ∈ s.runAfter.events) (hhit : hit e = true) :
    exec row s = .next (workTick 0 x s) := by
  rw [hrow, eventTick_plain hit x s hplain (List.any_eq_true.mpr ⟨e, he, hhit⟩)]

/-- A notice that the runner's work raises last is raised after the tick. -/
theorem workTick_notice_of_raise (x : Bool) {ls : Links} {n : Notice} (hlinks : s.runAfter.links = ls.raise n) {l : Link}
    {i : Nat} (hbit : (noticeBit l n).getLsbD i = true) :
    ((workTick 0 x s).links.get l).notices.getLsbD i = true := by
  refine workTick_notice x ?_
  rw [hlinks, Links.get_raise, LinkState.raise_notices, BitVec.getLsbD_or, hbit, Bool.or_true]

/-- The entries that the runner makes enter a trace that takes no others and has room for them (R157, R158). -/
theorem workTick_fifo_of_made (x : Bool) (hq : QuietTrace s) {es : List TraceEntry}
    (htrace : s.runAfter.trace = { s.trace with made := s.trace.made ++ es })
    (hroom : s.trace.fifo.length + es.length ≤ 64) :
    (workTick 0 x s).trace.fifo = s.trace.fifo ++ es := by
  obtain ⟨hnt, hdef, hnone⟩ := hq
  rw [workTick_fifo_noTrip x hnt (by rw [htrace]; exact hdef), htrace]
  dsimp only
  rw [hnone, List.nil_append, List.take_of_length_le (by omega)]

/-- One record applied counts in APPLIED and, if it is late, in LATE (R96). -/
theorem workTick_counts_of_applied (x : Bool) {late : Bool}
    (hcnt : s.runAfter.cnt = (tickFront s).cnt.count (fun n => n.addApplied.addLate late)) :
    (workTick 0 x s).cnt.live.applied = min ((countedFrom s).applied + 1) 65535 ∧
    (workTick 0 x s).cnt.live.late = if late = true then min ((countedFrom s).late + 1) 65535 else (countedFrom s).late := by
  rw [workTick_live_applied, workTick_live_late, hcnt, CounterBank.count, Nine.addLate, ← tickFront_applied,
    ← tickFront_late]
  split <;> exact ⟨rfl, rfl⟩

end RunnerWork

/-- An END makes its RECORD entry, unless suppressed, and its END entry behind it (R98, R157). -/
theorem makeRecord_make_endEntry (s : State) (r : Record) (i : Nat) (due : Position) (late : Bool) :
    (s.trace.makeRecord r i due s.tb.advance.position late).make (plainEntry .endEntry i s.tb.advance.position .nothing) =
      { s.trace with
        made := s.trace.made ++ (recordTraced s r i due late ++ [eventEntry s .endEntry i .nothing]) } := by
  rw [recordTraced_eq, Trace.makeRecord, ← List.append_assoc]
  split
  · rw [List.append_nil]; rfl
  · rfl

theorem recordTraced_length_le (s : State) (r : Record) (i : Nat) (due : Position) (late : Bool) :
    (recordTraced s r i due late).length ≤ 1 := by
  unfold recordTraced
  split <;> simp

/-! ## END and fault markers -/

section Stop

variable {s : State} {e : QueueEntry} {rest : List QueueEntry} {r : Record}

/-- The runner's part after a tick whose one due record is END (R98). -/
theorem runAfter_end (h : OneDue s e rest) (hi : e.item = .record r) (hk : r.kind = .endRecord) :
    s.runAfter = applyEnd s.runStart e r s.tb.advance.position (e.due.le s.tb.position) := by
  have happly : applyEntry s.map s.tb.position s.tb.advance.position s.runStart e =
      applyEnd s.runStart e r s.tb.advance.position (e.due.le s.tb.position) := by
    unfold applyEntry
    rw [hi]
    dsimp only
    rw [hk]
  have hstate : (applyEnd s.runStart e r s.tb.advance.position (e.due.le s.tb.position)).run.state ≠ .running :=
    RunState.noConfusion
  rw [oneDue_runAfter h _ happly.symm (.inl hstate), fill_not_running _ _ hstate]

/-- The runner's part after a tick whose one due entry is a fault marker (R99). -/
theorem runAfter_marker {reason : FaultReason} (h : OneDue s e rest) (hi : e.item = .marker reason) :
    s.runAfter = enterFaulted s.runStart s.tb.advance.position reason e.src .faultMarker := by
  have happly : applyEntry s.map s.tb.position s.tb.advance.position s.runStart e =
      enterFaulted s.runStart s.tb.advance.position reason e.src .faultMarker := by
    unfold applyEntry
    rw [hi]
  have hstate : (enterFaulted s.runStart s.tb.advance.position reason e.src .faultMarker).run.state ≠ .running :=
    RunState.noConfusion
  rw [oneDue_runAfter h _ happly.symm (.inl hstate), fill_not_running _ _ hstate]

end Stop

/-- Settles O36: the two ends of a run, each by the runner's part that it leaves. -/
theorem endAndFaultMarkerStopTheRunner : Obligations.EndAndFaultMarkerStopTheRunner := by
  refine ⟨fun x s e rest r h hi hk => ?_, fun x s e rest reason h hi => ?_⟩
  · have hafter := runAfter_end h hi hk
    obtain ⟨happlied, hlate⟩ := workTick_counts_of_applied x (late := e.due.le s.tb.position)
      (show s.runAfter.cnt = _ by rw [hafter]; rfl)
    refine ⟨workTick 0 x s, exec_row_of_runAfter (e := .applied .endRecord) h.1 rfl ?_ rfl, exec_sampleTick_plain x s h.1,
      onlyAdvanced_workTick x (by rw [hafter]; rfl) (by rw [hafter]; rfl), ?_, happlied, hlate,
      workTick_notice_of_raise x (l := .pl) (n := .runEnded) (by rw [hafter]; rfl) rfl, fun hq hroom => ?_⟩
    · rw [hafter]
      exact List.mem_append_right _ List.mem_cons_self
    · rw [workTick_run, hafter]; rfl
    · have htrace : s.runAfter.trace = { s.trace with
          made := s.trace.made ++ (recordTraced s r e.src e.due (e.due.le s.tb.position) ++
            [eventEntry s .endEntry e.src .nothing]) } := by
        rw [hafter]
        exact makeRecord_make_endEntry s r e.src e.due _
      have hlen := recordTraced_length_le s r e.src e.due (e.due.le s.tb.position)
      rw [List.append_assoc]
      exact workTick_fifo_of_made x hq htrace (by rw [List.length_append, List.length_singleton]; omega)
  · have hafter := runAfter_marker h hi
    have hlinks : s.runAfter.links = s.runStart.links.raise .runFaulted := by rw [hafter]; rfl
    refine ⟨workTick 0 x s, exec_row_of_runAfter (e := .faultMarker) h.1 rfl ?_ rfl, exec_sampleTick_plain x s h.1,
      onlyAdvanced_workTick x (by rw [hafter]; rfl) (by rw [hafter]; rfl), ?_, ?_, ?_,
      workTick_notice_of_raise x (l := .pl) hlinks rfl, workTick_notice_of_raise x (l := .gl) hlinks rfl,
      fun hnt hdef hmade hroom => workTick_fifo_of_made x ⟨hnt, hdef, hmade⟩ (by rw [hafter]; rfl) hroom⟩
    · rw [hafter]
      exact List.mem_append_right _ List.mem_cons_self
    · rw [workTick_run, hafter]; rfl
    · rw [workTick_live_applied, hafter, ← tickFront_applied]; rfl
    · rw [workTick_live_late, hafter, ← tickFront_late]; rfl

/-! ## The hold -/

section Hold

variable {s : State}

/-- A runner that is not RUNNING, or takes the hold, does its other work at the tick (R93). -/
theorem runAfter_of_not_applies (h : appliesEntries s.run s.tb.wraps s.holdRead = false) :
    s.runAfter = otherWork s.sched s.map s.tb.advance.position s.holdRead s.runStart := by
  have happ : ¬ appliesEntries (tickFront s).runSide.run s.tb.wraps s.holdRead = true := Bool.eq_false_iff.mp h
  rw [State.runAfter, runnerTick, if_neg happ]
  rfl

/-- A hold flag that stands before the tick is read at it, whatever trips there (R93, R108). -/
theorem holdRead_of_hold (h : s.guard.hold = true) : s.holdRead = true := by
  rw [State.holdRead, holdSeen, h, Bool.true_or]

/-- The runner's part after a tick in RUNNING that takes the hold (R108). -/
theorem runAfter_takeHold (hstate : s.run.state = .running) (hwrap : s.tb.wraps = true) (hhold : s.guard.hold = true) :
    s.runAfter = takeTheHold s.runStart s.tb.advance.position := by
  have happ : appliesEntries s.run s.tb.wraps s.holdRead = false := by
    simp [appliesEntries, hwrap, holdRead_of_hold hhold]
  rw [runAfter_of_not_applies happ, otherWork, show s.runStart.run.state = .running from hstate]

/-- The runner's part after a tick in HELD: it stays while it reads the flag asserted, and is released otherwise (R109). -/
theorem runAfter_held (hstate : s.run.state = .held) :
    s.runAfter = if s.holdRead = true then s.runStart else releaseTheHold s.sched s.runStart s.tb.advance.position := by
  have happ : appliesEntries s.run s.tb.wraps s.holdRead = false := by simp [appliesEntries, hstate]
  rw [runAfter_of_not_applies happ, otherWork, show s.runStart.run.state = .held from hstate]

/-- The front half of a tick does not release the hold: that is the runner's. -/
theorem releaseHold_not_mem_tickFront (s : State) : TickEvent.releaseHold ∉ (tickFront s).events := by
  rw [tickFront_events]
  split <;> simp [Guard.eventsAt, CounterBank.eventsAt]

/-- A runner that stays HELD does not make the tick the row RELEASE_HOLD. -/
theorem exec_releaseHold_of_stays (x : Bool) (hplain : PlainTick s) (hafter : s.runAfter = s.runStart) :
    exec (.releaseHold x) s = .next s := by
  have hnot : TickEvent.releaseHold ∉ (workTick 0 x s).events := by
    rw [mem_workTick_events_runAfter x s TickEvent.noConfusion TickEvent.noConfusion, hafter]
    exact releaseHold_not_mem_tickFront s
  show Host.Outcome.next _ = _
  rw [eventTick_isEvent _ x (plainTick_works hplain), tick_working x s (plainTick_works hplain) hplain.2.2, if_neg hnot]

end Hold

/-- Settles O38: the runner's part at the boundary that takes the hold, and in HELD by the flag that it reads. -/
theorem holdTakenAndReleased : Obligations.HoldTakenAndReleased := by
  intro x s hplain
  have htick := exec_sampleTick_plain x s hplain
  refine ⟨fun hstate hwrap hhold => ?_, fun hstate hhold hnt => ?_, fun hstate hhold => ?_⟩
  · have hafter := runAfter_takeHold hstate hwrap hhold
    refine ⟨workTick 0 x s, exec_row_of_runAfter (e := .takeHold) hplain rfl ?_ rfl, htick,
      onlyAdvanced_workTick x (by rw [hafter]; rfl) (by rw [hafter]; rfl), ?_,
      workTick_notice_of_raise x (l := .pl) (n := .runHeld) (by rw [hafter]; rfl) rfl,
      fun hq hroom => workTick_fifo_of_made x hq (by rw [hafter]; rfl) hroom⟩
    · rw [hafter]
      exact List.mem_append_right _ List.mem_cons_self
    · rw [workTick_run, hafter]; rfl
  · have hread : ¬ s.holdRead = true := by rw [holdRead_noTrip s hnt, hhold]; exact Bool.false_ne_true
    have hafter := (runAfter_held hstate).trans (if_neg hread)
    refine ⟨workTick 0 x s, exec_row_of_runAfter (e := .releaseHold) hplain rfl ?_ rfl, htick,
      onlyAdvanced_workTick x (by rw [hafter]; rfl) (by rw [hafter]; rfl), ?_,
      fun hq hroom => workTick_fifo_of_made x hq (by rw [hafter]; rfl) hroom⟩
    · rw [hafter]
      exact List.mem_append_right _ List.mem_cons_self
    · rw [workTick_run, hafter]; rfl
  · have hafter := (runAfter_held hstate).trans (if_pos (holdRead_of_hold hhold))
    refine ⟨exec_releaseHold_of_stays x hplain hafter, workTick 0 x s, htick,
      onlyAdvanced_workTick x (by rw [hafter]; rfl) (by rw [hafter]; rfl), ?_⟩
    rw [workTick_run, hafter]; rfl

end Sys2Proof.Machine
end

