-- ==== Sys2Proof/Proofs/Channels.lean ====
section
/-! PROOFS. The eight channels and the masks that name them: a channel read after another is set, the highest channel of a mask,
and the stop channel raised to it (R120, R136). -/

namespace Sys2Proof.Machine

/-! ## The eight channels -/

theorem Eight.getElem?_toList {α : Type} (e : Eight α) {i : Nat} (hi : i ≤ 7) : e.toList[i]? = some (e.get i) := by
  interval_cases i <;> rfl

theorem Eight.toList_set {α : Type} (e : Eight α) {c : Nat} (hc : c ≤ 7) (x : α) :
    (e.set c x).toList = e.toList.set c x := by
  interval_cases c <;> rfl

/-- A channel read after one is set: the thing set in its own place, every other one as before. -/
theorem Eight.get_set {α : Type} (e : Eight α) {c i : Nat} (hc : c ≤ 7) (hi : i ≤ 7) (x : α) :
    (e.set c x).get i = if c = i then x else e.get i := by
  have hlen : c < e.toList.length := Nat.lt_succ_of_le hc
  refine Option.some.inj ?_
  rw [← getElem?_toList _ hi, toList_set e hc, List.getElem?_set, if_pos hlen, getElem?_toList e hi]
  split <;> rfl

/-- The thing set is read again at its own number, also above 7, where both stand for channel 7. -/
theorem Eight.get_set_same {α : Type} (e : Eight α) (c : Nat) (x : α) : (e.set c x).get c = x := by
  unfold Eight.get Eight.set
  split <;> simp_all

/-- What holds of every channel's thing and of the one set holds of every one afterwards. -/
theorem Eight.forall_get_set {α : Type} {p : α → Prop} {e : Eight α} (c : Nat) {x : α} (he : ∀ i, p (e.get i)) (hx : p x)
    (i : Nat) : p ((e.set c x).get i) := by
  rw [Eight.get_set_of_eq e c x p (propext ⟨fun _ => he c, fun _ => hx⟩) i]
  exact he i

/-- A channel's thing after all eight are mapped; a number above 7 stands for channel 7. -/
theorem Eight.get_mapIdx {α β : Type} (e : Eight α) (f : Nat → α → β) (i : Nat) :
    (e.mapIdx f).get i = f (min i 7) (e.get i) := by
  rcases Nat.lt_or_ge i 7 with hi | hi
  · interval_cases i <;> rfl
  · obtain ⟨k, rfl⟩ : ∃ k, i = k + 7 := ⟨i - 7, by omega⟩
    rw [Nat.min_eq_right hi]
    rfl

/-! ## Channel masks -/

theorem mem_channelNumbers (i : Nat) : i ∈ channelNumbers ↔ i ≤ 7 := by
  simp [channelNumbers]
  omega

theorem channelNumbers_eq_range : channelNumbers = List.range 8 := rfl

/-- The highest channel of a mask: a channel that it names, with none above. -/
theorem highestChannel_eq_some {m : Byte} {h : Nat} :
    highestChannel m = some h ↔
      h ≤ 7 ∧ channelIn m h = true ∧ ∀ i, h < i → i ≤ 7 → channelIn m i = false := by
  rw [highestChannel, channelNumbers_eq_range, List.find?_eq_some_iff_getElem]
  simp only [List.length_reverse, List.length_range, List.getElem_reverse, List.getElem_range, Bool.not_eq_true']
  constructor
  · rintro ⟨hin, i, hi, rfl, habove⟩
    refine ⟨by omega, hin, fun j hj hj7 => ?_⟩
    have := habove (7 - j) (by omega)
    rwa [show 8 - 1 - (7 - j) = j by omega] at this
  · rintro ⟨h7, hin, habove⟩
    exact ⟨hin, 7 - h, by omega, by omega, fun j hj => habove _ (by omega) (by omega)⟩

theorem highestChannel_eq_none {m : Byte} : highestChannel m = none ↔ ∀ i, i ≤ 7 → channelIn m i = false := by
  simp [highestChannel, mem_channelNumbers]

/-- No mask but the empty one names no channel. -/
@[simp] theorem channelIn_zero (i : Nat) : channelIn 0 i = false := BitVec.getLsbD_zero

/-! ## The stop channel raised -/

theorem raisedStop_of_highest {stop h : Nat} {m : Byte} (hm : highestChannel m = some h) : raisedStop stop m = max stop h := by
  rw [raisedStop, hm]

theorem raisedStop_of_none {stop : Nat} {m : Byte} (hm : highestChannel m = none) : raisedStop stop m = stop := by
  rw [raisedStop, hm]

theorem raisedStop_le {stop : Nat} (hstop : stop ≤ 7) (m : Byte) : raisedStop stop m ≤ 7 := by
  cases hm : highestChannel m with
  | none => rwa [raisedStop_of_none hm]
  | some h => rw [raisedStop_of_highest hm]; exact Nat.max_le.mpr ⟨hstop, (highestChannel_eq_some.mp hm).1⟩

/-- A stop channel raised to a mask is at or above every channel that the mask names (R120, R136). -/
theorem channel_le_raisedStop (stop : Nat) {m : Byte} {i : Nat} (hi : i ≤ 7) (hin : channelIn m i = true) :
    i ≤ raisedStop stop m := by
  cases hm : highestChannel m with
  | none => simp [highestChannel_eq_none.mp hm i hi] at hin
  | some h =>
    obtain ⟨_, _, habove⟩ := highestChannel_eq_some.mp hm
    have hle : i ≤ h := by
      by_contra hlt
      simp [habove i (by omega) hi] at hin
    rw [raisedStop_of_highest hm]
    exact hle.trans (Nat.le_max_right _ _)

end Sys2Proof.Machine
end

