-- ==== Sys2Proof/Proofs/GuardWork.lean ====
section
/-! PROOFS. The scanner's and the guard's own work at a tick, said once: what is handed over, what examination, trip, ramp and limits
each make of the guard, and what they leave alone (R112, R113, R116, R121 to R124, R133). -/

namespace Sys2Proof.Machine

/-! ## What is handed over -/

/-- At a tick nothing is handed over, or a missing conversion, or one that arrived. -/
theorem Scanner.handOver_cases (sc : Scanner) :
    sc.outstanding = none ∨ (∃ cmd, sc.outstanding = some cmd ∧ sc.result = none) ∨
    ∃ cmd v, sc.outstanding = some cmd ∧ sc.result = some v := by
  cases ho : sc.outstanding with
  | none => exact .inl rfl
  | some cmd =>
    cases hr : sc.result with
    | none => exact .inr (.inl ⟨cmd, rfl, rfl⟩)
    | some v => exact .inr (.inr ⟨cmd, v, rfl, rfl⟩)

section HandOver

variable {sc : Scanner} {cmd : AdcCommand} {v : Int}

theorem Scanner.handOver_idle (ho : sc.outstanding = none) : sc.handOver = sc := by
  rw [Scanner.handOver, ho]

theorem Scanner.handOver_missing (ho : sc.outstanding = some cmd) (hr : sc.result = none) :
    sc.handOver = { sc with
      outstanding := none, channels := sc.channels.set cmd.channel (sc.channels.get cmd.channel).lost } := by
  simp only [Scanner.handOver, ho, hr]

theorem Scanner.handOver_present (ho : sc.outstanding = some cmd) (hr : sc.result = some v) :
    sc.handOver = { sc with
      outstanding := none, result := none
      channels := sc.channels.set cmd.channel ((sc.channels.get cmd.channel).present v cmd.stamp) } := by
  simp only [Scanner.handOver, ho, hr]

theorem Guard.examine_idle (g : Guard) (ho : sc.outstanding = none) : g.examine sc = g := by
  rw [Guard.examine, ho]

theorem Guard.examine_missing (g : Guard) (ho : sc.outstanding = some cmd) (hr : sc.result = none) :
    g.examine sc = g.countMissing := by
  simp only [Guard.examine, ho, hr]

theorem Guard.examine_present (g : Guard) (ho : sc.outstanding = some cmd) (hr : sc.result = some v) :
    g.examine sc = g.countPresent cmd.channel v := by
  simp only [Guard.examine, ho, hr]

end HandOver

/-- Hand-over and closing leave the scan pointer (R131). -/
theorem Scanner.closed_ptr (sc : Scanner) (boundary : Bool) (pos : Position) : (sc.closed boundary pos).ptr = sc.ptr := by
  have hptr : sc.handOver.ptr = sc.ptr := by
    rcases sc.handOver_cases with ho | ⟨cmd, ho, hr⟩ | ⟨cmd, v, ho, hr⟩
    · rw [Scanner.handOver_idle ho]
    · rw [Scanner.handOver_missing ho hr]
    · rw [Scanner.handOver_present ho hr]
  unfold Scanner.closed
  split <;> exact hptr

/-! ## The parts of the guard's work -/

/-- Examination moves the counts alone (R121 to R123). -/
theorem Guard.examine_eq (g : Guard) (sc : Scanner) :
    g.examine sc = { g with peak := (g.examine sc).peak, missingRun := (g.examine sc).missingRun } := by
  rcases sc.handOver_cases with ho | ⟨cmd, ho, hr⟩ | ⟨cmd, v, ho, hr⟩
  · rw [g.examine_idle ho]
  · rw [g.examine_missing ho hr, Guard.countMissing]
  · rw [g.examine_present ho hr, Guard.countPresent]

theorem Guard.examined_eq (g : Guard) (sc : Scanner) (boundary : Bool) (pos : Position) :
    g.examined sc boundary pos = { g with
      peak := (g.examine sc).peak, missingRun := (g.examine sc).missingRun, rms := (g.examined sc boundary pos).rms } := by
  have hrms : (g.examine sc).rms = g.rms := by rw [g.examine_eq sc]
  unfold Guard.examined
  split
  · rw [Guard.examineRecords, g.examine_eq sc]
  · rw [hrms]
    exact g.examine_eq sc

/-- A ramp's step moves the output state, G and the ramp alone (R113). -/
theorem Guard.rampStep_eq (g : Guard) :
    g.rampStep = { g with out := g.rampStep.out, g := g.rampStep.g, ramp := g.rampStep.ramp } := by
  unfold Guard.rampStep
  split
  · rfl
  · split
    case h_1 | h_2 => split <;> rfl
    all_goals rfl

/-- The guard after a tick: what the trip or the ramp's step makes of the examined guard, and then the limits (R112). -/
theorem Guard.atTick_eq (g : Guard) (sc : Scanner) (boundary : Bool) (pos : Position) :
    ∃ out n ramp hold cause channel stamp, g.atTick sc boundary pos = Guard.limitsStep
      { g.examined sc boundary pos with
        out := out, g := n, ramp := ramp, hold := hold, tripCause := cause, tripChannel := channel, tripStamp := stamp } := by
  unfold Guard.atTick
  split
  · exact ⟨_, _, _, _, _, _, _, rfl⟩
  · rw [Guard.rampStep_eq]
    exact ⟨_, _, _, _, _, _, _, rfl⟩

/-- At a tick without a trip the guard ramp makes its step (R113). -/
theorem Guard.atTick_of_noTrip {g : Guard} {sc : Scanner} {boundary : Bool} {pos : Position}
    (h : g.tripAt sc boundary pos = none) :
    g.atTick sc boundary pos = (g.examined sc boundary pos).rampStep.limitsStep := by
  rw [Guard.atTick, h]

/-! ## The guard ramp -/

/-- Outside RAMP_UP and RAMP_DOWN there is no step to make (R112). -/
theorem Guard.rampStep_still {g : Guard} (hup : g.out ≠ .rampUp) (hdown : g.out ≠ .rampDown) : g.rampStep = g := by
  unfold Guard.rampStep
  split
  · rfl
  · split
    case h_1 h => exact absurd h hup
    case h_2 h => exact absurd h hdown
    all_goals rfl

section Ramp

variable {g : Guard} {rp : GuardRamp}

theorem Guard.rampStep_up (hramp : g.ramp = some rp) (hout : g.out = .rampUp) (hk : rp.k + 1 ≠ rp.r) :
    g.rampStep = { g with g := rampUpValue rp.r (rp.k + 1), ramp := some { rp with k := rp.k + 1 } } := by
  unfold Guard.rampStep
  simp only [hramp, hout, if_neg hk]

theorem Guard.rampStep_down (hramp : g.ramp = some rp) (hout : g.out = .rampDown) (hk : rp.k + 1 ≠ rp.r) :
    g.rampStep = { g with g := rampDownValue rp.g0 rp.r (rp.k + 1), ramp := some { rp with k := rp.k + 1 } } := by
  unfold Guard.rampStep
  simp only [hramp, hout, if_neg hk]

theorem Guard.rampStep_up_last (hramp : g.ramp = some rp) (hout : g.out = .rampUp) (hk : rp.k + 1 = rp.r) :
    g.rampStep = { g with g := 32768, ramp := none, out := .on } := by
  unfold Guard.rampStep
  simp only [hramp, hout, if_pos hk]

theorem Guard.rampStep_down_last (hramp : g.ramp = some rp) (hout : g.out = .rampDown) (hk : rp.k + 1 = rp.r) :
    g.rampStep = { g with g := 0, ramp := none, out := .off } := by
  unfold Guard.rampStep
  simp only [hramp, hout, if_pos hk]

theorem Guard.rampEnds_iff (hramp : g.ramp = some rp) (hout : g.out = .rampUp ∨ g.out = .rampDown) :
    g.rampEnds = true ↔ rp.k + 1 = rp.r := by
  rw [Guard.rampEnds, hramp]
  rcases hout with hout | hout <;> simp [hout]

end Ramp

end Sys2Proof.Machine
end

