-- ==== Sys2Proof/Proofs/GuardScan.lean ====
section
/-! PROOFS. Every step keeps the guard's G, limits, hold flag and watch settings in their relations, and the scanner's settings
with them: what a request does to the two, what a tick does, and the invariants that follow (R111 to R127, R130, R136). -/

namespace Sys2Proof.Machine

open Sys2Proof.Safety

/-! ## What a request does to the guard and the scanner -/

/-- What the taking of a request makes of the guard and the scanner, one constructor for each change that some request
makes. -/
inductive GuardTake (g : Guard) (sc : Scanner) : Guard → Scanner → Prop
  | same : GuardTake g sc g sc
  | on (hout : g.out = .off) : GuardTake g sc { g with out := .on, g := 32768 } sc
  | rampUp (r : Nat) (hr : r ≠ 0) (hout : g.out = .off) :
      GuardTake g sc { g with out := .rampUp, ramp := some { g0 := 0, r := r, k := 0 } } sc
  | safe (r : Nat) (hout : g.out ≠ .tripped) : GuardTake g sc (g.safe r) sc
  | limits (lo hi : Int) (h : LimitsOk lo hi) : GuardTake g sc { g with pendingLimits := some (lo, hi) } sc
  | hold (b : Bool) (hb : g.out = .tripped → b = true) : GuardTake g sc { g with hold := b } sc
  | watch (m : Byte) (ipk kp irms kr : Nat) (hkp : kp ≤ 255) (hkr : kr ≤ 255) :
      GuardTake g sc
        { g with
          watch := m, ipk := min ipk 32767, kp := max kp 1, irms := min irms 32767, kr := max kr 1
          peak := eightOf 0, rms := eightOf 0 }
        { sc with stop := raisedStop sc.stop m }
  | clearTrip (hout : g.out = .tripped) :
      GuardTake g sc
        { g with
          out := .off, g := 0, tripCause := .none, tripChannel := 0, tripStamp := zeroPosition
          peak := eightOf 0, rms := eightOf 0, missingRun := 0 } sc
  | scan (stop : Nat) (gain : Nat → Nat) (hstop : stop ≤ 7) (hgain : ∀ i, i ≤ 7 → gain i ≤ 3) :
      GuardTake g sc g
        { sc with
          stop := raisedStop stop g.watch
          channels := sc.channels.mapIdx (fun i ch =>
            { ch with gain := if channelIn g.watch i then ch.gain else gain i }) }

/-- The guard and the scanner of one state come from those of another by a request. -/
def State.TakesTo (s t : State) : Prop := GuardTake s.guard s.scan t.guard t.scan

namespace State.TakesTo

variable {s : State}

theorem refl (s : State) : s.TakesTo s := GuardTake.same

/-- A request refused by a check changes neither; one that passes it goes on. -/
theorem ite_status {c : Prop} [Decidable c] {st : Status} {res : Answer × State} (h : ¬ c → s.TakesTo res.2) :
    s.TakesTo (if c then refuse s st else res).2 := by
  split
  · exact refl s
  · exact h ‹_›

/-- A report or a read that its length check lets through changes neither. -/
theorem ite_read {c : Prop} [Decidable c] {st : Status} {ans : Answer} :
    s.TakesTo (if c then (ans, s) else refuse s st).2 := by
  split <;> exact refl s

end State.TakesTo

section Requests

open State.TakesTo

variable (ps : List Byte) (s : State)

theorem byteAt_lt (i : Nat) : byteAt ps i < 256 := (ps.getD i 0).isLt

theorem signed16_bounds (n : Nat) : -32768 ≤ signed16 n ∧ signed16 n ≤ 32767 := by
  unfold signed16
  split <;> omega

theorem takeEnable_takesTo : s.TakesTo (takeEnable ps s).2 := by
  refine ite_status fun _ => ?_
  split
  case h_1 hout =>
    split
    · exact .on hout
    · exact .rampUp _ ‹_› hout
  all_goals exact refl s

theorem takeSafe_takesTo : s.TakesTo (takeSafe ps s).2 := by
  refine ite_status fun _ => ?_
  split
  case h_1 | h_2 => exact refl s
  all_goals
    rename_i hout
    exact .safe _ (by rw [hout]; decide)

/-- Limits that are accepted hold 0 between them, and two bytes carry no more than 16 bits (R116). -/
theorem takeSetLimits_takesTo : s.TakesTo (takeSetLimits ps s).2 := by
  refine ite_status fun _ => ite_status fun hval => .limits _ _ ?_
  have ⟨hlo, _⟩ := signed16_bounds (wordAt ps 0)
  have ⟨_, hhi⟩ := signed16_bounds (wordAt ps 2)
  exact ⟨hlo, by omega, by omega, hhi⟩

theorem takeHoldRequest_takesTo : s.TakesTo (takeHoldRequest ps s).2 :=
  ite_status fun _ => .hold true fun _ => rfl

theorem takeReleaseRequest_takesTo : s.TakesTo (takeReleaseRequest ps s).2 :=
  ite_status fun _ => ite_status fun hout => .hold false fun h => absurd h hout

theorem takeSetWatch_takesTo : s.TakesTo (takeSetWatch ps s).2 :=
  ite_status fun _ => .watch _ _ _ _ _ (Nat.le_of_lt_succ (byteAt_lt ps 3)) (Nat.le_of_lt_succ (byteAt_lt ps 6))

theorem takeClearTrip_takesTo : s.TakesTo (takeClearTrip ps s).2 := by
  refine ite_status fun _ => ?_
  split
  · exact .clearTrip ‹_›
  · exact refl s

/-- A SET_SCAN that is accepted carries a stop channel of 0..7 and eight gain codes of 0..3 (R135). -/
theorem takeSetScan_takesTo : s.TakesTo (takeSetScan ps s).2 := by
  refine ite_status fun _ => ite_status fun hval => ?_
  refine .scan (byteAt ps 0) (carriedGain ps) (by omega) fun i hi => ?_
  by_contra hgain
  refine hval (.inr (List.any_eq_true.mpr ⟨i, (mem_channelNumbers i).mpr hi, ?_⟩))
  simpa using hgain

end Requests

open State.TakesTo in
/-- The taking of a request of any code, row by row of the table of request codes: eight of them act on the guard or the
scanner's settings (R181). -/
theorem takeByCode_takesTo (code : Nat) (l : Link) (ps : List Byte) (s : State) :
    s.TakesTo (takeByCode code l ps s).2 := by
  unfold takeByCode
  split
  case h_19 => exact takeEnable_takesTo ps s
  case h_20 => exact takeSafe_takesTo ps s
  case h_21 => exact takeSetLimits_takesTo ps s
  case h_23 => exact takeHoldRequest_takesTo ps s
  case h_24 => exact takeReleaseRequest_takesTo ps s
  case h_25 => exact takeSetWatch_takesTo ps s
  case h_26 => exact takeClearTrip_takesTo ps s
  case h_29 => exact takeSetScan_takesTo ps s
  -- Reports and reads of whole blocks, behind their length check.
  case h_3 | h_4 | h_8 | h_18 | h_27 | h_30 | h_39 => exact ite_read
  -- Requests for other blocks, by the number of their checks.
  case h_1 | h_28 | h_32 | h_33 | h_34 | h_37 | h_38 => exact ite_status fun _ => refl s
  case h_2 | h_6 | h_10 | h_12 | h_13 | h_14 | h_22 | h_35 | h_36 =>
    exact ite_status fun _ => ite_status fun _ => refl s
  case h_5 | h_17 => exact ite_status fun _ => ite_status fun _ => ite_status fun _ => refl s
  case h_7 | h_9 | h_15 | h_31 =>
    exact ite_status fun _ => ite_status fun _ => ite_status fun _ => ite_status fun _ => refl s
  -- SET_SEED and STOP, each with a case split of its own.
  case h_11 =>
    refine ite_status fun _ => ite_status fun _ => ?_
    split <;> exact refl s
  case h_16 =>
    refine ite_status fun _ => ?_
    split <;> exact refl s
  case h_40 => exact refl s

/-! ## What every part of a step does to them -/

theorem workTick_guard_afterRun (late : Nat) (x : Bool) (s : State) : (workTick late x s).guard = (s.afterRun late).guard := by
  simp [workTick, tickMiddle_afterRun]

theorem workTick_scan_afterRun (late : Nat) (x : Bool) (s : State) : (workTick late x s).scan = (s.afterRun late).scan := by
  simp [workTick, tickMiddle_afterRun]

/-- What the resets, an ADC result, the taking of a request and the guard's and the scanner's own work at a tick keep of guard
and scanner, every step keeps. -/
theorem guardScan_stepInvariant {P : Guard → Scanner → Prop} (hreset : P guardReset scannerReset)
    (hadc : ∀ {g sc} a v, P g sc → P g (sc.readResult a v))
    (htake : ∀ {g sc g' sc'}, GuardTake g sc g' sc' → P g sc → P g' sc')
    (htick : ∀ {g sc} boundary pos, P g sc → P (g.atTick sc boundary pos) ((sc.closed boundary pos).command pos)) :
    StepInvariant (fun s => P s.guard s.scan) where
  blocks {s t} hst h := by
    rwa [show t.guard = s.guard by rw [hst], show t.scan = s.scan by rw [hst]]
  reset _ := hreset
  power _ := hreset
  adc a v h := hadc a v h
  take code l ps h := htake (takeByCode_takesTo code l ps _) h
  work {s} late x h := by
    have htakeOldest (t : State) (ht : P t.guard t.scan) : P (takeOldest .pl t).guard (takeOldest .pl t).scan := by
      rcases takeOldest_cases .pl t with he | ⟨r, ls, he⟩
      · rwa [he]
      · rw [he]
        rcases judge_cases .pl r t with hj | hj
        · rwa [hj]
        · rw [hj]; exact htake (takeByCode_takesTo _ .pl _ t) ht
    rw [workTick_guard_afterRun, workTick_scan_afterRun]
    exact runTick_keeps (fun t => P t.guard t.scan) _ _ _ _ (fun _ _ h => h) htakeOldest (fun _ _ h => h) (fun _ h => h)
      (fun _ h => h) (fun _ h => h) late (tickFront s) (htick _ _ h)

/-! ## The guard -/

/-- The guard with its counts changed within their ranges (R121 to R123). -/
theorem guardOk_setCounts {g : Guard} (h : GuardOk g) {peak rms : Eight Nat} {missing : Nat}
    (hcounts : ∀ i, peak.get i ≤ 255 ∧ rms.get i ≤ 255) (hmissing : missing ≤ 32) :
    GuardOk { g with peak := peak, rms := rms, missingRun := missing } := by
  obtain ⟨hout, hlim, hpend, hhold, hipk, hkp, hkp', hirms, hkr, hkr', _, _⟩ := h
  exact ⟨hout, hlim, hpend, hhold, hipk, hkp, hkp', hirms, hkr, hkr', hcounts, hmissing⟩

/-- The guard with another output state: its G, ramp and hold flag have to fit, the trip record may be any (R112, R118). -/
theorem guardOk_setOutput {g : Guard} (h : GuardOk g) {out : OutState} {n : Nat} {ramp : Option GuardRamp} {hold : Bool}
    {cause : TripCause} {channel : Nat} {stamp : Position} (hout : OutputOk { g with out := out, g := n, ramp := ramp })
    (hhold : out = .tripped → hold = true) :
    GuardOk { g with
      out := out, g := n, ramp := ramp, hold := hold, tripCause := cause, tripChannel := channel, tripStamp := stamp } := by
  obtain ⟨_, hlim, hpend, _, hrest⟩ := h
  exact ⟨hout, hlim, hpend, hhold, hrest⟩

/-- In every output state G is at most full scale (R111, R112). -/
theorem outputOk_g_le {g : Guard} (h : OutputOk g) : g.g ≤ 32768 := by
  unfold OutputOk at h
  split at h
  case h_1 | h_2 => exact h.1 ▸ Nat.zero_le _
  case h_3 => exact h.1.le
  all_goals exact h.1

/-- In OFF and TRIPPED no guard ramp is present (R112). -/
theorem outputOk_no_ramp {g : Guard} (h : OutputOk g) (hout : g.out = .off ∨ g.out = .tripped) : g.ramp = none := by
  unfold OutputOk at h
  rcases hout with hout | hout <;> rw [hout] at h <;> exact h.2

theorem outputOk_rampUp {g : Guard} (h : OutputOk g) (hout : g.out = .rampUp) : ∃ rp, g.ramp = some rp ∧ rp.k < rp.r := by
  unfold OutputOk at h
  rw [hout] at h
  exact h.2

theorem outputOk_rampDown {g : Guard} (h : OutputOk g) (hout : g.out = .rampDown) :
    ∃ rp, g.ramp = some rp ∧ rp.g0 ≤ 32768 ∧ rp.k < rp.r := by
  unfold OutputOk at h
  rw [hout] at h
  exact h.2

/-- Every request keeps the guard's relations (R114 to R120, R127). -/
theorem guardOk_take {g g' : Guard} {sc sc' : Scanner} (ht : GuardTake g sc g' sc') (h : GuardOk g) : GuardOk g' := by
  have ⟨hout, hlim, hpend, hhold, hipk, hkp, hkp', hirms, hkr, hkr', hcounts, hmissing⟩ := h
  have hfull := outputOk_g_le hout
  have hzero (i : Nat) : (eightOf 0).get i ≤ 255 ∧ (eightOf 0).get i ≤ 255 := by rw [eightOf_get]; decide
  cases ht with
  | same | scan => exact h
  | on hoff =>
    have hramp := outputOk_no_ramp hout (.inl hoff)
    exact guardOk_setOutput h ⟨rfl, hramp⟩ OutState.noConfusion
  | rampUp r hr hoff =>
    exact guardOk_setOutput h ⟨hfull, _, rfl, Nat.pos_of_ne_zero hr⟩ OutState.noConfusion
  | safe r _ =>
    unfold Guard.safe
    split
    · exact guardOk_setOutput h ⟨rfl, rfl⟩ OutState.noConfusion
    · exact guardOk_setOutput h ⟨hfull, _, rfl, hfull, Nat.pos_of_ne_zero ‹_›⟩
        OutState.noConfusion
  | limits lo hi hl =>
    refine ⟨hout, hlim, fun p hp => ?_, hhold, hipk, hkp, hkp', hirms, hkr, hkr', hcounts, hmissing⟩
    cases hp
    exact hl
  | hold b hb => exact guardOk_setOutput h hout hb
  | watch m ipk kp irms kr h3 h6 =>
    exact ⟨hout, hlim, hpend, hhold, Nat.min_le_right _ _, Nat.le_max_right _ _, Nat.max_le.mpr ⟨h3, by decide⟩,
      Nat.min_le_right _ _, Nat.le_max_right _ _, Nat.max_le.mpr ⟨h6, by decide⟩, hzero, hmissing⟩
  | clearTrip htripped =>
    have hramp := outputOk_no_ramp hout (.inr htripped)
    exact guardOk_setCounts (guardOk_setOutput h (out := .off) ⟨rfl, hramp⟩ OutState.noConfusion) hzero (Nat.zero_le _)

theorem guardOk_examine {g : Guard} (sc : Scanner) (h : GuardOk g) : GuardOk (g.examine sc) := by
  have ⟨_, _, _, _, _, _, _, _, _, _, hcounts, _⟩ := h
  rcases sc.handOver_cases with ho | ⟨cmd, ho, hr⟩ | ⟨cmd, v, ho, hr⟩
  · rwa [g.examine_idle ho]
  · rw [g.examine_missing ho hr]
    exact guardOk_setCounts h hcounts (Nat.min_le_right _ _)
  · rw [g.examine_present ho hr]
    refine guardOk_setCounts h (fun i => ⟨?_, (hcounts i).2⟩) (Nat.zero_le _)
    split
    · refine Eight.forall_get_set (p := (· ≤ 255)) _ (fun i => (hcounts i).1) ?_ i
      split
      · exact Nat.min_le_right _ _
      · exact Nat.zero_le _
    · exact (hcounts i).1

/-- An RMS count stays or ends, or grows no further than 255 (R122). -/
theorem rmsCountAfter_le (g : Guard) (i : Nat) {n : Nat} (hn : n ≤ 255) (r : CycleRecord) : rmsCountAfter g i n r ≤ 255 := by
  unfold rmsCountAfter
  split
  · split
    · exact hn
    · split
      · exact Nat.min_le_right _ _
      · exact Nat.zero_le _
  · exact hn

theorem guardOk_examined {g : Guard} (sc : Scanner) (boundary : Bool) (pos : Position) (h : GuardOk g) :
    GuardOk (g.examined sc boundary pos) := by
  have hex := guardOk_examine sc h
  unfold Guard.examined
  split
  · have ⟨_, _, _, _, _, _, _, _, _, _, hcounts, hmissing⟩ := hex
    refine guardOk_setCounts hex (fun i => ⟨(hcounts i).1, ?_⟩) hmissing
    rw [Eight.get_mapIdx]
    exact rmsCountAfter_le _ _ (hcounts i).2 _
  · exact hex

/-- A guard ramp's step stays within full scale, and its last step leaves no ramp (R112, R113). -/
theorem guardOk_rampStep {g : Guard} (h : GuardOk g) : GuardOk g.rampStep := by
  have ⟨hfit, _⟩ := h
  cases hout : g.out with
  | off | on | tripped => rwa [Guard.rampStep_still (by rw [hout]; decide) (by rw [hout]; decide)]
  | rampUp =>
    obtain ⟨rp, hramp, hk⟩ := outputOk_rampUp hfit hout
    by_cases hlast : rp.k + 1 = rp.r
    · rw [Guard.rampStep_up_last hramp hout hlast]
      exact guardOk_setOutput h ⟨rfl, rfl⟩ OutState.noConfusion
    · rw [Guard.rampStep_up hramp hout hlast, hout]
      exact guardOk_setOutput h ⟨roundNat_le (by omega) (Nat.mul_le_mul_left _ hk), _, rfl, show rp.k + 1 < rp.r by omega⟩
        OutState.noConfusion
  | rampDown =>
    obtain ⟨rp, hramp, hg0, hk⟩ := outputOk_rampDown hfit hout
    by_cases hlast : rp.k + 1 = rp.r
    · rw [Guard.rampStep_down_last hramp hout hlast]
      exact guardOk_setOutput h ⟨rfl, rfl⟩ OutState.noConfusion
    · rw [Guard.rampStep_down hramp hout hlast, hout]
      exact guardOk_setOutput h ⟨(Nat.sub_le _ _).trans hg0, _, rfl, hg0, show rp.k + 1 < rp.r by omega⟩
        OutState.noConfusion

theorem guardOk_limitsStep {g : Guard} (h : GuardOk g) : GuardOk g.limitsStep := by
  unfold Guard.limitsStep
  split
  · exact h
  · rename_i lo hi hp
    obtain ⟨hout, _, hpend, hrest⟩ := h
    exact ⟨hout, hpend _ hp, (fun _ hnone => nomatch hnone), hrest⟩

/-- The guard's work at a tick: examination, then the trip or the ramp's step, then the limits (R112, R113, R116, R124). -/
theorem guardOk_atTick {g : Guard} (sc : Scanner) (boundary : Bool) (pos : Position) (h : GuardOk g) :
    GuardOk (g.atTick sc boundary pos) := by
  have hex := guardOk_examined sc boundary pos h
  unfold Guard.atTick
  refine guardOk_limitsStep ?_
  split
  · exact guardOk_setOutput hex ⟨rfl, rfl⟩ fun _ => rfl
  · exact guardOk_rampStep hex

theorem guardOk_stepInvariant : StepInvariant (fun s => GuardOk s.guard) :=
  guardScan_stepInvariant (P := fun g _ => GuardOk g) reset_guardOk (fun _ _ h => h) guardOk_take
    (fun boundary pos h => guardOk_atTick _ boundary pos h)

/-! ## The scanner -/

/-- `ScanOk` said of a guard and a scanner by themselves. -/
def ScanFits (g : Guard) (sc : Scanner) : Prop :=
  sc.stop ≤ 7 ∧ sc.ptr ≤ 7 ∧ (∀ i, i ≤ 7 → channelIn g.watch i = true → i ≤ sc.stop) ∧
  ∀ i, (sc.channels.get i).gain ≤ 3

theorem scanOk_iff (s : State) : ScanOk s ↔ ScanFits s.guard s.scan := Iff.rfl

/-- A guard that watches the same channels fits the same scanner. -/
theorem scanFits_of_watch {g g' : Guard} {sc : Scanner} (hw : g'.watch = g.watch) (h : ScanFits g sc) : ScanFits g' sc := by
  unfold ScanFits
  rwa [hw]

/-- A result that is read changes no setting (R132). -/
theorem scanFits_readResult {g : Guard} {sc : Scanner} (a : Answered) (v : Word16) (h : ScanFits g sc) :
    ScanFits g (sc.readResult a v) := by
  unfold Scanner.readResult
  split
  · exact h
  · split <;> exact h

/-- Every request keeps the scanner's settings in range and S at or above the highest watched channel (R120, R136). -/
theorem scanFits_take {g g' : Guard} {sc sc' : Scanner} (ht : GuardTake g sc g' sc') (h : ScanFits g sc) :
    ScanFits g' sc' := by
  have ⟨hstop, hptr, hwatch, hgain⟩ := h
  cases ht with
  | same => exact h
  | on | rampUp | limits | hold | clearTrip => exact scanFits_of_watch rfl h
  | safe r _ =>
    refine scanFits_of_watch ?_ h
    unfold Guard.safe
    split <;> rfl
  | watch m ipk kp irms kr _ _ =>
    exact ⟨raisedStop_le hstop m, hptr, fun i hi hin => channel_le_raisedStop sc.stop hi hin, hgain⟩
  | scan stop gain hs hcarried =>
    refine ⟨raisedStop_le hs _, hptr, fun i hi hin => channel_le_raisedStop stop hi hin, fun i => ?_⟩
    rw [Eight.get_mapIdx]
    dsimp only
    split
    · exact hgain i
    · exact hcarried _ (Nat.min_le_right i 7)

/-- The scan pointer moves below S or back to 0, and the rest of the settings stay (R131). -/
theorem scanFits_tick {g : Guard} {sc : Scanner} (boundary : Bool) (pos : Position) (h : ScanFits g sc) :
    ScanFits (g.atTick sc boundary pos) ((sc.closed boundary pos).command pos) := by
  obtain ⟨hstop, _, hwatch, hgain⟩ := h
  obtain ⟨hsame, _⟩ := g.atTick_sameWatch sc boundary pos
  obtain ⟨hs, hg⟩ := sc.closed_settings boundary pos
  refine scanFits_of_watch hsame ⟨hs.trans_le hstop, ?_, fun i hi hin => (hwatch i hi hin).trans_eq hs.symm, fun i => ?_⟩
  · show (if _ < (sc.closed boundary pos).stop then _ else 0) ≤ 7
    split <;> omega
  · exact (hg i).trans_le (hgain i)

theorem scanFits_stepInvariant : StepInvariant (fun s => ScanFits s.guard s.scan) :=
  guardScan_stepInvariant ((scanOk_iff State.reset).mp reset_scanOk) scanFits_readResult scanFits_take scanFits_tick

/-- Settles O58: both predicates are kept by every part of a step. -/
theorem stepKeepsGuardAndScan : Obligations.StepKeepsGuardAndScan :=
  ⟨fun _ _ h hx => guardOk_stepInvariant.step h hx,
    fun s t h hx => (scanOk_iff t).mpr (scanFits_stepInvariant.step ((scanOk_iff s).mp h) hx)⟩

end Sys2Proof.Machine
end

