-- ==== Sys2Proof/Proofs/GuardRequests.lean ====
section
/-! PROOFS. The requests of the Guard Link that set and clear on a ready link: ENABLE, SAFE, SET_LIMITS, CLEAR_FLAGS, HOLD, RELEASE,
SET_WATCH and CLEAR_TRIP (R114 to R120, R127). -/

namespace Sys2Proof.Machine

open Sys2Proof.Safety

/-! ## ENABLE and SAFE by the output state -/

section OutputState

variable {ps : List Byte} {s : State}

theorem takeEnable_of_off_zero (hlen : ps.length = 2) (hout : s.guard.out = .off) (hr : wordAt ps 0 = 0) :
    takeEnable ps s = (.status .ok, { s with guard := { s.guard with out := .on, g := 32768 } }) := by
  rw [takeEnable, if_neg (not_not_intro hlen), hout]
  exact if_pos hr

theorem takeEnable_of_off_ramp (hlen : ps.length = 2) (hout : s.guard.out = .off) (hr : wordAt ps 0 ≠ 0) :
    takeEnable ps s = (.status .ok, { s with
      guard := { s.guard with out := .rampUp, ramp := some { g0 := 0, r := wordAt ps 0, k := 0 } } }) := by
  rw [takeEnable, if_neg (not_not_intro hlen), hout]
  exact if_neg hr

/-- On its way up and ON the output is enabled already (R114). -/
theorem takeEnable_of_enabled (hlen : ps.length = 2) (hout : s.guard.out = .rampUp ∨ s.guard.out = .on) :
    takeEnable ps s = (.status .ok, s) := by
  rw [takeEnable, if_neg (not_not_intro hlen)]
  rcases hout with hout | hout <;> rw [hout]

theorem takeEnable_of_rampDown (hlen : ps.length = 2) (hout : s.guard.out = .rampDown) :
    takeEnable ps s = refuse s .busy := by
  rw [takeEnable, if_neg (not_not_intro hlen), hout]

theorem takeEnable_of_tripped (hlen : ps.length = 2) (hout : s.guard.out = .tripped) :
    takeEnable ps s = refuse s .tripped := by
  rw [takeEnable, if_neg (not_not_intro hlen), hout]

/-- In OFF and TRIPPED the output is cut already (R115). -/
theorem takeSafe_of_cut (hlen : ps.length = 2) (hout : s.guard.out = .off ∨ s.guard.out = .tripped) :
    takeSafe ps s = (.status .ok, s) := by
  rw [takeSafe, if_neg (not_not_intro hlen)]
  rcases hout with hout | hout <;> rw [hout]

theorem takeSafe_of_driven (hlen : ps.length = 2)
    (hout : s.guard.out = .rampUp ∨ s.guard.out = .on ∨ s.guard.out = .rampDown) :
    takeSafe ps s = (.status .ok, { s with guard := s.guard.safe (wordAt ps 0) }) := by
  rw [takeSafe, if_neg (not_not_intro hlen)]
  rcases hout with hout | hout | hout <;> rw [hout]

end OutputState

/-- Settles O39: the length check, then the output state. -/
theorem enableAndSafeByOutputState : Obligations.EnableAndSafeByOutputState := by
  intro ps s h hps
  have enable {st : Status} (hres : takeEnable ps (sendRequest 0x30 .gl ps s) = refuse _ st) :
      exec (.enable .gl ps) s = .next (onlyAnswered s .gl st []) :=
    requestOutcome_refused h hps (by decide) (by decide) hres
  have safe {st : Status} (hres : takeSafe ps (sendRequest 0x31 .gl ps s) = refuse _ st) :
      exec (.safe .gl ps) s = .next (onlyAnswered s .gl st []) :=
    requestOutcome_refused h hps (by decide) (by decide) hres
  refine ⟨fun hlen => ⟨enable (if_pos hlen), safe (if_pos hlen)⟩, fun hlen => ⟨fun hout hr => ?_, fun hout hr => ?_,
    fun hout => enable (takeEnable_of_enabled hlen hout), fun hout => enable (takeEnable_of_rampDown hlen hout),
    fun hout => enable (takeEnable_of_tripped hlen hout), fun hout => safe (takeSafe_of_cut hlen hout),
    fun hout hr => ?_, fun hout hr => ?_⟩⟩
  · exact exec_enable_ready h ps hps _ (takeEnable_of_off_zero hlen hout hr) rfl
  · exact exec_enable_ready h ps hps _ (takeEnable_of_off_ramp hlen hout hr) rfl
  · have hres := takeSafe_of_driven (s := sendRequest 0x31 .gl ps s) hlen hout
    rw [Guard.safe, if_pos hr] at hres
    exact exec_safe_ready h ps hps _ hres rfl
  · have hres := takeSafe_of_driven (s := sendRequest 0x31 .gl ps s) hlen hout
    rw [Guard.safe, if_neg hr] at hres
    exact exec_safe_ready h ps hps _ hres rfl

/-! ## SET_LIMITS -/

/-- SET_LIMITS on a ready link: R116's checks in order, then the pair that waits. -/
theorem exec_setLimits {ps : List Byte} {s : State} (h : Ready .gl s) (hps : ps.length ≤ 200) :
    (ps.length ≠ 4 → exec (.setLimits .gl ps) s = .next (onlyAnswered s .gl .length [])) ∧
    (ps.length = 4 → (0 < signedAt ps 0 ∨ signedAt ps 2 < 0) →
      exec (.setLimits .gl ps) s = .next (onlyAnswered s .gl .badValue [])) ∧
    (ps.length = 4 → signedAt ps 0 ≤ 0 → 0 ≤ signedAt ps 2 → exec (.setLimits .gl ps) s = .next { s with
      guard := { s.guard with pendingLimits := some (signedAt ps 0, signedAt ps 2) },
      links := answeredOn s .gl .ok [] }) := by
  have refused {st : Status} (hres : takeSetLimits ps (sendRequest 0x32 .gl ps s) = refuse _ st) :
      exec (.setLimits .gl ps) s = .next (onlyAnswered s .gl st []) :=
    requestOutcome_refused h hps (by decide) (by decide) hres
  refine ⟨fun hlen => refused (if_pos hlen),
    fun hlen hval => refused ((if_neg (not_not_intro hlen)).trans (if_pos hval)), fun hlen hlo hhi => ?_⟩
  exact exec_setLimits_ready h ps hps _ ((if_neg (not_not_intro hlen)).trans (if_neg (by omega))) rfl

/-! ## CLEAR_FLAGS, HOLD, RELEASE and CLEAR_TRIP -/

/-- Settles O42: each request's checks in order, and what the accepted one sets or clears. -/
theorem flagsHoldAndTripCleared : Obligations.FlagsHoldAndTripCleared := by
  intro ps s h hps
  have flags {st : Status} (hres : takeClearFlags ps (sendRequest 0x33 .gl ps s) = refuse _ st) :
      exec (.clearFlags .gl ps) s = .next (onlyAnswered s .gl st []) :=
    requestOutcome_refused h hps (by decide) (by decide) hres
  have release {st : Status} (hres : takeReleaseRequest ps (sendRequest 0x35 .gl ps s) = refuse _ st) :
      exec (.release .gl ps) s = .next (onlyAnswered s .gl st []) :=
    requestOutcome_refused h hps (by decide) (by decide) hres
  have clear {st : Status} (hres : takeClearTrip ps (sendRequest 0x37 .gl ps s) = refuse _ st) :
      exec (.clearTrip .gl ps) s = .next (onlyAnswered s .gl st []) :=
    requestOutcome_refused h hps (by decide) (by decide) hres
  have passed {n : Nat} (hlen : ps.length = n) : ¬ ps.length ≠ n := not_not_intro hlen
  refine ⟨fun hlen => flags (if_pos hlen), fun hlen hmask => flags ((if_neg (passed hlen)).trans (if_pos hmask)),
    fun hlen hmask => ?_, fun hlen => ⟨?_, release (if_pos hlen)⟩, fun hlen => ?_,
    fun hlen hout => release ((if_neg (passed hlen)).trans (if_pos hout)), fun hlen hout => ?_,
    fun hlen => clear (if_pos hlen), fun hlen hout => clear ((if_neg (passed hlen)).trans (if_neg hout)),
    fun hlen hout => ?_⟩
  · refine ⟨_, exec_clearFlags_ready h ps hps _ ((if_neg (passed hlen)).trans (if_neg (by omega))) rfl, fun p => ?_⟩
    exact (Phases.get_onMask s.ph _ _ p).trans (by rw [names_ofNat])
  · exact requestOutcome_refused h hps (by decide) (by decide) (if_pos hlen)
  · exact exec_hold_ready h ps hps _ (if_neg (passed hlen)) rfl
  · exact exec_release_ready h ps hps _ ((if_neg (passed hlen)).trans (if_neg hout)) rfl
  · exact exec_clearTrip_ready h ps hps _ ((if_neg (passed hlen)).trans (if_pos hout)) rfl

/-! ## SET_WATCH -/

/-- A request that comes to its own checks leaves what they and its effect make, with the answer on its link. -/
theorem requestOutcome_of_take {l : Link} {s : State} {code : Byte} {ps : List Byte} (h : Ready l s) (hps : ps.length ≤ 200)
    (hc : requestCodes.contains code = true) (hb : codeBelongs code.toNat l = true) {res : Answer × State}
    (hres : takeByCode code.toNat l ps (sendRequest code l ps s) = res) :
    requestOutcome code l ps s =
      .next { res.2 with links := res.2.links.set l ((res.2.links.get l).answered true res.1) } := by
  subst hres
  exact requestOutcome_ready h code ps hps hc hb

/-- SCAN_CHANGED is a notice of the Monitor Link alone (R173). -/
theorem Links.raise_scanChanged (ls : Links) :
    ls.raise .scanChanged = { ls with ml := { ls.ml with notices := ls.ml.notices ||| 0x20 } } := by
  simp [Links.raise, LinkState.raise, noticeBit]

/-- A parameter byte read as a number and written as a byte again. -/
theorem ofNat_byteAt (ps : List Byte) (i : Nat) : (BitVec.ofNat 8 (byteAt ps i) : Byte) = ps.getD i 0 := by
  rw [byteAt, BitVec.ofNat_toNat, BitVec.setWidth_eq]

/-- SET_WATCH with its seven bytes: the settings adjusted, the counts ended, S raised to the mask (R120). -/
theorem takeSetWatch_of_length {ps : List Byte} (s : State) (hlen : ps.length = 7) :
    takeSetWatch ps s =
      (.status (if 32767 < wordAt ps 1 ∨ byteAt ps 3 = 0 ∨ 32767 < wordAt ps 4 ∨ byteAt ps 6 = 0 then .clamped else .ok),
        { s with
          guard := { s.guard with
            watch := ps.getD 0 0, ipk := min (wordAt ps 1) 32767, kp := max (byteAt ps 3) 1,
            irms := min (wordAt ps 4) 32767, kr := max (byteAt ps 6) 1, peak := eightOf 0, rms := eightOf 0 }
          scan := { s.scan with stop := raisedStop s.scan.stop (ps.getD 0 0) }
          links := s.links.raiseIf (decide (s.scan.stop < raisedStop s.scan.stop (ps.getD 0 0))) .scanChanged }) := by
  rw [takeSetWatch, if_neg (not_not_intro hlen)]
  simp only [ofNat_byteAt, Bool.or_eq_true, decide_eq_true_eq, or_assoc]

/-- The links after a SET_WATCH that is taken on a ready link: the answer, and SCAN_CHANGED where S is raised (R120). -/
theorem answered_scanChanged {ps : List Byte} {s : State} (h : Ready .gl s) (st : Status) (raised : Bool) :
    let ls := (sendRequest 0x36 .gl ps s).links.raiseIf raised .scanChanged
    ls.set .gl ((ls.get .gl).answered true (.status st)) =
      if raised then { answeredOn s .gl st [] with ml := { s.links.ml with notices := s.links.ml.notices ||| 0x20 } }
      else answeredOn s .gl st [] := by
  have hanswered := answered_links h 0x36 ps _ (.status st) rfl
  cases raised
  · exact hanswered
  · rw [Links.raiseIf_true, Links.raise_scanChanged, if_pos rfl]
    exact congrArg (fun ls : Links => { ls with ml := { s.links.ml with notices := s.links.ml.notices ||| 0x20 } }) hanswered

/-- Settles O43: the settings adjusted, and the stop channel raised to the mask. -/
theorem setWatchTakesTheSettings : Obligations.SetWatchTakesTheSettings := by
  intro ps s h hps
  refine ⟨fun hlen => requestOutcome_refused h hps (by decide) (by decide) (if_pos hlen), fun hlen => ?_⟩
  intro watch ipk kp irms kr st
  have hexec := requestOutcome_of_take (code := 0x36) h hps (by decide) (by decide)
    (takeSetWatch_of_length (sendRequest 0x36 .gl ps s) hlen)
  dsimp only at hexec
  rw [answered_scanChanged h st] at hexec
  refine ⟨raisedStop s.scan.stop watch, _, hexec, fun top h7 hin habove => ?_, fun hzero => ?_, fun heq => ?_,
    fun hlt => ?_⟩
  · exact raisedStop_of_highest (highestChannel_eq_some.mpr ⟨h7, hin, habove⟩)
  · rw [hzero]
    exact raisedStop_of_none (highestChannel_eq_none.mpr fun i _ => channelIn_zero i)
  · exact if_neg fun hc => (of_decide_eq_true hc).ne' heq
  · exact if_pos (decide_eq_true hlt)

end Sys2Proof.Machine
end

