-- ==== Sys2Proof/Proofs/GuardTick.lean ====
section
/-! PROOFS. Ticks at which the guard ramp makes its step and pending limits come into force, and the rows that are these events (R113,
R116). -/

namespace Sys2Proof.Machine

open Sys2Proof.Safety

/-! ## Rows of the front half -/

/-- The row of an event of the front half is the whole tick where the front half notes it, and otherwise nothing (log 2). -/
theorem exec_row_of_front {s : State} {row : Instr} {e : TickEvent} {x : Bool} (hplain : PlainTick s)
    (hrow : exec row s = .next (eventTick (isEvent e) x s)) (he : e.ofFront = true) :
    exec row s = .next (if e ∈ (tickFront s).events then workTick 0 x s else s) := by
  rw [hrow, eventTick_isEvent _ x (plainTick_works hplain), tick_working x s (plainTick_works hplain) hplain.2.2]
  simp only [mem_workTick_events 0 x s he]

/-- A guard ramp ends at a tick without a trip at which its step is the last (R113). -/
theorem mem_tickFront_guardRampEnd (s : State) :
    .guardRampEnd ∈ (tickFront s).events ↔ NoTrip s ∧ s.guard.rampEnds = true := by
  have hnone : (s.guard.tripAt s.scan s.tb.wraps s.tb.advance.position).isNone = true ↔ NoTrip s := Option.isNone_iff_eq_none
  rw [tickFront_events, ← hnone]
  split <;> simp [Guard.eventsAt, CounterBank.eventsAt]

/-- Limits come into force at a tick that finds a pair pending (R116). -/
theorem mem_tickFront_limitsInForce (s : State) :
    .limitsInForce ∈ (tickFront s).events ↔ s.guard.pendingLimits.isSome = true := by
  rw [tickFront_events]
  split <;> simp [Guard.eventsAt, CounterBank.eventsAt]

/-! ## The guard ramp -/

/-- What a tick without a trip leaves of output state, G and ramp: the ramp's step on those that stood. -/
theorem workTick_guard_of_noTrip (x : Bool) {s : State} (hnt : NoTrip s) :
    ∃ ge : Guard, ge.out = s.guard.out ∧ ge.ramp = s.guard.ramp ∧ (workTick 0 x s).guard.out = ge.rampStep.out ∧
      (workTick 0 x s).guard.g = ge.rampStep.g ∧ (workTick 0 x s).guard.ramp = ge.rampStep.ramp := by
  obtain ⟨_, _, _, hlimits, _⟩ := Guard.limitsStep_spec (s.guard.examined s.scan s.tb.wraps (comingPosition s)).rampStep
  refine ⟨s.guard.examined s.scan s.tb.wraps (comingPosition s), ?_, ?_, ?_⟩
  · rw [Guard.examined_eq]
  · rw [Guard.examined_eq]
  · have hat := (workTick_guard x s).trans ((Guard.atTick_of_noTrip hnt).trans hlimits)
    rw [hat]
    exact ⟨rfl, rfl, rfl⟩

/-- Settles O40: the four kinds of step, and the row by the event of the front half. -/
theorem guardRampSteps : Obligations.GuardRampSteps := by
  intro x s rp hplain hnt hramp hout
  obtain ⟨ge, hgout, hgramp, htout, htg, htramp⟩ := workTick_guard_of_noTrip x hnt
  have hrow := exec_row_of_front (row := .guardRampEnd x) hplain rfl rfl
  simp only [mem_tickFront_guardRampEnd, hnt, true_and, Guard.rampEnds_iff hramp hout] at hrow
  rw [hramp] at hgramp
  refine ⟨workTick 0 x s, exec_sampleTick_plain x s hplain, fun hk => ⟨hrow.trans (by rw [if_neg hk]), ?_⟩,
    fun hk => ⟨hrow.trans (by rw [if_pos hk]), ?_⟩⟩
  · rcases hout with hout | hout
    · rw [Guard.rampStep_up hgramp (hgout.trans hout) hk] at htout htg htramp
      exact ⟨htout.trans hgout, htramp, fun _ => htg, fun hdown => absurd (hout.symm.trans hdown) (by decide)⟩
    · rw [Guard.rampStep_down hgramp (hgout.trans hout) hk] at htout htg htramp
      exact ⟨htout.trans hgout, htramp, fun hup => absurd (hout.symm.trans hup) (by decide), fun _ => htg⟩
  · rcases hout with hout | hout
    · rw [Guard.rampStep_up_last hgramp (hgout.trans hout) hk] at htout htg htramp
      exact ⟨htramp, fun _ => ⟨htout, htg⟩, fun hdown => absurd (hout.symm.trans hdown) (by decide)⟩
    · rw [Guard.rampStep_down_last hgramp (hgout.trans hout) hk] at htout htg htramp
      exact ⟨htramp, fun hup => absurd (hout.symm.trans hup) (by decide), fun _ => ⟨htout, htg⟩⟩

/-! ## Pending limits -/

/-- After a tick the pair that was pending is in force, or else the limits that were (R116). -/
theorem Guard.atTick_limits (g : Guard) (sc : Scanner) (boundary : Bool) (pos : Position) :
    (∀ lo hi, g.pendingLimits = some (lo, hi) → (g.atTick sc boundary pos).lo = lo ∧
      (g.atTick sc boundary pos).hi = hi ∧ (g.atTick sc boundary pos).pendingLimits = none) ∧
    (g.pendingLimits = none → (g.atTick sc boundary pos).lo = g.lo ∧ (g.atTick sc boundary pos).hi = g.hi) := by
  obtain ⟨_, _, _, _, _, _, _, hat⟩ := g.atTick_eq sc boundary pos
  obtain ⟨hlo, hhi, hpend⟩ := g.examined_limits sc boundary pos
  rw [hat, Guard.limitsStep]
  dsimp only
  rw [hpend]
  refine ⟨fun lo hi hsome => ?_, fun hnone => ?_⟩
  · rw [hsome]
    exact ⟨rfl, rfl, rfl⟩
  · rw [hnone]
    exact ⟨hlo, hhi⟩

/-- Settles O41: the request's checks, and the pair in force at the coming tick. -/
theorem limitsWaitForTheTick : Obligations.LimitsWaitForTheTick := by
  refine ⟨fun ps s h hps => exec_setLimits h hps, fun x s hplain => ?_⟩
  have hrow := exec_row_of_front (row := .pendingLimitsInForce x) hplain rfl rfl
  have htick := exec_sampleTick_plain x s hplain
  obtain ⟨hforce, hkept⟩ := s.guard.atTick_limits s.scan s.tb.wraps (comingPosition s)
  simp only [mem_tickFront_limitsInForce] at hrow
  refine ⟨fun lo hi hsome => ⟨workTick 0 x s, hrow.trans ?_, htick, ?_⟩, fun hnone => ⟨hrow.trans ?_, workTick 0 x s, htick, ?_⟩⟩
  · rw [hsome, if_pos Option.isSome_some]
  · rw [workTick_guard]
    exact hforce lo hi hsome
  · rw [hnone, if_neg (by decide)]
  · rw [workTick_guard]
    exact hkept hnone

end Sys2Proof.Machine
end

