-- ==== Sys2Proof/Proofs/Measurement.lean ====
section
/-! PROOFS. A conversion from its result to the hand-over: what it makes of its channel, of the records of a boundary, of the guard's
counts and of the Counter Bank, and the trips that the counts bring about (R121 to R125, R131 to R133, R138, R139, R143). -/

namespace Sys2Proof.Machine

open Sys2Proof.Safety

/-! ## The ADC's result -/

/-- Sixteen bits read as two's complement (R132). -/
theorem signed16_toNat (v : Word16) : signed16 v.toNat = v.toInt := by
  have := v.isLt
  rw [signed16, BitVec.toInt_eq_toNat_cond, Nat.mod_eq_of_lt this]
  split <;> split <;> omega

/-- A result with no command outstanding, or a second one, is not taken (R143; log 10). -/
theorem Scanner.readResult_latest_untaken {sc : Scanner} (v : Word16) (h : sc.outstanding = none ∨ sc.result ≠ none) :
    sc.readResult .latest v = sc := by
  have hno : ¬ (sc.outstanding.isSome && sc.result.isNone) = true := by
    rw [Bool.and_eq_true, Option.isSome_iff_ne_none, Option.isNone_iff_eq_none]
    rintro ⟨ho, hr⟩
    exact h.elim ho fun h => h hr
  exact if_neg hno

/-! ## The channels -/

/-- A channel after the hand-over of the coming tick (R133). -/
def Scanner.handedTo (sc : Scanner) (i : Nat) : Channel :=
  match sc.outstanding, sc.result with
  | some cmd, some v =>
    if cmd.channel = i then (sc.channels.get i).present v cmd.stamp else sc.channels.get i
  | some cmd, none => if cmd.channel = i then (sc.channels.get i).lost else sc.channels.get i
  | none, _ => sc.channels.get i

section Channels

variable {sc : Scanner} (hcmd : ∀ cmd, sc.outstanding = some cmd → cmd.channel ≤ 7) {i : Nat} (hi : i ≤ 7)
include hcmd hi

theorem Scanner.handOver_get : sc.handOver.channels.get i = sc.handedTo i := by
  unfold Scanner.handedTo
  rcases sc.handOver_cases with ho | ⟨cmd, ho, hr⟩ | ⟨cmd, v, ho, hr⟩
  · rw [Scanner.handOver_idle ho, ho]
  · rw [Scanner.handOver_missing ho hr, Eight.get_set _ (hcmd cmd ho) hi]
    simp only [ho, hr]
    split
    · rename_i hc; rw [hc]
    · rfl
  · rw [Scanner.handOver_present ho hr, Eight.get_set _ (hcmd cmd ho) hi]
    simp only [ho, hr]
    split
    · rename_i hc; rw [hc]
    · rfl

theorem Scanner.closed_get (boundary : Bool) (pos : Position) :
    (sc.closed boundary pos).channels.get i =
      if boundary = true then (sc.handedTo i).close (pos.c - 1) else sc.handedTo i := by
  rw [← Scanner.handOver_get hcmd hi, Scanner.closed]
  split
  · rw [Scanner.closeAll, Eight.get_map]
  · rfl

end Channels

/-- What a channel's record of a boundary is made from (R138, R139). -/
theorem Scanner.handedTo_acc (sc : Scanner) (i : Nat) : (sc.handedTo i).acc = accumulated sc i := by
  unfold Scanner.handedTo accumulated
  rcases sc.handOver_cases with ho | ⟨cmd, ho, hr⟩ | ⟨cmd, v, ho, hr⟩
  · simp only [ho]
  · simp only [ho, hr]
    split <;> rfl
  · simp only [ho, hr]
    split <;> rfl

/-! ## The guard's counts -/

/-- The missing run after examination (R123). -/
theorem Guard.examine_missingRun (g : Guard) (sc : Scanner) : (g.examine sc).missingRun = missingCounted g sc := by
  unfold missingCounted
  rcases sc.handOver_cases with ho | ⟨cmd, ho, hr⟩ | ⟨cmd, v, ho, hr⟩
  · rw [g.examine_idle ho, ho]
  · rw [g.examine_missing ho hr, ho, hr]; rfl
  · rw [g.examine_present ho hr, ho, hr]; rfl

/-- A watched channel's own conversion lets its peak count grow or ends it (R121). -/
theorem Guard.examine_peak_own {g : Guard} {sc : Scanner} {cmd : AdcCommand} {v : Int} (ho : sc.outstanding = some cmd)
    (hr : sc.result = some v) (hw : channelIn g.watch cmd.channel = true) :
    (g.examine sc).peak.get cmd.channel = if g.ipk < v.natAbs then min (g.peak.get cmd.channel + 1) 255 else 0 := by
  rw [g.examine_present ho hr, Guard.countPresent]
  dsimp only
  rw [if_pos hw, Eight.get_set_same]
  rfl

/-- The peak counts after examination (R121). -/
theorem Guard.examine_peak (g : Guard) {sc : Scanner} (hcmd : ∀ cmd, sc.outstanding = some cmd → cmd.channel ≤ 7) {i : Nat}
    (hi : i ≤ 7) : (g.examine sc).peak.get i = peakCounted g sc i := by
  unfold peakCounted
  rcases sc.handOver_cases with ho | ⟨cmd, ho, hr⟩ | ⟨cmd, v, ho, hr⟩
  · rw [g.examine_idle ho, ho]
  · rw [g.examine_missing ho hr, ho, hr]; rfl
  · by_cases hown : cmd.channel = i ∧ channelIn g.watch i = true
    · simp only [ho, hr]
      rw [if_pos hown, ← hown.1, Guard.examine_peak_own ho hr (hown.1 ▸ hown.2)]
    · simp only [ho, hr]
      rw [if_neg hown, g.examine_present ho hr, Guard.countPresent]
      dsimp only
      split
      · rename_i hw
        rw [Eight.get_set _ (hcmd cmd ho) hi, if_neg fun hc => hown ⟨hc, hc ▸ hw⟩]
      · rfl

/-- A channel's RMS count after the records of a boundary, and between boundaries (R122). -/
theorem Guard.examined_rms (g : Guard) {sc : Scanner} (hcmd : ∀ cmd, sc.outstanding = some cmd → cmd.channel ≤ 7) {i : Nat}
    (hi : i ≤ 7) (boundary : Bool) (pos : Position) :
    (g.examined sc boundary pos).rms.get i =
      if boundary = true ∧ channelIn g.watch i = true then rmsCounted g sc i else g.rms.get i := by
  unfold Guard.examined
  cases boundary
  · rw [if_neg Bool.false_ne_true, if_neg fun h => Bool.false_ne_true h.1, g.examine_eq sc]
  · rw [if_pos rfl, Guard.examineRecords, g.examine_eq sc]
    dsimp only
    rw [Eight.get_mapIdx, Nat.min_eq_left hi, Scanner.closed_get hcmd hi, if_pos rfl, Channel.close, sc.handedTo_acc]
    unfold rmsCountAfter rmsCounted cycleDataOf
    dsimp only
    simp only [true_and]
    split
    · split
      · rename_i hnone
        rw [if_pos (by simpa using hnone)]
      · rename_i d hsome
        have hcount : ¬ (accumulated sc i).count = 0 := fun h => by simp [h] at hsome
        rw [if_neg hcount] at hsome ⊢
        cases hsome
        rfl
    · rfl

end Sys2Proof.Machine
end

