-- ==== Sys2Proof/Proofs/TripConditions.lean ====
section
/-! PROOFS. When a trip comes about and when none does: the conversion's condition, that of the records behind it, and the states in
which none is made (R121 to R125). -/

namespace Sys2Proof.Machine

open Sys2Proof.Safety

/-! ## The conditions of a trip -/

section Conditions

variable {g : Guard} {sc : Scanner} {cmd : AdcCommand} {v : Int} (boundary : Bool) (pos : Position)

theorem Guard.conversionTrip_idle (ho : sc.outstanding = none) : g.conversionTrip sc = none := by
  rw [Guard.conversionTrip, ho]

/-- A missing conversion that brings the missing run to 32 with a channel watched (R123). -/
theorem Guard.conversionTrip_missing (ho : sc.outstanding = some cmd) (hr : sc.result = none) :
    (g.examined sc boundary pos).conversionTrip sc =
      if g.watch ≠ 0 ∧ 31 ≤ g.missingRun then some (.measureLost, cmd.channel) else none := by
  have hrun : (g.examine sc).missingRun = min (g.missingRun + 1) 32 := by rw [g.examine_missing ho hr]; rfl
  have hcond : (decide (min (g.missingRun + 1) 32 = 32) && !(g.watch == 0)) = true ↔ g.watch ≠ 0 ∧ 31 ≤ g.missingRun := by
    rw [Bool.and_eq_true, decide_eq_true_eq, Bool.not_eq_true', beq_eq_false_iff_ne, and_comm]
    exact and_congr_right fun _ => by omega
  rw [Guard.examined_eq, hrun]
  simp only [Guard.conversionTrip, ho, hr, hcond]

/-- A watched channel's conversion that brings its peak count to Kp (R121). -/
theorem Guard.conversionTrip_present (ho : sc.outstanding = some cmd) (hr : sc.result = some v) :
    (g.examined sc boundary pos).conversionTrip sc =
      if channelIn g.watch cmd.channel = true ∧
          g.kp ≤ (if g.ipk < v.natAbs then min (g.peak.get cmd.channel + 1) 255 else 0)
      then some (.peak, cmd.channel) else none := by
  rw [Guard.examined_eq]
  simp only [Guard.conversionTrip, ho, hr, Bool.and_eq_true, decide_eq_true_eq]
  by_cases hw : channelIn g.watch cmd.channel = true
  · rw [Guard.examine_peak_own ho hr hw]
  · rw [if_neg fun h => hw h.1, if_neg fun h => hw h.1]

/-- A conversion that meets neither condition makes no trip (R121, R123). -/
theorem Guard.conversionTrip_eq_none (h : ¬ ConversionTrips g sc) :
    (g.examined sc boundary pos).conversionTrip sc = none := by
  rcases sc.handOver_cases with ho | ⟨cmd, ho, hr⟩ | ⟨cmd, v, ho, hr⟩
  · exact Guard.conversionTrip_idle ho
  · rw [Guard.conversionTrip_missing boundary pos ho hr, if_neg fun hc => h (.inr ⟨cmd, ho, hr, hc⟩)]
  · rw [Guard.conversionTrip_present boundary pos ho hr, if_neg fun hc => h (.inl ⟨cmd, v, ho, hr, hc⟩)]

/-- The lowest watched channel whose RMS count stands at Kr or above (R122). -/
theorem Guard.rmsTrip_eq_some {i : Nat} : g.rmsTrip = some (.rms, i) ↔
    i ≤ 7 ∧ (channelIn g.watch i = true ∧ g.kr ≤ g.rms.get i) ∧
      ∀ j, j < i → channelIn g.watch j = true → g.rms.get j < g.kr := by
  rw [Guard.rmsTrip, Option.map_eq_some_iff, channelNumbers_eq_range]
  simp only [Prod.mk.injEq, true_and, exists_eq_right, List.find?_range_eq_some, List.mem_range, Bool.and_eq_true,
    decide_eq_true_eq, Bool.not_eq_true', Bool.and_eq_false_imp, decide_eq_false_iff_not, not_le, Nat.lt_succ_iff]
  exact ⟨fun ⟨hc, hi, hlow⟩ => ⟨hi, hc, hlow⟩, fun ⟨hi, hc, hlow⟩ => ⟨hc, hi, hlow⟩⟩

theorem Guard.rmsTrip_eq_none : g.rmsTrip = none ↔ ∀ i, i ≤ 7 → channelIn g.watch i = true → g.rms.get i < g.kr := by
  rw [Guard.rmsTrip, Option.map_eq_none_iff, channelNumbers_eq_range]
  simp only [List.find?_range_eq_none, Bool.not_eq_true', Bool.and_eq_false_imp, decide_eq_false_iff_not, not_le,
    Nat.lt_succ_iff]

/-- Outside TRIPPED a tick's trip is the conversion's, or else at a boundary that of the records (R125). -/
theorem Guard.tripAt_of_not_tripped (hout : g.out ≠ .tripped) :
    g.tripAt sc boundary pos = ((g.examined sc boundary pos).conversionTrip sc).or
      (if boundary then (g.examined sc boundary pos).rmsTrip else none) := by
  refine if_neg ?_
  rw [Guard.examined_eq]
  exact hout

/-- While TRIPPED no trip is made (R125). -/
theorem Guard.tripAt_of_tripped (hout : g.out = .tripped) : g.tripAt sc boundary pos = none := by
  refine if_pos ?_
  rw [Guard.examined_eq]
  exact hout

/-- With no channel watched no trip is made (R121 to R123). -/
theorem Guard.tripAt_of_unwatched (hwatch : g.watch = 0) : g.tripAt sc boundary pos = none := by
  by_cases hout : g.out = .tripped
  · exact Guard.tripAt_of_tripped boundary pos hout
  · have hconv : (g.examined sc boundary pos).conversionTrip sc = none := by
      refine Guard.conversionTrip_eq_none boundary pos ?_
      rintro (⟨cmd, v, _, _, hw, _⟩ | ⟨cmd, _, _, hw, _⟩)
      · rw [hwatch, channelIn_zero] at hw; cases hw
      · exact hw hwatch
    have hrms : (g.examined sc boundary pos).rmsTrip = none := by
      refine Guard.rmsTrip_eq_none.mpr fun i _ hw => ?_
      rw [Guard.examined_eq, hwatch, channelIn_zero] at hw
      cases hw
    rw [Guard.tripAt_of_not_tripped boundary pos hout, hconv, hrms]
    split <;> rfl

end Conditions

/-- Settles O45: the conversion's trips first, and at a boundary those of the records behind them. -/
theorem tripConditions : Obligations.TripConditions := by
  intro s boundary pos trip
  refine ⟨fun hout => Guard.tripAt_of_tripped boundary pos hout, fun hwatch => Guard.tripAt_of_unwatched boundary pos hwatch,
    fun cmd v hout ho hr hw hover hkp => ?_, fun cmd hout ho hr hw hrun => ?_, fun hcmd hout hconv => ?_⟩
  · rw [show trip = _ from Guard.tripAt_of_not_tripped boundary pos hout, Guard.conversionTrip_present boundary pos ho hr,
      if_pos ⟨hw, by rwa [if_pos hover]⟩, Option.some_or]
  · rw [show trip = _ from Guard.tripAt_of_not_tripped boundary pos hout, Guard.conversionTrip_missing boundary pos ho hr,
      if_pos ⟨hw, hrun⟩, Option.some_or]
  · have htrip : trip = if boundary then (s.guard.examined s.scan boundary pos).rmsTrip else none := by
      rw [show trip = _ from Guard.tripAt_of_not_tripped boundary pos hout, Guard.conversionTrip_eq_none boundary pos hconv,
        Option.none_or]
    have hwatch : (s.guard.examined s.scan boundary pos).watch = s.guard.watch := by rw [Guard.examined_eq]
    have hkr : (s.guard.examined s.scan boundary pos).kr = s.guard.kr := by rw [Guard.examined_eq]
    have hcount {i : Nat} (hb : boundary = true) (hi : i ≤ 7) (hw : channelIn s.guard.watch i = true) :
        (s.guard.examined s.scan boundary pos).rms.get i = rmsCounted s.guard s.scan i := by
      rw [s.guard.examined_rms hcmd hi, if_pos ⟨hb, hw⟩]
    refine ⟨fun i hb hi hw hat hlow => ?_, fun hnone => ?_⟩
    · rw [htrip, if_pos hb, Guard.rmsTrip_eq_some, hwatch, hkr]
      refine ⟨hi, ⟨hw, by rwa [hcount hb hi hw]⟩, fun j hj hwj => ?_⟩
      rw [hcount hb (by omega) hwj]
      exact hlow j hj hwj
    · rw [htrip]
      split
      · rename_i hb
        rw [Guard.rmsTrip_eq_none, hwatch, hkr]
        intro i hi hw
        rw [hcount hb hi hw]
        exact (hnone.resolve_left (by rw [hb]; decide)) i hi hw
      · rfl

end Sys2Proof.Machine
end

