-- ==== Sys2Proof/Proofs/HandOver.lean ====
section
/-! PROOFS. Conversions read, handed over and counted at a working tick, the records of a boundary, and the next command (R121 to R123,
R131 to R133, R138, R139, R143). -/

namespace Sys2Proof.Machine

open Sys2Proof.Safety

/-! ## OVERCURRENT and MISSING -/

theorem Guard.overcurrent_iff (g : Guard) (sc : Scanner) : g.overcurrent sc = true ↔ OverHandedOver g sc := by
  unfold OverHandedOver
  rcases sc.handOver_cases with ho | ⟨cmd, ho, hr⟩ | ⟨cmd, v, ho, hr⟩
  · simp [Guard.overcurrent, ho]
  · simp [Guard.overcurrent, ho, hr]
  · have hown : g.overcurrent sc = g.isOver cmd.channel v := by simp only [Guard.overcurrent, ho, hr]
    rw [hown, Guard.isOver, Bool.and_eq_true, decide_eq_true_eq]
    refine ⟨fun h => ⟨cmd, v, ho, hr, h⟩, ?_⟩
    rintro ⟨cmd', v', ho', hr', h⟩
    cases ho.symm.trans ho'
    cases hr.symm.trans hr'
    exact h

theorem Scanner.isMissing_iff (sc : Scanner) : sc.isMissing = true ↔ MissingHandedOver sc := by
  rw [Scanner.isMissing, Bool.and_eq_true, Option.isSome_iff_ne_none, Option.isNone_iff_eq_none]
  rfl

/-- What the front half of a tick counts: on what its snapshot leaves, the hand-over (R133, R163). -/
theorem tickFront_live (s : State) :
    (tickFront s).cnt.live = (countedFrom s).handOver (s.guard.overcurrent s.scan) s.scan.isMissing := by
  have hlive : (s.cnt.atTick s.tb.wraps s.tb.advance.position).live = countedFrom s := by
    unfold CounterBank.atTick countedFrom
    split <;> rfl
  rw [← hlive]
  rfl

/-- No act of the runner's counts in OVERCURRENT or MISSING. -/
theorem handOverCounts_runInvariant (overcurrent missing : Nat) :
    RunInvariant (fun w => w.cnt.live.overcurrent = overcurrent ∧ w.cnt.live.missing = missing) where
  renewed h := h
  filled _ h := h
  markerFault _ _ _ h := h
  unmapped _ _ h := h
  control _ _ _ h := h
  ended _ _ _ late h := by cases late <;> exact h
  timed _ _ _ late h := by cases late <;> exact h
  taken _ h := h
  released _ _ h := h
  pending _ _ _ h := h

/-- OVERCURRENT and MISSING after a tick are those of its front half. -/
theorem workTick_handOverCounts (x : Bool) (s : State) :
    (workTick 0 x s).cnt.live.overcurrent =
      (if s.guard.overcurrent s.scan then min ((countedFrom s).overcurrent + 1) 65535 else (countedFrom s).overcurrent) ∧
    (workTick 0 x s).cnt.live.missing =
      (if s.scan.isMissing then min ((countedFrom s).missing + 1) 65535 else (countedFrom s).missing) := by
  rw [workTick_live_overcurrent, workTick_live_missing]
  refine (handOverCounts_runInvariant _ _).runAfter ?_
  rw [State.runSide, tickFront_live]
  exact ⟨rfl, rfl⟩

/-! ## The guard's counts -/

/-- Trip, ramp and limits leave the counts as the examination has them (R121 to R123). -/
theorem Guard.atTick_counts (g : Guard) (sc : Scanner) (boundary : Bool) (pos : Position) :
    (g.atTick sc boundary pos).missingRun = (g.examine sc).missingRun ∧
    (g.atTick sc boundary pos).peak = (g.examine sc).peak ∧
    (g.atTick sc boundary pos).rms = (g.examined sc boundary pos).rms := by
  obtain ⟨_, _, _, _, _, _, _, hat⟩ := g.atTick_eq sc boundary pos
  obtain ⟨_, _, _, hlimits, _⟩ := Guard.limitsStep_spec { g.examined sc boundary pos with
    out := _, g := _, ramp := _, hold := _, tripCause := _, tripChannel := _, tripStamp := _ }
  rw [hat, hlimits, Guard.examined_eq]
  exact ⟨rfl, rfl, rfl⟩

/-! ## The next command -/

theorem Scanner.closed_nextChannel (sc : Scanner) (boundary : Bool) (pos : Position) :
    (sc.closed boundary pos).nextChannel = if sc.ptr ≤ sc.stop then sc.ptr else 0 := by
  rw [Scanner.nextChannel, sc.closed_ptr, (sc.closed_settings boundary pos).1]

/-- Settles O47: the results that are read, and a tick's hand-over, counts, records and command. -/
theorem conversionsAreReadAndHandedOver : Obligations.ConversionsAreReadAndHandedOver := by
  refine ⟨fun v s => ⟨fun ho hr => ?_, fun h => ?_, rfl⟩, fun x s hplain => ?_⟩
  · show Host.Outcome.next _ = _
    rw [Scanner.readResult_latest s.scan v (Option.isSome_iff_ne_none.mpr ho) hr, signed16_toNat]
  · show Host.Outcome.next _ = _
    rw [Scanner.readResult_latest_untaken v h]
  · obtain ⟨hrun, hpeak, hrms⟩ := s.guard.atTick_counts s.scan s.tb.wraps (comingPosition s)
    obtain ⟨hstop, hgain⟩ := s.scan.closed_settings s.tb.wraps (comingPosition s)
    obtain ⟨hover, hmissing⟩ := workTick_handOverCounts x s
    have hnext := s.scan.closed_nextChannel s.tb.wraps (comingPosition s)
    have hoverIff := s.guard.overcurrent_iff s.scan
    have hmissingIff := s.scan.isMissing_iff
    refine ⟨workTick 0 x s, exec_sampleTick_plain x s hplain, ?_⟩
    intro due
    rw [workTick_scan, workTick_guard]
    refine ⟨?_, rfl, ?_, hstop, hrun.trans (s.guard.examine_missingRun s.scan),
      fun h => hover.trans (if_pos (hoverIff.mpr h)), fun h => hover.trans (if_neg fun hc => h (hoverIff.mp hc)),
      fun h => hmissing.trans (if_pos (hmissingIff.mpr h)), fun h => hmissing.trans (if_neg fun hc => h (hmissingIff.mp hc)),
      fun i hi => ?_⟩
    · show some _ = _
      rw [show (s.scan.closed s.tb.wraps s.tb.advance.position).nextChannel = due from hnext]
      exact congrArg (fun gain => some (AdcCommand.mk due gain (comingPosition s))) (hgain due)
    · show (if _ < (s.scan.closed s.tb.wraps (comingPosition s)).stop then _ else 0) = _
      rw [hstop, show (s.scan.closed s.tb.wraps s.tb.advance.position).nextChannel = due from hnext]
    · intro before handed hcmd
      have hget := Scanner.closed_get hcmd hi s.tb.wraps (comingPosition s)
      refine ⟨(congrArg (·.get i) hpeak).trans (s.guard.examine_peak hcmd hi),
        (congrArg (·.get i) hrms).trans (s.guard.examined_rms hcmd hi _ _), fun hw => ?_, fun hw => ?_⟩
      · exact hget.trans (if_neg (by rw [hw]; decide))
      · exact hget.trans (if_pos hw)

end Sys2Proof.Machine
end

