-- ==== Sys2Proof/Proofs/SoftReset.lean ====
section
/-! PROOFS. SOFT_RESET: its answer on a ready link, its effect at the CS rise that ends its transaction, and the requests of the
Guard Link that are taken ahead of it there (R129, R169, R180). -/

namespace Sys2Proof.Machine

open Sys2Proof.Safety

/-! ## Answered, and nothing else yet -/

theorem takeSoftReset_nil (s : State) :
    takeSoftReset [] s = (.status .ok, { s with links := { s.links with gl := { s.links.gl with softReset := true } } }) := rfl

theorem exec_softReset_ready {s : State} (h : Ready .gl s) :
    exec (.softReset .gl []) s = .next (withLink s .gl
      { answeredLink s.links.gl (.formed [0x00, 0x00]) with softReset := true }) := by
  have ⟨_, _, huntaken, _⟩ := h
  have hgl : s.links.gl.untaken = [] := huntaken
  have hexec := requestOutcome_of_take (code := 0x39) h (ps := []) (by decide) (by decide) (by decide)
    (takeSoftReset_nil (sendRequest 0x39 .gl [] s))
  refine hexec.trans (congrArg Host.Outcome.next ?_)
  simp only [sendRequest, withLink, Links.get, Links.set, LinkState.sent, LinkState.answered, answeredLink, hgl]
  rfl

/-! ## Requests of the Guard Link ahead of a SOFT_RESET -/

/-- Two states that a SOFT_RESET leaves the same, with the same requests of the Guard Link still to be taken: they agree in the
stores, in the pins of the links and in what belongs to no block (R129, R180). -/
structure SameReset (s t : State) : Prop where
  reset : softReset t = softReset s
  untaken : t.links.gl.untaken = s.links.gl.untaken

namespace SameReset

variable {s : State}

theorem refl (s : State) : SameReset s s := ⟨rfl, rfl⟩

theorem ite_status {c : Prop} [Decidable c] {st : Status} {res : Answer × State} (h : SameReset s res.2) :
    SameReset s (if c then refuse s st else res).2 := by
  split
  · exact refl s
  · exact h

theorem ite_read {c : Prop} [Decidable c] {st : Status} {ans : Answer} :
    SameReset s (if c then (ans, s) else refuse s st).2 := by
  split <;> exact refl s

/-- A notice raised is one that the reset takes back. -/
theorem raiseIf (g : Guard) (sc : Scanner) (raised : Bool) (n : Notice) :
    SameReset s { s with guard := g, scan := sc, links := s.links.raiseIf raised n } := by
  cases raised <;> exact ⟨rfl, rfl⟩

end SameReset

open SameReset in
/-- A request of the Guard Link acts on blocks that a reset brings back and on notices and masks that it clears (R129). -/
theorem takeByCode_sameReset {code : Nat} (hb : codeBelongs code .gl = true) (ps : List Byte) (s : State) :
    SameReset s (takeByCode code .gl ps s).2 := by
  unfold takeByCode
  split
  case h_1 | h_23 | h_28 => exact ite_status ⟨rfl, rfl⟩
  case h_2 | h_21 | h_22 | h_24 => exact ite_status (ite_status ⟨rfl, rfl⟩)
  case h_3 | h_4 | h_27 => exact ite_read
  case h_19 =>
    refine ite_status ?_
    split
    case h_1 => split <;> exact ⟨rfl, rfl⟩
    all_goals exact refl s
  case h_20 =>
    refine ite_status ?_
    split <;> exact ⟨rfl, rfl⟩
  case h_25 => exact ite_status (raiseIf _ _ _ _)
  case h_26 =>
    refine ite_status ?_
    split <;> exact ⟨rfl, rfl⟩
  case h_40 => exact refl s
  -- Requests of the other links do not come to their own checks here.
  all_goals exact absurd hb (by decide)

theorem judge_sameReset (r : Request) (s : State) : SameReset s (judge .gl r s).2 := by
  unfold judge
  refine SameReset.ite_status (SameReset.ite_status ?_)
  by_cases hb : codeBelongs r.code.toNat .gl = true
  · exact SameReset.ite_status (SameReset.ite_status (takeByCode_sameReset hb _ s))
  · rw [if_pos (by simpa using hb)]
    exact .refl s

/-- A request of the Guard Link that is taken leaves the next one the oldest, and what a reset makes of the part. -/
theorem takeOldest_reset (s : State) :
    softReset (takeOldest .gl s) = softReset s ∧ (takeOldest .gl s).links.gl.untaken = s.links.gl.untaken.tail := by
  cases hu : s.links.gl.untaken with
  | nil =>
    have hnone : takeOldest .gl s = s := by
      unfold takeOldest
      rw [show (s.links.get .gl).untaken = [] from hu]
    rw [hnone, hu]
    exact ⟨rfl, rfl⟩
  | cons r rest =>
    obtain ⟨hreset, huntaken⟩ := judge_sameReset r s
    unfold takeOldest
    rw [show (s.links.get .gl).untaken = r :: rest from hu]
    exact ⟨hreset, congrArg List.tail (huntaken.trans hu)⟩

/-- A SOFT_RESET as it waits to be taken: no parameters, complete after INIT (R129). -/
def softResetRequest : Request := { code := 0x39, n := 0, params := [], inInit := false }

theorem takeOldest_softResetRequest {s : State} (h : s.links.gl.untaken = [softResetRequest]) :
    (takeOldest .gl s).links.gl.softReset = true := by
  unfold takeOldest
  rw [show (s.links.get .gl).untaken = [softResetRequest] from h]
  rfl

/-- The requests ahead of a SOFT_RESET taken, and then itself: it waits for its effect, and the reset leaves what it would have
left before them (R180). -/
theorem takeLink_softReset (ahead : List Request) {s : State} (h : s.links.gl.untaken = ahead ++ [softResetRequest]) :
    softReset (takeLink .gl (ahead.length + 1) s) = softReset s ∧
    (takeLink .gl (ahead.length + 1) s).links.gl.softReset = true := by
  induction ahead generalizing s with
  | nil => exact ⟨(takeOldest_reset s).1, takeOldest_softResetRequest h⟩
  | cons r ahead ih =>
    obtain ⟨hreset, huntaken⟩ := takeOldest_reset s
    obtain ⟨hrest, hwaits⟩ := ih (s := takeOldest .gl s) (by rw [huntaken, h]; rfl)
    exact ⟨hrest.trans hreset, hwaits⟩

/-! ## The CS rise -/

theorem csRise_of_softReset {s t : State} (ht : takeBeforeRise .gl s = t) (h : t.links.gl.softReset = true) :
    csRise .gl s = softReset t := by
  rw [csRise, ht]
  exact if_pos h

theorem takeBeforeRise_holds {s : State} (h : s.links.gl.holdsSoftReset = true) :
    takeBeforeRise .gl s = takeLink .gl s.links.gl.untaken.length s :=
  if_pos (by rw [Bool.and_eq_true]; exact ⟨rfl, h⟩)

theorem holdsSoftReset_of_last {lk : LinkState} (htx : lk.tx = .waiting) {ahead : List Request} {r : Request}
    (hu : lk.untaken = ahead ++ [r]) (hr : r.code = 0x39) : lk.holdsSoftReset = true := by
  rw [LinkState.holdsSoftReset, htx, hu, List.getLast?_concat]
  exact decide_eq_true hr

/-- A CS rise of the Guard Link that finds a SOFT_RESET, taken or complete, is its effect on what stood before (R180). -/
theorem csRise_softReset {s : State}
    (h : (s.links.gl.softReset = true ∧ s.links.gl.untaken = []) ∨
      (s.links.gl.tx = .waiting ∧ ∃ ahead, s.links.gl.untaken = ahead ++ [softResetRequest])) :
    csRise .gl s = softReset s := by
  rcases h with ⟨hwaits, hnone⟩ | ⟨htx, ahead, hu⟩
  · refine csRise_of_softReset (if_neg ?_) hwaits
    rw [Bool.and_eq_true, LinkState.holdsSoftReset, show (s.links.get .gl).untaken = [] from hnone]
    simp
  · obtain ⟨hreset, hwaits⟩ := takeLink_softReset ahead hu
    have htaken := takeBeforeRise_holds (holdsSoftReset_of_last htx hu rfl)
    rw [hu, List.length_append, List.length_singleton] at htaken
    rw [csRise_of_softReset htaken hwaits, hreset]

/-- A SOFT_RESET of INIT, of too great a length or with parameters is refused (R129, R171, R178). -/
theorem judge_softReset_refused {r : Request} (s : State) (hr : r.code = 0x39)
    (hbad : r.inInit = true ∨ 200 < r.n ∨ r.params ≠ []) : ∃ st, judge .gl r s = refuse s st := by
  unfold judge
  rw [hr]
  by_cases hinit : r.inInit = true
  · exact ⟨_, if_pos hinit⟩
  · rw [if_neg hinit, if_neg (by decide), if_neg (by decide)]
    by_cases hn : 200 < r.n
    · exact ⟨_, if_pos hn⟩
    · rw [if_neg hn]
      refine ⟨_, if_pos fun hlen => ?_⟩
      exact (hbad.resolve_left hinit).elim hn fun hps => hps (List.eq_nil_of_length_eq_zero hlen)

/-- A SOFT_RESET that is refused at the CS rise leaves it an edge like any other (R170). -/
theorem csRise_refused {s : State} {r : Request} (hwaits : s.links.gl.softReset = false) (htx : s.links.gl.tx = .waiting)
    (hu : s.links.gl.untaken = [r]) (hr : r.code = 0x39) (hbad : r.inInit = true ∨ 200 < r.n ∨ r.params ≠ []) :
    csRise .gl s = withLink s .gl
      { s.links.gl with csLow := false, tx := .idle, rx := [], untaken := [], resp := none, out := [] } := by
  obtain ⟨st, hjudge⟩ := judge_softReset_refused s hr hbad
  have htaken := takeBeforeRise_holds (holdsSoftReset_of_last (ahead := []) htx hu hr)
  have holdest : takeBeforeRise .gl s = withLink s .gl (s.links.gl.answered (s.links.get .gl).isLive (.status st)) := by
    rw [htaken, hu]
    show takeOldest .gl s = _
    unfold takeOldest
    rw [show (s.links.get .gl).untaken = [r] from hu]
    dsimp only
    rw [hjudge]
    rfl
  rw [csRise, holdest]
  refine (if_neg ?_).trans ?_
  · show ¬ s.links.gl.softReset = true
    rw [hwaits]
    decide
  · simp only [withLink, Links.get, Links.set, LinkState.answered, LinkState.rise, hu, List.tail_cons]

/-- Settles O13: the answer, and the edge by what it finds on the link. -/
theorem softResetActsAtItsCsRise : Obligations.SoftResetActsAtItsCsRise := by
  intro s
  have rise (hlow : s.links.gl.csLow = true) : exec (.csRise .gl) s = .next (csRise .gl s) :=
    congrArg Host.Outcome.next (if_pos hlow)
  refine ⟨exec_softReset_ready, fun ps h hps hlen => requestOutcome_refused h hps (by decide) (by decide) (if_pos hlen),
    fun hlow hfound => ⟨(softReset s).links, ?_, rfl, fun l hl => ?_⟩, fun r hlow hwaits htx hu hr hbad => ?_⟩
  · rw [rise hlow, csRise_softReset hfound]
    rfl
  · cases l with
    | gl => exact absurd rfl hl
    | pl | ml => rfl
  · rw [rise hlow, csRise_refused hwaits htx hu hr hbad]

end Sys2Proof.Machine
end

