-- ==== Sys2Proof/Proofs/SetScan.lean ====
section
/-! PROOFS. SET_SCAN on a ready link: its checks, the settings that the watch mask lets it change, and its status (R135, R136). -/

namespace Sys2Proof.Machine

open Sys2Proof.Safety

/-- A carried gain code above 3 is what SET_SCAN refuses (R135). -/
theorem gainsRefused_iff (ps : List Byte) :
    channelNumbers.any (fun i => decide (3 < carriedGain ps i)) = true ↔ ¬ ∀ i, i ≤ 7 → byteAt ps (i + 1) ≤ 3 := by
  simp only [List.any_eq_true, mem_channelNumbers, decide_eq_true_eq, not_forall, not_le, exists_prop]
  rfl

/-- A value is adjusted where S is raised or a watched channel's gain is not the one carried (R136). -/
theorem setScan_adjusted_iff (s : State) (ps : List Byte) :
    (decide (raisedStop (byteAt ps 0) s.guard.watch ≠ byteAt ps 0) || channelNumbers.any (gainAdjusted s ps)) = true ↔
      raisedStop (byteAt ps 0) s.guard.watch ≠ byteAt ps 0 ∨
      ∃ i, i ≤ 7 ∧ channelIn s.guard.watch i = true ∧ byteAt ps (i + 1) ≠ (s.scan.channels.get i).gain := by
  simp only [Bool.or_eq_true, List.any_eq_true, mem_channelNumbers, gainAdjusted, Bool.and_eq_true, decide_eq_true_eq]
  rfl

/-- Settles O46: each refusal by the check that fails first, the acceptance by what the watch mask adjusts. -/
theorem setScanKeepsTheWatch : Obligations.SetScanKeepsTheWatch := by
  intro ps s h hps valueOk
  have refused {st : Status} (hres : takeSetScan ps (sendRequest 0x50 .ml ps s) = refuse _ st) :
      exec (.setScan .ml ps) s = .next (onlyAnswered s .ml st []) :=
    requestOutcome_refused h hps (by decide) (by decide) hres
  have hvalue : (7 < byteAt ps 0 ∨ channelNumbers.any (fun i => decide (3 < carriedGain ps i)) = true) ↔ ¬ valueOk := by
    rw [gainsRefused_iff, ← Nat.not_le, not_and_or]
  have passed {n : Nat} (hlen : ps.length = n) : ¬ ps.length ≠ n := not_not_intro hlen
  refine ⟨fun hlen => refused (if_pos hlen), fun hlen hbad => refused ((if_neg (passed hlen)).trans (if_pos (hvalue.mpr hbad))),
    fun hlen hok => ?_⟩
  have hadjusted := setScan_adjusted_iff s ps
  refine ⟨_, _, _, exec_setScan_ready h ps hps _
    ((if_neg (passed hlen)).trans (if_neg fun hbad => hvalue.mp hbad hok)) rfl, fun top h7 hin habove => ?_, fun hzero => ?_,
    fun i hi => ?_, fun ⟨hstop, hgain⟩ => ?_, fun hdiffers => if_pos (hadjusted.mpr hdiffers)⟩
  · exact raisedStop_of_highest (highestChannel_eq_some.mpr ⟨h7, hin, habove⟩)
  · exact raisedStop_of_none (highestChannel_eq_none.mpr fun i _ => hzero ▸ channelIn_zero i)
  · exact (Eight.get_mapIdx _ _ i).trans (by rw [Nat.min_eq_left hi]; rfl)
  · refine if_neg fun hc => ?_
    rcases hadjusted.mp hc with hraised | ⟨i, hi, hin, hne⟩
    · exact hraised hstop
    · exact hne (hgain i hi hin)

end Sys2Proof.Machine
end

