-- ==== Sys2Proof/Proofs/CaptureTrigger.lean ====
section
/-! PROOFS. The Capture Buffer's part of a tick: the stages around its entries, and what triggers it (R147, R148, R151). -/

namespace Sys2Proof.Machine

open Sys2Proof.Safety
open Links (Raised)

/-! ## The stages around the entries -/

/-- The entries that the Scanner offers at the coming tick, in order (R145, R149). -/
def State.offered (s : State) : List CapEntry :=
  conversionOffer s.scan ++ (if s.tb.wraps then cycleOffers (tickFront s).scan (comingPosition s) else [])

/-- The coming tick behind the samples and the trigger, before any entry is offered. -/
def State.beforeEntries (x : Bool) (s : State) : State :=
  { tickMiddle 0 s with cap := s.cap.atTick s.tb.wraps x s.runAfter.events (comingPosition s) }

/-- The coming tick behind its entries. -/
def State.afterEntries (x : Bool) (s : State) : State := offerEntries s.offered (s.beforeEntries x)

theorem captureTick_tickMiddle (x : Bool) (s : State) :
    captureTick (tickMiddle 0 s) (conversionOffer s.scan) s.tb.wraps x s.tb.advance.position = s.afterEntries x := by
  have hcap : (tickMiddle 0 s).cap = s.cap := tickMiddle_cap s
  rw [State.afterEntries, State.offered, State.beforeEntries, ← tickMiddle_scan, ← tickMiddle_events, ← hcap]
  rfl

theorem beforeResponses_eq (x : Bool) (s : State) :
    s.beforeResponses x = traceTick (s.afterEntries x) (comingPosition s) := by
  rw [State.beforeResponses, captureTick_tickMiddle]
  rfl

theorem workTick_cap (x : Bool) (s : State) : (workTick 0 x s).cap = (s.afterEntries x).cap := by
  rw [workTick_eq_respondTick, respondTick_cap, beforeResponses_eq, traceTick_cap]

theorem workTick_captureLost (x : Bool) (s : State) :
    (workTick 0 x s).cnt.live.captureLost = (s.afterEntries x).cnt.live.captureLost := by
  rw [workTick_eq_respondTick, respondTick_cnt, beforeResponses_eq, traceTick_live_captureLost]

/-- A notice that the entries leave raised is raised after the tick. -/
theorem workTick_notice_of_afterEntries {x : Bool} {s : State} {l : Link} {i : Nat}
    (h : ((s.afterEntries x).links.get l).notices.getLsbD i = true) :
    ((workTick 0 x s).links.get l).notices.getLsbD i = true := by
  obtain ⟨_, _, _, _, _, _, hnotices⟩ := ((s.beforeResponses x).links.get l).atTick_frame (s.beforeResponses x)
  have hraised : Raised (s.afterEntries x).links (s.beforeResponses x).links := by
    rw [beforeResponses_eq]
    exact putEntries_raised _ (.refl _)
  rw [workTick_eq_respondTick, respondTick_link, hnotices]
  exact hraised.notice h

/-- No stage before the entries notes a completion. -/
theorem captureDone_not_mem_runAfter (s : State) : .captureDone ∉ s.runAfter.events := by
  have hextra (r : Record) : .captureDone ∉ r.extraEvents := fun he => by
    rcases List.mem_append.mp he with he | he <;> split at he <;> simp at he
  have hQ : RunInvariant (fun w => .captureDone ∉ w.events) :=
    { renewed := id, filled := fun _ => id, markerFault := fun _ _ _ h => by simpa [enterFaulted] using h
      unmapped := fun _ _ h => by simpa [enterFaulted] using h
      control := fun _ _ _ h => by simpa [applyControl] using h
      ended := fun _ _ _ _ h => by simpa [applyEnd] using h
      timed := fun _ r _ _ h => by simpa [applyTimed, hextra r] using h
      taken := fun _ h => by simpa [takeTheHold] using h
      released := fun _ _ h => by simpa [releaseTheHold] using h
      pending := fun _ _ r h => by simpa [applyPending, hextra r] using h }
  refine hQ.runAfter ?_
  show .captureDone ∉ (tickFront s).events
  rw [tickFront_events]
  split <;> simp [Guard.eventsAt, CounterBank.eventsAt]

/-- The row CAPTURE_DONE is the tick at which the entries complete a window (R149; log 2). -/
theorem exec_captureDone {x : Bool} {s : State} (h : PlainTick s) :
    exec (.captureDone x) s = .next (if .captureDone ∈ (s.afterEntries x).events then workTick 0 x s else s) := by
  have hmem : .captureDone ∈ (workTick 0 x s).events ↔ .captureDone ∈ (s.afterEntries x).events := by
    rw [workTick_eq_respondTick, respondTick_events, beforeResponses_eq, mem_traceTick_events (by decide)]
  show Host.Outcome.next _ = _
  rw [eventTick_isEvent _ x (plainTick_works h), tick_working x s (plainTick_works h) h.2.2]
  simp only [hmem]

/-- Before its entries a tick has lost none of them: CAPTURE_LOST is what its counting begins from (R163). -/
theorem beforeEntries_captureLost (x : Bool) (s : State) :
    (s.beforeEntries x).cnt.live.captureLost = (countedFrom s).captureLost := by
  have hQ : RunInvariant (fun w => w.cnt.live.captureLost = (countedFrom s).captureLost) :=
    { renewed := id, filled := fun _ => id, markerFault := fun _ _ _ => id, unmapped := fun _ _ => id
      control := fun _ _ _ => id, ended := fun _ _ _ late h => by cases late <;> exact h
      timed := fun _ _ _ late h => by cases late <;> exact h
      taken := fun _ => id, released := fun _ _ => id, pending := fun _ _ _ => id }
  have hafter := hQ.runAfter (s := s) (by rw [State.runSide, tickFront_live]; rfl)
  rw [State.beforeEntries, tickMiddle_eq, synthesize_live_captureLost]
  exact hafter

/-! ## The trigger -/

theorem trip_mem_runAfter (s : State) : .trip ∈ s.runAfter.events ↔ ¬ NoTrip s := by
  rw [(frontEvents_runInvariant (tickFront s).events).runAfter (fun _ _ => Iff.rfl) .trip rfl, ← List.contains_iff_mem,
    tickFront_trip, Option.isSome_iff_ne_none]
  rfl

/-- A tick that applies nothing applies no MARK (R74). -/
theorem marked_not_mem_runAfter {s : State} (h : NothingApplied s) (m : Nat) : .marked m ∉ s.runAfter.events := by
  obtain ⟨_, hnow, hhead⟩ := h
  have hfront : .marked m ∉ (tickFront s).runSide.renewed.events := by
    show .marked m ∉ (tickFront s).events
    rw [tickFront_events]
    split <;> simp [Guard.eventsAt, CounterBank.eventsAt]
  unfold State.runAfter runnerTick
  split
  · rwa [applyDue_stop _ _ _ _ _ (.inr hhead)]
  · have hnow' : (tickFront s).runSide.renewed.run.applyNow = none := hnow
    unfold otherWork
    rw [hnow']
    split
    case h_1 => simpa [takeTheHold] using hfront
    case h_2 =>
      split
      · exact hfront
      · simpa [releaseTheHold] using hfront
    all_goals exact hfront

theorem ArmSettings.any_marksOn (a : ArmSettings) (events : List TickEvent) :
    events.any a.marksOn = true ↔ ∃ m, .marked m ∈ events ∧ a.accepts m = true := by
  rw [List.any_eq_true]
  constructor
  · rintro ⟨e, he, hon⟩
    cases e with
    | marked m => exact ⟨m, he, hon⟩
    | _ => cases hon
  · rintro ⟨m, hm, hon⟩
    exact ⟨.marked m, hm, hon⟩

/-- An armed capture is triggered at the coming tick by an event of its source (R147, R148). -/
theorem triggered_iff {x : Bool} {s : State} {a : ArmSettings} (harm : s.cap.arm = some a) :
    s.cap.triggered s.tb.wraps x s.runAfter.events = true ↔ s.cap.state = .armed ∧
      (TriggeredAt a x s ∨ a.source = .mark ∧ ∃ m, .marked m ∈ s.runAfter.events ∧ a.accepts m = true) := by
  rw [Capture.triggered, harm]
  dsimp only
  rw [Bool.and_eq_true, decide_eq_true_eq]
  refine and_congr_right fun _ => ?_
  unfold ArmSettings.occurs TriggeredAt
  cases a.source with
  | request => simp
  | mark => simp [a.any_marksOn]
  | external => simp
  | trip => simp [trip_mem_runAfter]
  | cycle => simp

section AtTick

variable {cap : Capture} {boundary x : Bool} {events : List TickEvent} {pos : Position}

/-- Only an ARMED capture is triggered (R147). -/
theorem Capture.triggered_of_not_armed (hstate : cap.state ≠ .armed) : cap.triggered boundary x events = false := by
  unfold Capture.triggered
  split
  · rfl
  · rw [decide_eq_false hstate, Bool.false_and]

theorem Capture.atTick_untriggered (hhit : cap.triggered boundary x events = false) (hstate : cap.state ≠ .capturing) :
    cap.atTick boundary x events pos = { cap with trigLevel := x } := by
  simp [Capture.atTick, hhit, hstate]

theorem Capture.atTick_triggered (hhit : cap.triggered boundary x events = true) :
    cap.atTick boundary x events pos = { cap with state := .capturing, stamp := some pos, trigLevel := x } := by
  simp [Capture.atTick, hhit]

/-- A CAPTURING capture keeps its stamp, or takes it where TRIGGER has started it without one (R151). -/
theorem Capture.atTick_capturing (hstate : cap.state = .capturing) :
    cap.atTick boundary x events pos = { cap with stamp := some (cap.stamp.getD pos), trigLevel := x } := by
  have hhit : cap.triggered boundary x events = false := Capture.triggered_of_not_armed (by rw [hstate]; decide)
  cases hstamp : cap.stamp <;> simp [Capture.atTick, hhit, hstate, hstamp]

end AtTick

/-- From its trigger tick on a capture is CAPTURING when the entries are offered, and its stamp is that of the trigger tick, or for
one that TRIGGER has started that of its first tick (R147, R148, R151). -/
theorem beforeEntries_cap_of_started {x : Bool} {s : State} {a : ArmSettings} (harm : s.cap.arm = some a)
    (h : s.cap.state = .capturing ∨ s.cap.state = .armed ∧ TriggeredAt a x s) :
    ∃ stamp, (s.beforeEntries x).cap = { s.cap with state := .capturing, stamp := stamp, trigLevel := x } ∧
      (s.cap.state = .armed → stamp = some (comingPosition s)) ∧
      (s.cap.state = .capturing → stamp = some (s.cap.stamp.getD (comingPosition s))) := by
  rcases h with hstate | ⟨hstate, htrig⟩
  · refine ⟨_, (Capture.atTick_capturing hstate).trans (by rw [hstate]), fun h => ?_, fun _ => rfl⟩
    exact absurd (hstate.symm.trans h) (by decide)
  · refine ⟨_, Capture.atTick_triggered ((triggered_iff harm).mpr ⟨hstate, .inl htrig⟩), fun _ => rfl, fun h => ?_⟩
    exact absurd (hstate.symm.trans h) (by decide)

/-- A capture that is not CAPTURING and not triggered at the coming tick moves its TRIG_IN level alone. -/
theorem beforeEntries_cap_of_still {x : Bool} {s : State}
    (h : s.cap.state = .disarmed ∨ s.cap.state = .complete ∨ s.cap.state = .armed ∧
      ∀ a, s.cap.arm = some a → ¬ TriggeredAt a x s ∧ (a.source = .mark → NothingApplied s)) :
    (s.beforeEntries x).cap = { s.cap with trigLevel := x } := by
  rcases h with hstate | hstate | ⟨hstate, hnone⟩
  case inl | inr.inl =>
    exact Capture.atTick_untriggered (Capture.triggered_of_not_armed (by rw [hstate]; decide)) (by rw [hstate]; decide)
  refine Capture.atTick_untriggered ?_ (by rw [hstate]; decide)
  cases harm : s.cap.arm with
  | none => rw [Capture.triggered, harm]
  | some a =>
    obtain ⟨hnot, hmark⟩ := hnone a harm
    rw [Bool.eq_false_iff, Ne, triggered_iff harm]
    rintro ⟨_, htrig | ⟨hsource, m, hm, _⟩⟩
    · exact hnot htrig
    · exact marked_not_mem_runAfter (hmark hsource) m hm

end Sys2Proof.Machine
end

