-- ==== Sys2Proof/Proofs/CaptureEntries.lean ====
section
/-! PROOFS. The entries that a capture is offered at a tick and those that it takes, its counts and notices, and the row
CAPTURE_DONE (R139, R145, R149, R150). -/

namespace Sys2Proof.Machine

open Sys2Proof.Safety
open Links (Raised)

/-! ## The entries offered -/

theorem conversionOffer_filter (a : ArmSettings) (sc : Scanner) :
    (conversionOffer sc).filter a.selects =
      match sc.outstanding, sc.result with
      | some cmd, some v => if channelIn a.mask cmd.channel then [conversionEntry cmd v] else []
      | _, _ => [] := by
  rcases sc.handOver_cases with ho | ⟨cmd, ho, hr⟩ | ⟨cmd, v, ho, hr⟩
  · simp [conversionOffer, ho]
  · simp [conversionOffer, ho, hr]
  · simp only [conversionOffer, ho, hr, List.filter_cons, List.filter_nil]
    rfl

/-- The entry of a channel's record of the coming boundary: none where it has no data (R139, R145). -/
theorem cycleOffer_tickFront {s : State} (hw : s.tb.wraps = true)
    (hcmd : ∀ cmd, s.scan.outstanding = some cmd → cmd.channel ≤ 7) {i : Nat} (hi : i ≤ 7) :
    cycleOffer (comingPosition s) i ((tickFront s).scan.channels.get i).cycleRec =
      let acc := accumulated s.scan i
      if acc.count = 0 then []
      else [{ kind := .cycle, channel := i, cycleStamp := (comingPosition s).cLow, angleStamp := (comingPosition s).ang,
              value := (floorSqrt (acc.sum / acc.count) : Nat), aux := acc.peak }] := by
  have hget : (tickFront s).scan.channels.get i = (s.scan.handedTo i).close ((comingPosition s).c - 1) :=
    (Scanner.closed_get hcmd hi s.tb.wraps (comingPosition s)).trans (if_pos hw)
  rw [hget, Channel.close, s.scan.handedTo_acc, cycleOffer, cycleDataOf]
  dsimp only
  by_cases hcount : (accumulated s.scan i).count = 0
  · rw [if_pos hcount, if_pos hcount]
  · rw [if_neg hcount, if_neg hcount]

/-- The cycle-record flag selects the entry of every record or of none (R149). -/
theorem cycleOffer_filter (a : ArmSettings) (pos : Position) (i : Nat) (r : CycleRecord) :
    (cycleOffer pos i r).filter a.selects = if a.cycleFlag then cycleOffer pos i r else [] := by
  unfold cycleOffer
  cases r.data with
  | none => simp
  | some d => by_cases hflag : a.cycleFlag = true <;> simp [hflag, ArmSettings.selects]

/-- Of what the Scanner offers at the coming tick a capture takes the entries that its settings select (R149). -/
theorem offered_filter {s : State} (a : ArmSettings) (hcmd : ∀ cmd, s.scan.outstanding = some cmd → cmd.channel ≤ 7) :
    s.offered.filter a.selects = selectedEntries a s := by
  rw [State.offered, List.filter_append, conversionOffer_filter, selectedEntries]
  refine congrArg₂ (· ++ ·) rfl ?_
  by_cases hw : s.tb.wraps = true
  · rw [if_pos hw, cycleOffers, List.filter_flatMap]
    simp only [cycleOffer_filter, hw, true_and]
    by_cases hflag : a.cycleFlag = true
    · simp only [if_pos hflag]
      exact List.flatMap_congr fun i hi => cycleOffer_tickFront hw hcmd ((mem_channelNumbers i).mp hi)
    · simp only [if_neg hflag]
      exact List.flatMap_eq_nil_iff.mpr fun _ _ => rfl
  · rw [if_neg hw, if_neg fun h => hw h.1, List.filter_nil]

/-! ## Notices and the completion -/

theorem Links.raiseIf_notice (ls : Links) {c : Bool} (hc : c = true) {n : Notice} {l : Link} {i : Nat}
    (hbit : (noticeBit l n).getLsbD i = true) : ((ls.raiseIf c n).get l).notices.getLsbD i = true := by
  rw [hc, Links.raiseIf_true, Links.get_raise, LinkState.raise_notices, BitVec.getLsbD_or, hbit, Bool.or_true]

/-- An offered entry that the capture does not select changes nothing; a selected one is produced, with its notices and, where it
completes the window, the event of the completion (R149, R150). -/
theorem offerEntry_cases (s : State) (e : CapEntry) :
    offerEntry s e = s ∨
    (offerEntry s e).cap = s.cap.produce e ∧
    (offerEntry s e).links =
      ((s.links.raiseIf (s.cap.full && !s.cap.loss) .captureLoss).raiseIf
        (!s.cap.full && decide (s.cap.fifo.length + 1 = 512)) .captureHalf).raiseIf s.cap.completes .captureDone ∧
    (offerEntry s e).events = if s.cap.completes then s.events ++ [.captureDone] else s.events := by
  unfold offerEntry
  split
  · exact .inr ⟨rfl, rfl, rfl⟩
  · exact .inl rfl

/-- Where offering entries brings about `P`, the entry that does so brings about `R` with it, and the entries behind it keep it. -/
theorem offerEntries_crossing {P R : State → Prop} (hcross : ∀ s e, ¬ P s → P (offerEntry s e) → R (offerEntry s e))
    (hkeep : ∀ s e, R s → R (offerEntry s e)) (es : List CapEntry) {s : State} (hbefore : ¬ P s)
    (hafter : P (offerEntries es s)) : R (offerEntries es s) := by
  have hrest (es : List CapEntry) (s : State) (h : R s) : R (offerEntries es s) := by
    induction es generalizing s with
    | nil => exact h
    | cons e es ih => exact ih _ (hkeep s e h)
  induction es generalizing s with
  | nil => exact absurd hafter hbefore
  | cons e es ih =>
    by_cases hfirst : P (offerEntry s e)
    · exact hrest es _ (hcross s e hbefore hfirst)
    · exact ih hfirst hafter

/-- A notice that an entry does not take back. -/
theorem offerEntry_notice {s : State} (e : CapEntry) {l : Link} {i : Nat}
    (h : (s.links.get l).notices.getLsbD i = true) : ((offerEntry s e).links.get l).notices.getLsbD i = true :=
  (offerEntries_raised [e] (.refl s.links)).notice h

section Crossing

variable (es : List CapEntry) {s : State}

/-- The first entry dropped in a window raises CAPTURE_LOSS (R150). -/
theorem offerEntries_captureLoss (hbefore : s.cap.loss = false) (hafter : (offerEntries es s).cap.loss = true) :
    (offerEntries es s).links.ml.notices.getLsbD 2 = true := by
  refine offerEntries_crossing (P := fun s => s.cap.loss = true) (R := fun s => (s.links.get .ml).notices.getLsbD 2 = true)
    (fun s e hb ha => ?_) (fun s e => offerEntry_notice e) es (by simp [hbefore]) hafter
  rcases offerEntry_cases s e with h | ⟨hcap, hlinks, _⟩
  · exact absurd (h ▸ ha) hb
  · have hdrop : (s.cap.full && !s.cap.loss) = true := by simpa [hcap, Capture.produce, hb] using ha
    rw [hlinks]
    exact (((Raised.refl _).raiseIf _ _).raiseIf _ _).notice (Links.raiseIf_notice _ hdrop rfl)

/-- The rise of the occupancy to 512 raises CAPTURE_HALF (R150). -/
theorem offerEntries_captureHalf (hbefore : s.cap.fifo.length < 512) (hafter : 512 ≤ (offerEntries es s).cap.fifo.length) :
    (offerEntries es s).links.ml.notices.getLsbD 0 = true := by
  refine offerEntries_crossing (P := fun s => 512 ≤ s.cap.fifo.length)
    (R := fun s => (s.links.get .ml).notices.getLsbD 0 = true) (fun s e hb ha => ?_) (fun s e => offerEntry_notice e) es
    (by omega) hafter
  rcases offerEntry_cases s e with h | ⟨hcap, hlinks, _⟩
  · exact absurd (h ▸ ha) hb
  · have hroom : s.cap.full = false := by
      rw [Bool.eq_false_iff, Ne, Capture.full_iff]
      omega
    have hlength : (s.cap.produce e).fifo.length = s.cap.fifo.length + 1 := by simp [Capture.produce, hroom]
    have hrise : s.cap.fifo.length + 1 = 512 := by
      rw [hcap, hlength] at ha
      omega
    have hhalf : (!s.cap.full && decide (s.cap.fifo.length + 1 = 512)) = true := by simp [hroom, hrise]
    rw [hlinks]
    exact ((Raised.refl _).raiseIf _ _).notice (Links.raiseIf_notice _ hhalf rfl)

/-- The entry that completes a window raises CAPTURE_DONE and is the row's event (R149). -/
theorem offerEntries_captureDone (hbefore : s.cap.state ≠ .complete) (hafter : (offerEntries es s).cap.state = .complete) :
    (offerEntries es s).links.ml.notices.getLsbD 1 = true ∧ .captureDone ∈ (offerEntries es s).events := by
  refine offerEntries_crossing (P := fun s => s.cap.state = .complete)
    (R := fun s => (s.links.get .ml).notices.getLsbD 1 = true ∧ .captureDone ∈ s.events) (fun s e hb ha => ?_)
    (fun s e ⟨hnotice, hevent⟩ => ⟨offerEntry_notice e hnotice, ?_⟩) es hbefore hafter
  · rcases offerEntry_cases s e with h | ⟨hcap, hlinks, hevents⟩
    · exact absurd (h ▸ ha) hb
    · have hlast : s.cap.completes = true := by simpa [hcap, Capture.produce, hb] using ha
      rw [hlinks, hevents, if_pos hlast]
      exact ⟨Links.raiseIf_notice _ hlast rfl, List.mem_append_right _ List.mem_cons_self⟩
  · obtain ⟨more, hmore⟩ := offerEntries_events [e] s
    exact hmore ▸ List.mem_append_left _ hevent

/-- Entries note a completion only where they complete a window. -/
theorem offerEntries_complete (hbefore : .captureDone ∉ s.events) (hdone : .captureDone ∈ (offerEntries es s).events) :
    (offerEntries es s).cap.state = .complete := by
  refine offerEntries_crossing (P := fun s => .captureDone ∈ s.events) (R := fun s => s.cap.state = .complete)
    (fun s e hb ha => ?_) (fun s e h => ?_) es hbefore hdone
  · rcases offerEntry_cases s e with h | ⟨hcap, _, hevents⟩
    · exact absurd (h ▸ ha) hb
    · have hlast : s.cap.completes = true := by
        by_contra hnot
        rw [hevents, if_neg hnot] at ha
        exact hb ha
      rw [hcap]
      exact if_pos hlast
  · have hidle : offerEntry s e = s := offerEntries_idle [e] s (by rw [h]; decide)
    rwa [hidle]

end Crossing

/-! ## The tick -/

/-- Before its entries a tick has noted no completion. -/
theorem captureDone_not_mem_beforeEntries (x : Bool) (s : State) : .captureDone ∉ (s.beforeEntries x).events := by
  rw [State.beforeEntries]
  dsimp only
  rw [tickMiddle_events]
  exact captureDone_not_mem_runAfter s

/-- No part of the trigger touches the loss flag or the FIFO, and none completes a capture. -/
theorem beforeEntries_cap (x : Bool) (s : State) :
    (s.beforeEntries x).cap.loss = s.cap.loss ∧ (s.beforeEntries x).cap.fifo = s.cap.fifo ∧
    (s.cap.state ≠ .complete → (s.beforeEntries x).cap.state ≠ .complete) := by
  refine ⟨rfl, rfl, fun h => ?_⟩
  show (if _ then CapState.capturing else s.cap.state) ≠ .complete
  split
  · decide
  · exact h

section Notices

variable {x : Bool} {s : State}

theorem workTick_captureLoss (hbefore : s.cap.loss = false) (hafter : (workTick 0 x s).cap.loss = true) :
    (workTick 0 x s).links.ml.notices.getLsbD 2 = true := by
  obtain ⟨hloss, _, _⟩ := beforeEntries_cap x s
  rw [workTick_cap] at hafter
  exact workTick_notice_of_afterEntries (l := .ml) (offerEntries_captureLoss _ (hloss.trans hbefore) hafter)

theorem workTick_captureHalf (hbefore : s.cap.fifo.length < 512) (hafter : 512 ≤ (workTick 0 x s).cap.fifo.length) :
    (workTick 0 x s).links.ml.notices.getLsbD 0 = true := by
  obtain ⟨_, hfifo, _⟩ := beforeEntries_cap x s
  rw [workTick_cap] at hafter
  exact workTick_notice_of_afterEntries (l := .ml) (offerEntries_captureHalf _ (hfifo ▸ hbefore) hafter)

theorem workTick_captureDone (hbefore : s.cap.state ≠ .complete) (hafter : (workTick 0 x s).cap.state = .complete) :
    (workTick 0 x s).links.ml.notices.getLsbD 1 = true := by
  obtain ⟨_, _, hopen⟩ := beforeEntries_cap x s
  rw [workTick_cap] at hafter
  exact workTick_notice_of_afterEntries (l := .ml) (offerEntries_captureDone _ (hopen hbefore) hafter).1

/-- For a capture that is not COMPLETE the row CAPTURE_DONE is the tick that leaves it COMPLETE (R149). -/
theorem exec_captureDone_of_open (hplain : PlainTick s) (hbefore : s.cap.state ≠ .complete) :
    exec (.captureDone x) s = .next (if (workTick 0 x s).cap.state = .complete then workTick 0 x s else s) := by
  obtain ⟨_, _, hopen⟩ := beforeEntries_cap x s
  have hiff : .captureDone ∈ (s.afterEntries x).events ↔ (workTick 0 x s).cap.state = .complete := by
    rw [workTick_cap, State.afterEntries]
    exact ⟨offerEntries_complete _ (captureDone_not_mem_beforeEntries x s),
      fun hdone => (offerEntries_captureDone _ (hopen hbefore) hdone).2⟩
  rw [exec_captureDone hplain]
  simp only [hiff]

end Notices

/-- From its trigger tick on a capture takes the selected entries of the tick that its window still asks for, as far as the FIFO has
room, and counts all of them and those that are dropped (R149, R150). -/
theorem workTick_cap_of_started {x : Bool} {s : State} {a : ArmSettings} (harm : s.cap.arm = some a)
    (hstarted : s.cap.state = .capturing ∨ s.cap.state = .armed ∧ TriggeredAt a x s) (hcount : s.cap.count < a.window)
    (hcmd : ∀ cmd, s.scan.outstanding = some cmd → cmd.channel ≤ 7) :
    let made := (selectedEntries a s).take (a.window - s.cap.count)
    let room := 1024 - s.cap.fifo.length
    (∃ stamp, (workTick 0 x s).cap = { s.cap with
        state := if s.cap.count + made.length = a.window then .complete else .capturing
        count := s.cap.count + made.length, loss := s.cap.loss || decide (room < made.length), stamp := stamp
        trigLevel := x, fifo := s.cap.fifo ++ made.take room } ∧
      (s.cap.state = .armed → stamp = some (comingPosition s)) ∧
      (s.cap.state = .capturing → stamp = some (s.cap.stamp.getD (comingPosition s)))) ∧
    (made.length ≤ room → (workTick 0 x s).cnt.live.captureLost = (countedFrom s).captureLost) ∧
    (room < made.length → (workTick 0 x s).cnt.live.captureLost =
      min ((countedFrom s).captureLost + (made.length - room)) 65535) := by
  obtain ⟨stamp, hbefore, hstamp⟩ := beforeEntries_cap_of_started harm hstarted
  have hentries := offerEntries_capture s.offered (s.beforeEntries x) a (by rw [hbefore]; exact harm) (by rw [hbefore])
    (by rw [hbefore]; exact hcount)
  rw [offered_filter a hcmd, beforeEntries_captureLost, hbefore] at hentries
  obtain ⟨hcap, hcounts⟩ := hentries
  rw [workTick_cap, workTick_captureLost]
  exact ⟨⟨stamp, hcap, hstamp⟩, hcounts⟩

/-- Settles O50: the trigger, then the entries that are offered, as far as the window and the FIFO take them. -/
theorem captureTakesAConversion : Obligations.CaptureTakesAConversion := by
  refine ⟨fun x s hplain hstill => ?_, fun x s a hplain harm hstarted hcount hcmd => ?_⟩
  · have hbefore := beforeEntries_cap_of_still hstill
    have hidle : s.afterEntries x = s.beforeEntries x := by
      refine offerEntries_idle _ _ ?_
      rw [hbefore]
      rcases hstill with h | h | ⟨h, _⟩ <;> exact h ▸ by decide
    refine ⟨workTick 0 x s, exec_sampleTick_plain x s hplain, ?_, ?_, ?_⟩
    · rw [workTick_cap, hidle, hbefore]
    · rw [workTick_captureLost, hidle, beforeEntries_captureLost]
    · rw [exec_captureDone hplain, hidle, if_neg (captureDone_not_mem_beforeEntries x s)]
  · intro made room
    obtain ⟨⟨stamp, hcap, harmed, hcapturing⟩, hkept, hlost⟩ := workTick_cap_of_started harm hstarted hcount hcmd
    have hopen : s.cap.state ≠ .complete := by rcases hstarted with h | ⟨h, _⟩ <;> rw [h] <;> decide
    have hdropped (hover : room < made.length) : (s.cap.loss || decide (room < made.length)) = true := by
      rw [decide_eq_true hover, Bool.or_true]
    have hrow := exec_captureDone_of_open (x := x) hplain hopen
    have hloss := workTick_captureLoss (x := x) (s := s)
    have hhalf := workTick_captureHalf (x := x) (s := s)
    have hdone := workTick_captureDone (x := x) hopen
    rw [hcap] at hrow hloss hhalf hdone
    refine ⟨workTick 0 x s, exec_sampleTick_plain x s hplain, ?_⟩
    rw [hcap]
    refine ⟨harm, rfl, harmed, fun h hnone => ?_, fun h hsome => ?_, rfl, rfl, fun hfits => ⟨?_, hkept hfits⟩,
      fun hover => ⟨?_, hlost hover, fun hfirst => hloss hfirst ?_⟩, fun hlow hhigh => hhalf hlow ?_, fun hlast => ?_,
      fun hmore => ?_⟩
    · rw [hcapturing h, hnone, Option.getD_none]
    · obtain ⟨p, hp⟩ := Option.ne_none_iff_exists'.mp hsome
      rw [hcapturing h, hp, Option.getD_some]
    · show (s.cap.loss || decide (room < made.length)) = s.cap.loss
      rw [decide_eq_false (Nat.not_lt.mpr hfits), Bool.or_false]
    · exact hdropped hover
    · exact hdropped hover
    · show 512 ≤ (s.cap.fifo ++ made.take room).length
      rw [List.length_append, List.length_take]
      omega
    · exact ⟨hrow.trans (by rw [if_pos (if_pos hlast)]), if_pos hlast, hdone (if_pos hlast)⟩
    · have hstate : (if s.cap.count + made.length = a.window then CapState.complete else .capturing) = .capturing := if_neg hmore
      exact ⟨hrow.trans (by rw [if_neg fun hc => CapState.noConfusion (hstate.symm.trans hc)]), hstate⟩

end Sys2Proof.Machine
end

