-- ==== Sys2Proof/Proofs/EvidenceBounds.lean ====
section
/-! PROOFS. Every step keeps both FIFOs and every counter within their bounds: what a request takes out of them, and what the
runner, the samples and the entries of a tick add (R144, R150, R156, R158, R161 to R163). -/

namespace Sys2Proof.Machine

open Sys2Proof.Safety

/-! ## Counters -/

section Counters

variable {n : Nine}

theorem saturate_le (n k : Nat) : saturate n k ≤ 65535 := Nat.min_le_right _ _

theorem nineOk_addApplied (h : NineOk n) : NineOk n.addApplied := by
  obtain ⟨hA, hB, hC, _, hrest⟩ := h
  exact ⟨hA, hB, hC, saturate_le _ _, hrest⟩

theorem nineOk_addLate (late : Bool) (h : NineOk n) : NineOk (n.addLate late) := by
  unfold Nine.addLate
  split
  · obtain ⟨hA, hB, hC, happlied, _, hrest⟩ := h
    exact ⟨hA, hB, hC, happlied, saturate_le _ _, hrest⟩
  · exact h

theorem nineOk_addClamp (p : PhaseId) (h : NineOk n) : NineOk (n.addClamp p) := by
  obtain ⟨hA, hB, hC, hrest⟩ := h
  cases p with
  | a => exact ⟨saturate_le _ _, hB, hC, hrest⟩
  | b => exact ⟨hA, saturate_le _ _, hC, hrest⟩
  | c => exact ⟨hA, hB, saturate_le _ _, hrest⟩

theorem nineOk_handOver (isOver missing : Bool) (h : NineOk n) : NineOk (n.handOver isOver missing) := by
  obtain ⟨hA, hB, hC, happlied, hlate, hover, hmissing, hrest⟩ := h
  refine ⟨hA, hB, hC, happlied, hlate, ?_, ?_, hrest⟩
  · cases isOver with
    | true => exact saturate_le _ _
    | false => exact hover
  · cases missing with
    | true => exact saturate_le _ _
    | false => exact hmissing

theorem nineOk_addCaptureLost (h : NineOk n) : NineOk n.addCaptureLost := by
  obtain ⟨hA, hB, hC, happlied, hlate, hover, hmissing, _, htrace⟩ := h
  exact ⟨hA, hB, hC, happlied, hlate, hover, hmissing, saturate_le _ _, htrace⟩

theorem nineOk_addTraceLost (h : NineOk n) : NineOk n.addTraceLost := by
  obtain ⟨hA, hB, hC, happlied, hlate, hover, hmissing, hcapture, _⟩ := h
  exact ⟨hA, hB, hC, happlied, hlate, hover, hmissing, hcapture, saturate_le _ _⟩

end Counters

/-! ## Bounds within a tick -/

/-- The bounds of the invariant as the stages of a tick keep them: entries made in the tick under way may still stand. -/
structure State.EvidenceBounded (s : State) : Prop where
  cap : s.cap.fifo.length ≤ 1024
  trace : s.trace.fifo.length ≤ 64
  live : NineOk s.cnt.live
  snap : NineOk s.cnt.snap

theorem evidenceOk_iff (s : State) : EvidenceOk s ↔ s.EvidenceBounded ∧ s.trace.made = [] :=
  ⟨fun ⟨hcap, htrace, hmade, hlive, hsnap⟩ => ⟨⟨hcap, htrace, hlive, hsnap⟩, hmade⟩,
    fun ⟨⟨hcap, htrace, hlive, hsnap⟩, hmade⟩ => ⟨hcap, htrace, hmade, hlive, hsnap⟩⟩

/-! ## Requests -/

/-- What a request leaves of both FIFOs and the counts: it can only remove the oldest entries, and counts nothing (R153, R154,
R159). -/
def State.EvidenceTaken (s t : State) : Prop :=
  t.cap.fifo <:+ s.cap.fifo ∧ t.trace.fifo <:+ s.trace.fifo ∧ t.trace.made = s.trace.made ∧ t.cnt.live = s.cnt.live ∧
  t.cnt.snap = s.cnt.snap

namespace State.EvidenceTaken

variable {s t : State}

theorem refl (s : State) : s.EvidenceTaken s := ⟨List.suffix_rfl, List.suffix_rfl, rfl, rfl, rfl⟩

/-- A request refused by a check takes nothing; one that passes it goes on. -/
theorem ite_status {c : Prop} [Decidable c] {st : Status} {res : Answer × State} (h : s.EvidenceTaken res.2) :
    s.EvidenceTaken (if c then refuse s st else res).2 := by
  split
  · exact refl s
  · exact h

/-- A report or a read that its length check lets through takes nothing. -/
theorem ite_read {c : Prop} [Decidable c] {st : Status} {ans : Answer} :
    s.EvidenceTaken (if c then (ans, s) else refuse s st).2 := by
  split <;> exact refl s

theorem bounded (h : s.EvidenceTaken t) (hs : s.EvidenceBounded) : t.EvidenceBounded := by
  obtain ⟨hcap, htrace, _, hlive, hsnap⟩ := h
  exact ⟨hcap.length_le.trans hs.cap, htrace.length_le.trans hs.trace, hlive ▸ hs.live, hsnap ▸ hs.snap⟩

end State.EvidenceTaken

open State.EvidenceTaken in
/-- The taking of a request of any code, row by row of the table of request codes: three of them act on what the FIFOs hold
(R181). -/
theorem takeByCode_evidenceTaken (code : Nat) (l : Link) (ps : List Byte) (s : State) :
    s.EvidenceTaken (takeByCode code l ps s).2 := by
  unfold takeByCode
  split
  -- FLUSH_CAPTURE, READ_CAPTURE and READ_TRACE.
  case h_34 => exact ite_status ⟨List.nil_suffix, List.suffix_rfl, rfl, rfl, rfl⟩
  case h_35 => exact ite_status (ite_status ⟨List.drop_suffix _ _, List.suffix_rfl, rfl, rfl, rfl⟩)
  case h_36 => exact ite_status (ite_status ⟨List.suffix_rfl, List.drop_suffix _ _, rfl, rfl, rfl⟩)
  case h_40 => exact refl s
  -- Reports and reads of whole blocks, behind their length check.
  case h_3 | h_4 | h_8 | h_18 | h_27 | h_30 | h_39 => exact ite_read
  -- Requests for other blocks, by the number of their checks.
  case h_1 | h_23 | h_25 | h_28 | h_32 | h_33 | h_37 | h_38 => exact ite_status (refl s)
  case h_2 | h_6 | h_10 | h_12 | h_13 | h_14 | h_21 | h_22 | h_24 | h_29 => exact ite_status (ite_status (refl s))
  case h_5 | h_17 => exact ite_status (ite_status (ite_status (refl s)))
  case h_7 | h_9 | h_15 | h_31 => exact ite_status (ite_status (ite_status (ite_status (refl s))))
  -- SET_SEED, STOP, ENABLE, SAFE and CLEAR_TRIP, each with a case split of its own.
  case h_11 =>
    refine ite_status (ite_status ?_)
    split <;> exact refl s
  case h_16 | h_20 | h_26 =>
    refine ite_status ?_
    split <;> exact refl s
  case h_19 =>
    refine ite_status ?_
    split
    case h_1 => split <;> exact refl s
    all_goals exact refl s

theorem takeOldest_evidenceTaken (l : Link) (s : State) : s.EvidenceTaken (takeOldest l s) := by
  rcases takeOldest_cases l s with he | ⟨r, ls, he⟩
  · rw [he]; exact .refl s
  · rw [he]
    rcases judge_cases l r s with hj | hj
    · rw [hj]; exact .refl s
    · rw [hj]; exact takeByCode_evidenceTaken _ l _ s

/-! ## The stages of a tick -/

/-- The bounds of the trace and the counters that lie in the runner's part. -/
def RunSide.EvidenceBounded (w : RunSide) : Prop :=
  w.trace.fifo.length ≤ 64 ∧ NineOk w.cnt.live ∧ NineOk w.cnt.snap

/-- The runner makes entries and counts, and puts nothing into the trace itself (R95 to R100, R106). -/
theorem evidenceBounded_runInvariant : RunInvariant RunSide.EvidenceBounded where
  renewed h := h
  filled _ h := h
  markerFault _ _ _ h := h
  unmapped _ _ h := h
  control {w} e r pos h := by
    obtain ⟨htrace, hlive, hsnap⟩ := h
    exact ⟨(w.trace.makeRecord_fifo ..).symm ▸ htrace, nineOk_addApplied hlive, hsnap⟩
  ended {w} e r pos late h := by
    obtain ⟨htrace, hlive, hsnap⟩ := h
    exact ⟨(w.trace.makeRecord_fifo ..).symm ▸ htrace, nineOk_addLate late (nineOk_addApplied hlive), hsnap⟩
  timed {w} e r pos late h := by
    obtain ⟨htrace, hlive, hsnap⟩ := h
    exact ⟨(w.trace.makeRecord_fifo ..).symm ▸ htrace, nineOk_addLate late (nineOk_addApplied hlive), hsnap⟩
  taken _ h := h
  released _ _ h := h
  pending {w} map pos r h := by
    obtain ⟨htrace, hlive, hsnap⟩ := h
    exact ⟨(w.trace.makeRecord_fifo ..).symm ▸ htrace, nineOk_addApplied hlive, hsnap⟩

namespace State.EvidenceBounded

variable {s : State}

theorem runSide (h : s.EvidenceBounded) : s.runSide.EvidenceBounded := ⟨h.trace, h.live, h.snap⟩

/-- The runner's part replaced by one within its bounds. -/
theorem withRunSide (h : s.EvidenceBounded) {w : RunSide} (hw : w.EvidenceBounded) : (s.withRunSide w).EvidenceBounded := by
  obtain ⟨htrace, hlive, hsnap⟩ := hw
  exact ⟨h.cap, htrace, hlive, hsnap⟩

/-- Counting begins from 0 at a tick that takes a snapshot, and the snapshot is the set counted before (R163). -/
theorem tickFront (h : s.EvidenceBounded) : (tickFront s).EvidenceBounded where
  cap := h.cap
  trace := h.trace
  live := by
    rw [tickFront_live]
    refine nineOk_handOver _ _ ?_
    unfold countedFrom
    split
    · exact nineZero_ok
    · exact h.live
  snap := by
    show NineOk (s.cnt.atTick s.tb.wraps s.tb.advance.position).snap
    unfold CounterBank.atTick
    dsimp only
    split
    · exact h.live
    · exact h.snap

/-- The runner's whole work at a tick, whatever requests are taken during it. -/
theorem afterRun (late : Nat) (h : s.EvidenceBounded) : (s.afterRun late).EvidenceBounded :=
  have hQ := evidenceBounded_runInvariant
  runTick_keeps State.EvidenceBounded _ _ _ _ (fun _ _ h => ⟨h.cap, h.trace, h.live, h.snap⟩)
    (fun t h => (takeOldest_evidenceTaken .pl t).bounded h) (fun k t h => h.withRunSide (hQ.applyDue t.map _ _ k h.runSide))
    (fun _ h => h.withRunSide (hQ.renewed h.runSide)) (fun t h => h.withRunSide (hQ.filled t.sched h.runSide))
    (fun t h => h.withRunSide (hQ.otherWork t.sched t.map _ _ h.runSide)) late _ h.tickFront

/-- A sample counts at most its clamp (R63). -/
theorem synthPhase (h : s.EvidenceBounded) (p : PhaseId) : (synthPhase s p).EvidenceBounded := by
  have hcnt := synthPhase_cnt s p
  refine ⟨h.cap, h.trace, ?_, ?_⟩
  · rw [hcnt]
    split
    · exact nineOk_addClamp p h.live
    · exact h.live
  · rw [hcnt]
    split <;> exact h.snap

theorem synthesize (h : s.EvidenceBounded) : (synthesize s).EvidenceBounded :=
  ((h.synthPhase .a).synthPhase .b).synthPhase .c

/-- An entry that a full FIFO has no room for is dropped and counted (R150). -/
theorem offerEntry (h : s.EvidenceBounded) (e : CapEntry) : (offerEntry s e).EvidenceBounded := by
  unfold Machine.offerEntry
  split
  · refine ⟨?_, h.trace, ?_, ?_⟩
    · show (if s.cap.full then s.cap.fifo else s.cap.fifo ++ [e]).length ≤ 1024
      split
      · exact h.cap
      · rename_i hroom
        rw [Capture.full_iff] at hroom
        rw [List.length_append, List.length_singleton]
        omega
    · dsimp only
      split
      · exact nineOk_addCaptureLost h.live
      · exact h.live
    · dsimp only
      split <;> exact h.snap
  · exact h

theorem offerEntries (es : List CapEntry) (h : s.EvidenceBounded) : (offerEntries es s).EvidenceBounded := by
  induction es generalizing s with
  | nil => exact h
  | cons e es ih => exact ih (h.offerEntry e)

/-- An entry that a full trace has no room for is dropped and counted (R158). -/
theorem putEntry (h : s.EvidenceBounded) (e : TraceEntry) : (putEntry s e).EvidenceBounded := by
  unfold Machine.putEntry
  split
  · exact ⟨h.cap, h.trace, nineOk_addTraceLost h.live, h.snap⟩
  · rename_i hroom
    rw [Trace.full_iff] at hroom
    refine ⟨h.cap, ?_, h.live, h.snap⟩
    show (s.trace.fifo ++ [e]).length ≤ 64
    rw [List.length_append, List.length_singleton]
    omega

theorem putEntries (es : List TraceEntry) (h : s.EvidenceBounded) : (putEntries es s).EvidenceBounded := by
  induction es generalizing s with
  | nil => exact h
  | cons e es ih => exact ih (h.putEntry e)

theorem captureTick (h : s.EvidenceBounded) (conv : List CapEntry) (boundary x : Bool) (pos : Position) :
    (captureTick s conv boundary x pos).EvidenceBounded :=
  offerEntries (s := { s with cap := s.cap.atTick boundary x s.events pos }) _ ⟨h.cap, h.trace, h.live, h.snap⟩

theorem traceTick (h : s.EvidenceBounded) (pos : Position) : (traceTick s pos).EvidenceBounded :=
  putEntries _ ⟨h.cap, h.trace, h.live, h.snap⟩

/-- The responses of a tick's end are on the links alone (R169). -/
theorem workTick (late : Nat) (x : Bool) (h : s.EvidenceBounded) : (workTick late x s).EvidenceBounded := by
  have hend := ((h.afterRun late).synthesize.captureTick (conversionOffer s.scan) s.tb.wraps x
    s.tb.advance.position).traceTick s.tb.advance.position
  exact ⟨hend.cap, hend.trace, hend.live, hend.snap⟩

end State.EvidenceBounded

/-- Every entry that a tick has made is put into the trace at its end, or dropped (R157). -/
theorem workTick_made (late : Nat) (x : Bool) (s : State) : (workTick late x s).trace.made = [] := by
  rw [workTick, respondTick_trace, traceTick, putEntries_trace]

/-! ## Every step -/

theorem evidenceOk_stepInvariant : StepInvariant EvidenceOk where
  blocks {s t} hst h := by
    rwa [EvidenceOk, show t.cap = s.cap by rw [hst], show t.trace = s.trace by rw [hst], show t.cnt = s.cnt by rw [hst]]
  reset _ := reset_evidenceOk
  power _ := reset_evidenceOk
  adc _ _ h := h
  take {s} code l ps h := by
    have htaken := takeByCode_evidenceTaken code l ps s
    have ⟨_, _, hmade, _⟩ := htaken
    rw [evidenceOk_iff] at h ⊢
    exact h.imp htaken.bounded hmade.trans
  work {s} late x h := by
    rw [evidenceOk_iff] at h ⊢
    exact ⟨h.1.workTick late x, workTick_made late x s⟩

/-- Settles O59: each part of a step keeps the bounds. -/
theorem stepKeepsTheEvidenceBounds : Obligations.StepKeepsTheEvidenceBounds :=
  fun _ _ h hx => evidenceOk_stepInvariant.step h hx

end Sys2Proof.Machine
end

