-- ==== Sys2Proof/Proofs/DeferredEntries.lean ====
section
/-! PROOFS. The entries formed between ticks: a tick at which the runner and the guard make none puts them into the trace, or drops
and counts them (R157, R158). -/

namespace Sys2Proof.Machine

open Sys2Proof.Safety

/-! ## TRACE_HALF -/

/-- Whether TRACE_HALF stands in the Monitor Link's notices (R173). -/
def Links.traceHalf (ls : Links) : Bool := ls.ml.notices.getLsbD 3

/-- Any other notice raised leaves TRACE_HALF as it stands. -/
theorem Links.raiseIf_traceHalf (ls : Links) (c : Bool) {n : Notice} (hn : (noticeBit .ml n).getLsbD 3 = false) :
    (ls.raiseIf c n).traceHalf = ls.traceHalf := by
  cases c with
  | false => rfl
  | true => exact BitVec.getLsbD_or.trans (by rw [hn, Bool.or_false]; rfl)

theorem tickFront_traceHalf (s : State) : (tickFront s).links.traceHalf = s.links.traceHalf :=
  (Links.raiseIf_traceHalf _ _ rfl).trans (Links.raiseIf_traceHalf _ _ rfl)

theorem synthPhase_traceHalf (s : State) (p : PhaseId) : (synthPhase s p).links.traceHalf = s.links.traceHalf :=
  Links.raiseIf_traceHalf _ _ rfl

theorem synthesize_traceHalf (s : State) : (synthesize s).links.traceHalf = s.links.traceHalf := by
  simp only [synthesize, synthPhase_traceHalf]

theorem offerEntries_traceHalf (es : List CapEntry) (s : State) :
    (offerEntries es s).links.traceHalf = s.links.traceHalf := by
  induction es generalizing s with
  | nil => rfl
  | cons e es ih =>
    rw [offerEntries, ih]
    rcases offerEntry_cases s e with h | ⟨_, hlinks, _⟩
    · rw [h]
    · rw [hlinks, Links.raiseIf_traceHalf _ _ rfl, Links.raiseIf_traceHalf _ _ rfl, Links.raiseIf_traceHalf _ _ rfl]

/-- Responses that become ready leave the notices. -/
theorem respondTick_traceHalf (s : State) : (respondTick s).links.traceHalf = s.links.traceHalf := by
  obtain ⟨_, _, _, _, _, _, hnotices⟩ := s.links.ml.atTick_frame s
  exact congrArg (·.getLsbD 3) hnotices

/-! ## The trace's work -/

section TraceTick

variable (s : State) (pos : Position)

theorem traceTick_trace_eq : (traceTick s pos).trace =
    { fifo := s.trace.fifo ++ (tickEntries s pos).take (64 - s.trace.fifo.length), deferred := [], made := [] } := by
  rw [traceTick, putEntries_trace]

theorem traceTick_lost_none (h : (tickEntries s pos).length ≤ 64 - s.trace.fifo.length) :
    (traceTick s pos).cnt = s.cnt := putEntries_lost_none _ _ h

theorem traceTick_lost (h : 64 - s.trace.fifo.length < (tickEntries s pos).length) :
    (traceTick s pos).cnt.live.traceLost =
      min (s.cnt.live.traceLost + ((tickEntries s pos).length - (64 - s.trace.fifo.length))) 65535 :=
  putEntries_lost _ _ h

theorem traceTick_traceHalf : (traceTick s pos).links.traceHalf = (s.links.traceHalf ||
    decide (s.trace.fifo.length < 32 ∧ 32 ≤ s.trace.fifo.length + (tickEntries s pos).length)) :=
  putEntries_half _ _

/-- A tick at which entries formed before it wait notes that it puts them in (log 2). -/
theorem deferredEntry_mem_traceTick (h : .deferredEntry ∉ s.events) :
    .deferredEntry ∈ (traceTick s pos).events ↔ s.trace.deferred ≠ [] := by
  rw [traceTick, putEntries_events]
  dsimp only
  cases s.trace.deferred with
  | nil => simp [h]
  | cons d ds => simp

/-- Where the runner makes no entry, those formed between ticks stand in the order taken (R157). -/
theorem requestEntries_nil (formed : List TraceEntry) (free : Nat) : requestEntries formed [] free = formed := by
  simp [requestEntries]

end TraceTick

/-! ## A tick at which the runner makes no entry -/

/-- Where nothing is applied and the hold is neither taken nor released, the runner changes nothing of its part but itself
(R93). -/
theorem runAfter_of_no_event {s : State} (h : NothingApplied s) (hnt : NoTrip s)
    (hrunning : s.run.state = .running → s.tb.wraps = true → s.guard.hold = false)
    (hheld : s.run.state = .held → s.guard.hold = true) : ∃ run, s.runAfter = { s.runStart with run := run } := by
  obtain ⟨_, hnow, hhead⟩ := h
  have hread := holdRead_noTrip s hnt
  cases happ : appliesEntries s.run s.tb.wraps s.holdRead with
  | true =>
    have hdue := applyDue_stop s.map s.tb.position s.tb.advance.position s.run.queue.length s.runStart (.inr hhead)
    refine ⟨fill s.sched s.runStart.run, ?_⟩
    rw [State.runAfter, runnerTick, if_pos (show appliesEntries (tickFront s).runSide.run _ _ = true from happ)]
    exact congrArg (RunSide.filled s.sched) hdue
  | false =>
    rw [runAfter_of_not_applies happ, otherWork, show s.runStart.run.applyNow = none from hnow]
    refine ⟨s.runStart.run, ?_⟩
    split
    case h_1 hstate =>
      have hrun : s.run.state = .running := hstate
      simp only [appliesEntries, hrun, hread, decide_true, Bool.true_and, Bool.not_eq_false', Bool.and_eq_true] at happ
      obtain ⟨hwrap, hhold⟩ := happ
      exact absurd ((hrunning hrun hwrap).symm.trans hhold) Bool.false_ne_true
    case h_2 hstate => rw [hread, if_pos (hheld hstate)]
    all_goals rfl

section NoEvent

variable {s : State} {run : Runner} (x : Bool) (hrun : s.runAfter = { s.runStart with run := run })
include hrun

theorem afterEntries_trace_of_no_event : (s.afterEntries x).trace = s.trace := by
  rw [← captureTick_tickMiddle, captureTick_trace, tickMiddle_trace, hrun]
  rfl

/-- TRACE_LOST stands as counting has begun with it at the tick (R163). -/
theorem afterEntries_traceLost_of_no_event :
    (s.afterEntries x).cnt.live.traceLost = (countedFrom s).traceLost := by
  rw [State.afterEntries, offerEntries_live_traceLost, State.beforeEntries, tickMiddle_eq, synthesize_live_traceLost, hrun]
  show (tickFront s).cnt.live.traceLost = _
  rw [tickFront_live]
  rfl

theorem afterEntries_traceHalf_of_no_event : (s.afterEntries x).links.traceHalf = s.links.traceHalf := by
  rw [State.afterEntries, offerEntries_traceHalf, State.beforeEntries, tickMiddle_eq, synthesize_traceHalf, hrun]
  exact tickFront_traceHalf s

theorem deferredEntry_not_mem_afterEntries : .deferredEntry ∉ (s.afterEntries x).events := by
  rw [State.afterEntries, mem_offerEntries_events (by decide), State.beforeEntries]
  dsimp only
  rw [tickMiddle_events, hrun]
  show .deferredEntry ∉ (tickFront s).events
  rw [tickFront_events]
  split <;> simp [Guard.eventsAt, CounterBank.eventsAt]

/-- With no trip either, the tick's entries are those formed between ticks, with its position (R157). -/
theorem tickEntries_of_no_event (hnt : NoTrip s) (hmade : s.trace.made = []) :
    tickEntries (s.afterEntries x) (comingPosition s) =
      s.trace.deferred.map (fun d => eventEntry s d.type d.index .nothing) := by
  have htrip : ¬ (s.afterEntries x).events.contains .trip = true := by
    rw [List.contains_iff_mem, ← captureTick_tickMiddle, mem_captureTick_events 0 x s _ _ rfl, ← List.contains_iff_mem,
      tickFront_trip, show s.guard.tripAt s.scan s.tb.wraps s.tb.advance.position = none from hnt]
    decide
  rw [tickEntries, if_neg htrip, runnerEntries, afterEntries_trace_of_no_event x hrun, hmade, requestEntries_nil]
  rfl

end NoEvent

/-- Settles O51: the tick's entries are those formed between ticks, and the trace's work puts them in. -/
theorem deferredEntriesEnterTheTrace : Obligations.DeferredEntriesEnterTheTrace := by
  intro x s hnothing hnt hmade hrunning hheld formed room
  have hplain := hnothing.1
  obtain ⟨run, hrun⟩ := runAfter_of_no_event hnothing hnt hrunning hheld
  have htick : workTick 0 x s = respondTick (traceTick (s.afterEntries x) (comingPosition s)) := by
    rw [workTick_eq_respondTick, beforeResponses_eq]
  have hentries : tickEntries (s.afterEntries x) (comingPosition s) = formed := tickEntries_of_no_event x hrun hnt hmade
  have htrace := traceTick_trace_eq (s.afterEntries x) (comingPosition s)
  have hnone := traceTick_lost_none (s.afterEntries x) (comingPosition s)
  have hlost := traceTick_lost (s.afterEntries x) (comingPosition s)
  have hhalf := traceTick_traceHalf (s.afterEntries x) (comingPosition s)
  rw [hentries, afterEntries_trace_of_no_event x hrun] at htrace hnone hlost hhalf
  rw [afterEntries_traceLost_of_no_event x hrun] at hlost
  rw [afterEntries_traceHalf_of_no_event x hrun] at hhalf
  have hrow : exec (.deferredTraceEntry x) s = .next (if s.trace.deferred ≠ [] then workTick 0 x s else s) := by
    have hmem := deferredEntry_mem_traceTick _ (comingPosition s) (deferredEntry_not_mem_afterEntries x hrun)
    rw [afterEntries_trace_of_no_event x hrun] at hmem
    show Host.Outcome.next _ = _
    rw [eventTick_isEvent _ x (plainTick_works hplain), tick_working x s (plainTick_works hplain) hplain.2.2]
    refine congrArg Host.Outcome.next (if_congr ?_ rfl rfl)
    rw [htick]
    exact hmem
  rw [← respondTick_trace, ← htick] at htrace
  rw [← respondTick_cnt, ← htick] at hnone hlost
  rw [← respondTick_traceHalf, ← htick] at hhalf
  refine ⟨workTick 0 x s, exec_sampleTick_plain x s hplain, by rw [htrace], by rw [htrace], by rw [htrace], fun hfits => ?_,
    hlost, hhalf, fun hd => hrow.trans (by rw [if_pos hd]), fun hd => hrow.trans (by rw [if_neg (not_not_intro hd)])⟩
  rw [hnone hfits]
  exact afterEntries_traceLost_of_no_event x hrun

end Sys2Proof.Machine
end

