-- ==== Sys2Proof/Proofs/CaptureRequests.lean ====
section
/-! PROOFS. The Monitor Link's requests for the Capture Buffer and the Event Trace on a ready link: ARM_CAPTURE, TRIGGER,
DISARM_CAPTURE, FLUSH_CAPTURE, READ_CAPTURE and READ_TRACE (R146, R151 to R154, R159, R181). -/

namespace Sys2Proof.Machine

open Sys2Proof.Safety

/-! ## Arming and stopping -/

/-- R146's checks on the carried values are two of the model's: the ranges, then a mask and a flag that select nothing. -/
theorem takeArmCapture_badValue {ps : List Byte} (s : State) (hlen : ps.length = 8)
    (hbad : ¬ (byteAt ps 0 ≤ 4 ∧ byteAt ps 1 ≤ 1 ∧ byteAt ps 5 ≤ 1 ∧ 1 ≤ wordAt ps 6 ∧ wordAt ps 6 ≤ 1024 ∧
      ¬ (byteAt ps 4 = 0 ∧ byteAt ps 5 = 0))) : takeArmCapture ps s = refuse s .badValue := by
  refine (if_neg (by omega)).trans ?_
  by_cases hrange : 4 < byteAt ps 0 ∨ 1 < byteAt ps 1 ∨ 1 < byteAt ps 5 ∨ wordAt ps 6 = 0 ∨ 1024 < wordAt ps 6
  · exact if_pos hrange
  · exact (if_neg hrange).trans (if_pos (by omega))

/-- The states in which R146 refuses ARM_CAPTURE as BUSY are the other two. -/
theorem CapState.busy_iff (c : CapState) : (c = .armed ∨ c = .capturing) ↔ ¬ (c = .disarmed ∨ c = .complete) := by
  cases c <;> decide

theorem Capture.armedOnRequest_iff (cap : Capture) : cap.armedOnRequest = true ↔
    ∃ a, cap.state = .armed ∧ cap.arm = some a ∧ a.source = .request := by
  unfold Capture.armedOnRequest
  cases cap.arm with
  | none => simp
  | some a => simp

/-- TRIGGER starts a capture ARMED on REQUEST (R151). -/
theorem takeTrigger_armed {ps : List Byte} {s : State} (hlen : ps.length = 0) (hon : s.cap.armedOnRequest = true) :
    takeTrigger ps s = (.status .ok, { s with cap := { s.cap with state := .capturing } }) := by
  rw [takeTrigger, if_neg (not_not_intro hlen), if_pos hon]

/-- On any other capture TRIGGER changes nothing (R151). -/
theorem takeTrigger_not_armed {ps : List Byte} {s : State} (hlen : ps.length = 0)
    (hoff : ¬ s.cap.armedOnRequest = true) : takeTrigger ps s = (.status .ok, s) := by
  rw [takeTrigger, if_neg (not_not_intro hlen), if_neg hoff]

/-- Settles O48: each refusal by the check that fails first, the rest by definition. -/
theorem captureIsArmedAndStopped : Obligations.CaptureIsArmedAndStopped := by
  intro ps s h hps ok valueOk free
  have refusedArm {st : Status} (hres : takeArmCapture ps (sendRequest 0x52 .ml ps s) = refuse _ st) :
      exec (.armCapture .ml ps) s = .next (onlyAnswered s .ml st []) :=
    requestOutcome_refused h hps (by decide) (by decide) hres
  refine ⟨fun hlen => refusedArm (if_pos hlen), fun hlen hbad => refusedArm (takeArmCapture_badValue _ hlen hbad),
    fun hlen hok hbusy => ?_, fun hlen hok hfree => ?_, fun hlen => ⟨?_, ?_, ?_⟩,
    fun hlen => ⟨fun hon => ?_, fun hoff => ?_, ?_, ?_⟩⟩
  · exact refusedArm ((if_neg (by omega)).trans ((if_neg (by omega)).trans ((if_neg (by omega)).trans
      (if_pos ((CapState.busy_iff _).mpr hbusy)))))
  · rw [← ofNat_byteAt]
    exact exec_armCapture_ready h ps hps _ ((if_neg (by omega)).trans ((if_neg (by omega)).trans
      ((if_neg (by omega)).trans (if_neg fun hbusy => (CapState.busy_iff _).mp hbusy hfree)))) rfl
  · exact requestOutcome_refused h hps (by decide) (by decide) (if_pos hlen)
  · exact requestOutcome_refused h hps (by decide) (by decide) (if_pos hlen)
  · exact requestOutcome_refused h hps (by decide) (by decide) (if_pos hlen)
  · exact exec_trigger_ready h ps hps _ (takeTrigger_armed hlen (s.cap.armedOnRequest_iff.mpr hon)) rfl
  · exact exec_trigger_ready h ps hps _ (takeTrigger_not_armed hlen fun hon => hoff (s.cap.armedOnRequest_iff.mp hon)) rfl
  · exact exec_disarmCapture_ready h ps hps _ (if_neg (not_not_intro hlen)) rfl
  · exact exec_flushCapture_ready h ps hps _ (if_neg (not_not_intro hlen)) rfl

/-! ## Reading -/

theorem capEntryBytes_eq (e : CapEntry) : capEntryBytes e = captureEntryData e := by
  unfold capEntryBytes captureEntryData leInt16
  rw [pattern16_eq]
  cases e.kind <;> rfl

theorem traceEntryBytes_eq (e : TraceEntry) : traceEntryBytes e = traceEntryData e := by
  unfold traceEntryBytes traceEntryData
  cases e.detail <;> rfl

/-- The trigger stamp as R154 gives it: the low 16 bits of C, and θ. -/
theorem Capture.stampBytes_eq (cap : Capture) : cap.stampBytes = match cap.stamp with
    | none => [0, 0, 0, 0]
    | some p => leBytes 2 (p.c.toNat % 65536) ++ leBytes 2 p.ang.toNat := by
  unfold Capture.stampBytes
  cases cap.stamp with
  | none => rfl
  | some p =>
    show leBytes 2 (p.c.setWidth 16).toNat ++ leBytes 2 p.ang.toNat = _
    rw [BitVec.toNat_setWidth]

/-- Settles O49: each refusal by the check that fails first, a read by its layout field by field. -/
theorem readsRemoveTheOldestEntries : Obligations.ReadsRemoveTheOldestEntries := by
  refine ⟨encodings, ?_⟩
  intro ps s h hps n
  refine ⟨fun hlen => ⟨?_, ?_⟩, fun hlen => ⟨fun hn => ?_, fun hn => ?_, fun h1 h24 => ?_, fun h1 h8 => ?_⟩⟩
  · exact requestOutcome_refused h hps (by decide) (by decide) (if_pos hlen)
  · exact requestOutcome_refused h hps (by decide) (by decide) (if_pos hlen)
  · exact requestOutcome_refused h hps (by decide) (by decide) ((if_neg (not_not_intro hlen)).trans (if_pos hn))
  · exact requestOutcome_refused h hps (by decide) (by decide) ((if_neg (not_not_intro hlen)).trans (if_pos hn))
  · have htake := exec_readCapture_ready h ps hps _ ((if_neg (not_not_intro hlen)).trans (if_neg (by omega))) rfl
    rw [htake]
    simp only [answeredOn, responseOf, captureStatusBytes, Capture.stampBytes_eq, List.length_drop, funext capEntryBytes_eq]
    rfl
  · have htake := exec_readTrace_ready h ps hps _ ((if_neg (not_not_intro hlen)).trans (if_neg (by omega))) rfl
    rw [htake]
    simp only [answeredOn, responseOf, List.length_drop, funext traceEntryBytes_eq]
    rfl

end Sys2Proof.Machine
end

