-- ==== Sys2Proof/Proofs/Snapshots.lean ====
section
/-! PROOFS. The Counter Bank's snapshots: SNAPSHOT, SET_AUTO_SNAPSHOT and READ_SNAPSHOT on a ready link, what a tick leaves of the
snapshot set, and the rows SNAPSHOT_TAKEN and AUTO_SNAPSHOT (R163 to R166). -/

namespace Sys2Proof.Machine

open Sys2Proof.Safety

/-! ## The Counter Bank's work -/

/-- R165's boundary: one that brings the boundary count to a K other than 0. -/
theorem CounterBank.reaches_iff (c : CounterBank) (boundary : Bool) :
    c.reaches boundary = true ↔ boundary = true ∧ c.interval ≠ 0 ∧ c.boundary + 1 = c.interval := by
  simp only [CounterBank.reaches, Bool.and_eq_true, decide_eq_true_eq, and_assoc]

theorem CounterBank.takes_iff (c : CounterBank) (boundary : Bool) :
    c.takes boundary = true ↔ c.request = true ∨ c.reaches boundary = true := Bool.or_eq_true_iff

/-- A Counter Bank but for its live counts. -/
def CounterBank.besidesLive (c : CounterBank) : CounterBank := { c with live := nineZero }

/-- Counting moves the live counts alone (R161). -/
theorem CounterBank.count_besidesLive (c : CounterBank) (f : Nine → Nine) : (c.count f).besidesLive = c.besidesLive := rfl

section Taken

variable {c : CounterBank} {boundary : Bool} (pos : Position)

theorem CounterBank.atTick_of_takes (h : c.takes boundary = true) :
    c.atTick boundary pos = { c.snapshot pos with boundary := c.boundaryAfter boundary } := by
  rw [CounterBank.atTick, if_pos h]

theorem CounterBank.atTick_of_not_takes (h : ¬ c.takes boundary = true) :
    c.atTick boundary pos = { c with boundary := c.boundaryAfter boundary } := by
  rw [CounterBank.atTick, if_neg h]

end Taken

/-! ## Requests -/

/-- READ_SNAPSHOT's bytes are its fields in R181's order. -/
theorem snapshotBytes_eq (c : CounterBank) : snapshotBytes c =
    leBytes 2 c.seq.toNat ++ leBytes 4 c.stamp.c.toNat ++ leBytes 2 c.stamp.ang.toNat ++ leBytes 2 c.snap.clampA ++
    leBytes 2 c.snap.clampB ++ leBytes 2 c.snap.clampC ++ leBytes 2 c.snap.applied ++ leBytes 2 c.snap.late ++
    leBytes 2 c.snap.overcurrent ++ leBytes 2 c.snap.missing ++ leBytes 2 c.snap.captureLost ++ leBytes 2 c.snap.traceLost ++
    leBytes 2 c.interval ++ leBytes 2 c.boundary ++ [if c.request then 1 else 0] := by
  simp only [snapshotBytes, positionBytes, nineBytes, flagByte, List.append_assoc]

/-! ## The tick -/

/-- Behind its snapshot a tick moves the live counts alone of the Counter Bank (R163). -/
theorem workTick_besidesLive (x : Bool) (s : State) :
    (workTick 0 x s).cnt.besidesLive = (s.cnt.atTick s.tb.wraps (comingPosition s)).besidesLive := by
  have hQ : RunInvariant
      (fun w => w.cnt.besidesLive = (s.cnt.atTick s.tb.wraps (comingPosition s)).besidesLive) :=
    { renewed := id, filled := fun _ => id, markerFault := fun _ _ _ => id, unmapped := fun _ _ => id
      taken := fun _ => id, released := fun _ _ => id
      control := fun _ _ _ => (CounterBank.count_besidesLive _ _).trans
      ended := fun _ _ _ _ => (CounterBank.count_besidesLive _ _).trans
      timed := fun _ _ _ _ => (CounterBank.count_besidesLive _ _).trans
      pending := fun _ _ _ => (CounterBank.count_besidesLive _ _).trans }
  have hlater : (workTick 0 x s).cnt.besidesLive = s.runAfter.cnt.besidesLive := by
    simp only [CounterBank.besidesLive, workTick_cnt_snap, workTick_cnt_seq, workTick_cnt_stamp, workTick_cnt_request,
      workTick_cnt_interval, workTick_cnt_boundary]
  exact hlater.trans (hQ.runAfter rfl)

theorem workTick_boundary (x : Bool) (s : State) : (workTick 0 x s).cnt.boundary = s.cnt.boundaryAfter s.tb.wraps :=
  congrArg CounterBank.boundary (workTick_besidesLive x s)

/-- A tick that takes no snapshot leaves the snapshot set (R163). -/
theorem workTick_snapshotSet_of_not_takes (x : Bool) {s : State} (h : ¬ s.cnt.takes s.tb.wraps = true) :
    (workTick 0 x s).cnt.snap = s.cnt.snap ∧ (workTick 0 x s).cnt.seq = s.cnt.seq ∧
    (workTick 0 x s).cnt.stamp = s.cnt.stamp := by
  have hcnt := workTick_besidesLive x s
  rw [CounterBank.atTick_of_not_takes _ h] at hcnt
  simp only [CounterBank.besidesLive, CounterBank.mk.injEq] at hcnt
  obtain ⟨_, hsnap, hseq, hstamp, _⟩ := hcnt
  exact ⟨hsnap, hseq, hstamp⟩

/-- The row SNAPSHOT_TAKEN's tick finds a request pending (R163). -/
theorem mem_tickFront_snapshotTaken (s : State) : .snapshotTaken ∈ (tickFront s).events ↔ s.cnt.request = true := by
  rw [tickFront_events]
  split <;> simp [Guard.eventsAt, CounterBank.eventsAt]

/-- The row AUTO_SNAPSHOT's tick is a boundary that brings the boundary count to K (R165). -/
theorem mem_tickFront_autoSnapshot (s : State) :
    .autoSnapshot ∈ (tickFront s).events ↔ s.cnt.reaches s.tb.wraps = true := by
  rw [tickFront_events]
  split <;> simp [Guard.eventsAt, CounterBank.eventsAt]

section Taken

variable {s : State} (x : Bool) (h : s.cnt.takes s.tb.wraps = true)
include h

/-- A snapshot takes the live counts of the ticks before, the next sequence number and the tick's position (R163). -/
theorem workTick_snapshotSet_of_takes :
    (workTick 0 x s).cnt.snap = s.cnt.live ∧ (workTick 0 x s).cnt.seq = s.cnt.seq + 1 ∧
    (workTick 0 x s).cnt.stamp = comingPosition s ∧ (workTick 0 x s).cnt.request = false := by
  have hcnt := workTick_besidesLive x s
  rw [CounterBank.atTick_of_takes _ h] at hcnt
  simp only [CounterBank.besidesLive, CounterBank.snapshot, CounterBank.mk.injEq] at hcnt
  obtain ⟨_, hsnap, hseq, hstamp, hrequest, _⟩ := hcnt
  exact ⟨hsnap, hseq, hstamp, hrequest⟩

/-- A snapshot raises SNAPSHOT_READY (R163). -/
theorem workTick_snapshotReady : (workTick 0 x s).links.ml.notices.getLsbD 4 = true :=
  workTick_notice_of_front (l := .ml) x
    (((Links.Raised.refl _).raiseIf _ _).notice (Links.raiseIf_notice s.links h (n := .snapshotReady) rfl))

/-- At a tick that takes a snapshot the tick's own hand-over counts from 0 (R163). -/
theorem workTick_handOverCounts_of_takes :
    (workTick 0 x s).cnt.live.overcurrent ≤ 1 ∧ (workTick 0 x s).cnt.live.missing ≤ 1 := by
  have hzero : countedFrom s = nineZero := if_pos h
  obtain ⟨hover, hmissing⟩ := workTick_handOverCounts x s
  rw [hover, hmissing, hzero]
  constructor <;> split <;> decide

end Taken

/-- Settles O52: the requests by their checks, the tick by whether it takes a snapshot, the rows by the front half's events. -/
theorem snapshotsRequestedAndTaken : Obligations.SnapshotsRequestedAndTaken := by
  refine ⟨fun ps s h hps => ?_, fun x s hplain => ⟨workTick 0 x s, exec_sampleTick_plain x s hplain, ?_⟩⟩
  · refine ⟨fun hlen => ⟨?_, ?_⟩, fun hlen => ?_, fun hlen => ⟨?_, ?_⟩, fun hlen => ?_⟩
    · exact requestOutcome_refused h hps (by decide) (by decide) (if_pos hlen)
    · exact requestOutcome_refused h hps (by decide) (by decide) (if_neg hlen)
    · exact requestOutcome_refused h hps (by decide) (by decide) (if_pos hlen)
    · exact exec_snapshot_ready h ps hps _ (if_neg (not_not_intro hlen)) rfl
    · rw [← snapshotBytes_eq]
      exact requestOutcome_read h hps (by decide) (by decide) (if_pos hlen)
    · exact exec_setAutoSnapshot_ready h ps hps _ (if_neg (not_not_intro hlen)) rfl
  · intro auto
    have hauto : s.cnt.reaches s.tb.wraps = true ↔ auto := s.cnt.reaches_iff s.tb.wraps
    have htakes : s.cnt.takes s.tb.wraps = true ↔ s.cnt.request = true ∨ auto := by rw [CounterBank.takes_iff, hauto]
    have hrequested := exec_row_of_front (row := .snapshotTaken x) hplain rfl rfl
    have hreached := exec_row_of_front (row := .autoSnapshot x) hplain rfl rfl
    simp only [mem_tickFront_snapshotTaken] at hrequested
    simp only [mem_tickFront_autoSnapshot, hauto] at hreached
    refine ⟨fun htaken => ?_, fun hnone hnot => ?_, ?_, fun hr => hrequested.trans (by rw [if_pos hr]),
      fun hr => hrequested.trans (by rw [if_neg (by simp [hr])]), fun ha => hreached.trans (by rw [if_pos ha]),
      fun ha => hreached.trans (by rw [if_neg ha])⟩
    · obtain ⟨hsnap, hseq, hstamp, hrequest⟩ := workTick_snapshotSet_of_takes x (htakes.mpr htaken)
      exact ⟨hsnap, hseq, hstamp, hrequest, workTick_snapshotReady x (htakes.mpr htaken),
        workTick_handOverCounts_of_takes x (htakes.mpr htaken)⟩
    · exact workTick_snapshotSet_of_not_takes x fun ht => (htakes.mp ht).elim (by simp [hnone]) hnot
    · exact (workTick_boundary x s).trans (if_congr hauto rfl rfl)

end Sys2Proof.Machine
end

