-- ==== Sys2Proof/Proofs/Completion.lean ====
section
/-! PROOFS. Which commands complete, and that none of them touches the queue of commands; a request row is its request taken,
said once for all rows (R168, R171, logs 3 and 26). -/

namespace Sys2Proof.Machine

/-! ## No command touches the queue -/

theorem TakeEffect.pending {s t : State} (h : TakeEffect s t) : t.pending = s.pending := by cases h <;> rfl

@[simp] theorem takeOldest_pending (l : Link) (s : State) : (takeOldest l s).pending = s.pending := by
  rcases takeOldest_cases l s with h | ⟨r, ls, h⟩
  · rw [h]
  · rw [h]; exact (judge_effect l r s).pending

@[simp] theorem takeAllBut_pending (late : Nat) (s : State) : (takeAllBut late s).pending = s.pending :=
  takeWaiting_keeps (fun t => t.pending = s.pending) (fun _ _ h => h) (fun l t h => (takeOldest_pending l t).trans h) late _ s
    rfl

@[simp] theorem takeLink_pending (l : Link) (k : Nat) (s : State) : (takeLink l k s).pending = s.pending := by
  induction k generalizing s with
  | zero => rfl
  | succ k ih => exact (ih (takeOldest l s)).trans (takeOldest_pending l s)

@[simp] theorem afterRun_pending (late : Nat) (s : State) : (s.afterRun late).pending = s.pending :=
  runTick_keeps (fun t => t.pending = s.pending) _ _ _ _ (fun _ _ h => h) (fun t h => (takeOldest_pending .pl t).trans h)
    (fun _ _ h => h) (fun _ h => h) (fun _ h => h) (fun _ h => h) late _ (tickFront_pending s)

theorem workTick_pending_afterRun (late : Nat) (x : Bool) (s : State) : (workTick late x s).pending = s.pending := by
  simp [workTick, tickMiddle_afterRun]

theorem quietTick_pending (s : State) : (quietTick s).pending = s.pending := rfl

@[simp] theorem tick_pending (x : Bool) (s : State) : (tick x s).pending = s.pending := by
  unfold tick
  split
  · rw [workTick_pending_afterRun, takeAllBut_pending]
  · rw [quietTick_pending, takeAll, takeAllBut_pending]

theorem initEnd_pending (s : State) : (initEnd s).pending = s.pending := by
  unfold initEnd
  split
  · exact takeAllBut_pending 0 s
  · rfl

theorem csRise_pending (l : Link) (s : State) : (csRise l s).pending = s.pending := by
  have htaken : (takeBeforeRise l s).pending = s.pending := by
    unfold takeBeforeRise
    split
    · exact takeLink_pending l _ s
    · rfl
  unfold csRise
  dsimp only
  split
  · exact htaken
  · exact htaken

theorem requestTaken_pending (code : Byte) (l : Link) (ps : List Byte) (s : State) :
    (requestTaken code l ps s).pending = s.pending := by
  unfold requestTaken
  split
  · split
    · exact takeOldest_pending l s
    · rfl
  · split
    · exact takeOldest_pending l _
    · rfl

/-- A command that completes leaves the queue of commands as it was. -/
theorem exec_pending {c : Instr} {s t : State} (h : exec c s = .next t) : t.pending = s.pending := by
  cases exec_effect h with
  | powerOn | pinReset | release | nothing | adc | links => rfl
  | initEnd => exact initEnd_pending s
  | tick x => exact tick_pending x s
  | csRise l => exact csRise_pending l s
  | request code l ps => exact requestTaken_pending code l ps s

/-! ## Which commands complete -/

/-- A request row's outcome, with the condition of log 26 in the terms of `wellFormed`. -/
theorem requestOutcome_eq (code : Byte) (l : Link) (ps : List Byte) (s : State) :
    requestOutcome code l ps s =
      if (paramsFit ps && true) = true then .next (requestTaken code l ps s) else .refused .illFormed := by
  rw [Bool.and_true, requestOutcome]

/-- UNKNOWN_REQUEST completes where no row has its code and its parameters fit the length byte. -/
theorem execUnknownRequest_eq (l : Link) (code : Byte) (ps : List Byte) (s : State) :
    execUnknownRequest l code ps s =
      if (paramsFit ps && !requestCodes.contains code) = true then .next (requestTaken code l ps s)
      else .refused .illFormed := by
  rw [execUnknownRequest, requestOutcome]
  cases requestCodes.contains code <;> simp

/-- A request row that a master can send is its request taken, and any other is refused by name (logs 3 and 26). -/
theorem exec_request {c : Instr} {l : Link} {code : Byte} {ps : List Byte} (hreq : c.request = some (l, code, ps))
    (s : State) :
    exec c s = if wellFormed c = true then .next (requestTaken code l ps s) else .refused .illFormed := by
  cases c <;> cases hreq
  case unknownRequest => exact execUnknownRequest_eq l code ps s
  all_goals exact requestOutcome_eq _ l ps s

/-- A command that is no request can always be sent, and completes. -/
theorem exec_of_no_request {c : Instr} (hreq : c.request = none) (s : State) :
    wellFormed c = true ∧ ∃ t, exec c s = .next t := by
  cases c <;> cases hreq <;> exact ⟨rfl, _, rfl⟩

/-- Settles O2: a request row by the request that it carries, any other command by having none. -/
theorem wellFormedCommandsComplete : Obligations.WellFormedCommandsComplete := by
  intro c s
  cases hreq : c.request with
  | none =>
    obtain ⟨hwf, t, ht⟩ := exec_of_no_request hreq s
    exact ⟨fun _ => ⟨t, ht, exec_pending ht⟩, fun hill => absurd hwf (by simp [hill])⟩
  | some r =>
    have hexec := exec_request (l := r.1) (code := r.2.1) (ps := r.2.2) hreq s
    refine ⟨fun hwf => ?_, fun hill => ?_⟩
    · rw [if_pos hwf] at hexec
      exact ⟨_, hexec, exec_pending hexec⟩
    · rwa [if_neg (by simp [hill])] at hexec

end Sys2Proof.Machine
end

