-- ==== Sys2Proof/Proofs/LinkChecks.lean ====
section
/-! PROOFS. The link-level checks of a request, in R171's order: what each refuses, and that a refusal changes nothing but its
own link (R168, R171, R178). -/

namespace Sys2Proof.Machine

open Sys2Proof.Safety

/-! ## Whose link a code is -/

/-- A code of another link (R171). -/
theorem codeBelongs_eq_false {code : Nat} {l : Link}
    (h : (l = .pl ∧ 0x30 ≤ code) ∨ (l = .gl ∧ 0x10 ≤ code ∧ code < 0x30) ∨ (l = .gl ∧ 0x50 ≤ code) ∨
      (l = .ml ∧ 0x10 ≤ code ∧ code < 0x50)) : codeBelongs code l = false := by
  rcases h with ⟨rfl, h⟩ | ⟨rfl, h⟩ | ⟨rfl, h⟩ | ⟨rfl, h⟩ <;> simp [codeBelongs] <;> omega

/-- A code that is common to all links, or the link's own (R171). -/
theorem codeBelongs_eq_true {code : Nat} {l : Link}
    (h : code < 0x10 ∨ (l = .pl ∧ code < 0x30) ∨ (l = .gl ∧ 0x30 ≤ code ∧ code < 0x50) ∨ (l = .ml ∧ 0x50 ≤ code)) :
    codeBelongs code l = true := by
  rcases h with h | ⟨rfl, h⟩ | ⟨rfl, h⟩ | ⟨rfl, h⟩ <;> simp [codeBelongs] <;> omega

/-! ## The order of the checks -/

section Judge

variable {l : Link} {r : Request} (s : State)

theorem judge_notReady (hinit : r.inInit = true) : judge l r s = refuse s .notReady := if_pos hinit

theorem judge_unknown (hinit : r.inInit = false) (hcode : r.code ∉ requestCodes) : judge l r s = refuse s .unknown := by
  rw [judge, if_neg (by simp [hinit]), if_pos (by simpa using hcode)]

theorem judge_wrongLink (hinit : r.inInit = false) (hcode : r.code ∈ requestCodes)
    (hlink : codeBelongs r.code.toNat l = false) : judge l r s = refuse s .wrongLink := by
  rw [judge, if_neg (by simp [hinit]), if_neg (by simpa using hcode), if_pos (by simp [hlink])]

theorem judge_length (hinit : r.inInit = false) (hcode : r.code ∈ requestCodes)
    (hlink : codeBelongs r.code.toNat l = true) (hlen : 200 < r.n) : judge l r s = refuse s .length := by
  rw [judge, if_neg (by simp [hinit]), if_neg (by simpa using hcode), if_neg (by simp [hlink]), if_pos hlen]

end Judge

/-! ## Refusals on an idle link -/

/-- The request that a link holds once it is clocked in: with a length byte above 200 no parameter byte follows (R168). -/
def clockedRequest (code : Byte) (ps : List Byte) (inInit : Bool) : Request :=
  { code := code, n := ps.length, params := if 200 < ps.length then [] else ps, inInit := inInit }

section Idle

variable {l : Link} {s : State} (code : Byte) (ps : List Byte)

theorem sendRequest_untaken (hnone : (s.links.get l).untaken = []) :
    ((sendRequest code l ps s).links.get l).untaken = [clockedRequest code ps s.inInit] := by
  simp [sendRequest, LinkState.sent, hnone, clockedRequest]

/-- A request row on an idle link with RESETN released is the request clocked in and taken, in INIT and after (log 3). -/
theorem requestTaken_idle (hcs : (s.links.get l).csLow = false) (htx : (s.links.get l).tx = .idle)
    (hnone : (s.links.get l).untaken = []) (hreset : s.resetLow = false) :
    requestTaken code l ps s = takeOldest l (sendRequest code l ps s) := by
  simp [requestTaken, hnone, canSend, hcs, htx, hreset]

/-- A request that the checks refuse right after it is clocked in changes nothing but its own link. -/
theorem takeOldest_sendRequest_refused (hnone : (s.links.get l).untaken = []) {st : Status}
    (hjudge : ∀ t, judge l (clockedRequest code ps s.inInit) t = refuse t st) :
    takeOldest l (sendRequest code l ps s) = onlyAnswered s l st [] := by
  simp only [takeOldest, sendRequest_untaken code ps hnone, hjudge, refuse]
  simp [sendRequest, LinkState.sent, LinkState.answered, LinkState.isLive, hnone, onlyAnswered, withLink, answeredLink,
    responseOf]

end Idle

/-- Settles O4: each check with those before it passed. -/
theorem linkLevelChecksRefuse : Obligations.LinkLevelChecksRefuse := by
  intro c l code ps s hwf hreq hcs htx hnone hreset
  have refused {st : Status} (hjudge : ∀ t, judge l (clockedRequest code ps s.inInit) t = refuse t st) :
      exec c s = .next (onlyAnswered s l st []) := by
    rw [exec_request hreq, if_pos hwf, requestTaken_idle code ps hcs htx hnone hreset,
      takeOldest_sendRequest_refused code ps hnone hjudge]
  exact ⟨fun hinit => refused fun t => judge_notReady t hinit,
    fun hinit hcode => refused fun t => judge_unknown t hinit hcode,
    fun hinit hcode hlink => refused fun t => judge_wrongLink t hinit hcode (codeBelongs_eq_false hlink),
    fun hinit hcode hlink hlen => refused fun t => judge_length t hinit hcode (codeBelongs_eq_true hlink) hlen⟩

end Sys2Proof.Machine
end

