-- ==== Sys2Proof/Proofs/Transactions.lean ====
section
/-! PROOFS. The transactions of the links: the edges of CS, the moment of responding, the bytes of a response clocked out (R168
to R170, R179, log 13). -/

namespace Sys2Proof.Machine

open Sys2Proof.Safety

/-! ## One link replaced -/

@[simp] theorem withLink_links_get (s : State) (l : Link) (lk : LinkState) : (withLink s l lk).links.get l = lk :=
  Links.get_set _ _ _

@[simp] theorem withLink_withLink (s : State) (l : Link) (x y : LinkState) : withLink (withLink s l x) l y = withLink s l y := by
  simp [withLink]

@[simp] theorem withLink_inInit (s : State) (l : Link) (lk : LinkState) : (withLink s l lk).inInit = s.inInit := rfl

theorem withLink_get (s : State) (l : Link) : withLink s l (s.links.get l) = s := by
  simp [withLink]

/-- A command that leaves its link as it is changes nothing. -/
theorem withLink_eq_self {s : State} {l : Link} {lk : LinkState} (h : lk = s.links.get l) : withLink s l lk = s := by
  rw [h, withLink_get]

theorem exec_csFall (l : Link) (s : State) :
    exec (.csFall l) s = .next (withLink s l ((s.links.get l).fall s.resetLow)) := rfl

theorem exec_responseReady (l : Link) (s : State) :
    exec (.responseReady l) s = .next (withLink s l (s.links.get l).ready) := rfl

theorem exec_byteClocked (l : Link) (sdi : Byte) (s : State) :
    exec (.byteClocked l sdi) s = .next (withLink s l ((s.links.get l).clockByte sdi s.inInit)) := rfl

/-! ## The edges of CS -/

theorem LinkState.fall_of_high {lk : LinkState} (h : lk.csLow = false) (resetLow : Bool) :
    lk.fall resetLow =
      { lk with csLow := true, tx := if resetLow then .discard else .receiving, rx := [], resp := none, out := [] } :=
  if_neg (by simp [h])

theorem LinkState.fall_of_low {lk : LinkState} (h : lk.csLow = true) (resetLow : Bool) : lk.fall resetLow = lk := if_pos h

/-- A link whose latest request is no SOFT_RESET, or that is not WAITING, holds none that is complete (R180). -/
theorem LinkState.holdsSoftReset_eq_false {lk : LinkState}
    (h : lk.tx = .waiting → ∀ r, lk.untaken.getLast? = some r → r.code ≠ 0x39) : lk.holdsSoftReset = false := by
  unfold LinkState.holdsSoftReset
  by_cases htx : lk.tx = .waiting
  · cases hlast : lk.untaken.getLast? with
    | none => simp
    | some r =>
      have hcode : ¬ r.code = softResetCode := h htx r hlast
      simp [hcode]
  · simp [htx]

/-- A rising edge that finds no SOFT_RESET, taken or complete, ends the transaction and takes nothing (R170). -/
theorem csRise_plain {l : Link} {s : State} (hwaits : (s.links.get l).softReset = false)
    (hfound : l = .gl → (s.links.get l).holdsSoftReset = false) : csRise l s = withLink s l (s.links.get l).rise := by
  have hbefore : takeBeforeRise l s = s := by
    refine if_neg fun h => ?_
    obtain ⟨hl, hholds⟩ := Bool.and_eq_true_iff.mp h
    simp [hfound (of_decide_eq_true hl)] at hholds
  rw [csRise, hbefore]
  exact if_neg (by simp [hwaits])

theorem LinkState.ready_of_formed {lk : LinkState} {bytes : List Byte} (htx : lk.tx = .waiting)
    (hresp : lk.resp = some (.formed bytes)) : lk.ready = { lk with tx := .responding, out := bytes, resp := none } := by
  simp [LinkState.ready, hresp, htx, LinkState.respond]

theorem LinkState.ready_of_report {lk : LinkState} {report : AsOf} (hresp : lk.resp = some (.atTick report)) :
    lk.ready = lk := by
  simp [LinkState.ready, hresp]

/-- Settles O5: each edge by the level of CS that it finds, the response by its form. -/
theorem csEdgesAndResponse : Obligations.CsEdgesAndResponse := by
  intro l s
  refine ⟨fun hcs => ?_, fun hcs => ?_, fun hcs hwaits hlast => ?_, fun hcs => ?_, fun bytes htx hresp => ?_,
    fun report hresp => ?_⟩
  · rw [exec_csFall, LinkState.fall_of_high hcs]
  · rw [exec_csFall, withLink_eq_self (LinkState.fall_of_low hcs _)]
  · show Host.Outcome.next (if _ then _ else _) = _
    rw [if_pos hcs, csRise_plain hwaits fun hl => LinkState.holdsSoftReset_eq_false (hlast hl)]
    rfl
  · exact congrArg Host.Outcome.next (if_neg (by simp [hcs]))
  · rw [exec_responseReady, LinkState.ready_of_formed htx hresp]
  · rw [exec_responseReady, withLink_eq_self (LinkState.ready_of_report hresp)]

/-! ## The bytes of a response -/

theorem LinkState.clockByte_of_high {lk : LinkState} (hcs : lk.csLow = false) (sdi : Byte) (inInit : Bool) :
    lk.clockByte sdi inInit = lk := if_neg (by simp [hcs])

/-- A byte clocked out, the last one or not (R169). -/
theorem LinkState.clockByte_of_responding {lk : LinkState} (hcs : lk.csLow = true) (htx : lk.tx = .responding) {b : Byte}
    {rest : List Byte} (hout : lk.out = b :: rest) (sdi : Byte) (inInit : Bool) :
    lk.clockByte sdi inInit = { lk with tx := if rest = [] then .drained else .responding, out := rest, sdo := b } := by
  simp [LinkState.clockByte, hcs, htx, LinkState.send, hout]

theorem LinkState.clockByte_of_receiving {lk : LinkState} (hcs : lk.csLow = true) (htx : lk.tx = .receiving) (sdi : Byte)
    (inInit : Bool) : lk.clockByte sdi inInit = lk.receive sdi inInit := by
  simp [LinkState.clockByte, hcs, htx]

/-- A link that waits, is drained or discards drives 0xFF and does nothing else (R168, R169). -/
theorem LinkState.clockByte_of_deaf {lk : LinkState} (hcs : lk.csLow = true) (hidle : lk.tx ≠ .idle)
    (hreceiving : lk.tx ≠ .receiving) (hresponding : lk.tx ≠ .responding) (sdi : Byte) (inInit : Bool) :
    lk.clockByte sdi inInit = { lk with sdo := 0xFF } := by
  rw [LinkState.clockByte, if_pos hcs]
  cases htx : lk.tx with
  | waiting | drained | discard => rfl
  | idle => exact absurd htx hidle
  | receiving => exact absurd htx hreceiving
  | responding => exact absurd htx hresponding

/-- A receiving link drives 0xFF, whether the byte completes a request or not (R168). -/
theorem LinkState.receive_sdo (lk : LinkState) (sdi : Byte) (inInit : Bool) : (lk.receive sdi inInit).sdo = 0xFF := by
  unfold LinkState.receive
  dsimp only
  split <;> rfl

theorem runCommands_next {c : Instr} {cs : List Instr} {s t : State} (h : exec c s = .next t) :
    runCommands (c :: cs) s = runCommands cs t := by
  rw [runCommands, h]

/-- A responding link, clocked at least once and at most to the end of its response (R169). -/
theorem runCommands_responding {l : Link} {sdis : List Byte} (hne : sdis ≠ []) {s : State}
    (hcs : (s.links.get l).csLow = true) (htx : (s.links.get l).tx = .responding)
    (hlen : sdis.length ≤ (s.links.get l).out.length) :
    runCommands (sdis.map fun b => .byteClocked l b) s = .next (withLink s l
      { s.links.get l with
        tx := if sdis.length = (s.links.get l).out.length then .drained else .responding
        out := (s.links.get l).out.drop sdis.length
        sdo := (s.links.get l).out.getD (sdis.length - 1) 0 }) := by
  induction sdis generalizing s with
  | nil => exact absurd rfl hne
  | cons sdi sdis ih =>
    obtain ⟨b, rest, hout⟩ : ∃ b rest, (s.links.get l).out = b :: rest :=
      List.exists_cons_of_length_pos (Nat.lt_of_lt_of_le (Nat.succ_pos _) hlen)
    rw [hout, List.length_cons, List.length_cons, Nat.add_le_add_iff_right] at hlen
    rw [List.map_cons, runCommands_next (exec_byteClocked l sdi s), LinkState.clockByte_of_responding hcs htx hout]
    by_cases hlast : sdis = []
    · subst hlast
      simp [runCommands, hout, List.length_eq_zero_iff]
    · have hrest : rest ≠ [] := fun h => hlast (List.eq_nil_of_length_eq_zero (by simpa [h] using hlen))
      have hpos : 0 < sdis.length := List.length_pos_iff.mpr hlast
      rw [ih hlast (by simpa using hcs) (by simp [hrest]) (by simpa using hlen)]
      obtain ⟨n, hn⟩ : ∃ n, sdis.length = n + 1 := ⟨sdis.length - 1, by omega⟩
      simp [hout, hn]

/-- Settles O7: by the bytes clocked so far for a responding link, and by the transaction's state for any other. -/
theorem responseIsClockedOut : Obligations.ResponseIsClockedOut := by
  intro l s
  refine ⟨fun bytes sdis i hcs htx hout hlen hi => ?_, fun sdi hcs hresponding hidle => ?_, fun sdi hcs => ?_⟩
  · have htake : (sdis.take (i + 1)).length = i + 1 := List.length_take_of_le (by omega)
    rw [runCommands_responding (List.ne_nil_of_length_eq_add_one htake) hcs htx (by rw [htake, hout]; omega), htake, hout]
    rfl
  · refine ⟨_, exec_byteClocked l sdi s, ?_, fun hreceiving => ?_⟩
    · rw [withLink_links_get]
      by_cases hreceiving : (s.links.get l).tx = .receiving
      · rw [LinkState.clockByte_of_receiving hcs hreceiving, LinkState.receive_sdo]
      · rw [LinkState.clockByte_of_deaf hcs hidle hreceiving hresponding]
    · rw [LinkState.clockByte_of_deaf hcs hidle hreceiving hresponding]
      rfl
  · rw [exec_byteClocked, withLink_eq_self (LinkState.clockByte_of_high hcs _ _)]

end Sys2Proof.Machine
end

