-- ==== Sys2Proof/Proofs/RequestBytes.lean ====
section
/-! PROOFS. A request is what its bytes say: the bytes clocked in, the request that they leave on the link, and the row that it
decodes to (R168, R171, R181, log 3). -/

namespace Sys2Proof.Machine

open Sys2Proof.Safety

/-! ## The bytes of a request -/

/-- Bytes of which only the whole makes a complete request, clocked in on a receiving link (R168). -/
theorem runCommands_receiving {l : Link} {bs : List Byte} (hne : bs ≠ []) {s : State} (hcs : (s.links.get l).csLow = true)
    (htx : (s.links.get l).tx = .receiving)
    (hpart : ∀ k, 0 < k → k < bs.length → isComplete ((s.links.get l).rx ++ bs.take k) = false)
    (hwhole : isComplete ((s.links.get l).rx ++ bs) = true) :
    runCommands (bs.map fun b => .byteClocked l b) s = .next (withLink s l
      { s.links.get l with
        tx := .waiting, rx := [], sdo := 0xFF
        untaken := (s.links.get l).untaken ++ [requestOf ((s.links.get l).rx ++ bs) s.inInit] }) := by
  induction bs generalizing s with
  | nil => exact absurd rfl hne
  | cons b bs ih =>
    rw [List.map_cons, runCommands_next (exec_byteClocked l b s), LinkState.clockByte_of_receiving hcs htx]
    by_cases hlast : bs = []
    · subst hlast
      simp [runCommands, LinkState.receive, hwhole]
    · have hpos : 0 < bs.length := List.length_pos_iff.mpr hlast
      have hfirst : isComplete ((s.links.get l).rx ++ [b]) = false := by
        simpa using hpart 1 (by omega) (by simpa using hpos)
      have hreceive : (s.links.get l).receive b s.inInit =
          { s.links.get l with rx := (s.links.get l).rx ++ [b], sdo := 0xFF } := by
        simp [LinkState.receive, hfirst]
      rw [hreceive, ih hlast (by simpa using hcs) (by simpa using htx) (fun k hk hlt => ?_) (by simpa using hwhole)]
      · simp
      · simpa using hpart (k + 1) (by omega) (by simpa using hlt)

/-- CS_FALL and then such bytes on an idle link with RESETN released. -/
theorem runCommands_csFall {l : Link} {s : State} (hcs : (s.links.get l).csLow = false) (hreset : s.resetLow = false)
    {bs : List Byte} (hne : bs ≠ []) (hpart : ∀ k, 0 < k → k < bs.length → isComplete (bs.take k) = false)
    (hwhole : isComplete bs = true) :
    runCommands (.csFall l :: bs.map fun b => .byteClocked l b) s = .next (withLink s l
      { s.links.get l with
        csLow := true, tx := .waiting, rx := [], resp := none, out := [], sdo := 0xFF
        untaken := (s.links.get l).untaken ++ [requestOf bs s.inInit] }) := by
  rw [runCommands_next (exec_csFall l s), LinkState.fall_of_high hcs, hreset,
    runCommands_receiving hne (by simp) (by simp) (by simpa using hpart) (by simpa using hwhole)]
  simp

/-- A code and a length byte are a whole request where no parameter follows, and a part of one otherwise (R168). -/
theorem isComplete_header (code len : Byte) : isComplete [code, len] = true ↔ len.toNat = 0 ∨ 200 < len.toNat := by
  simp only [isComplete, byteAt, List.length_cons, List.length_nil, List.getD_cons_succ, List.getD_cons_zero,
    Bool.and_eq_true, Bool.or_eq_true, decide_eq_true_eq]
  omega

/-- Parameter bytes complete a request where they are as many as the length byte says (R168). -/
theorem isComplete_params {code len : Byte} {ps : List Byte} (hlen : ps.length ≤ len.toNat) (h200 : len.toNat ≤ 200) :
    isComplete (code :: len :: ps) = true ↔ ps.length = len.toNat := by
  simp only [isComplete, byteAt, List.length_cons, List.getD_cons_succ, List.getD_cons_zero, Bool.and_eq_true,
    Bool.or_eq_true, decide_eq_true_eq]
  omega

theorem isComplete_single (code : Byte) : isComplete [code] = false := rfl

/-- No part of a request with at most 200 parameter bytes is complete. -/
theorem isComplete_take {code len : Byte} {ps : List Byte} (hlen : len.toNat = ps.length) (h200 : ps.length ≤ 200) {k : Nat}
    (hpos : 0 < k) (hk : k < (code :: len :: ps).length) : isComplete ((code :: len :: ps).take k) = false := by
  match k with
  | 1 => exact isComplete_single code
  | k + 2 =>
    have hlt : k < ps.length := by simpa using hk
    have htake : (ps.take k).length = k := List.length_take_of_le hlt.le
    rw [← Bool.not_eq_true, show (code :: len :: ps).take (k + 2) = code :: len :: ps.take k from rfl,
      isComplete_params (by omega) (by omega)]
    omega

/-- The length byte of a command that can be sent is the number of its parameter bytes. -/
theorem toNat_lengthByte {ps : List Byte} (hfit : paramsFit ps = true) : (BitVec.ofNat 8 ps.length : Byte).toNat = ps.length := by
  have h255 : ps.length ≤ 255 := of_decide_eq_true hfit
  rw [BitVec.toNat_ofNat, Nat.mod_eq_of_lt (by omega)]

/-- Whichever bytes are clocked in, whole or cut after the length byte, they are the request of `clockedRequest`. -/
theorem requestOf_bytes {ps : List Byte} (code : Byte) (inInit : Bool) (hfit : paramsFit ps = true) :
    requestOf (code :: BitVec.ofNat 8 ps.length :: if 200 < ps.length then [] else ps) inInit =
      clockedRequest code ps inInit := by
  rw [requestOf, clockedRequest]
  congr 1
  exact toNat_lengthByte hfit

/-- The bytes that a master clocks in before a request ends: all of them, or the code and a length byte above 200 (R168). -/
theorem runCommands_request {l : Link} {s : State} (hcs : (s.links.get l).csLow = false) (hreset : s.resetLow = false)
    (code : Byte) {ps : List Byte} (hfit : paramsFit ps = true) :
    runCommands (.csFall l :: (code :: BitVec.ofNat 8 ps.length :: if 200 < ps.length then [] else ps).map
      fun b => .byteClocked l b) s = .next (sendRequest code l ps s) := by
  have hlen := toNat_lengthByte hfit
  rw [runCommands_csFall hcs hreset (List.cons_ne_nil _ _) ?part ?whole, requestOf_bytes code s.inInit hfit]
  · rfl
  case part =>
    intro k hpos hk
    by_cases h200 : 200 < ps.length
    · rw [if_pos h200] at hk ⊢
      obtain rfl : k = 1 := by simp at hk; omega
      exact isComplete_single code
    · rw [if_neg h200] at hk ⊢
      exact isComplete_take hlen (by omega) hpos hk
  case whole =>
    by_cases h200 : 200 < ps.length
    · rw [if_pos h200, isComplete_header]
      omega
    · rw [if_neg h200, isComplete_params (by omega) (by omega), hlen]

/-! ## The request that the bytes are -/

theorem paramsFit_of_wellFormed {c : Instr} {l : Link} {code : Byte} {ps : List Byte} (hwf : wellFormed c = true)
    (hreq : c.request = some (l, code, ps)) : paramsFit ps = true := by
  unfold wellFormed at hwf
  rw [Instr.requestParams, hreq] at hwf
  exact (Bool.and_eq_true_iff.mp hwf).1

/-- A code of the table, with parameters that fit, is a row that a master can send with that code. -/
theorem commandOf_known {code : Byte} (hcode : code ∈ requestCodes) (l : Link) {ps : List Byte} (hfit : paramsFit ps = true) :
    (commandOf l code ps).request = some (l, code, ps) ∧ wellFormed (commandOf l code ps) = true := by
  have hwf : (paramsFit ps && true) = true := by rw [hfit]; rfl
  fin_cases hcode <;> exact ⟨rfl, hwf⟩

/-- What a code and parameters that fit decode to can be sent, and carries them (R171, R181). -/
theorem commandOf_request (code : Byte) (l : Link) {ps : List Byte} (hfit : paramsFit ps = true) :
    (commandOf l code ps).request = some (l, code, ps) ∧ wellFormed (commandOf l code ps) = true := by
  by_cases hcode : code ∈ requestCodes
  · exact commandOf_known hcode l hfit
  · have hunknown : requestCodes.contains code = false := by simpa using hcode
    rw [Laws.commandOf_unknown l code ps hunknown]
    exact ⟨rfl, show (paramsFit ps && !requestCodes.contains code) = true by rw [hfit, hunknown]; rfl⟩

/-- A request row that can be sent is what its code and parameters decode to. -/
theorem commandOf_of_request {c : Instr} {l : Link} {code : Byte} {ps : List Byte} (hwf : wellFormed c = true)
    (hreq : c.request = some (l, code, ps)) : commandOf l code ps = c := by
  cases c
  case unknownRequest => exact Laws.RequestCode.unknownRequest _ _ _ hwf l code ps hreq
  all_goals cases hreq <;> rfl

/-- The oldest request of a link with the row's code and parameters is what the row takes (log 3). -/
theorem requestTaken_oldest {l : Link} {s : State} {r : Request} (h : (s.links.get l).untaken = [r]) :
    requestTaken r.code l r.params s = takeOldest l s := by
  simp [requestTaken, h]

/-- Settles O6: the bytes leave the request of the row, which then is the oldest one, to be taken. -/
theorem requestBytesDecodeToTheirRow : Obligations.RequestBytesDecodeToTheirRow := by
  intro c l code ps s hwf hreq ⟨hcs, htx, hnone, hreset, hinit⟩
  have hfit := paramsFit_of_wellFormed hwf hreq
  have hbytes : requestBytes c = code :: BitVec.ofNat 8 ps.length :: ps := by rw [requestBytes, hreq]
  have hrun := runCommands_request hcs hreset code hfit
  have taken {qs : List Byte} (hqs : (clockedRequest code ps s.inInit).params = qs) (hfitq : paramsFit qs = true) :
      exec (commandOf l code qs) (sendRequest code l ps s) = exec c s := by
    obtain ⟨hreqq, hwfq⟩ := commandOf_request code l hfitq
    have holdest := requestTaken_oldest (sendRequest_untaken code ps hnone)
    rw [hqs] at holdest
    rw [exec_request hreqq, if_pos hwfq, exec_request hreq, if_pos hwf, requestTaken_idle code ps hcs htx hnone hreset]
    exact congrArg Host.Outcome.next holdest
  refine ⟨fun h200 => ⟨sendRequest code l ps s, ?_, ?_, commandOf_of_request hwf hreq, ?_⟩,
    fun h200 => ⟨sendRequest code l ps s, ?_, ?_, ?_⟩⟩
  · rwa [if_neg (by omega), ← hbytes] at hrun
  · rw [sendRequest, LinkState.sent, hnone, hinit, if_neg (by omega)]
    rfl
  · have htaken := taken (if_neg (by omega)) hfit
    rwa [commandOf_of_request hwf hreq] at htaken
  · rw [if_pos h200] at hrun
    rwa [hbytes]
  · rw [sendRequest, Links.get_set]
    rfl
  · exact taken (if_pos h200) rfl

end Sys2Proof.Machine
end

