-- ==== Sys2Proof/Proofs/Notices.lean ====
section
/-! PROOFS. The notice sets, their masks and the ALERT lines: READ_NOTICES, SET_ALERTS and what each leaves of the line (R173 to
R176). -/

namespace Sys2Proof.Machine

open Sys2Proof.Safety

/-! ## READ_NOTICES and SET_ALERTS -/

theorem takeReadNotices_nil (l : Link) (s : State) :
    takeReadNotices l [] s =
      (.data [(s.links.get l).notices, (s.links.get l).enable], withLink s l { s.links.get l with notices := 0 }) := rfl

/-- A mask within the link's notices is stored (R176). -/
theorem takeSetAlerts_of_within {l : Link} {mask : Byte} (h : mask &&& ~~~allNotices l = 0) (s : State) :
    takeSetAlerts l [mask] s = (.status .ok, withLink s l { s.links.get l with enable := mask }) := by
  have hmask : (BitVec.ofNat 8 (byteAt [mask] 0) : Byte) = mask := ofNat_byteAt [mask] 0
  unfold takeSetAlerts
  dsimp only
  rw [hmask, if_neg (by simp), if_neg (by simpa using h)]
  rfl

/-- Any other mask is refused (R176). -/
theorem takeSetAlerts_of_beyond {l : Link} {mask : Byte} (h : mask &&& ~~~allNotices l ≠ 0) (s : State) :
    takeSetAlerts l [mask] s = refuse s .badValue := by
  have hmask : (BitVec.ofNat 8 (byteAt [mask] 0) : Byte) = mask := ofNat_byteAt [mask] 0
  unfold takeSetAlerts
  dsimp only
  rw [hmask, if_neg (by simp), if_pos h]

/-- A code below 0x10 is every link's (R171). -/
theorem codeBelongs_common {code : Nat} (h : code < 0x10) (l : Link) : codeBelongs code l = true :=
  codeBelongs_eq_true (.inl h)

/-- A link on which a request has been clocked in and answered, where no other request waited (R168, R169). -/
theorem LinkState.answered_sent {lk : LinkState} (hnone : lk.untaken = []) (code : Byte) (ps : List Byte) (inInit : Bool)
    (ans : Answer) : (lk.sent code ps inInit).answered true ans = answeredLink lk (responseOf ans) := by
  simp [LinkState.sent, LinkState.answered, answeredLink, hnone]

/-- A request on a ready link whose effect is on that link alone: the effect, with the answer. -/
theorem requestOutcome_ownLink {l : Link} {s : State} {code : Byte} {ps : List Byte} (h : Ready l s) (hps : ps.length ≤ 200)
    (hc : requestCodes.contains code = true) (hb : codeBelongs code.toNat l = true) {ans : Answer}
    {f : LinkState → LinkState}
    (hres : takeByCode code.toNat l ps (sendRequest code l ps s) =
      (ans, withLink (sendRequest code l ps s) l (f ((sendRequest code l ps s).links.get l)))) :
    requestOutcome code l ps s =
      .next (withLink s l ((f ((s.links.get l).sent code ps s.inInit)).answered true ans)) := by
  rw [requestOutcome_of_take h hps hc hb hres]
  simp [withLink, sendRequest]

/-- Settles O8: each request by its own checks on a ready link. -/
theorem noticesReadAndMaskSet : Obligations.NoticesReadAndMaskSet := by
  intro l s h
  have ⟨_, _, hnone, _⟩ := h
  have readCommon : codeBelongs (0x01 : Byte).toNat l = true := codeBelongs_common (by decide) l
  have setCommon : codeBelongs (0x02 : Byte).toNat l = true := codeBelongs_common (by decide) l
  refine ⟨?_, fun mask hmask => ?_, fun mask hmask => ?_, fun ps hps hlen => ?_, fun ps hps hlen => ?_⟩
  · refine (requestOutcome_ownLink (ps := []) (f := fun lk => { lk with notices := 0 }) h (by simp) (by decide) readCommon
      (takeReadNotices_nil l _)).trans ?_
    rw [sendRequest, Links.get_set]
    exact congrArg (fun lk => Host.Outcome.next (withLink s l { lk with notices := 0 })) (LinkState.answered_sent hnone _ _ _ _)
  · refine (requestOutcome_ownLink (ps := [mask]) (f := fun lk => { lk with enable := mask }) h (by simp) (by decide) setCommon
      (takeSetAlerts_of_within hmask _)).trans ?_
    exact congrArg (fun lk => Host.Outcome.next (withLink s l { lk with enable := mask })) (LinkState.answered_sent hnone _ _ _ _)
  · exact requestOutcome_refused (ps := [mask]) h (by simp) (by decide) setCommon (takeSetAlerts_of_beyond hmask _)
  · exact requestOutcome_refused h hps (by decide) readCommon (if_pos hlen)
  · exact requestOutcome_refused h hps (by decide) setCommon (if_pos hlen)

/-! ## The ALERT line -/

/-- Two bytes have a bit in common where their conjunction is not 0. -/
theorem and_ne_zero_iff (x y : Byte) : x &&& y ≠ 0 ↔ ∃ i, i < 8 ∧ x.getLsbD i = true ∧ y.getLsbD i = true := by
  constructor
  · intro h
    by_contra hnone
    refine h (BitVec.eq_of_getLsbD_eq fun i hi => ?_)
    rw [BitVec.getLsbD_and, Bool.and_eq_false_imp.mpr]
    · simp
    · exact fun hx => Bool.eq_false_iff.mpr fun hy => hnone ⟨i, hi, hx, hy⟩
  · rintro ⟨i, _, hx, hy⟩ h
    have hbit : (x &&& y).getLsbD i = true := by rw [BitVec.getLsbD_and, hx, hy]; rfl
    simp [h] at hbit

/-- The line is asserted exactly outside INIT and reset, with a notice of the set enabled (R174). -/
theorem State.alert_iff (s : State) (l : Link) :
    s.alert l = true ↔ s.inInit = false ∧ s.resetLow = false ∧
      ∃ i, i < 8 ∧ (s.links.get l).notices.getLsbD i = true ∧ (s.links.get l).enable.getLsbD i = true := by
  rw [← and_ne_zero_iff, State.alert, Bool.and_eq_true, Bool.and_eq_true, Bool.not_eq_true', Bool.not_eq_true', bne_iff_ne,
    and_assoc]

/-- The line depends on its link's set and mask, on INIT and on RESETN alone (R174). -/
theorem State.alert_congr {s t : State} {l : Link} (hinit : t.inInit = s.inInit) (hreset : t.resetLow = s.resetLow)
    (hnotices : (t.links.get l).notices = (s.links.get l).notices) (henable : (t.links.get l).enable = (s.links.get l).enable) :
    t.alert l = s.alert l := by
  rw [State.alert, State.alert, hinit, hreset, hnotices, henable]

/-- An empty notice set deasserts the line (R174). -/
theorem State.alert_of_empty {s : State} {l : Link} (h : (s.links.get l).notices = 0) : s.alert l = false := by
  simp [State.alert, h]

theorem pinReset_notices (l : Link) (s : State) : ((pinReset s).links.get l).notices = 0 := by cases l <;> rfl
theorem softReset_notices (l : Link) (s : State) : ((softReset s).links.get l).notices = 0 := by cases l <;> rfl
theorem powerOn_notices (l : Link) (s : State) : ((powerOn s).links.get l).notices = 0 := by cases l <;> rfl

/-- Settles O9: the line's equivalence at the set and the mask that each act leaves. -/
theorem alertFollowsSetAndMask : Obligations.AlertFollowsSetAndMask := by
  intro l s asserted lk
  refine ⟨s.alert_iff l, fun n => ?_, ⟨rfl, ?_⟩, fun mask hmask => ?_, ⟨?_, ?_, ?_⟩, fun lk' hnotices henable => ?_⟩
  · have hset : ((s.links.raise n).get l).notices = lk.notices ||| noticeBit l n := by rw [Links.get_raise]; rfl
    have hmask : ((s.links.raise n).get l).enable = lk.enable := by rw [Links.get_raise]; rfl
    refine ⟨hset, ?_⟩
    rw [State.alert_iff, hset, hmask]
  · rw [takeReadNotices_nil]
    exact State.alert_of_empty (by rw [withLink_links_get])
  · rw [takeSetAlerts_of_within hmask, State.alert_iff, withLink_links_get]
    rfl
  · exact State.alert_of_empty (pinReset_notices l s)
  · exact State.alert_of_empty (softReset_notices l s)
  · exact State.alert_of_empty (powerOn_notices l s)
  · exact State.alert_congr rfl rfl (by rw [withLink_links_get, hnotices]) (by rw [withLink_links_get, henable])

end Sys2Proof.Machine
end

