-- ==== Sys2Proof/Proofs/Steps.lean ====
section
/-! PROOFS. What a step does with the queue: the command at its front is run, and an empty queue idles (log 19). -/

namespace Sys2Proof.Machine

/-- A step runs the command at the front of the queue on the state with the queue's rest. -/
theorem step_of_pending_cons {c : Instr} {rest : List Instr} {s : State} (h : s.pending = c :: rest) :
    step s = exec c { s with pending := rest } := by
  rw [step, h]

/-- On an empty queue the part idles (log 19). -/
theorem step_of_pending_nil {s : State} (h : s.pending = []) : step s = .next s := by
  rw [step, h]

/-- Settles O1: the queue has a front command or is empty. -/
theorem stepRunsFrontCommand : Obligations.StepRunsFrontCommand :=
  ⟨fun _ _ _ => step_of_pending_cons rfl, fun _ h => step_of_pending_nil h⟩

end Sys2Proof.Machine
end
